-- ==== Sys2Proof/Word.lean ====
section
/-! DEFINITION. The plain words of the STPM34 link block (spec/00_scope.md R9): bytes, half-words, 32-bit register
words, 16-bit calibration codes, and the small numbers by which the model names devices, registers and fields. -/

namespace Sys2Proof

/-- A byte of a frame (R9 "A byte is 8 bits"). -/
abbrev Byte := BitVec 8

/-- A 16-bit half-word, the payload of one write transaction (R44). -/
abbrev Half := BitVec 16

/-- A 32-bit register word or field value, the spec's `u32` (R8 `WORD_BITS`). -/
abbrev Word := BitVec 32

/-- A calibration code, the spec's `i16`; its signed value is `BitVec.toInt` (R9, R131). -/
abbrev Code := BitVec 16

/-- The 64 bits of a binary64 operand on the host port. -/
abbrev Bits64 := BitVec 64

/-- A device index (R9 `d`); the host port carries it in one byte (log 3). -/
abbrev DevIx := Byte

/-- A register name of the catalog, as a number (R13 `name`; log 3). -/
abbrev RegName := Byte

/-- A field name, as a number; the same name may stand in several registers (R13 item 2; log 3). -/
abbrev FldName := Byte

end Sys2Proof
end

