-- ==== Sys2Proof/Config.lean ====
section
/-! DEFINITION. The parameters of the block (spec/00_scope.md R8), the shape of a register catalog (spec/10_state.md
R12, R13), and the free values: opaque constants with no body, which nothing can evaluate (log 8). -/

namespace Sys2Proof

/-- A BitField descriptor, bits `start + width - 1` down to `start` of a word (R12). -/
structure BitField where
  start : Nat
  width : Nat
  deriving DecidableEq, Repr, Inhabited

/-- One named field of a register (R13). -/
structure FieldDesc where
  name : FldName
  bits : BitField
  deriving DecidableEq, Repr, Inhabited

/-- The bank of a register (R14). -/
inductive Bank where
  | control
  | data
  deriving DecidableEq, Repr, Inhabited

/-- One register of the catalog (R13). -/
structure RegDesc where
  name    : RegName
  address : Byte
  bank    : Bank
  powerOn : Word
  fields  : List FieldDesc
  deriving DecidableEq, Repr, Inhabited

/-- A field named together with the register that holds it. -/
structure FieldRef where
  reg : RegName
  fld : FldName
  deriving DecidableEq, Repr, Inhabited

/-- A packed RMS data register with its voltage and current fields (R8 `RMS_REG`, `RMS_V_F`, `RMS_I_F`; R18). -/
structure RmsRef where
  reg  : RegName
  vFld : FldName
  iFld : FldName
  deriving DecidableEq, Repr, Inhabited

/-- How the calibration formulas are evaluated (R8 `NUMERICS`, R135 items 2 and 3). -/
inductive Numerics where
  /-- One binary64 rounding per written operator (R135 item 2). -/
  | binary64
  /-- The exact rational of R135 item 1, rounded to binary64 once at the end (R135 item 3). -/
  | exact
  deriving DecidableEq, Repr, Inhabited

/-- What VCONV and ICONV do with a gain of 0 (U3; log 9). -/
inductive ZeroGain where
  /-- The call gives the IEEE quotient, which U3 allows under a parameter. -/
  | quotient
  /-- The call is refused (R135 item 4). -/
  | refuse
  deriving DecidableEq, Repr, Inhabited

/-- The parameters of R8 that an implementation may choose. They are fixed while the machine runs. -/
structure Config where
  /-- `NDEV`. -/
  ndev : Nat
  /-- `CATALOG`, in catalog order. -/
  catalog : List RegDesc
  /-- `READ_DATA_BYTES`: 3, or the other admissible value 4. -/
  readDataBytes : Nat
  /-- `LATCH_REG`, `LATCH_F1`, `LATCH_F2`. -/
  latchReg : RegName
  latchF1 : FldName
  latchF2 : FldName
  /-- `UART_REG`, `CRC_EN_F`. -/
  uartReg : RegName
  crcEnF : FldName
  /-- `CAL_REG[1..4]` with `CAL_F` in each: channel-1 voltage and current, channel-2 voltage and current. -/
  calV1 : FieldRef
  calI1 : FieldRef
  calV2 : FieldRef
  calI2 : FieldRef
  /-- `RMS_REG[1]`, `RMS_REG[2]` with `RMS_V_F`, `RMS_I_F` in each. -/
  rms1 : RmsRef
  rms2 : RmsRef
  /-- `CRC_INTENDED_RESET`. -/
  crcIntendedReset : Bool
  /-- `HAS_CANCEL`. -/
  hasCancel : Bool
  /-- `STRICT_FIELDS` of U1. -/
  strictFields : Bool
  /-- `NUMERICS`. -/
  numerics : Numerics
  /-- The treatment of U3. -/
  zeroGain : ZeroGain
  deriving DecidableEq, Repr

/-- The device side's answer to an `RX` event when the environment's script is used up: a free value, any byte
sequence (R7; log 8). -/
opaque Config.freeReply : Nat → List Byte

/-- The level of the cancel input at a sample when the environment's script is used up: a free value (R171; log 8). -/
opaque Config.freeCancel : Nat → Bool

end Sys2Proof
end

