-- ==== Sys2Proof/Machine/Crc.lean ====
section
/-! DEFINITION. The CRC-8 generator as pure functions (spec/42_crc8.md R100 to R105): polynomial 0x07, initial
remainder 0x00, most significant bit first, no final XOR. The polynomial is a constant (R105). -/

namespace Sys2Proof.Machine

/-- `CRC_POLY` (R8, R105). -/
def crcPoly : Byte := 0x07

/-- `CRC_INIT` (R8). -/
def crcInit : Byte := 0x00

/-- `CRC_XOROUT` (R8; the spec's decision D7). -/
def crcXorOut : Byte := 0x00

/-- One shift of the remainder: left by one, the polynomial XORed in when the bit shifted out is 1 (R101). -/
def crcShift (r : Byte) : Byte := if r.msb then (r <<< 1) ^^^ crcPoly else r <<< 1

/-- `n` shifts. -/
def crcShifts : Nat → Byte → Byte
  | 0, r => r
  | n + 1, r => crcShifts n (crcShift r)

/-- CRC8.BYTE as a function (R101). -/
def crc8Byte (rem byte : Byte) : Byte := crcShifts 8 (rem ^^^ byte)

/-- CRC8.SEQ as a function (R102), first byte first. -/
def crc8Seq (bytes : List Byte) : Byte := bytes.foldl crc8Byte crcInit ^^^ crcXorOut

/-- CRC8.CHECK as a function (R103): the fifth byte is the CRC of the four before it. -/
def crc8Check (b0 b1 b2 b3 b4 : Byte) : Bool := crc8Seq [b0, b1, b2, b3] == b4

/-- One bit of the "top bit pair" form (R104): the remainder and the data byte after one shift. -/
def crcPairStep (cd : Byte × Byte) : Byte × Byte :=
  (if (cd.2 ^^^ cd.1).msb then (cd.1 <<< 1) ^^^ crcPoly else cd.1 <<< 1, cd.2 <<< 1)

/-- `n` bits of the "top bit pair" form. -/
def crcPairSteps : Nat → Byte × Byte → Byte × Byte
  | 0, cd => cd
  | n + 1, cd => crcPairSteps n (crcPairStep cd)

/-- The CRC of a byte sequence in the "top bit pair" form (R104). -/
def crc8Pair (bytes : List Byte) : Byte := bytes.foldl (fun c d => (crcPairSteps 8 (c, d)).1) crcInit

end Sys2Proof.Machine
end

