-- ==== Sys2Proof/Machine/Bits.lean ====
section
/-! DEFINITION. Bit fields of a 32-bit word, and the byte order of words (spec/40_bitfield.md R80 to R82,
spec/20_memory.md R40). Pure functions, used by reset, the shadow registers and the frames alike; and the checks on
a command frame. -/

namespace Sys2Proof.Machine

/-- The invariant of a descriptor (R12): at least one bit, and inside the word. -/
def fieldOk (f : BitField) : Bool := decide (1 ≤ f.width) && decide (f.start + f.width ≤ 32)

/-- `fmask(F) = 2^width - 1`, computed on unbounded integers (R80). -/
def fmask (f : BitField) : Word := BitVec.ofNat 32 (2 ^ f.width - 1)

/-- `span(F) = fmask(F) << start_bit` (R80). -/
def span (f : BitField) : Word := fmask f <<< f.start

/-- BF.DECODE as a function (R81). -/
def bfDecode (f : BitField) (w : Word) : Word := (w >>> f.start) &&& fmask f

/-- BF.ENCODE as a function (R82). -/
def bfEncode (f : BitField) (v w : Word) : Word := (w &&& ~~~ span f) ||| ((v &&& fmask f) <<< f.start)

/-- Byte `k` of a word, byte 0 being `w[7:0]` (R40). -/
def wordByte (w : Word) (k : Nat) : Byte := BitVec.extractLsb' (8 * k) 8 w

/-- The 4-byte little-endian image of a word (R40 (a), R94). -/
def leBytes (w : Word) : List Byte := [wordByte w 0, wordByte w 1, wordByte w 2, wordByte w 3]

/-- The word whose bytes are given, least significant first (R40 (c)). -/
def ofLeBytes (b0 b1 b2 b3 : Byte) : Word := b3 ++ b2 ++ b1 ++ b0

/-- The word decoded from the bytes of a reply (R66, R114): the low 3 bytes with the high byte 0, or all 4. -/
def rword (dataBytes : Nat) (reply : List Byte) : Word :=
  ofLeBytes (reply.getD 0 0) (reply.getD 1 0) (reply.getD 2 0) (if dataBytes = 4 then reply.getD 3 0 else 0)

/-! ### Command frames -/

/-- An address a read frame may carry: at most `0xFD` (R13 item 4, R72). -/
def readAddressOk (a : Byte) : Bool := decide (a.toNat ≤ 0xFD)

/-- The two address bytes of a write frame: equal, and at most `0xFE`, so not the sentinel (R63, R72). -/
def writeAddressOk (r w : Byte) : Bool := r == w && decide (w.toNat ≤ 0xFE)

/-- The four bytes of `RDF` when `write_address` is the sentinel, else of `WRF` (R62, R63, R69 (a), R72). -/
def bodyOk (r w l m : Byte) : Bool :=
  if w = 0xFF then readAddressOk r && l == 0xFF && m == 0xFF else writeAddressOk r w

/-- The command frames there are: `RDF` and `WRF`, each alone or with the CRC of its four bytes (R62 to R64, R69 (b)). -/
def commandOk : List Byte → Bool
  | [r, w, l, m] => bodyOk r w l m
  | [r, w, l, m, c] => bodyOk r w l m && c == crc8Seq [r, w, l, m]
  | _ => false

end Sys2Proof.Machine
end

