-- ==== Sys2Proof/Syntax.lean ====
section
/-! DEFINITION. The operations of the block, one constructor for each row of spec/opcode_table.json: the 23 host
operations of spec/30_encoding.md R70 and the 6 wire frames of R72; and the four places an operation's bytes can come
from. Operands are typed values, as R70 says. -/

namespace Sys2Proof

/-- The operations (R70) and the wire frames (R72). A frame carries, beside its bytes, the device whose select line
frames it, and a reply also the register it answers for: neither is in the frame itself (R111, R113; log 4). -/
inductive Instr where
  /-- BF.DECODE (R81). -/
  | bfDecode (f : BitField) (word : Word)
  /-- BF.ENCODE (R82). -/
  | bfEncode (f : BitField) (value : Word) (wordIn : Word)
  /-- REG.DECODE (R91). -/
  | regDecode (d : DevIx) (r : RegName) (word : Word)
  /-- REG.ENCODE (R92). -/
  | regEncode (d : DevIx) (r : RegName)
  /-- REG.WIRE (R94). -/
  | regWire (d : DevIx) (r : RegName)
  /-- REG.SETF (R95). -/
  | regSetf (d : DevIx) (r : RegName) (f : FldName) (value : Word)
  /-- REG.GETF (R96). -/
  | regGetf (d : DevIx) (r : RegName) (f : FldName)
  /-- CRC8.BYTE (R101). -/
  | crc8Byte (rem : Byte) (byte : Byte)
  /-- CRC8.SEQ (R102). -/
  | crc8Seq (bytes : List Byte)
  /-- CRC8.CHECK (R103). -/
  | crc8Check (b0 b1 b2 b3 b4 : Byte)
  /-- XFER (R111), internal: the device, the command frame, the number of reply bytes to ask for. -/
  | xfer (d : DevIx) (cmd : List Byte) (n : Nat)
  /-- RDREG (R113). -/
  | rdreg (d : DevIx) (r : RegName)
  /-- WRREG (R116). -/
  | wrreg (d : DevIx) (r : RegName)
  /-- LATCH (R119). -/
  | latch (d : DevIx) (channel1 channel2 : Bool) (timeout : Word) (interval : Word)
  /-- CRCINTEND (R124). -/
  | crcintend (d : DevIx) (enabled : Bool)
  /-- GAIN (R132). -/
  | gain (code : Code)
  /-- VCONV (R133). -/
  | vconv (raw : Word) (code : Code)
  /-- ICONV (R134). -/
  | iconv (raw : Word) (code : Code)
  /-- CALDRV (R136): nominal voltage and current, averaged voltage and current codes, the two prior codes. -/
  | caldrv (nomV nomI avgV avgI : Bits64) (priorV priorI : Code)
  /-- CALSET (R140). -/
  | calset (d : DevIx) (v1 i1 v2 i2 : Code)
  /-- RDBOTH (R151). -/
  | rdboth (d : DevIx) (timeout : Word) (interval : Word)
  /-- CFGAPPLY (R152). -/
  | cfgapply (d : DevIx)
  /-- CFGREAD (R153). -/
  | cfgread (d : DevIx)
  /-- CMD.RD4: read command frame, CRC framing off (R62). -/
  | cmdRd4 (d : DevIx) (a : Byte)
  /-- CMD.RD5: read command frame, CRC framing on (R62). -/
  | cmdRd5 (d : DevIx) (a c : Byte)
  /-- CMD.WR4: write command frame, CRC framing off (R63). -/
  | cmdWr4 (d : DevIx) (r w l m : Byte)
  /-- CMD.WR5: write command frame, CRC framing on (R63). -/
  | cmdWr5 (d : DevIx) (r w l m c : Byte)
  /-- RPL4: reply frame, CRC framing off (R65). -/
  | rpl4 (d : DevIx) (reg : RegName) (b0 b1 b2 b3 : Byte)
  /-- RPL5: reply frame, CRC framing on (R65). -/
  | rpl5 (d : DevIx) (reg : RegName) (b0 b1 b2 b3 rcrc : Byte)
  deriving DecidableEq, Repr

/-- Where the bytes of an operation are: on the host operation port (R6), or inside the block, as the XFER another
operation issues and the host never does (R70, R111), or on the link as a command frame framed by the select line of a
device, or on the link as the reply for a register of a device (R111; log 4). -/
inductive Port where
  | host
  | internal
  | command (d : DevIx)
  | reply (d : DevIx) (r : RegName)
  deriving DecidableEq, Repr

/-- One operation as bytes: a selector and operands on the host port or inside the block, a frame on the link. -/
structure Request where
  port  : Port
  bytes : List Byte
  deriving DecidableEq, Repr

end Sys2Proof
end

