-- ==== Sys2Proof/WellFormed.lean ====
section
/-! DEFINITION. The checks on an operation's own operands, before any state is looked at: a descriptor's invariant
(spec/10_state.md R12), and the constraints the frame rows of spec/30_encoding.md R72 put on a command frame, XFER's
among them. A reply frame has none (R69 (d)). -/

namespace Sys2Proof

/-- The checks, per operation. -/
def Instr.wf : Instr → Bool
  | .bfDecode f _ => Machine.fieldOk f
  | .bfEncode f _ _ => Machine.fieldOk f
  | .regDecode _ _ _ => true
  | .regEncode _ _ => true
  | .regWire _ _ => true
  | .regSetf _ _ _ _ => true
  | .regGetf _ _ _ => true
  | .crc8Byte _ _ => true
  | .crc8Seq _ => true
  | .crc8Check _ _ _ _ _ => true
  | .xfer _ cmd n => Machine.commandOk cmd && n == cmd.length
  | .rdreg _ _ => true
  | .wrreg _ _ => true
  | .latch _ _ _ _ _ => true
  | .crcintend _ _ => true
  | .gain _ => true
  | .vconv _ _ => true
  | .iconv _ _ => true
  | .caldrv _ _ _ _ _ _ => true
  | .calset _ _ _ _ _ => true
  | .rdboth _ _ _ => true
  | .cfgapply _ => true
  | .cfgread _ => true
  | .cmdRd4 _ a => Machine.commandOk [a, 0xFF, 0xFF, 0xFF]
  | .cmdRd5 _ a c => Machine.commandOk [a, 0xFF, 0xFF, 0xFF, c]
  | .cmdWr4 _ r w l m => Machine.commandOk [r, w, l, m] && w != 0xFF
  | .cmdWr5 _ r w l m c => Machine.commandOk [r, w, l, m, c] && w != 0xFF
  | .rpl4 _ _ _ _ _ _ => true
  | .rpl5 _ _ _ _ _ _ _ => true

end Sys2Proof
end

