-- ==== Sys2Proof/Decode.lean ====
section
/-! DEFINITION. Decoding and encoding. Wire frames follow spec/30_encoding.md R61 to R65 and R72, byte for byte. A host
operation is its selector of R70 followed by its operands in the order R70 lists them; the operands' bytes are the
model's own, least significant byte first, since R70 gives operands no binary form (log 3). XFER, which R70 calls internal,
is decoded inside the block and never on the host port; R70 lists its device and frame, and the number of reply bytes that
R111 adds is the frame's length (R60; log 3). -/

namespace Sys2Proof

/-- Why bytes are no operation. -/
inductive DecodeError where
  /-- The first byte is no selector of R70 (R69 (f)). -/
  | unknownSelector (sel : Byte)
  /-- XFER's selector on the host port: the host never issues XFER (R70, R111). -/
  | internalOnly
  /-- Another selector inside the block: XFER alone is internal (R70). -/
  | notInternal
  /-- The operands end too soon. -/
  | truncated
  /-- A Boolean operand is neither 0 nor 1. -/
  | badBool (b : Byte)
  /-- Bytes are left over after the last operand. -/
  | trailing
  /-- A frame is not 4 or 5 bytes long (R60). -/
  | badFrameLength
  /-- A frame with the sentinel in `write_address` whose data bytes are not the sentinel (R62, R69 (a)). -/
  | badReadFrame
  deriving DecidableEq, Repr

/-- A reader of operands: what it read, and the bytes left. -/
abbrev Reader (α : Type) := List Byte → Except DecodeError (α × List Byte)

/-- One byte. -/
def readByte : Reader Byte
  | [] => .error .truncated
  | b :: bs => .ok (b, bs)

/-- A 16-bit operand, least significant byte first. -/
def readHalf : Reader Half
  | b0 :: b1 :: bs => .ok (b1 ++ b0, bs)
  | _ => .error .truncated

/-- A 32-bit operand, least significant byte first. -/
def readWord : Reader Word
  | b0 :: b1 :: b2 :: b3 :: bs => .ok (Machine.ofLeBytes b0 b1 b2 b3, bs)
  | _ => .error .truncated

/-- A 64-bit operand, least significant byte first. -/
def readBits64 : Reader Bits64
  | b0 :: b1 :: b2 :: b3 :: b4 :: b5 :: b6 :: b7 :: bs => .ok (b7 ++ b6 ++ b5 ++ b4 ++ b3 ++ b2 ++ b1 ++ b0, bs)
  | _ => .error .truncated

/-- A Boolean operand: one byte, 0 or 1. -/
def readBool : Reader Bool
  | [] => .error .truncated
  | b :: bs => if b = 0 then .ok (false, bs) else if b = 1 then .ok (true, bs) else .error (.badBool b)

/-- A sequence of `n` bytes. -/
def readBytes (n : Nat) : Reader (List Byte) := fun bs =>
  if bs.length < n then .error .truncated else .ok (bs.take n, bs.drop n)

/-- A descriptor: the start bit, then the width less one (log 3). -/
def readField : Reader BitField
  | s :: w :: bs => .ok (⟨s.toNat, w.toNat + 1⟩, bs)
  | _ => .error .truncated

/-- A byte sequence of any length (R102): all the bytes that are left. -/
def readSeq : Reader (List Byte) := fun bs => .ok (bs, [])

/-- A command frame operand: 0 and 4 bytes, or 1 and 5 bytes. -/
def readFrame : Reader (List Byte) := fun bs => do
  let (long, bs) ← readBool bs
  readBytes (if long then 5 else 4) bs

/-- The operands of the operation with selector `sel` (R70). -/
def decodeOperands (sel : Byte) : Reader Instr := fun bs =>
  match sel.toNat with
  | 0x10 => do
    let (f, bs) ← readField bs
    let (w, bs) ← readWord bs
    return (.bfDecode f w, bs)
  | 0x11 => do
    let (f, bs) ← readField bs
    let (v, bs) ← readWord bs
    let (w, bs) ← readWord bs
    return (.bfEncode f v w, bs)
  | 0x20 => do
    let (d, bs) ← readByte bs
    let (r, bs) ← readByte bs
    let (w, bs) ← readWord bs
    return (.regDecode d r w, bs)
  | 0x21 => do
    let (d, bs) ← readByte bs
    let (r, bs) ← readByte bs
    return (.regEncode d r, bs)
  | 0x22 => do
    let (d, bs) ← readByte bs
    let (r, bs) ← readByte bs
    return (.regWire d r, bs)
  | 0x23 => do
    let (d, bs) ← readByte bs
    let (r, bs) ← readByte bs
    let (f, bs) ← readByte bs
    let (v, bs) ← readWord bs
    return (.regSetf d r f v, bs)
  | 0x24 => do
    let (d, bs) ← readByte bs
    let (r, bs) ← readByte bs
    let (f, bs) ← readByte bs
    return (.regGetf d r f, bs)
  | 0x30 => do
    let (rem, bs) ← readByte bs
    let (b, bs) ← readByte bs
    return (.crc8Byte rem b, bs)
  | 0x31 => do
    let (l, bs) ← readSeq bs
    return (.crc8Seq l, bs)
  | 0x32 => do
    let (b0, bs) ← readByte bs
    let (b1, bs) ← readByte bs
    let (b2, bs) ← readByte bs
    let (b3, bs) ← readByte bs
    let (b4, bs) ← readByte bs
    return (.crc8Check b0 b1 b2 b3 b4, bs)
  | 0x40 => do
    let (d, bs) ← readByte bs
    let (cmd, bs) ← readFrame bs
    return (.xfer d cmd cmd.length, bs)
  | 0x41 => do
    let (d, bs) ← readByte bs
    let (r, bs) ← readByte bs
    return (.rdreg d r, bs)
  | 0x42 => do
    let (d, bs) ← readByte bs
    let (r, bs) ← readByte bs
    return (.wrreg d r, bs)
  | 0x43 => do
    let (d, bs) ← readByte bs
    let (c1, bs) ← readBool bs
    let (c2, bs) ← readBool bs
    let (n, bs) ← readWord bs
    let (iv, bs) ← readWord bs
    return (.latch d c1 c2 n iv, bs)
  | 0x44 => do
    let (d, bs) ← readByte bs
    let (b, bs) ← readBool bs
    return (.crcintend d b, bs)
  | 0x50 => do
    let (c, bs) ← readHalf bs
    return (.gain c, bs)
  | 0x51 => do
    let (raw, bs) ← readWord bs
    let (c, bs) ← readHalf bs
    return (.vconv raw c, bs)
  | 0x52 => do
    let (raw, bs) ← readWord bs
    let (c, bs) ← readHalf bs
    return (.iconv raw c, bs)
  | 0x53 => do
    let (nv, bs) ← readBits64 bs
    let (ni, bs) ← readBits64 bs
    let (av, bs) ← readBits64 bs
    let (ai, bs) ← readBits64 bs
    let (pv, bs) ← readHalf bs
    let (pi, bs) ← readHalf bs
    return (.caldrv nv ni av ai pv pi, bs)
  | 0x54 => do
    let (d, bs) ← readByte bs
    let (v1, bs) ← readHalf bs
    let (i1, bs) ← readHalf bs
    let (v2, bs) ← readHalf bs
    let (i2, bs) ← readHalf bs
    return (.calset d v1 i1 v2 i2, bs)
  | 0x60 => do
    let (d, bs) ← readByte bs
    let (n, bs) ← readWord bs
    let (iv, bs) ← readWord bs
    return (.rdboth d n iv, bs)
  | 0x61 => do
    let (d, bs) ← readByte bs
    return (.cfgapply d, bs)
  | 0x62 => do
    let (d, bs) ← readByte bs
    return (.cfgread d, bs)
  | _ => .error (.unknownSelector sel)

/-- XFER's selector (R70, R111). -/
def selXfer : Byte := 0x40

/-- One operation from the front of a byte sequence, with the bytes left. -/
def decodeHost : Reader Instr
  | [] => .error .truncated
  | sel :: bs => decodeOperands sel bs

/-- A command frame (R61 to R63): the sentinel in byte 1 tells a read from a write (R72). -/
def decodeCommand (d : DevIx) : List Byte → Except DecodeError Instr
  | [r, w, l, m] =>
    if w = 0xFF then (if l = 0xFF ∧ m = 0xFF then .ok (.cmdRd4 d r) else .error .badReadFrame)
    else .ok (.cmdWr4 d r w l m)
  | [r, w, l, m, c] =>
    if w = 0xFF then (if l = 0xFF ∧ m = 0xFF then .ok (.cmdRd5 d r c) else .error .badReadFrame)
    else .ok (.cmdWr5 d r w l m c)
  | _ => .error .badFrameLength

/-- A reply frame (R65). -/
def decodeReply (d : DevIx) (reg : RegName) : List Byte → Except DecodeError Instr
  | [b0, b1, b2, b3] => .ok (.rpl4 d reg b0 b1 b2 b3)
  | [b0, b1, b2, b3, k] => .ok (.rpl5 d reg b0 b1 b2 b3 k)
  | _ => .error .badFrameLength

/-- One operation that is the whole of a byte sequence. -/
def decodeWhole (bytes : List Byte) : Except DecodeError Instr :=
  match decodeHost bytes with
  | .ok (i, []) => .ok i
  | .ok (_, _ :: _) => .error .trailing
  | .error e => .error e

/-- Decoding of a whole request: total, rejecting by name. -/
def decode (q : Request) : Except DecodeError Instr :=
  match q.port with
  | .host => if q.bytes.head? = some selXfer then .error .internalOnly else decodeWhole q.bytes
  | .internal => if q.bytes.head? = some selXfer then decodeWhole q.bytes else .error .notInternal
  | .command d => decodeCommand d q.bytes
  | .reply d r => decodeReply d r q.bytes

/-! ### The encoder -/

/-- The bytes of a 16-bit operand. -/
def halfBytes (h : Half) : List Byte := [BitVec.extractLsb' 0 8 h, BitVec.extractLsb' 8 8 h]

/-- The bytes of a 64-bit operand. -/
def bits64Bytes (x : Bits64) : List Byte :=
  [BitVec.extractLsb' 0 8 x, BitVec.extractLsb' 8 8 x, BitVec.extractLsb' 16 8 x, BitVec.extractLsb' 24 8 x,
   BitVec.extractLsb' 32 8 x, BitVec.extractLsb' 40 8 x, BitVec.extractLsb' 48 8 x, BitVec.extractLsb' 56 8 x]

/-- The byte of a Boolean operand. -/
def boolByte (b : Bool) : Byte := if b then 1 else 0

/-- The bytes of a descriptor operand. -/
def fieldBytes (f : BitField) : List Byte := [BitVec.ofNat 8 f.start, BitVec.ofNat 8 (f.width - 1)]

/-- The bytes of a command frame operand. -/
def frameBytes (l : List Byte) : List Byte := boolByte (l.length == 5) :: l

/-- The bytes of a host operation: its selector of R70, then its operands. -/
def hostRequest (sel : Byte) (operands : List Byte) : Request := ⟨.host, sel :: operands⟩

/-- The request that stands for an operation. -/
def encode : Instr → Request
  | .bfDecode f w => hostRequest 0x10 (fieldBytes f ++ Machine.leBytes w)
  | .bfEncode f v w => hostRequest 0x11 (fieldBytes f ++ Machine.leBytes v ++ Machine.leBytes w)
  | .regDecode d r w => hostRequest 0x20 (d :: r :: Machine.leBytes w)
  | .regEncode d r => hostRequest 0x21 [d, r]
  | .regWire d r => hostRequest 0x22 [d, r]
  | .regSetf d r f v => hostRequest 0x23 (d :: r :: f :: Machine.leBytes v)
  | .regGetf d r f => hostRequest 0x24 [d, r, f]
  | .crc8Byte rem b => hostRequest 0x30 [rem, b]
  | .crc8Seq l => hostRequest 0x31 l
  | .crc8Check b0 b1 b2 b3 b4 => hostRequest 0x32 [b0, b1, b2, b3, b4]
  | .xfer d cmd _ => ⟨.internal, selXfer :: d :: frameBytes cmd⟩
  | .rdreg d r => hostRequest 0x41 [d, r]
  | .wrreg d r => hostRequest 0x42 [d, r]
  | .latch d c1 c2 n iv =>
    hostRequest 0x43 (d :: boolByte c1 :: boolByte c2 :: Machine.leBytes n ++ Machine.leBytes iv)
  | .crcintend d b => hostRequest 0x44 [d, boolByte b]
  | .gain c => hostRequest 0x50 (halfBytes c)
  | .vconv raw c => hostRequest 0x51 (Machine.leBytes raw ++ halfBytes c)
  | .iconv raw c => hostRequest 0x52 (Machine.leBytes raw ++ halfBytes c)
  | .caldrv nv ni av ai pv pi =>
    hostRequest 0x53 (bits64Bytes nv ++ bits64Bytes ni ++ bits64Bytes av ++ bits64Bytes ai ++ halfBytes pv ++ halfBytes pi)
  | .calset d v1 i1 v2 i2 => hostRequest 0x54 (d :: halfBytes v1 ++ halfBytes i1 ++ halfBytes v2 ++ halfBytes i2)
  | .rdboth d n iv => hostRequest 0x60 (d :: Machine.leBytes n ++ Machine.leBytes iv)
  | .cfgapply d => hostRequest 0x61 [d]
  | .cfgread d => hostRequest 0x62 [d]
  | .cmdRd4 d a => ⟨.command d, [a, 0xFF, 0xFF, 0xFF]⟩
  | .cmdRd5 d a c => ⟨.command d, [a, 0xFF, 0xFF, 0xFF, c]⟩
  | .cmdWr4 d r w l m => ⟨.command d, [r, w, l, m]⟩
  | .cmdWr5 d r w l m c => ⟨.command d, [r, w, l, m, c]⟩
  | .rpl4 d reg b0 b1 b2 b3 => ⟨.reply d reg, [b0, b1, b2, b3]⟩
  | .rpl5 d reg b0 b1 b2 b3 k => ⟨.reply d reg, [b0, b1, b2, b3, k]⟩

/-! ### The rows of the opcode table -/

/-- The bytes of a wire frame whose bits are numbered as one number, the first byte sent being the most significant
(R72). -/
def tableFrame : Nat → Nat → List Byte
  | 0, _ => []
  | n + 1, w => BitVec.ofNat 8 (w >>> (8 * n)) :: tableFrame n w

/-- The longest host operation with operands of zeros has 37 bytes after its selector (CALDRV). -/
def zeroOperands : List Byte := List.replicate 40 0

/-- The host operation at the front of the bytes, cut out of them. -/
def cutHost (bytes : List Byte) : List Byte :=
  match decodeHost bytes with
  | .ok (_, rest) => bytes.take (bytes.length - rest.length)
  | .error _ => bytes.take 1

/-- Whether the bytes have the shape of a command frame: a read frame, or a write frame with equal address bytes
(R62, R63). Any other frame can only be a reply. -/
def looksCommand (bytes : List Byte) : Bool :=
  bytes.getD 1 0 == 0xFF && bytes.getD 2 0 == 0xFF && bytes.getD 3 0 == 0xFF
    || (bytes.getD 1 0 != 0xFF && bytes.getD 0 0 == bytes.getD 1 0)

/-- The request whose bits are `w`: 8 bits are a selector with operands of zeros, 32 and 40 bits a frame, for device 0
and register 0 where the frame itself names neither (log 4). -/
def tableRequest (nbits w : Nat) : Request :=
  if nbits ≤ 8 then
    let sel := BitVec.ofNat 8 w
    ⟨if sel = selXfer then .internal else .host, cutHost (sel :: zeroOperands)⟩
  else
    let bytes := tableFrame (nbits / 8) w
    if looksCommand bytes then ⟨.command 0, bytes⟩ else ⟨.reply 0 0, bytes⟩

/-- The instruction the decoder reads from an instruction whose bits are `w`. -/
def decodeTableWord (nbits w : Nat) : Option Instr :=
  match decode (tableRequest nbits w) with
  | .ok i => some i
  | .error _ => none

end Sys2Proof
end

