-- ==== Sys2Proof/Machine/Catalog.lean ====
section
/-! DEFINITION. The register catalog: lookups, the admission check (spec/10_state.md R13), the shadow's reset values
(R11) and the default catalog (R27 to R29). Every address, bit position and default word of the default catalog is
general knowledge of the STPM3x family, not the source's (spec/93_implementation_defined.md G1; log 2, PRESUMED). The
meanings take the catalog from the configuration and rest on no literal of this file. -/

namespace Sys2Proof

/-- The register descriptor of that name (R13 item 2: names are unique). -/
def Config.reg? (c : Config) (r : RegName) : Option RegDesc := c.catalog.find? (fun x => x.name == r)

/-- The position of a register in the catalog; the catalog's length where the name is not in it. -/
def Config.regIx (c : Config) (r : RegName) : Nat := c.catalog.findIdx (fun x => x.name == r)

/-- Whether the name is in the catalog (R166). -/
def Config.hasReg (c : Config) (r : RegName) : Bool := (c.reg? r).isSome

/-- `fields(r)`, in field order (R90). -/
def Config.fieldsOf (c : Config) (r : RegName) : List FieldDesc := ((c.reg? r).map RegDesc.fields).getD []

/-- `addr(r)` (R110). -/
def Config.addr (c : Config) (r : RegName) : Byte := ((c.reg? r).map RegDesc.address).getD 0

/-- The default word of a register (R13). -/
def Config.powerOn (c : Config) (r : RegName) : Word := ((c.reg? r).map RegDesc.powerOn).getD 0

/-- The descriptor of a field of a register, where that register has a field of that name (R95). -/
def Config.field? (c : Config) (r : RegName) (f : FldName) : Option FieldDesc :=
  (c.fieldsOf r).find? (fun x => x.name == f)

/-- The position of a field in its register; the number of fields where the name is not among them. -/
def Config.fldIx (c : Config) (r : RegName) (f : FldName) : Nat := (c.fieldsOf r).findIdx (fun x => x.name == f)

/-- Whether the register is in the catalog with bank Control (R47). -/
def Config.isControl (c : Config) (r : RegName) : Bool := (c.reg? r).any (fun x => x.bank == .control)

/-- `ctrl`: the control registers in catalog order (R152). -/
def Config.ctrl (c : Config) : List RegName := (c.catalog.filter (fun x => x.bank == .control)).map RegDesc.name

/-- `covered(r)`: the bits of the word that some field covers (R16, R90). -/
def coveredBy (fs : List FieldDesc) : Word := fs.foldl (fun acc f => acc ||| Machine.span f.bits) 0

/-- The covered bits of a register (R90). -/
def Config.covered (c : Config) (r : RegName) : Word := coveredBy (c.fieldsOf r)

/-- The cells of one register as decoded from a word: `BF.DECODE` for each field, in field order (R91). -/
def decodeCells (fs : List FieldDesc) (w : Word) : List Word := fs.map (fun f => Machine.bfDecode f.bits w)

/-- The cells of a whole shadow file after reset: the decode of each register's default word (R11). -/
def Config.resetCells (c : Config) : List (List Word) := c.catalog.map (fun r => decodeCells r.fields r.powerOn)

/-- No name stands twice. -/
def allDistinct : List Byte → Bool
  | [] => true
  | x :: xs => !xs.contains x && allDistinct xs

/-- No two of the fields overlap (R13 item 3). -/
def noOverlap : List FieldDesc → Bool
  | [] => true
  | f :: fs => fs.all (fun g => Machine.span f.bits &&& Machine.span g.bits == 0) && noOverlap fs

/-- What R13 items 1 to 3 ask of one register, and the bound of item 4. -/
def RegDesc.ok (r : RegDesc) : Bool :=
  r.fields.all (fun f => Machine.fieldOk f.bits) && allDistinct (r.fields.map FieldDesc.name) && noOverlap r.fields
    && decide (r.address.toNat ≤ 0xFD)

/-- The named field stands in a register of that bank, with that width (R13 item 6). -/
def Config.hasField (c : Config) (b : Bank) (r : RegName) (f : FldName) (w : Nat) : Bool :=
  (c.reg? r).any (fun x => x.bank == b) && (c.field? r f).any (fun x => x.bits.width == w)

/-- The registers and fields the parameters name exist, in the right bank and with the right width (R13 item 6). -/
def Config.paramsOk (c : Config) : Bool :=
  c.hasField .control c.latchReg c.latchF1 1 && c.hasField .control c.latchReg c.latchF2 1
    && c.hasField .control c.uartReg c.crcEnF 1
    && c.hasField .control c.calV1.reg c.calV1.fld 12 && c.hasField .control c.calI1.reg c.calI1.fld 12
    && c.hasField .control c.calV2.reg c.calV2.fld 12 && c.hasField .control c.calI2.reg c.calI2.fld 12
    && c.hasField .data c.rms1.reg c.rms1.vFld 15 && c.hasField .data c.rms1.reg c.rms1.iFld 17
    && c.hasField .data c.rms2.reg c.rms2.vFld 15 && c.hasField .data c.rms2.reg c.rms2.iFld 17

/-- The catalog and the parameters are admitted (R13; `READ_DATA_BYTES` is 3 or 4 and `NDEV` at least 1, R8). -/
def Config.admitted (c : Config) : Bool :=
  c.catalog.all RegDesc.ok && allDistinct (c.catalog.map RegDesc.name) && allDistinct (c.catalog.map RegDesc.address)
    && c.catalog.all (fun r => c.catalog.all (fun s => r.address + 1 != s.address))
    && c.paramsOk && (c.readDataBytes == 3 || c.readDataBytes == 4) && decide (1 ≤ c.ndev)

/-! ### The numbers that stand for the default catalog's register names (log 3) -/

abbrev Reg.DSP_CR1 : RegName := 0
abbrev Reg.DSP_CR2 : RegName := 1
abbrev Reg.DSP_CR3 : RegName := 2
abbrev Reg.DSP_CR4 : RegName := 3
abbrev Reg.DSP_CR5 : RegName := 4
abbrev Reg.DSP_CR6 : RegName := 5
abbrev Reg.DSP_CR7 : RegName := 6
abbrev Reg.DSP_CR8 : RegName := 7
abbrev Reg.DSP_CR9 : RegName := 8
abbrev Reg.DSP_CR10 : RegName := 9
abbrev Reg.DSP_CR11 : RegName := 10
abbrev Reg.DSP_CR12 : RegName := 11
abbrev Reg.DFE_CR1 : RegName := 12
abbrev Reg.DFE_CR2 : RegName := 13
abbrev Reg.DSP_IRQ1 : RegName := 14
abbrev Reg.DSP_IRQ2 : RegName := 15
abbrev Reg.US_REG1 : RegName := 16
abbrev Reg.DSP_SR1 : RegName := 17
abbrev Reg.DSP_SR2 : RegName := 18
abbrev Reg.DSP_REG14 : RegName := 19
abbrev Reg.DSP_REG15 : RegName := 20

/-! ### The numbers that stand for the default catalog's field names (log 3) -/

abbrev Fld.CLRSS_TO1 : FldName := 0
abbrev Fld.ClearSS1 : FldName := 1
abbrev Fld.ENVREF1 : FldName := 2
abbrev Fld.TC1 : FldName := 3
abbrev Fld.AEM1 : FldName := 4
abbrev Fld.APM1 : FldName := 5
abbrev Fld.BHPFV1 : FldName := 6
abbrev Fld.BHPFC1 : FldName := 7
abbrev Fld.ROC1 : FldName := 8
abbrev Fld.BLPFV1 : FldName := 9
abbrev Fld.BLPFC1 : FldName := 10
abbrev Fld.LPW1 : FldName := 11
abbrev Fld.LPS1 : FldName := 12
abbrev Fld.LCS1 : FldName := 13
abbrev Fld.CLRSS_TO2 : FldName := 14
abbrev Fld.ClearSS2 : FldName := 15
abbrev Fld.ENVREF2 : FldName := 16
abbrev Fld.TC2 : FldName := 17
abbrev Fld.AEM2 : FldName := 18
abbrev Fld.APM2 : FldName := 19
abbrev Fld.BHPFV2 : FldName := 20
abbrev Fld.BHPFC2 : FldName := 21
abbrev Fld.ROC2 : FldName := 22
abbrev Fld.BLPFV2 : FldName := 23
abbrev Fld.BLPFC2 : FldName := 24
abbrev Fld.LPW2 : FldName := 25
abbrev Fld.LPS2 : FldName := 26
abbrev Fld.LCS2 : FldName := 27
abbrev Fld.SAG_TIME_THR : FldName := 28
abbrev Fld.ZCR_SEL : FldName := 29
abbrev Fld.ZCR_EN : FldName := 30
abbrev Fld.TMP_TOL : FldName := 31
abbrev Fld.TMP_EN : FldName := 32
abbrev Fld.SW_Reset : FldName := 33
abbrev Fld.SW_Latch1 : FldName := 34
abbrev Fld.SW_Latch2 : FldName := 35
abbrev Fld.SWAuto_Latch : FldName := 36
abbrev Fld.LED_OFF1 : FldName := 37
abbrev Fld.LED_OFF2 : FldName := 38
abbrev Fld.EN_CUM : FldName := 39
abbrev Fld.REF_FREQ : FldName := 40
abbrev Fld.PHC2 : FldName := 41
abbrev Fld.PHV2 : FldName := 42
abbrev Fld.PHC1 : FldName := 43
abbrev Fld.PHV1 : FldName := 44
abbrev Fld.CHV1 : FldName := 45
abbrev Fld.SWV_THR1 : FldName := 46
abbrev Fld.SAG_THR1 : FldName := 47
abbrev Fld.CHC1 : FldName := 48
abbrev Fld.SWC_THR1 : FldName := 49
abbrev Fld.CHV2 : FldName := 50
abbrev Fld.SWV_THR2 : FldName := 51
abbrev Fld.SAG_THR2 : FldName := 52
abbrev Fld.CHC2 : FldName := 53
abbrev Fld.SWC_THR2 : FldName := 54
abbrev Fld.AH_UP1 : FldName := 55
abbrev Fld.OFA1 : FldName := 56
abbrev Fld.OFAF1 : FldName := 57
abbrev Fld.AH_DOWN1 : FldName := 58
abbrev Fld.OFR1 : FldName := 59
abbrev Fld.OFS1 : FldName := 60
abbrev Fld.AH_UP2 : FldName := 61
abbrev Fld.OFA2 : FldName := 62
abbrev Fld.OFAF2 : FldName := 63
abbrev Fld.AH_DOWN2 : FldName := 64
abbrev Fld.OFR2 : FldName := 65
abbrev Fld.OFS2 : FldName := 66
abbrev Fld.enV1 : FldName := 67
abbrev Fld.enC1 : FldName := 68
abbrev Fld.GAIN1 : FldName := 69
abbrev Fld.enV2 : FldName := 70
abbrev Fld.enC2 : FldName := 71
abbrev Fld.GAIN2 : FldName := 72
abbrev Fld.B0 : FldName := 73
abbrev Fld.B1 : FldName := 74
abbrev Fld.B2 : FldName := 75
abbrev Fld.B3 : FldName := 76
abbrev Fld.B4 : FldName := 77
abbrev Fld.B5 : FldName := 78
abbrev Fld.B6 : FldName := 79
abbrev Fld.B7 : FldName := 80
abbrev Fld.B8 : FldName := 81
abbrev Fld.B9 : FldName := 82
abbrev Fld.B10 : FldName := 83
abbrev Fld.B11 : FldName := 84
abbrev Fld.B12 : FldName := 85
abbrev Fld.B13 : FldName := 86
abbrev Fld.B14 : FldName := 87
abbrev Fld.B15 : FldName := 88
abbrev Fld.B16 : FldName := 89
abbrev Fld.B17 : FldName := 90
abbrev Fld.B18 : FldName := 91
abbrev Fld.B19 : FldName := 92
abbrev Fld.B20 : FldName := 93
abbrev Fld.B21 : FldName := 94
abbrev Fld.B22 : FldName := 95
abbrev Fld.B23 : FldName := 96
abbrev Fld.B24 : FldName := 97
abbrev Fld.B25 : FldName := 98
abbrev Fld.B26 : FldName := 99
abbrev Fld.B27 : FldName := 100
abbrev Fld.B28 : FldName := 101
abbrev Fld.B29 : FldName := 102
abbrev Fld.B30 : FldName := 103
abbrev Fld.B31 : FldName := 104
abbrev Fld.CRC_POLY : FldName := 105
abbrev Fld.NOISE_EN : FldName := 106
abbrev Fld.BRK_ERR : FldName := 107
abbrev Fld.CRC_EN : FldName := 108
abbrev Fld.LSB_FIRST : FldName := 109
abbrev Fld.TIME_OUT : FldName := 110
abbrev Fld.V1_RMS : FldName := 111
abbrev Fld.C1_RMS : FldName := 112
abbrev Fld.V2_RMS : FldName := 113
abbrev Fld.C2_RMS : FldName := 114

/-! ### Field lists (R28, R29) -/

/-- 32 one-bit fields `B0` to `B31` of the IRQ and status registers (R28, R29). -/
def Catalog.flagFields : List FieldDesc :=
  [⟨Fld.B0, ⟨0, 1⟩⟩, ⟨Fld.B1, ⟨1, 1⟩⟩, ⟨Fld.B2, ⟨2, 1⟩⟩, ⟨Fld.B3, ⟨3, 1⟩⟩, ⟨Fld.B4, ⟨4, 1⟩⟩, ⟨Fld.B5, ⟨5, 1⟩⟩,
   ⟨Fld.B6, ⟨6, 1⟩⟩, ⟨Fld.B7, ⟨7, 1⟩⟩, ⟨Fld.B8, ⟨8, 1⟩⟩, ⟨Fld.B9, ⟨9, 1⟩⟩, ⟨Fld.B10, ⟨10, 1⟩⟩, ⟨Fld.B11, ⟨11, 1⟩⟩,
   ⟨Fld.B12, ⟨12, 1⟩⟩, ⟨Fld.B13, ⟨13, 1⟩⟩, ⟨Fld.B14, ⟨14, 1⟩⟩, ⟨Fld.B15, ⟨15, 1⟩⟩]
  ++
  [⟨Fld.B16, ⟨16, 1⟩⟩, ⟨Fld.B17, ⟨17, 1⟩⟩, ⟨Fld.B18, ⟨18, 1⟩⟩, ⟨Fld.B19, ⟨19, 1⟩⟩, ⟨Fld.B20, ⟨20, 1⟩⟩,
   ⟨Fld.B21, ⟨21, 1⟩⟩, ⟨Fld.B22, ⟨22, 1⟩⟩, ⟨Fld.B23, ⟨23, 1⟩⟩, ⟨Fld.B24, ⟨24, 1⟩⟩, ⟨Fld.B25, ⟨25, 1⟩⟩,
   ⟨Fld.B26, ⟨26, 1⟩⟩, ⟨Fld.B27, ⟨27, 1⟩⟩, ⟨Fld.B28, ⟨28, 1⟩⟩, ⟨Fld.B29, ⟨29, 1⟩⟩, ⟨Fld.B30, ⟨30, 1⟩⟩,
   ⟨Fld.B31, ⟨31, 1⟩⟩]

/-- Fields of DSP_CR1. -/
def Catalog.fields_DSP_CR1 : List FieldDesc :=
  [⟨Fld.CLRSS_TO1, ⟨0, 4⟩⟩, ⟨Fld.ClearSS1, ⟨4, 1⟩⟩, ⟨Fld.ENVREF1, ⟨5, 1⟩⟩, ⟨Fld.TC1, ⟨6, 3⟩⟩, ⟨Fld.AEM1, ⟨17, 1⟩⟩,
   ⟨Fld.APM1, ⟨18, 1⟩⟩, ⟨Fld.BHPFV1, ⟨19, 1⟩⟩, ⟨Fld.BHPFC1, ⟨20, 1⟩⟩, ⟨Fld.ROC1, ⟨21, 1⟩⟩, ⟨Fld.BLPFV1, ⟨22, 1⟩⟩,
   ⟨Fld.BLPFC1, ⟨23, 1⟩⟩, ⟨Fld.LPW1, ⟨24, 4⟩⟩, ⟨Fld.LPS1, ⟨28, 2⟩⟩, ⟨Fld.LCS1, ⟨30, 2⟩⟩]

/-- Fields of DSP_CR2. -/
def Catalog.fields_DSP_CR2 : List FieldDesc :=
  [⟨Fld.CLRSS_TO2, ⟨0, 4⟩⟩, ⟨Fld.ClearSS2, ⟨4, 1⟩⟩, ⟨Fld.ENVREF2, ⟨5, 1⟩⟩, ⟨Fld.TC2, ⟨6, 3⟩⟩, ⟨Fld.AEM2, ⟨17, 1⟩⟩,
   ⟨Fld.APM2, ⟨18, 1⟩⟩, ⟨Fld.BHPFV2, ⟨19, 1⟩⟩, ⟨Fld.BHPFC2, ⟨20, 1⟩⟩, ⟨Fld.ROC2, ⟨21, 1⟩⟩, ⟨Fld.BLPFV2, ⟨22, 1⟩⟩,
   ⟨Fld.BLPFC2, ⟨23, 1⟩⟩, ⟨Fld.LPW2, ⟨24, 4⟩⟩, ⟨Fld.LPS2, ⟨28, 2⟩⟩, ⟨Fld.LCS2, ⟨30, 2⟩⟩]

/-- Fields of DSP_CR3. -/
def Catalog.fields_DSP_CR3 : List FieldDesc :=
  [⟨Fld.SAG_TIME_THR, ⟨0, 14⟩⟩, ⟨Fld.ZCR_SEL, ⟨14, 2⟩⟩, ⟨Fld.ZCR_EN, ⟨16, 1⟩⟩, ⟨Fld.TMP_TOL, ⟨17, 2⟩⟩,
   ⟨Fld.TMP_EN, ⟨19, 1⟩⟩, ⟨Fld.SW_Reset, ⟨20, 1⟩⟩, ⟨Fld.SW_Latch1, ⟨21, 1⟩⟩, ⟨Fld.SW_Latch2, ⟨22, 1⟩⟩,
   ⟨Fld.SWAuto_Latch, ⟨23, 1⟩⟩, ⟨Fld.LED_OFF1, ⟨24, 1⟩⟩, ⟨Fld.LED_OFF2, ⟨25, 1⟩⟩, ⟨Fld.EN_CUM, ⟨26, 1⟩⟩,
   ⟨Fld.REF_FREQ, ⟨27, 1⟩⟩]

/-- Fields of DSP_CR4. -/
def Catalog.fields_DSP_CR4 : List FieldDesc :=
  [⟨Fld.PHC2, ⟨0, 10⟩⟩, ⟨Fld.PHV2, ⟨10, 2⟩⟩, ⟨Fld.PHC1, ⟨12, 10⟩⟩, ⟨Fld.PHV1, ⟨22, 2⟩⟩]

/-- Fields of DSP_CR5. -/
def Catalog.fields_DSP_CR5 : List FieldDesc :=
  [⟨Fld.CHV1, ⟨0, 12⟩⟩, ⟨Fld.SWV_THR1, ⟨12, 10⟩⟩, ⟨Fld.SAG_THR1, ⟨22, 10⟩⟩]

/-- Fields of DSP_CR6. -/
def Catalog.fields_DSP_CR6 : List FieldDesc :=
  [⟨Fld.CHC1, ⟨0, 12⟩⟩, ⟨Fld.SWC_THR1, ⟨12, 10⟩⟩]

/-- Fields of DSP_CR7. -/
def Catalog.fields_DSP_CR7 : List FieldDesc :=
  [⟨Fld.CHV2, ⟨0, 12⟩⟩, ⟨Fld.SWV_THR2, ⟨12, 10⟩⟩, ⟨Fld.SAG_THR2, ⟨22, 10⟩⟩]

/-- Fields of DSP_CR8. -/
def Catalog.fields_DSP_CR8 : List FieldDesc :=
  [⟨Fld.CHC2, ⟨0, 12⟩⟩, ⟨Fld.SWC_THR2, ⟨12, 10⟩⟩]

/-- Fields of DSP_CR9. -/
def Catalog.fields_DSP_CR9 : List FieldDesc :=
  [⟨Fld.AH_UP1, ⟨0, 12⟩⟩, ⟨Fld.OFA1, ⟨12, 10⟩⟩, ⟨Fld.OFAF1, ⟨22, 10⟩⟩]

/-- Fields of DSP_CR10. -/
def Catalog.fields_DSP_CR10 : List FieldDesc :=
  [⟨Fld.AH_DOWN1, ⟨0, 12⟩⟩, ⟨Fld.OFR1, ⟨12, 10⟩⟩, ⟨Fld.OFS1, ⟨22, 10⟩⟩]

/-- Fields of DSP_CR11. -/
def Catalog.fields_DSP_CR11 : List FieldDesc :=
  [⟨Fld.AH_UP2, ⟨0, 12⟩⟩, ⟨Fld.OFA2, ⟨12, 10⟩⟩, ⟨Fld.OFAF2, ⟨22, 10⟩⟩]

/-- Fields of DSP_CR12. -/
def Catalog.fields_DSP_CR12 : List FieldDesc :=
  [⟨Fld.AH_DOWN2, ⟨0, 12⟩⟩, ⟨Fld.OFR2, ⟨12, 10⟩⟩, ⟨Fld.OFS2, ⟨22, 10⟩⟩]

/-- Fields of DFE_CR1. -/
def Catalog.fields_DFE_CR1 : List FieldDesc :=
  [⟨Fld.enV1, ⟨0, 1⟩⟩, ⟨Fld.enC1, ⟨16, 1⟩⟩, ⟨Fld.GAIN1, ⟨26, 2⟩⟩]

/-- Fields of DFE_CR2. -/
def Catalog.fields_DFE_CR2 : List FieldDesc :=
  [⟨Fld.enV2, ⟨0, 1⟩⟩, ⟨Fld.enC2, ⟨16, 1⟩⟩, ⟨Fld.GAIN2, ⟨26, 2⟩⟩]

/-- Fields of US_REG1. -/
def Catalog.fields_US_REG1 : List FieldDesc :=
  [⟨Fld.CRC_POLY, ⟨0, 8⟩⟩, ⟨Fld.NOISE_EN, ⟨8, 1⟩⟩, ⟨Fld.BRK_ERR, ⟨9, 1⟩⟩, ⟨Fld.CRC_EN, ⟨14, 1⟩⟩,
   ⟨Fld.LSB_FIRST, ⟨15, 1⟩⟩, ⟨Fld.TIME_OUT, ⟨16, 8⟩⟩]

/-- Fields of DSP_REG14. -/
def Catalog.fields_DSP_REG14 : List FieldDesc :=
  [⟨Fld.V1_RMS, ⟨0, 15⟩⟩, ⟨Fld.C1_RMS, ⟨15, 17⟩⟩]

/-- Fields of DSP_REG15. -/
def Catalog.fields_DSP_REG15 : List FieldDesc :=
  [⟨Fld.V2_RMS, ⟨0, 15⟩⟩, ⟨Fld.C2_RMS, ⟨15, 17⟩⟩]

/-! ### The default catalog (R27), in catalog order -/

/-- The twelve DSP control registers. -/
def Catalog.dspControl : List RegDesc :=
  [⟨Reg.DSP_CR1, 0x00, .control, 0x040000A0, Catalog.fields_DSP_CR1⟩,
   ⟨Reg.DSP_CR2, 0x02, .control, 0x240000A0, Catalog.fields_DSP_CR2⟩,
   ⟨Reg.DSP_CR3, 0x04, .control, 0x000004E0, Catalog.fields_DSP_CR3⟩,
   ⟨Reg.DSP_CR4, 0x06, .control, 0x00000000, Catalog.fields_DSP_CR4⟩,
   ⟨Reg.DSP_CR5, 0x08, .control, 0x003FF800, Catalog.fields_DSP_CR5⟩,
   ⟨Reg.DSP_CR6, 0x0A, .control, 0x003FF800, Catalog.fields_DSP_CR6⟩,
   ⟨Reg.DSP_CR7, 0x0C, .control, 0x003FF800, Catalog.fields_DSP_CR7⟩,
   ⟨Reg.DSP_CR8, 0x0E, .control, 0x003FF800, Catalog.fields_DSP_CR8⟩,
   ⟨Reg.DSP_CR9, 0x10, .control, 0x00000FFF, Catalog.fields_DSP_CR9⟩,
   ⟨Reg.DSP_CR10, 0x12, .control, 0x00000FFF, Catalog.fields_DSP_CR10⟩,
   ⟨Reg.DSP_CR11, 0x14, .control, 0x00000FFF, Catalog.fields_DSP_CR11⟩,
   ⟨Reg.DSP_CR12, 0x16, .control, 0x00000FFF, Catalog.fields_DSP_CR12⟩]

/-- The analog-front-end, IRQ, UART/CRC, status and packed RMS registers. -/
def Catalog.others : List RegDesc :=
  [⟨Reg.DFE_CR1, 0x18, .control, 0x0F270327, Catalog.fields_DFE_CR1⟩,
   ⟨Reg.DFE_CR2, 0x1A, .control, 0x03270327, Catalog.fields_DFE_CR2⟩,
   ⟨Reg.DSP_IRQ1, 0x1C, .control, 0x00000000, Catalog.flagFields⟩,
   ⟨Reg.DSP_IRQ2, 0x1E, .control, 0x00000000, Catalog.flagFields⟩,
   ⟨Reg.US_REG1, 0x24, .control, 0x00004007, Catalog.fields_US_REG1⟩,
   ⟨Reg.DSP_SR1, 0x20, .data, 0x00000000, Catalog.flagFields⟩,
   ⟨Reg.DSP_SR2, 0x22, .data, 0x00000000, Catalog.flagFields⟩,
   ⟨Reg.DSP_REG14, 0x48, .data, 0x00000000, Catalog.fields_DSP_REG14⟩,
   ⟨Reg.DSP_REG15, 0x4A, .data, 0x00000000, Catalog.fields_DSP_REG15⟩]

/-- The default parameters (R8, R27; `ZeroGain` is the model's, log 9). -/
def Config.standard : Config where
  ndev := 2
  catalog := Catalog.dspControl ++ Catalog.others
  readDataBytes := 3
  latchReg := Reg.DSP_CR3
  latchF1 := Fld.SW_Latch1
  latchF2 := Fld.SW_Latch2
  uartReg := Reg.US_REG1
  crcEnF := Fld.CRC_EN
  calV1 := ⟨Reg.DSP_CR5, Fld.CHV1⟩
  calI1 := ⟨Reg.DSP_CR6, Fld.CHC1⟩
  calV2 := ⟨Reg.DSP_CR7, Fld.CHV2⟩
  calI2 := ⟨Reg.DSP_CR8, Fld.CHC2⟩
  rms1 := ⟨Reg.DSP_REG14, Fld.V1_RMS, Fld.C1_RMS⟩
  rms2 := ⟨Reg.DSP_REG15, Fld.V2_RMS, Fld.C2_RMS⟩
  crcIntendedReset := true
  hasCancel := true
  strictFields := false
  numerics := .binary64
  zeroGain := .quotient

end Sys2Proof
end

