-- ==== Sys2Proof/Machine/Float64.lean ====
section
/-! DEFINITION. IEEE 754 binary64 numbers and their four operations, rounding to nearest, ties to even
(spec/44_calibration.md R135). Each operation is the exact fraction of its operands, rounded once. -/

namespace Sys2Proof.Machine

/-- A fraction, not reduced; its value is `num / den`. -/
structure Frac where
  num : Int
  den : Nat
  deriving DecidableEq, Repr, Inhabited

/-- A binary64 value: a NaN (its payload is not modelled, log 10), an infinity, or `± sig * 2^exp` with
`sig < 2^53` and `-1074 ≤ exp ≤ 971`; below `2^52` only `exp = -1074` is used, so each value has one form. -/
inductive F64 where
  | nan
  | inf (neg : Bool)
  | fin (neg : Bool) (sig : Nat) (exp : Int)
  deriving DecidableEq, Repr, Inhabited

/-- The integer `n` as a fraction. -/
def Frac.ofInt (n : Int) : Frac := ⟨n, 1⟩

/-- The product of two fractions. -/
def Frac.mul (a b : Frac) : Frac := ⟨a.num * b.num, a.den * b.den⟩

/-- The quotient of two fractions; a zero divisor gives a fraction with denominator 0. -/
def Frac.div (a b : Frac) : Frac := ⟨a.num * b.den * b.num.sign, a.den * b.num.natAbs⟩

/-- The sum of two fractions. -/
def Frac.add (a b : Frac) : Frac := ⟨a.num * b.den + b.num * a.den, a.den * b.den⟩

/-- The difference of two fractions. -/
def Frac.sub (a b : Frac) : Frac := ⟨a.num * b.den - b.num * a.den, a.den * b.den⟩

/-- `trunc0`: the integer part, rounding toward zero (R9). -/
def Frac.trunc0 (a : Frac) : Int := a.num.tdiv a.den

/-- Whether a fraction is zero. -/
def Frac.isZero (a : Frac) : Bool := a.num == 0

/-- `floor (log2 (n / d))` for `n, d > 0`. -/
def floorLog2 (n d : Nat) : Int :=
  let l : Int := (n.log2 : Int) - (d.log2 : Int)
  if d <<< l.toNat ≤ n <<< (-l).toNat then l else l - 1

/-- The quotient `n / d` rounded to the nearest integer, ties to the even one. -/
def divNearestEven (n d : Nat) : Nat :=
  let q := n / d
  let r := n % d
  if d < 2 * r ∨ (2 * r = d ∧ q % 2 = 1) then q + 1 else q

/-- A finite result of magnitude `sig * 2^exp` after rounding, `sig ≤ 2^53`; too large becomes an infinity. -/
def F64.pack (neg : Bool) (sig : Nat) (exp : Int) : F64 :=
  let s := if sig = 2 ^ 53 then 2 ^ 52 else sig
  let e := if sig = 2 ^ 53 then exp + 1 else exp
  if 971 < e then .inf neg else .fin neg s e

/-- The magnitude `n / d` (`d > 0`) rounded to binary64 with the given sign. -/
def F64.roundMag (neg : Bool) (n d : Nat) : F64 :=
  if n = 0 then .fin neg 0 (-1074)
  else
    let e := max (floorLog2 n d - 52) (-1074)
    F64.pack neg (divNearestEven (n <<< (-e).toNat) (d <<< e.toNat)) e

/-- A fraction rounded to binary64; an exact zero takes the sign given. -/
def F64.ofFrac (zeroNeg : Bool) (a : Frac) : F64 :=
  F64.roundMag (if a.num = 0 then zeroNeg else decide (a.num < 0)) a.num.natAbs a.den

/-- The exact value of `± sig * 2^exp`. -/
def fracOf (neg : Bool) (sig : Nat) (exp : Int) : Frac :=
  let m : Int := (sig <<< exp.toNat : Nat)
  ⟨if neg then -m else m, 1 <<< (-exp).toNat⟩

/-- The exact value of a finite binary64 number (R135 item 1). -/
def F64.frac? : F64 → Option Frac
  | .fin neg sig exp => some (fracOf neg sig exp)
  | _ => none

/-- An integer as binary64; exact below `2^53`. -/
def F64.ofInt (n : Int) : F64 := F64.ofFrac false (.ofInt n)

/-- The decimal literal `num / den` as binary64. -/
def F64.ofDec (num den : Nat) : F64 := F64.ofFrac false ⟨num, den⟩

/-- The number whose binary64 bit pattern is given. -/
def F64.ofBits (b : Bits64) : F64 :=
  let neg := b.msb
  let e := (BitVec.extractLsb' 52 11 b).toNat
  let f := (BitVec.extractLsb' 0 52 b).toNat
  if e = 2047 then (if f = 0 then .inf neg else .nan)
  else if e = 0 then .fin neg f (-1074)
  else .fin neg (2 ^ 52 + f) ((e : Int) - 1075)

/-- The number with the opposite sign. -/
def F64.neg : F64 → F64
  | .nan => .nan
  | .inf n => .inf (!n)
  | .fin n s e => .fin (!n) s e

/-- Whether a number is a zero of either sign. -/
def F64.isZero : F64 → Bool
  | .fin _ s _ => s == 0
  | _ => false

/-- Whether a number is finite. -/
def F64.isFinite : F64 → Bool
  | .fin _ _ _ => true
  | _ => false

/-- The binary64 product. -/
def F64.mul : F64 → F64 → F64
  | .nan, _ => .nan
  | _, .nan => .nan
  | .inf m, .inf n => .inf (m != n)
  | .inf m, .fin n s _ => if s = 0 then .nan else .inf (m != n)
  | .fin m s _, .inf n => if s = 0 then .nan else .inf (m != n)
  | .fin m s e, .fin n t f => F64.ofFrac (m != n) ((fracOf m s e).mul (fracOf n t f))

/-- The binary64 quotient. -/
def F64.div : F64 → F64 → F64
  | .nan, _ => .nan
  | _, .nan => .nan
  | .inf _, .inf _ => .nan
  | .inf m, .fin n _ _ => .inf (m != n)
  | .fin m _ _, .inf n => .fin (m != n) 0 (-1074)
  | .fin m s e, .fin n t f =>
    if t = 0 then (if s = 0 then .nan else .inf (m != n))
    else F64.ofFrac (m != n) ((fracOf m s e).div (fracOf n t f))

/-- The binary64 sum; an exact zero is `+0` unless both operands are negative. -/
def F64.add : F64 → F64 → F64
  | .nan, _ => .nan
  | _, .nan => .nan
  | .inf m, .inf n => if m = n then .inf m else .nan
  | .inf m, .fin _ _ _ => .inf m
  | .fin _ _ _, .inf n => .inf n
  | .fin m s e, .fin n t f => F64.ofFrac (m && n) ((fracOf m s e).add (fracOf n t f))

/-- The binary64 difference. -/
def F64.sub (a b : F64) : F64 := a.add b.neg

/-- The integer part of a finite number, rounding toward zero (R9 `trunc0`). -/
def F64.trunc0? (a : F64) : Option Int := a.frac?.map Frac.trunc0

end Sys2Proof.Machine
end

