-- ==== Sys2Proof/Machine/State.lean ====
section
/-! DEFINITION. The state of the block as plain data (spec/10_state.md R10, R11, R19 to R23), with the interfaces of
spec/00_scope.md R6 beside it: the requests waiting on the host operation port, the environment's inputs, and the
trace and results the block has given out. -/

namespace Sys2Proof.Machine

/-- The typed errors an operation can end with (R160). `notARegister` is reserved and never raised (R165). -/
inductive Err where
  | shortReply
  | crcMismatch
  | latchTimeout
  | unknownField
  | notARegister
  | cancelled
  deriving DecidableEq, Repr

/-- The latch handshake's state (R22). -/
inductive LatchState where
  | idle
  | requested
  | polling
  | latched
  | timedOut
  deriving DecidableEq, Repr, Inhabited

/-- The one kind of warning (R23, R168). -/
inductive WarnKind where
  | crcDrift
  deriving DecidableEq, Repr

/-- The events of a trace (R6, R9). -/
inductive Event where
  | csAssert (d : DevIx)
  | csDeassert (d : DevIx)
  | tx (bytes : List Byte)
  | rx (count : Nat) (fill : Byte) (reply : List Byte)
  | sleep (interval : Word)
  | warn (kind : WarnKind) (d : DevIx)
  | persist (d : DevIx) (v1 i1 v2 i2 : Code)
  deriving DecidableEq, Repr

/-- The value an operation returns with `Ok` (R70, column "result"). -/
inductive Value where
  | none
  | byte (b : Byte)
  | word (w : Word)
  | bytes (l : List Byte)
  | bool (b : Bool)
  | real (x : F64)
  | reals (v1 i1 v2 i2 : F64)
  | codes (v i : Code)
  | regs (l : List RegName)
  deriving DecidableEq, Repr

/-- What the host result port carries, once per operation (R6, R160). -/
inductive HostResult where
  | ok (v : Value)
  | err (e : Err)
  deriving DecidableEq, Repr

/-- The operation sequencer (R20): idle, or busy with an operation, `step` being the number of transport events that
operation has emitted, so the index of its next one (log 5). -/
inductive Seq where
  | idle
  | busy (op : Instr) (step : Nat)
  deriving DecidableEq, Repr

/-- The cells of one device context (R186): the shadow register file `fv[d]`, one list of cells per catalog register in
catalog order and one cell per field in field order (R11); `crc_intended` (R19); the level of the select line, `true`
being high (R21); `latch_state` (R22); the sticky `warn_drift` (R23). -/
@[ext]
structure Dev where
  fv : List (List Word)
  crcIntended : Bool
  csN : Bool
  latch : LatchState
  warnDrift : Bool
  deriving DecidableEq, Repr, Inhabited

/-- Reasons for the machine to stop with a fault. There is none: an error of the block is a typed result after which
it waits for the next operation (R175), and nothing is treated as stuck (U7). The closed type is empty, which is safe:
no step ends in a fault. -/
inductive Fault where
  deriving DecidableEq, Repr

/-- Reasons for a request not to be an operation of the block (R166). Each is safe: the run stops where the block has
no such operation. -/
inductive Refusal where
  /-- Raised by exec's arm of an instruction that has no meaning yet; safe. -/
  | notModelled (mnemonic : String)
  /-- Raised by every operation while `seq` is not `Idle` (R20, R166, U5); safe. -/
  | busy
  /-- Raised by every operation under a catalog that breaks R13 (R166); safe. -/
  | badCatalog
  /-- Raised by an operation on a device index not below `NDEV` (R166); safe. -/
  | noDevice
  /-- Raised by an operation that names a register outside the catalog (R166); safe. -/
  | noRegister
  /-- Raised by WRREG, and by XFER, CMD.WR4 and CMD.WR5 with a write frame, aimed at a data register (R47, R69 (c), R166);
  safe. -/
  | dataBank
  /-- Raised by XFER and the command frames with an address that is no catalog register's (R42, R166); safe. -/
  | rawAddress
  /-- Raised by XFER and the command frames when the frame, or the reply XFER asks for, is not `flen(d)` bytes long: R60
  knows no other frame at that moment; safe. -/
  | frameLength
  /-- Raised by REG.SETF of a value wider than the field, only when `STRICT_FIELDS` is set (U1); safe. -/
  | strictField
  /-- Raised by VCONV and ICONV with a gain of 0, only under `ZeroGain.refuse` (R135 item 4, U3); safe. -/
  | zeroGain
  /-- Raised by CALDRV outside its domain: R136 and U4 give the call no result; safe. -/
  | caldrvDomain
  /-- Raised by `step` on a request whose bytes are no operation (R69 (f), R166); safe. -/
  | undecodable (e : DecodeError)
  /-- Raised by `step` on an operation whose operands break WellFormed's checks (R12, R72), and by XFER and the command
  frames with bytes that are neither `RDF` nor `WRF` (R69 (b)); safe. -/
  | illFormed
  deriving DecidableEq, Repr

/-- The state. `cfg` holds the parameters of R8, which no step changes (log 1); `devs` the device contexts, `seq` and
`pollCount` what the devices share (R186). `trace` and `results` are what the block has given out, oldest first.
`port`, `replies`, `cancels` and `resets` are the environment's inputs: requests not yet accepted, the device side's
answers to the `RX` events to come (R7), the levels of the cancel input at its samples to come (R171), and the
applications of the reset input to come, each by the number of moments that pass before it, counted from the one before
it (R190; log 6). `draws` counts the free values taken once
an input is used up (log 8). -/
@[ext]
structure State where
  cfg       : Config
  devs      : List Dev
  seq       : Seq
  pollCount : Nat
  trace     : List Event
  results   : List HostResult
  port      : List Request
  replies   : List (List Byte)
  cancels   : List Bool
  resets    : List Nat
  draws     : Nat
  deriving DecidableEq, Repr

/-- A device context after reset (spec/10_state.md section 8). -/
def Dev.reset (c : Config) : Dev where
  fv := c.resetCells
  crcIntended := c.crcIntendedReset
  csN := true
  latch := .idle
  warnDrift := false

/-- The state right after reset under given parameters (R190): the cells of section 8, no event emitted, no result
given, nothing waiting at any input. -/
def State.resetWith (c : Config) : State where
  cfg := c
  devs := List.replicate c.ndev (Dev.reset c)
  seq := .idle
  pollCount := 0
  trace := []
  results := []
  port := []
  replies := []
  cancels := []
  resets := []
  draws := 0

/-- The machine right after reset, under the default parameters (R8, R190; log 2). -/
def State.reset : State := State.resetWith Config.standard

end Sys2Proof.Machine
end

