-- ==== Sys2Proof/Machine/Ops.lean ====
section
/-! DEFINITION. The named operations over the state: cells, events, inputs, taking an error, reset, and the frame in
which every operation runs. An operation's body is written in the spec's own order, as a program that emits events,
reads inputs, writes cells, and may `raise`. -/

namespace Sys2Proof.Machine

/-! ### Cells -/

/-- The context of a device. -/
def State.dev (s : State) (d : DevIx) : Dev := s.devs.getD d.toNat default

/-- The state with the context of device `d` changed, and no other device's. -/
def State.modDev (s : State) (d : DevIx) (f : Dev → Dev) : State := { s with devs := s.devs.modify d.toNat f }

/-- The cells of one shadow register, in field order (R11). -/
def State.cells (s : State) (d : DevIx) (r : RegName) : List Word := (s.dev d).fv.getD (s.cfg.regIx r) []

/-- The cells of one shadow register replaced. -/
def State.setCells (s : State) (d : DevIx) (r : RegName) (l : List Word) : State :=
  s.modDev d (fun v => { v with fv := v.fv.set (s.cfg.regIx r) l })

/-- `fv[d][r][f]` (R11). -/
def State.getCell (s : State) (d : DevIx) (r : RegName) (f : FldName) : Word :=
  (s.cells d r).getD (s.cfg.fldIx r f) 0

/-- `fv[d][r][f] <- v` (R11): the value is stored as given, not masked. -/
def State.setCell (s : State) (d : DevIx) (r : RegName) (f : FldName) (v : Word) : State :=
  s.setCells d r ((s.cells d r).set (s.cfg.fldIx r f) v)

/-- The register word folded from its cells (R92): each cell masked to its field, in place, ORed together. -/
def foldCells (fs : List FieldDesc) (cells : List Word) : Word :=
  (fs.zip cells).foldl (fun acc p => acc ||| ((p.2 &&& fmask p.1.bits) <<< p.1.bits.start)) 0

/-- `x[d][r]`, the word of a shadow register: REG.ENCODE as a function of the state (R15, R92). -/
def State.encodeReg (s : State) (d : DevIx) (r : RegName) : Word := foldCells (s.cfg.fieldsOf r) (s.cells d r)

/-- REG.DECODE as a change of the state (R91): every cell of the register is overwritten. -/
def State.decodeReg (s : State) (d : DevIx) (r : RegName) (w : Word) : State :=
  s.setCells d r (decodeCells (s.cfg.fieldsOf r) w)

/-- The level of the select line of device `d` (R21). -/
def State.setCsN (s : State) (d : DevIx) (level : Bool) : State := s.modDev d (fun v => { v with csN := level })

/-! ### Frames -/

/-- `FILL` (R8, R111; decision D11). -/
def fillByte : Byte := 0xFF

/-- `SENTINEL` (R8, R69). -/
def sentinel : Byte := 0xFF

/-- `crc_on(d)`: the CRC-enable bit of the shadow UART/CRC control register (R19, R110). -/
def State.crcOn (s : State) (d : DevIx) : Bool := (s.getCell d s.cfg.uartReg s.cfg.crcEnF) &&& 1 == 1

/-- `flen(d)` (R60, R110). -/
def State.flen (s : State) (d : DevIx) : Nat := if s.crcOn d then 5 else 4

/-- `frame(d, body)` for a frame length (R110): the CRC byte is appended when the length is 5. -/
def frame (flen : Nat) (body : List Byte) : List Byte := if flen = 5 then body ++ [crc8Seq body] else body

/-- The four bytes of a read frame (R62). -/
def readBody (a : Byte) : List Byte := [a, sentinel, sentinel, sentinel]

/-- The four bytes of a write frame (R63): both address bytes are the write address. -/
def writeBody (wa lsb msb : Byte) : List Byte := [wa, wa, lsb, msb]

/-! ### Programs of events -/

/-- Why an operation's body ends early: it raises (R175), or the reset input is applied (R190). -/
inductive Stop where
  | err (e : Err)
  | reset
  deriving DecidableEq, Repr

/-- The body of an operation: it runs on the state and ends with a value, or early. -/
abbrev Op (α : Type) := EStateM Stop State α

/-- `raise E` (R9, R175). -/
def raise {α : Type} (e : Err) : Op α := fun s => .error (.err e) s

/-- The sequencer after one more transport event (R20). -/
def Seq.tick : Seq → Seq
  | .idle => .idle
  | .busy op step => .busy op (step + 1)

/-- The state after an event is appended to the trace, with the sequencer moved on. -/
def State.record (s : State) (e : Event) : State := { s with trace := s.trace ++ [e], seq := s.seq.tick }

/-- The applications of the reset input still to come, after one of the moments at which reset can land (log 6). -/
def passed : List Nat → List Nat
  | (n + 1) :: rest => n :: rest
  | l => l

/-- The state after one of the moments at which reset can land has passed without it (R190; log 6). -/
def State.pass (s : State) : State := { s with resets := passed s.resets }

/-- Whether the reset input is applied at this moment (R190; log 6). -/
def State.resetNow (s : State) : Bool := s.resets.head? == some 0

/-- `emit EV` (R9). The reset input may be applied just before any event: then the operation is abandoned with that
event not emitted (R190, R191; log 6). -/
def emit (e : Event) : Op Unit := fun s => if s.resetNow then .error .reset s else .ok () (s.pass.record e)

/-- The device side's next answer (R7): the next of the script, or a free value once it is used up. -/
def State.nextReply (s : State) : List Byte × State :=
  match s.replies with
  | reply :: rest => (reply, { s with replies := rest })
  | [] => (Config.freeReply s.draws, { s with draws := s.draws + 1 })

/-- The next sample of the cancel input (R171). -/
def State.nextCancel (s : State) : Bool × State :=
  match s.cancels with
  | level :: rest => (level, { s with cancels := rest })
  | [] => (Config.freeCancel s.draws, { s with draws := s.draws + 1 })

/-- `RX(count, fill)`, answered by the device side (R7). No answer is taken when the operation is abandoned. -/
def rx (count : Nat) : Op (List Byte) := fun s =>
  if s.resetNow then .error .reset s
  else (do emit (.rx count fillByte s.nextReply.1); return s.nextReply.1) s.nextReply.2

/-- One sample of the cancel input; always low where the input does not exist (R167). -/
def sampleCancel : Op Bool := fun s =>
  if s.cfg.hasCancel then .ok s.nextCancel.1 s.nextCancel.2 else .ok false s

/-- Drive the select line of device `d`: the event, then the level (R111). -/
def drive (d : DevIx) (level : Bool) : Op Unit := do
  emit (if level then .csDeassert d else .csAssert d)
  modify (fun s => s.setCsN d level)

/-- The body with one more change of the state when it raises; the error is passed on (R119). -/
def onRaise {α : Type} (body : Op α) (h : State → State) : Op α := fun s =>
  match body s with
  | .error (.err e) s' => .error (.err e) (h s')
  | r => r

/-! ### Beginning and ending an operation -/

/-- The number of an error on the result port (R160; decision D29). -/
def Err.code : Err → Nat
  | .shortReply => 1
  | .crcMismatch => 2
  | .latchTimeout => 3
  | .unknownField => 4
  | .notARegister => 5
  | .cancelled => 6

/-- The number of a result on the result port: 0 is `Ok` (R160). -/
def HostResult.code : HostResult → Nat
  | .ok _ => 0
  | .err e => e.code

/-- The operation ends with a result: the result goes to the host and the sequencer becomes idle (R20, R160). -/
def State.finish (s : State) (r : HostResult) : State := { s with results := s.results ++ [r], seq := .idle }

/-- Taking an error, "trap entry" (R175): the result is `Err(E)`, the sequencer becomes idle, every other cell keeps its
value, nothing is saved and control goes nowhere. There is no return instruction: the host issues another operation
(R176). -/
def State.takeError (s : State) (e : Err) : State := s.finish (.err e)

/-- Reset is applied (R190): every cell takes its reset value; no event is emitted and no result given (R191). What
the block has given out stays given out, and what waits at its inputs stays waiting, later applications of reset among
it. -/
def State.applyReset (s : State) : State :=
  { s with
    devs := List.replicate s.cfg.ndev (Dev.reset s.cfg), seq := .idle, pollCount := 0, resets := s.resets.tail }

/-- An operation is accepted: the sequencer becomes busy with it, at its first step (R20). -/
def State.begin (s : State) (i : Instr) : State := { s with seq := .busy i 0 }

/-- The operation ends as given, unless the reset input is applied just before it does: then it is abandoned without a
result, though it may have emitted every event it has (R190; log 6). -/
def State.settle (s : State) (done : State → State) : State := if s.resetNow then s.applyReset else done s.pass

/-- The state an accepted operation leaves: its body is run from first line to last with the sequencer busy (R20). -/
def runOp (i : Instr) (body : Op Value) (s : State) : State :=
  match body (s.begin i) with
  | .ok v s' => s'.settle (fun t => t.finish (.ok v))
  | .error (.err e) s' => s'.settle (fun t => t.takeError e)
  | .error .reset s' => s'.applyReset

/-- An operation is accepted only when the sequencer is idle, the catalog is admitted and the request can be formed
(R20, R166); `bad` says what is wrong with its operands, if anything. -/
def accept (i : Instr) (bad : Option Refusal) (body : Op Value) (s : State) : Host.Outcome State Fault Refusal :=
  if s.seq ≠ .idle then .refused .busy
  else if s.cfg.admitted = false then .refused .badCatalog
  else
    match bad with
    | some r => .refused r
    | none => .next (runOp i body s)

end Sys2Proof.Machine
end

