-- ==== Sys2Proof/Machine/Operands.lean ====
section
/-! DEFINITION. Operand forms: which device, register, control register, field and address an operation may name
(spec/60_exceptions.md R166, spec/20_memory.md R47), and the calibration code's two conversions (R131). A check answers
the reason for refusing, or nothing. -/

namespace Sys2Proof.Machine

/-- A device index is below `NDEV` (R166). -/
def State.badDev (s : State) (d : DevIx) : Option Refusal :=
  if d.toNat < s.cfg.ndev then none else some .noDevice

/-- A device and a register of the catalog, of either bank (R166). -/
def State.badReg (s : State) (d : DevIx) (r : RegName) : Option Refusal :=
  (s.badDev d).or (if s.cfg.hasReg r then none else some .noRegister)

/-- A device and a control register (R47, R166). -/
def State.badCtrl (s : State) (d : DevIx) (r : RegName) : Option Refusal :=
  (s.badReg d r).or (if s.cfg.isControl r then none else some .dataBank)

/-- REG.SETF's operands: under `STRICT_FIELDS` a value wider than its field is refused (U1). -/
def State.badSetf (s : State) (d : DevIx) (r : RegName) (f : FldName) (v : Word) : Option Refusal :=
  (s.badReg d r).or
    (if s.cfg.strictFields && (s.cfg.field? r f).any (fun x => decide (2 ^ x.bits.width ≤ v.toNat)) then
      some .strictField else none)

/-- The register a read address names (R30, R44). -/
def readTarget (c : Config) (a : Byte) : Option RegDesc := c.catalog.find? (fun x => x.address == a)

/-- The register a write address names a half of: its own address is the low half's, the next one the high half's
(R44). -/
def writeTarget (c : Config) (a : Byte) : Option RegDesc :=
  c.catalog.find? (fun x => x.address == a || x.address + 1 == a)

/-- A read address of the catalog (R42, R166). -/
def State.badReadAddr (s : State) (a : Byte) : Option Refusal :=
  if (readTarget s.cfg a).isSome then none else some .rawAddress

/-- A write address of a control register (R42, R47, R69 (c), R166). -/
def State.badWriteAddr (s : State) (a : Byte) : Option Refusal :=
  match writeTarget s.cfg a with
  | none => some .rawAddress
  | some x => if x.bank == .control then none else some .dataBank

/-- A device, a command frame and a number of reply bytes that make a transaction of the block: `RDF` of a catalog
register or `WRF` of a half of a control register (R42, R47, R69), with frame and reply of `flen(d)` bytes (R60). -/
def State.badFrame (s : State) (d : DevIx) (cmd : List Byte) (n : Nat) : Option Refusal :=
  (s.badDev d).or
    ((if commandOk cmd then none else some .illFormed).or
      ((if cmd.getD 1 0 = sentinel then s.badReadAddr (cmd.getD 0 0) else s.badWriteAddr (cmd.getD 1 0)).or
        (if cmd.length = s.flen d ∧ n = s.flen d then none else some .frameLength)))

/-- `code_of`: the code in a field value, zero-extended from 12 bits, never sign-extended (R131). -/
def codeOf (v : Word) : Code := BitVec.setWidth 16 (v &&& 0xFFF)

/-- `field_of`: the low 12 bits of a code (R131). -/
def fieldOf (c : Code) : Word := BitVec.setWidth 32 c &&& 0xFFF

/-- `cal[d][k]` for the register and field of channel quantity `k` (R17). -/
def State.calCode (s : State) (d : DevIx) (k : FieldRef) : Code := codeOf (s.getCell d k.reg k.fld)

/-- The record *CalibrationCoefficients* as a view of four cells, in the order of R17. -/
def State.calCodes (s : State) (d : DevIx) : Code × Code × Code × Code :=
  (s.calCode d s.cfg.calV1, s.calCode d s.cfg.calI1, s.calCode d s.cfg.calV2, s.calCode d s.cfg.calI2)

/-- The *RMS snapshot* as a view of four cells: channel-1 voltage and current codes, channel-2 voltage and current
codes (R18). -/
def State.rmsSnapshot (s : State) (d : DevIx) : Word × Word × Word × Word :=
  (s.getCell d s.cfg.rms1.reg s.cfg.rms1.vFld, s.getCell d s.cfg.rms1.reg s.cfg.rms1.iFld,
   s.getCell d s.cfg.rms2.reg s.cfg.rms2.vFld, s.getCell d s.cfg.rms2.reg s.cfg.rms2.iFld)

end Sys2Proof.Machine
end

