-- ==== Sys2Proof/Machine/Flags.lean ====
section
/-! DEFINITION. The flags of a device: the sticky drift warning and the intended CRC state it is compared with
(spec/10_state.md R19, R23; spec/60_exceptions.md R168), and the latch state (R22, R120). -/

namespace Sys2Proof.Machine

/-- `warn_drift[d] <- b`. -/
def State.setWarn (s : State) (d : DevIx) (b : Bool) : State := s.modDev d (fun v => { v with warnDrift := b })

/-- `crc_intended[d] <- b` (R124). -/
def State.setIntended (s : State) (d : DevIx) (b : Bool) : State := s.modDev d (fun v => { v with crcIntended := b })

/-- `latch_state[d] <- l` (R119, R120). -/
def State.setLatch (s : State) (d : DevIx) (l : LatchState) : State := s.modDev d (fun v => { v with latch := l })

/-- Whether a register just read back shows a CRC-enable bit other than the intended one (R23, R113). -/
def State.drifted (s : State) (d : DevIx) (r : RegName) : Bool :=
  r == s.cfg.uartReg && s.crcOn d != (s.dev d).crcIntended

/-- The drift check at the end of a successful read (R113): the flag is set and `WARN` emitted; the result is not
changed. -/
def checkDrift (d : DevIx) (r : RegName) : Op Unit := do
  if (← get).drifted d r then
    modify (fun s => s.setWarn d true)
    emit (.warn .crcDrift d)

end Sys2Proof.Machine
end

