-- ==== Sys2Proof/Machine/BitField.lean ====
section
/-! DEFINITION. The BitField family (spec/40_bitfield.md): pure functions of their operands. -/

namespace Sys2Proof.Machine

/-- BF.DECODE (R81). -/
def execBfDecode (f : BitField) (word : Word) (s : State) : Host.Outcome State Fault Refusal :=
  accept (.bfDecode f word) none (pure (.word (bfDecode f word))) s

/-- BF.ENCODE (R82). -/
def execBfEncode (f : BitField) (value wordIn : Word) (s : State) : Host.Outcome State Fault Refusal :=
  accept (.bfEncode f value wordIn) none (pure (.word (bfEncode f value wordIn))) s

end Sys2Proof.Machine
end

