-- ==== Sys2Proof/Machine/Crc8.lean ====
section
/-! DEFINITION. The CRC-8 family (spec/42_crc8.md): pure functions of their operands. -/

namespace Sys2Proof.Machine

/-- CRC8.BYTE (R101). -/
def execCrc8Byte (rem byte : Byte) (s : State) : Host.Outcome State Fault Refusal :=
  accept (.crc8Byte rem byte) none (pure (.byte (crc8Byte rem byte))) s

/-- CRC8.SEQ (R102). -/
def execCrc8Seq (bytes : List Byte) (s : State) : Host.Outcome State Fault Refusal :=
  accept (.crc8Seq bytes) none (pure (.byte (crc8Seq bytes))) s

/-- CRC8.CHECK (R103). -/
def execCrc8Check (b0 b1 b2 b3 b4 : Byte) (s : State) : Host.Outcome State Fault Refusal :=
  accept (.crc8Check b0 b1 b2 b3 b4) none (pure (.bool (crc8Check b0 b1 b2 b3 b4))) s

end Sys2Proof.Machine
end

