-- ==== Sys2Proof/Machine/Register.lean ====
section
/-! DEFINITION. The Register family (spec/41_register.md): the shadow registers of either bank (R47). No operation of
this family emits an event. -/

namespace Sys2Proof.Machine

/-- The body of REG.DECODE (R91). -/
def regDecode (d : DevIx) (r : RegName) (w : Word) : Op Unit := modify (fun s => s.decodeReg d r w)

/-- The body of REG.SETF (R95): `UnknownField` is raised before any cell changes. -/
def regSetf (d : DevIx) (r : RegName) (f : FldName) (v : Word) : Op Unit := do
  if ((← get).cfg.field? r f).isNone then raise .unknownField
  modify (fun s => s.setCell d r f v)

/-- The body of REG.GETF (R96): the cell as stored. -/
def regGetf (d : DevIx) (r : RegName) (f : FldName) : Op Word := do
  if ((← get).cfg.field? r f).isNone then raise .unknownField
  return (← get).getCell d r f

/-- REG.DECODE (R91). -/
def execRegDecode (d : DevIx) (r : RegName) (word : Word) (s : State) : Host.Outcome State Fault Refusal :=
  accept (.regDecode d r word) (s.badReg d r) (do regDecode d r word; return .none) s

/-- REG.ENCODE (R92): no cell changes. -/
def execRegEncode (d : DevIx) (r : RegName) (s : State) : Host.Outcome State Fault Refusal :=
  accept (.regEncode d r) (s.badReg d r) (do return .word ((← get).encodeReg d r)) s

/-- REG.WIRE (R94): the little-endian image of REG.ENCODE. -/
def execRegWire (d : DevIx) (r : RegName) (s : State) : Host.Outcome State Fault Refusal :=
  accept (.regWire d r) (s.badReg d r) (do return .bytes (leBytes ((← get).encodeReg d r))) s

/-- REG.SETF (R95). -/
def execRegSetf (d : DevIx) (r : RegName) (f : FldName) (value : Word) (s : State) : Host.Outcome State Fault Refusal :=
  accept (.regSetf d r f value) (s.badSetf d r f value) (do regSetf d r f value; return .none) s

/-- REG.GETF (R96). -/
def execRegGetf (d : DevIx) (r : RegName) (f : FldName) (s : State) : Host.Outcome State Fault Refusal :=
  accept (.regGetf d r f) (s.badReg d r) (do return .word (← regGetf d r f)) s

end Sys2Proof.Machine
end

