-- ==== Sys2Proof/Machine/Transport.lean ====
section
/-! DEFINITION. The Transport family (spec/43_transport.md): the half-duplex framer and the latch-and-poll handshake.
Only these operations, and those built on them, emit transport events. -/

namespace Sys2Proof.Machine

/-- XFER (R111): one transaction, six events. -/
def xfer (d : DevIx) (cmd : List Byte) (n : Nat) : Op (List Byte) := do
  drive d false
  emit (.tx cmd)
  drive d true
  drive d false
  let reply ← rx n
  drive d true
  return reply

/-- The errors of a reply for which `n` bytes were expected, in their order (R113, R161, R162, R172): its length
first, then its CRC when there is one. -/
def replyError (n : Nat) (reply : List Byte) : Option Err :=
  if reply.length ≠ n then some .shortReply
  else if n = 5 ∧ crc8Seq (reply.take 4) ≠ reply.getD 4 0 then some .crcMismatch
  else none

/-- Check a reply: an error is raised with nothing decoded (R113). -/
def checkReply (n : Nat) (reply : List Byte) : Op Unit :=
  match replyError n reply with
  | some e => raise e
  | none => pure ()

/-- What RDREG does with the reply it received (R113, R114): check it, decode it into the shadow register, and compare
the CRC-enable bit with the intended one when the register is `UART_REG`. -/
def acceptReply (d : DevIx) (r : RegName) (n : Nat) (reply : List Byte) : Op Unit := do
  checkReply n reply
  regDecode d r (rword (← get).cfg.readDataBytes reply)
  checkDrift d r

/-- The body of RDREG (R113). `flen(d)` is taken once, before the transaction (R110). -/
def rdreg (d : DevIx) (r : RegName) : Op Unit := do
  let s ← get
  let n := s.flen d
  let reply ← xfer d (frame n (readBody (s.cfg.addr r))) n
  acceptReply d r n reply

/-- One write transaction (R116): its reply is received and dropped. -/
def writeHalf (d : DevIx) (wa lsb msb : Byte) : Op Unit := do
  let n := (← get).flen d
  let _ ← xfer d (frame n (writeBody wa lsb msb)) n
  return ()

/-- The body of WRREG (R116): the high half to `address + 1`, then the low half to `address`. -/
def wrreg (d : DevIx) (r : RegName) : Op Unit := do
  let s ← get
  let w := s.encodeReg d r
  let a := s.cfg.addr r
  writeHalf d (a + 1) (wordByte w 2) (wordByte w 3)
  writeHalf d a (wordByte w 0) (wordByte w 1)

/-- Set one latch bit in the shadow when its channel is requested (R119). -/
def requestLatch (d : DevIx) (channel : Bool) (f : FldName) : Op Unit := do
  if channel then regSetf d (← get).cfg.latchReg f 1

/-- Whether a channel is done: not requested, or its latch bit reads 0 (R119). -/
def State.latchDone (s : State) (d : DevIx) (channel : Bool) (f : FldName) : Bool :=
  !channel || (s.getCell d s.cfg.latchReg f) &&& 1 == 0

/-- One poll (R119): RDREG of `LATCH_REG`; when it raises, the handshake is abandoned with the same error. -/
def poll (d : DevIx) : Op Unit := do
  let s ← get
  onRaise (rdreg d s.cfg.latchReg) (fun t => t.setLatch d .idle)
  modify (fun t => { t with pollCount := t.pollCount + 1 })

/-- The poll loop of LATCH (R119), by the number of polls left in the budget: `timeout_iterations - poll_count`. -/
def pollLoop (d : DevIx) (channel1 channel2 : Bool) (interval : Word) : Nat → Op Unit
  | 0 => do
    modify (fun s => s.setLatch d .timedOut)
    raise .latchTimeout
  | left + 1 => do
    if ← sampleCancel then
      modify (fun s => s.setLatch d .idle)
      raise .cancelled
    poll d
    let s ← get
    if s.latchDone d channel1 s.cfg.latchF1 && s.latchDone d channel2 s.cfg.latchF2 then
      modify (fun t => t.setLatch d .latched)
    else
      if left ≠ 0 then emit (.sleep interval)
      pollLoop d channel1 channel2 interval left

/-- The body of LATCH (R119). -/
def latch (d : DevIx) (channel1 channel2 : Bool) (timeout interval : Word) : Op Unit := do
  let c := (← get).cfg
  requestLatch d channel1 c.latchF1
  requestLatch d channel2 c.latchF2
  modify (fun s => s.setLatch d .requested)
  wrreg d c.latchReg
  modify (fun s => { s.setLatch d .polling with pollCount := 0 })
  pollLoop d channel1 channel2 interval timeout.toNat

/-- XFER (R111). Only RDREG and WRREG issue it, never the host; run by itself it is one transaction with a frame that they
could send at this moment (log 4). -/
def execXfer (d : DevIx) (cmd : List Byte) (n : Nat) (s : State) : Host.Outcome State Fault Refusal :=
  accept (.xfer d cmd n) (s.badFrame d cmd n) (do return .bytes (← xfer d cmd n)) s

/-- RDREG (R113). -/
def execRdreg (d : DevIx) (r : RegName) (s : State) : Host.Outcome State Fault Refusal :=
  accept (.rdreg d r) (s.badReg d r) (do rdreg d r; return .none) s

/-- WRREG (R116). -/
def execWrreg (d : DevIx) (r : RegName) (s : State) : Host.Outcome State Fault Refusal :=
  accept (.wrreg d r) (s.badCtrl d r) (do wrreg d r; return .none) s

/-- LATCH (R119). -/
def execLatch (d : DevIx) (channel1 channel2 : Bool) (timeout interval : Word) (s : State) :
    Host.Outcome State Fault Refusal :=
  accept (.latch d channel1 channel2 timeout interval) (s.badDev d)
    (do latch d channel1 channel2 timeout interval; return .none) s

/-- CRCINTEND (R124): no event, no frame length changes. -/
def execCrcintend (d : DevIx) (enabled : Bool) (s : State) : Host.Outcome State Fault Refusal :=
  accept (.crcintend d enabled) (s.badDev d)
    (do modify (fun t => (t.setIntended d enabled).setWarn d false); return .none) s

end Sys2Proof.Machine
end

