-- ==== Sys2Proof/Machine/Calibration.lean ====
section
/-! DEFINITION. The Calibration family (spec/44_calibration.md): the slope-and-intercept gain, the two conversions, the
derivation of calibration codes, and CALSET. Each formula stands twice: as an exact fraction (R135 item 1) and as
binary64 operations in the written order (R135 item 2); `NUMERICS` selects. -/

namespace Sys2Proof.Machine

/-! ### Constants (R130) -/

/-- `Vref`. -/
def vref : Frac := ⟨118, 100⟩

/-- `R1`. -/
def res1 : Frac := ⟨998000, 1⟩

/-- `R2`. -/
def res2 : Frac := ⟨499, 1⟩

/-- `AV`. -/
def gainAV : Frac := ⟨2, 1⟩

/-- `AI`. -/
def gainAI : Frac := ⟨2, 1⟩

/-- `ks`. -/
def sensorK : Frac := ⟨3115264797, 100000000000⟩

/-- `kint`. -/
def integK : Frac := ⟨1, 1⟩

/-- `2^15`. -/
def two15 : Frac := ⟨32768, 1⟩

/-- `2^17`. -/
def two17 : Frac := ⟨131072, 1⟩

/-- A constant as binary64. -/
def lit (a : Frac) : F64 := F64.ofFrac false a

/-- `1 + R1/R2`, exactly. -/
def dividerFrac : Frac := (Frac.ofInt 1).add (res1.div res2)

/-- `1 + R1/R2` in binary64. -/
def divider : F64 := (lit (.ofInt 1)).add ((lit res1).div (lit res2))

/-! ### GAIN, VCONV, ICONV -/

/-- `GAIN(code) = 0.125 * (code / 2048.0) + 0.75`, exactly (R132). -/
def gainFrac (code : Code) : Frac :=
  ((⟨125, 1000⟩ : Frac).mul ((Frac.ofInt code.toInt).div (.ofInt 2048))).add ⟨75, 100⟩

/-- GAIN in binary64 (R132); every step is exact, so `NUMERICS` makes no difference. -/
def gain (code : Code) : F64 :=
  ((lit ⟨125, 1000⟩).mul ((F64.ofInt code.toInt).div (lit (.ofInt 2048)))).add (lit ⟨75, 100⟩)

/-- VCONV as an exact fraction (R133). -/
def vconvFrac (raw : Word) (code : Code) : Frac :=
  (((Frac.ofInt raw.toNat).mul vref).mul dividerFrac).div (((gainFrac code).mul gainAV).mul two15)

/-- VCONV in binary64: `((raw * Vref) * (1 + R1/R2)) / ((g * AV) * 32768)` (R135 item 2). -/
def vconv64 (raw : Word) (code : Code) : F64 :=
  (((F64.ofInt raw.toNat).mul (lit vref)).mul divider).div (((gain code).mul (lit gainAV)).mul (lit two15))

/-- ICONV as an exact fraction (R134). -/
def iconvFrac (raw : Word) (code : Code) : Frac :=
  ((Frac.ofInt raw.toNat).mul vref).div (((((gainFrac code).mul gainAI).mul two17).mul sensorK).mul integK)

/-- ICONV in binary64: `(raw * Vref) / ((((g * AI) * 131072) * ks) * kint)` (R135 item 2). -/
def iconv64 (raw : Word) (code : Code) : F64 :=
  ((F64.ofInt raw.toNat).mul (lit vref)).div
    (((((gain code).mul (lit gainAI)).mul (lit two17)).mul (lit sensorK)).mul (lit integK))

/-- A conversion under `NUMERICS` (R135): where the gain is 0 the binary64 quotient is the only one there is (U3). -/
def evaluate (n : Numerics) (code : Code) (exact : Frac) (rounded : F64) : F64 :=
  match n with
  | .binary64 => rounded
  | .exact => if (gainFrac code).isZero then rounded else F64.ofFrac false exact

/-- VCONV (R133, R135). -/
def vconv (n : Numerics) (raw : Word) (code : Code) : F64 := evaluate n code (vconvFrac raw code) (vconv64 raw code)

/-- ICONV (R134, R135). -/
def iconv (n : Numerics) (raw : Word) (code : Code) : F64 := evaluate n code (iconvFrac raw code) (iconv64 raw code)

/-- The conversions' one operand check: a gain of 0, refused only under `ZeroGain.refuse` (R135 item 4, U3; log 9). -/
def State.badGain (s : State) (code : Code) : Option Refusal :=
  if s.cfg.zeroGain = .refuse ∧ (gain code).isZero then some .zeroGain else none

/-! ### CALDRV -/

/-- An exact fraction of a binary64 operand; 0 where it is not finite. -/
def F64.fracD (a : F64) : Frac := (a.frac?).getD ⟨0, 1⟩

/-- `Xv` exactly (R137). -/
def targetVFrac (nominal : F64) (prior : Code) : Frac :=
  (((nominal.fracD.mul (gainFrac prior)).mul gainAV).mul two15).div (vref.mul dividerFrac)

/-- `Xv` in binary64, left to right (R137). -/
def targetV (nominal : F64) (prior : Code) : F64 :=
  (((nominal.mul (gain prior)).mul (lit gainAV)).mul (lit two15)).div ((lit vref).mul divider)

/-- `Xi` exactly (R137). -/
def targetIFrac (nominal : F64) (prior : Code) : Frac :=
  (((((nominal.fracD.mul (gainFrac prior)).mul gainAI).mul two17).mul sensorK).mul integK).div vref

/-- `Xi` in binary64, left to right (R137). -/
def targetI (nominal : F64) (prior : Code) : F64 :=
  (((((nominal.mul (gain prior)).mul (lit gainAI)).mul (lit two17)).mul (lit sensorK)).mul (lit integK)).div (lit vref)

/-- `trunc0(14336 * (X / average) - 12288)` exactly (R136). -/
def lawFrac (x : Frac) (average : F64) : Int :=
  (((Frac.ofInt 14336).mul (x.div average.fracD)).sub (.ofInt 12288)).trunc0

/-- The same in binary64; nothing where the value is not finite (R136). -/
def law (x average : F64) : Option Int :=
  (((lit (.ofInt 14336)).mul (x.div average)).sub (lit (.ofInt 12288))).trunc0?

/-- An integer that fits an `i16`, as a code (R136). -/
def toCode (n : Int) : Option Code := if -32768 ≤ n ∧ n ≤ 32767 then some (BitVec.ofInt 16 n) else none

/-- One derived code; nothing when an operand is not finite, the average is 0, or the value does not fit an `i16`
(R136, U4). -/
def deriveCode (n : Numerics) (nominal average x : F64) (xFrac : Frac) : Option Code :=
  if nominal.isFinite && average.isFinite && !average.isZero then
    match n with
    | .binary64 => (law x average).bind toCode
    | .exact => toCode (lawFrac xFrac average)
  else none

/-- `cv` (R136). -/
def deriveV (n : Numerics) (nominal average : F64) (prior : Code) : Option Code :=
  deriveCode n nominal average (targetV nominal prior) (targetVFrac nominal prior)

/-- `ci` (R136). -/
def deriveI (n : Numerics) (nominal average : F64) (prior : Code) : Option Code :=
  deriveCode n nominal average (targetI nominal prior) (targetIFrac nominal prior)

/-- CALDRV's domain: where either code has no value the call has no result, and is refused (R136, U4). -/
def badDerive (cv ci : Option Code) : Option Refusal :=
  if cv.isSome && ci.isSome then none else some .caldrvDomain

/-! ### CALSET -/

/-- The body of CALSET (R140): four cells, four register writes, the persisted record. -/
def calset (d : DevIx) (v1 i1 v2 i2 : Code) : Op Unit := do
  let c := (← get).cfg
  regSetf d c.calV1.reg c.calV1.fld (fieldOf v1)
  regSetf d c.calI1.reg c.calI1.fld (fieldOf i1)
  regSetf d c.calV2.reg c.calV2.fld (fieldOf v2)
  regSetf d c.calI2.reg c.calI2.fld (fieldOf i2)
  wrreg d c.calV1.reg
  wrreg d c.calI1.reg
  wrreg d c.calV2.reg
  wrreg d c.calI2.reg
  emit (.persist d v1 i1 v2 i2)

/-! ### The meanings -/

/-- GAIN (R132). -/
def execGain (code : Code) (s : State) : Host.Outcome State Fault Refusal :=
  accept (.gain code) none (pure (.real (gain code))) s

/-- VCONV (R133). -/
def execVconv (raw : Word) (code : Code) (s : State) : Host.Outcome State Fault Refusal :=
  accept (.vconv raw code) (s.badGain code) (pure (.real (vconv s.cfg.numerics raw code))) s

/-- ICONV (R134). -/
def execIconv (raw : Word) (code : Code) (s : State) : Host.Outcome State Fault Refusal :=
  accept (.iconv raw code) (s.badGain code) (pure (.real (iconv s.cfg.numerics raw code))) s

/-- CALDRV (R136). It answers only when both codes have a value. -/
def execCaldrv (nomV nomI avgV avgI : Bits64) (priorV priorI : Code) (s : State) : Host.Outcome State Fault Refusal :=
  let cv := deriveV s.cfg.numerics (.ofBits nomV) (.ofBits avgV) priorV
  let ci := deriveI s.cfg.numerics (.ofBits nomI) (.ofBits avgI) priorI
  accept (.caldrv nomV nomI avgV avgI priorV priorI) (badDerive cv ci) (pure (.codes (cv.getD 0) (ci.getD 0))) s

/-- CALSET (R140). -/
def execCalset (d : DevIx) (v1 i1 v2 i2 : Code) (s : State) : Host.Outcome State Fault Refusal :=
  accept (.calset d v1 i1 v2 i2) (s.badDev d) (do calset d v1 i1 v2 i2; return .none) s

end Sys2Proof.Machine
end

