-- ==== Sys2Proof/Machine/Facade.lean ====
section
/-! DEFINITION. The Facade family (spec/45_facade.md): sequences of operations of the other families, each ending at
the first error (R150). -/

namespace Sys2Proof.Machine

/-- RDREG of each register of a list, in order (R153). -/
def readAll (d : DevIx) : List RegName → Op Unit
  | [] => pure ()
  | r :: rs => do
    rdreg d r
    readAll d rs

/-- REG.ENCODE, then WRREG, of each register of a list; the intended words in order (R152). -/
def writeAll (d : DevIx) : List RegName → Op (List (RegName × Word))
  | [] => pure []
  | r :: rs => do
    let w := (← get).encodeReg d r
    wrreg d r
    let rest ← writeAll d rs
    return (r, w) :: rest

/-- The registers whose word is no longer the intended one, in order (R152). -/
def State.driftedRegs (s : State) (d : DevIx) (intended : List (RegName × Word)) : List RegName :=
  (intended.filter (fun p => s.encodeReg d p.1 != p.2)).map Prod.fst

/-- The body of RDBOTH (R151). -/
def rdboth (d : DevIx) (timeout interval : Word) : Op Value := do
  latch d true true timeout interval
  let c := (← get).cfg
  rdreg d c.rms1.reg
  rdreg d c.rms2.reg
  let s ← get
  let v1 := vconv c.numerics (← regGetf d c.rms1.reg c.rms1.vFld) (s.calCode d c.calV1)
  let i1 := iconv c.numerics (← regGetf d c.rms1.reg c.rms1.iFld) (s.calCode d c.calI1)
  let v2 := vconv c.numerics (← regGetf d c.rms2.reg c.rms2.vFld) (s.calCode d c.calV2)
  let i2 := iconv c.numerics (← regGetf d c.rms2.reg c.rms2.iFld) (s.calCode d c.calI2)
  return .reals v1 i1 v2 i2

/-- The body of CFGREAD (R153). -/
def cfgread (d : DevIx) : Op Unit := do readAll d (← get).cfg.ctrl

/-- The body of CFGAPPLY (R152): bulk write, read-back, the drifted registers. -/
def cfgapply (d : DevIx) : Op Value := do
  let intended ← writeAll d (← get).cfg.ctrl
  cfgread d
  return .regs ((← get).driftedRegs d intended)

/-- RDBOTH (R151). -/
def execRdboth (d : DevIx) (timeout interval : Word) (s : State) : Host.Outcome State Fault Refusal :=
  accept (.rdboth d timeout interval) (s.badDev d) (rdboth d timeout interval) s

/-- CFGAPPLY (R152). -/
def execCfgapply (d : DevIx) (s : State) : Host.Outcome State Fault Refusal :=
  accept (.cfgapply d) (s.badDev d) (cfgapply d) s

/-- CFGREAD (R153). -/
def execCfgread (d : DevIx) (s : State) : Host.Outcome State Fault Refusal :=
  accept (.cfgread d) (s.badDev d) (do cfgread d; return .none) s

end Sys2Proof.Machine
end

