-- ==== Sys2Proof/Machine/Frames.lean ====
section
/-! DEFINITION. The wire frames (spec/30_encoding.md R60 to R67, R72) as operations (log 4): a command frame is the one
transaction that carries it, `MemRead(d, a, 4)` or `MemWrite(d, a, 2, h)` of spec/00_scope.md R9; a reply frame is what
the block does on receiving it (R113). A frame of 4 bytes makes a transaction only while `flen(d)` is 4, one of 5 only
while it is 5, and the reply is as long as the frame (R60). -/

namespace Sys2Proof.Machine

/-- `MemRead` (R9): one read transaction, its reply checked as RDREG checks it, the word yielded and no shadow
register changed. -/
def memRead (d : DevIx) (cmd : List Byte) : Op Value := do
  let reply ← xfer d cmd cmd.length
  checkReply cmd.length reply
  return .word (rword (← get).cfg.readDataBytes reply)

/-- `MemWrite` (R9): one write transaction, its reply dropped (R116). -/
def memWrite (d : DevIx) (cmd : List Byte) : Op Value := do
  let _ ← xfer d cmd cmd.length
  return .none

/-- A reply received for a register: a length other than `flen(d)` is `ShortReply` (R69 (d)), and the rest as RDREG
does it (R113). -/
def receive (d : DevIx) (reg : RegName) (reply : List Byte) : Op Value := do
  acceptReply d reg ((← get).flen d) reply
  return .none

/-- CMD.RD4 (R62). -/
def execCmdRd4 (d : DevIx) (a : Byte) (s : State) : Host.Outcome State Fault Refusal :=
  accept (.cmdRd4 d a) (s.badFrame d (readBody a) 4) (memRead d (readBody a)) s

/-- CMD.RD5 (R62). -/
def execCmdRd5 (d : DevIx) (a c : Byte) (s : State) : Host.Outcome State Fault Refusal :=
  accept (.cmdRd5 d a c) (s.badFrame d (readBody a ++ [c]) 5) (memRead d (readBody a ++ [c])) s

/-- CMD.WR4 (R63). -/
def execCmdWr4 (d : DevIx) (r w l m : Byte) (s : State) : Host.Outcome State Fault Refusal :=
  accept (.cmdWr4 d r w l m) (s.badFrame d [r, w, l, m] 4) (memWrite d [r, w, l, m]) s

/-- CMD.WR5 (R63). -/
def execCmdWr5 (d : DevIx) (r w l m c : Byte) (s : State) : Host.Outcome State Fault Refusal :=
  accept (.cmdWr5 d r w l m c) (s.badFrame d [r, w, l, m, c] 5) (memWrite d [r, w, l, m, c]) s

/-- RPL4 (R65). -/
def execRpl4 (d : DevIx) (reg : RegName) (b0 b1 b2 b3 : Byte) (s : State) : Host.Outcome State Fault Refusal :=
  accept (.rpl4 d reg b0 b1 b2 b3) (s.badReg d reg) (receive d reg [b0, b1, b2, b3]) s

/-- RPL5 (R65). -/
def execRpl5 (d : DevIx) (reg : RegName) (b0 b1 b2 b3 rcrc : Byte) (s : State) : Host.Outcome State Fault Refusal :=
  accept (.rpl5 d reg b0 b1 b2 b3 rcrc) (s.badReg d reg) (receive d reg [b0, b1, b2, b3, rcrc]) s

end Sys2Proof.Machine
end

