-- ==== Sys2Proof/Machine/Dispatch.lean ====
section
/-! DEFINITION. One arm per operation. -/

namespace Sys2Proof.Machine

/-- The meaning of each operation (spec/30_encoding.md R70, R72). -/
def exec (i : Instr) (s : State) : Host.Outcome State Fault Refusal :=
  match i with
  | .bfDecode f word => Sys2Proof.Machine.execBfDecode f word s
  | .bfEncode f value wordIn => Sys2Proof.Machine.execBfEncode f value wordIn s
  | .regDecode d r word => Sys2Proof.Machine.execRegDecode d r word s
  | .regEncode d r => Sys2Proof.Machine.execRegEncode d r s
  | .regWire d r => Sys2Proof.Machine.execRegWire d r s
  | .regSetf d r f value => Sys2Proof.Machine.execRegSetf d r f value s
  | .regGetf d r f => Sys2Proof.Machine.execRegGetf d r f s
  | .crc8Byte rem byte => Sys2Proof.Machine.execCrc8Byte rem byte s
  | .crc8Seq bytes => Sys2Proof.Machine.execCrc8Seq bytes s
  | .crc8Check b0 b1 b2 b3 b4 => Sys2Proof.Machine.execCrc8Check b0 b1 b2 b3 b4 s
  | .xfer d cmd n => Sys2Proof.Machine.execXfer d cmd n s
  | .rdreg d r => Sys2Proof.Machine.execRdreg d r s
  | .wrreg d r => Sys2Proof.Machine.execWrreg d r s
  | .latch d channel1 channel2 timeout interval => Sys2Proof.Machine.execLatch d channel1 channel2 timeout interval s
  | .crcintend d enabled => Sys2Proof.Machine.execCrcintend d enabled s
  | .gain code => Sys2Proof.Machine.execGain code s
  | .vconv raw code => Sys2Proof.Machine.execVconv raw code s
  | .iconv raw code => Sys2Proof.Machine.execIconv raw code s
  | .caldrv nomV nomI avgV avgI priorV priorI => Sys2Proof.Machine.execCaldrv nomV nomI avgV avgI priorV priorI s
  | .calset d v1 i1 v2 i2 => Sys2Proof.Machine.execCalset d v1 i1 v2 i2 s
  | .rdboth d timeout interval => Sys2Proof.Machine.execRdboth d timeout interval s
  | .cfgapply d => Sys2Proof.Machine.execCfgapply d s
  | .cfgread d => Sys2Proof.Machine.execCfgread d s
  | .cmdRd4 d a => Sys2Proof.Machine.execCmdRd4 d a s
  | .cmdRd5 d a c => Sys2Proof.Machine.execCmdRd5 d a c s
  | .cmdWr4 d r w l m => Sys2Proof.Machine.execCmdWr4 d r w l m s
  | .cmdWr5 d r w l m c => Sys2Proof.Machine.execCmdWr5 d r w l m c s
  | .rpl4 d reg b0 b1 b2 b3 => Sys2Proof.Machine.execRpl4 d reg b0 b1 b2 b3 s
  | .rpl5 d reg b0 b1 b2 b3 rcrc => Sys2Proof.Machine.execRpl5 d reg b0 b1 b2 b3 rcrc s

end Sys2Proof.Machine
end

