-- ==== Sys2Proof/Machine/Step.lean ====
section
/-! DEFINITION. One step of the block: reset when its input asks for it, else the next request of the host port, whole
(spec/10_state.md R20: an operation's rule is run from its first line to a return or a raise). With no request the
block waits in `Idle` (spec/70_reset_and_hazards.md R191). The start of a step is one of the moments at which reset can
land (R190; log 6). -/

namespace Sys2Proof.Machine

/-- One step. -/
def step (s : State) : Host.Outcome State Fault Refusal :=
  if s.resetNow then .next s.applyReset
  else
    match s.port with
    | [] => .next s.pass
    | q :: rest =>
      match decode q with
      | .error e => .refused (.undecodable e)
      | .ok i => if i.wf then exec i { s.pass with port := rest } else .refused .illFormed

/-- The device and the length of the frame a request is on the link, or inside the block on its way there. -/
def frame? (q : Request) : Option (DevIx × Nat) :=
  match q.port, q.bytes with
  | .host, _ => none
  | .internal, _ :: d :: _ :: cmd => some (d, cmd.length)
  | .internal, _ => none
  | .command d, bytes => some (d, bytes.length)
  | .reply d _, bytes => some (d, bytes.length)

/-- The state with the shadow of device `d` in the CRC mode whose frames have `n` bytes (R110). -/
def State.inMode (s : State) (d : DevIx) (n : Nat) : State :=
  if s.flen d = n then s else s.setCell d s.cfg.uartReg s.cfg.crcEnF (if n = 5 then 1 else 0)

/-- The state with an operation's request placed where the next step takes it from: the front of the port. A frame exists
only in the CRC mode that gives its length (R60), so the shadow of its device is put in that mode (log 7). -/
def State.withFetchWord (s : State) (nbits w : Nat) : State :=
  let q := tableRequest nbits w
  let t := match frame? q with
    | some (d, n) => s.inMode d n
    | none => s
  { t with port := q :: s.port }

end Sys2Proof.Machine
end

