-- ==== Sys2Proof/Safety.lean ====
section
/-! DEFINITION. The terms in which claims about the block are stated: when it can take an operation, what an operation
names, the shape of its shadow file, what a quiet link is, and the events of one transaction. -/

namespace Sys2Proof

/-- The device an operation acts on, if it acts on one. -/
def Instr.dev? : Instr → Option DevIx
  | .bfDecode _ _ => none
  | .bfEncode _ _ _ => none
  | .regDecode d _ _ => some d
  | .regEncode d _ => some d
  | .regWire d _ => some d
  | .regSetf d _ _ _ => some d
  | .regGetf d _ _ => some d
  | .crc8Byte _ _ => none
  | .crc8Seq _ => none
  | .crc8Check _ _ _ _ _ => none
  | .xfer d _ _ => some d
  | .rdreg d _ => some d
  | .wrreg d _ => some d
  | .latch d _ _ _ _ => some d
  | .crcintend d _ => some d
  | .gain _ => none
  | .vconv _ _ => none
  | .iconv _ _ => none
  | .caldrv _ _ _ _ _ _ => none
  | .calset d _ _ _ _ => some d
  | .rdboth d _ _ => some d
  | .cfgapply d => some d
  | .cfgread d => some d
  | .cmdRd4 d _ => some d
  | .cmdRd5 d _ _ => some d
  | .cmdWr4 d _ _ _ _ => some d
  | .cmdWr5 d _ _ _ _ _ => some d
  | .rpl4 d _ _ _ _ _ => some d
  | .rpl5 d _ _ _ _ _ _ => some d

/-- Whether the host may issue the operation: not the internal XFER and not a wire frame (R70, R111). -/
def Instr.fromHost : Instr → Bool
  | .bfDecode _ _ => true
  | .bfEncode _ _ _ => true
  | .regDecode _ _ _ => true
  | .regEncode _ _ => true
  | .regWire _ _ => true
  | .regSetf _ _ _ _ => true
  | .regGetf _ _ _ => true
  | .crc8Byte _ _ => true
  | .crc8Seq _ => true
  | .crc8Check _ _ _ _ _ => true
  | .xfer _ _ _ => false
  | .rdreg _ _ => true
  | .wrreg _ _ => true
  | .latch _ _ _ _ _ => true
  | .crcintend _ _ => true
  | .gain _ => true
  | .vconv _ _ => true
  | .iconv _ _ => true
  | .caldrv _ _ _ _ _ _ => true
  | .calset _ _ _ _ _ => true
  | .rdboth _ _ _ => true
  | .cfgapply _ => true
  | .cfgread _ => true
  | .cmdRd4 _ _ => false
  | .cmdRd5 _ _ _ => false
  | .cmdWr4 _ _ _ _ _ => false
  | .cmdWr5 _ _ _ _ _ _ => false
  | .rpl4 _ _ _ _ _ _ => false
  | .rpl5 _ _ _ _ _ _ _ => false

/-- The frame length after registers were read with replies that passed their checks, from the length before: a reply of
`UART_REG` decides it, no other does (R110, R113, R153, R205). -/
def Config.lengthAfter (c : Config) (n : Nat) : List (RegName × List Byte) → Nat
  | [] => n
  | (r, reply) :: rest =>
    c.lengthAfter
      (if r = c.uartReg then
        (if (c.field? r c.crcEnF).any (fun fd => Machine.bfDecode fd.bits (Machine.rword c.readDataBytes reply) &&& 1 == 1)
          then 5 else 4)
      else n) rest

/-- The replies of registers read one after another all pass their checks, each in the mode those before it have left. -/
def Config.readsWell (c : Config) (n : Nat) : List (RegName × List Byte) → Bool
  | [] => true
  | p :: rest => (Machine.replyError n p.2).isNone && c.readsWell (c.lengthAfter n [p]) rest

/-- The frames sent to read registers one after another, each in the mode the replies before it have left. -/
def Config.readFrames (c : Config) (n : Nat) : List (RegName × List Byte) → List (List Byte)
  | [] => []
  | p :: rest => Machine.frame n (Machine.readBody (c.addr p.1)) :: c.readFrames (c.lengthAfter n [p]) rest

/-- A poll reply shows the latch bit of field `f` set (R119). -/
def Config.showsBit (c : Config) (f : FldName) (reply : List Byte) : Bool :=
  (c.field? c.latchReg f).any (fun fd => Machine.bfDecode fd.bits (Machine.rword c.readDataBytes reply) &&& 1 == 1)

/-- A poll reply shows the latch bit of some requested channel set (R119). -/
def Config.showsLatch (c : Config) (channel1 channel2 : Bool) (reply : List Byte) : Bool :=
  (channel1 && c.showsBit c.latchF1 reply) || (channel2 && c.showsBit c.latchF2 reply)

end Sys2Proof

namespace Sys2Proof.Machine

/-- The block can take an operation: the sequencer is idle and the catalog admitted (R13, R20). -/
def State.Ready (s : State) : Prop := s.seq = .idle ∧ s.cfg.admitted = true

/-- The reset input is not applied from here on (R190). -/
def State.NoReset (s : State) : Prop := s.resets = []

/-- The device index is below `NDEV` (R166). -/
def State.HasDev (s : State) (d : DevIx) : Prop := d.toNat < s.cfg.ndev

/-- The shadow files have one cell for each field of each catalog register, and there is one for each device (R11). -/
def State.Shaped (s : State) : Prop :=
  s.devs.length = s.cfg.ndev ∧
    ∀ v ∈ s.devs, v.fv.map List.length = s.cfg.catalog.map (fun r => r.fields.length)

/-- Nothing is in flight: the sequencer is idle and every select line is high (R21, R112). -/
def State.Quiet (s : State) : Prop := s.seq = .idle ∧ ∀ v ∈ s.devs, v.csN = true

/-- The block's invariant between operations. -/
def State.Inv (s : State) : Prop := s.Shaped ∧ s.Quiet

/-- Everything but the result list, the sequencer and the shadow cells is the same in two states. -/
def State.SameButCells (s t : State) : Prop :=
  t.cfg = s.cfg ∧ t.pollCount = s.pollCount ∧ t.trace = s.trace ∧ t.port = s.port ∧ t.replies = s.replies ∧
    t.cancels = s.cancels ∧ t.resets = s.resets ∧ t.draws = s.draws ∧ t.devs.length = s.devs.length ∧
    ∀ d, (t.dev d).crcIntended = (s.dev d).crcIntended ∧ (t.dev d).csN = (s.dev d).csN ∧
      (t.dev d).latch = (s.dev d).latch ∧ (t.dev d).warnDrift = (s.dev d).warnDrift

/-- The events of one transaction, in order (R111). -/
def transaction (d : DevIx) (cmd : List Byte) (n : Nat) (reply : List Byte) : List Event :=
  [.csAssert d, .tx cmd, .csDeassert d, .csAssert d, .rx n fillByte reply, .csDeassert d]

/-- The state after one transaction on device `d` whose command frame is `cmd` and in which `n` bytes are asked for:
its events on the trace, its answer taken from the device side, its line high, and nothing else changed (R111). -/
def State.withTransaction (s : State) (d : DevIx) (cmd : List Byte) (n : Nat) : State :=
  { s.setCsN d true with
    trace := s.trace ++ transaction d cmd n s.nextReply.1
    replies := s.nextReply.2.replies
    draws := s.nextReply.2.draws }

/-- The read frame of a register as the block sends it to device `d` now (R62, R110). -/
def State.readFrame (s : State) (d : DevIx) (r : RegName) : List Byte := frame (s.flen d) (readBody (s.cfg.addr r))

/-- The two write frames of a register as the block sends them to device `d` now, high half first (R116). -/
def State.writeFrames (s : State) (d : DevIx) (r : RegName) : List (List Byte) :=
  let w := s.encodeReg d r
  let a := s.cfg.addr r
  [frame (s.flen d) (writeBody (a + 1) (wordByte w 2) (wordByte w 3)),
   frame (s.flen d) (writeBody a (wordByte w 0) (wordByte w 1))]

/-- A command frame the block could send to device `d` now: the read frame of a catalog register, or a write frame of a
half of a control register (R62, R63, R69, R110). -/
def State.forms (s : State) (d : DevIx) (cmd : List Byte) : Prop :=
  (∃ r, s.cfg.hasReg r = true ∧ cmd = s.readFrame d r) ∨
  (∃ r wa l m, s.cfg.isControl r = true ∧ (wa = s.cfg.addr r ∨ wa = s.cfg.addr r + 1) ∧
    cmd = frame (s.flen d) (writeBody wa l m))

/-- The state with the latch bits of the requested channels set in the shadow (R119). -/
def State.withLatchBits (s : State) (d : DevIx) (channel1 channel2 : Bool) : State :=
  let s1 := if channel1 then s.setCell d s.cfg.latchReg s.cfg.latchF1 1 else s
  if channel2 then s1.setCell d s.cfg.latchReg s.cfg.latchF2 1 else s1

/-- The next `n` samples of the cancel input are low, where the input exists (R167, R171). -/
def State.noCancel (s : State) (n : Nat) : Prop := s.cfg.hasCancel = true → ∃ rest, s.cancels = List.replicate n false ++ rest

/-- One shift of the remainder in R101's own words. -/
def crcStep (r : Byte) : Byte := if r.getLsbD 7 then (r <<< 1) ^^^ 0x07 else r <<< 1

/-- The intervals of the `SLEEP` events among some events. -/
def sleeps : List Event → List Word
  | [] => []
  | .sleep iv :: rest => iv :: sleeps rest
  | _ :: rest => sleeps rest

/-- Select-line discipline of a run of events (R112): whole transactions, each on one device, and between them only
events that touch no line. -/
def disciplined : List Event → Bool
  | [] => true
  | .csAssert a :: .tx _ :: .csDeassert b :: .csAssert c :: .rx _ _ _ :: .csDeassert e :: rest =>
    a == b && b == c && c == e && disciplined rest
  | .sleep _ :: rest => disciplined rest
  | .warn _ _ :: rest => disciplined rest
  | .persist _ _ _ _ _ :: rest => disciplined rest
  | _ => false

/-- The bytes of the command frames among some events, in order. -/
def framesSent : List Event → List (List Byte)
  | [] => []
  | .tx b :: rest => b :: framesSent rest
  | _ :: rest => framesSent rest

end Sys2Proof.Machine
end

