-- ==== Sys2Proof/Certificates/Slice0/Obligations.lean ====
section
/-! DEFINITION. The statements for the provers. Each says which rule of the spec it formalises, or on what it rests. What an
operation does is stated with the reset input quiet (`NoReset`); what reset does to an operation, whichever it is, is stated
once, in `ResetAbandonsWithoutResult`. -/

open Sys2Proof Sys2Proof.Machine

/-! ### BitField family -/

/-- R81: BF.DECODE completes in every ready state with `(word >> start_bit) & (2^width - 1)`, which is below `2^width`,
and is the word itself for a 32-bit field; nothing else changes. -/
def Obligations.BfDecodeExtractsField : Prop :=
  ∀ (f : BitField) (w : Word) (s : State), s.Ready → s.NoReset →
    exec (.bfDecode f w) s =
      .next { s with results := s.results ++ [HostResult.ok (.word ((w >>> f.start) &&& BitVec.ofNat 32 (2 ^ f.width - 1)))] } ∧
    (fieldOk f = true → (bfDecode f w).toNat < 2 ^ f.width) ∧ (f = ⟨0, 32⟩ → bfDecode f w = w)

/-- R82: BF.ENCODE completes in every ready state with the field's span cleared and the masked value ORed in; nothing
else changes. Encoding a field twice is encoding it once. -/
def Obligations.BfEncodePlacesField : Prop :=
  ∀ (f : BitField) (v w : Word) (s : State), s.Ready → s.NoReset →
    exec (.bfEncode f v w) s =
      .next { s with
        results := s.results ++
          [HostResult.ok (.word
            ((w &&& ~~~ (BitVec.ofNat 32 (2 ^ f.width - 1) <<< f.start)) |||
              ((v &&& BitVec.ofNat 32 (2 ^ f.width - 1)) <<< f.start)))] } ∧
    (fieldOk f = true → bfEncode f v (bfEncode f v w) = bfEncode f v w)

/-- R83: the four laws of packing and unpacking, for every descriptor. -/
def Obligations.PackUnpackLaws : Prop :=
  ∀ (f : BitField) (v w : Word), fieldOk f = true →
    bfDecode f (bfEncode f v w) = v &&& fmask f ∧
    bfEncode f v w &&& ~~~ span f = w &&& ~~~ span f ∧
    bfEncode f (bfDecode f w) w = w ∧
    ∀ (g : BitField) (u : Word), fieldOk g = true → span f &&& span g = 0 →
      bfEncode f v (bfEncode g u w) = bfEncode g u (bfEncode f v w) ∧
      bfDecode g (bfEncode f v w) = bfDecode g w

/-! ### Register family -/

/-- R91: REG.DECODE completes on every catalog register of either bank; every cell of the register becomes the decode of
the word, every other register's cells stay, and nothing else changes. -/
def Obligations.RegDecodeReplacesRegister : Prop :=
  ∀ (d : DevIx) (r : RegName) (w : Word) (s : State), s.Ready → s.NoReset → s.Shaped → s.HasDev d → s.cfg.hasReg r = true →
    ∃ t, exec (.regDecode d r w) s = .next t ∧ t.results = s.results ++ [HostResult.ok .none] ∧ t.seq = .idle ∧
      (∀ f fd, s.cfg.field? r f = some fd → t.getCell d r f = bfDecode fd.bits w) ∧
      (∀ d' r', (d', r') ≠ (d, r) → t.cells d' r' = s.cells d' r') ∧ s.SameButCells t

/-- R94: REG.WIRE completes on every catalog register with the four bytes of the register's word (REG.ENCODE's, as
`RegEncodeFoldsFields` says), least significant first; nothing else changes. -/
def Obligations.RegWireIsLittleEndian : Prop :=
  ∀ (d : DevIx) (r : RegName) (s : State), s.Ready → s.NoReset → s.HasDev d → s.cfg.hasReg r = true →
    let w := s.encodeReg d r
    exec (.regEncode d r) s = .next { s with results := s.results ++ [HostResult.ok (.word w)] } ∧
    exec (.regWire d r) s =
      .next { s with
        results := s.results ++
          [HostResult.ok (.bytes [w.setWidth 8, (w >>> 8).setWidth 8, (w >>> 16).setWidth 8, (w >>> 24).setWidth 8])] }

/-- R92: REG.ENCODE completes on every catalog register with the OR-fold of its masked and shifted cells; that is
`BF.ENCODE` applied field by field to 0, and it is 0 in every bit no field covers; nothing else changes. -/
def Obligations.RegEncodeFoldsFields : Prop :=
  ∀ (d : DevIx) (r : RegName) (s : State), s.Ready → s.NoReset → s.HasDev d → s.cfg.hasReg r = true →
    let cells := (s.cfg.fieldsOf r).zip (s.cells d r)
    let w := cells.foldl (fun acc p => acc ||| ((p.2 &&& fmask p.1.bits) <<< p.1.bits.start)) 0
    exec (.regEncode d r) s = .next { s with results := s.results ++ [HostResult.ok (.word w)] } ∧
    w = cells.foldl (fun acc p => bfEncode p.1.bits p.2 acc) 0 ∧ w &&& ~~~ s.cfg.covered r = 0

/-- R93: the round-trip laws of a shadow register: decoding the encoded word truncates each cell to its field, encoding
after decoding a word gives its covered bits, and REG.ENCODE does not change the word. -/
def Obligations.RegRoundTrip : Prop :=
  ∀ (s : State) (d : DevIx) (r : RegName), s.cfg.admitted = true → s.Shaped → s.HasDev d → s.cfg.hasReg r = true →
    (∀ f fd, s.cfg.field? r f = some fd →
      (s.decodeReg d r (s.encodeReg d r)).getCell d r f = s.getCell d r f &&& fmask fd.bits) ∧
    (∀ w, (s.decodeReg d r w).encodeReg d r = w &&& s.cfg.covered r) ∧
    (∀ t, s.NoReset → exec (.regEncode d r) s = .next t → t.encodeReg d r = s.encodeReg d r)

/-- R95: REG.SETF of a field the register has completes and stores the value as given in that one cell; of a field it
has not it ends with `UnknownField` and no cell changes. With the parameter `strictFields` on, which R95 does not have and U1
lets a model add (the model's choice, log 12), the same holds of a value that fits its field, and a wider value is
refused. -/
def Obligations.RegSetfStoresOneCell : Prop :=
  ∀ (d : DevIx) (r : RegName) (f : FldName) (v : Word) (s : State),
    s.Ready → s.Shaped → s.HasDev d → s.cfg.hasReg r = true →
    (∀ fd, s.cfg.field? r f = some fd → (s.cfg.strictFields = false ∨ v.toNat < 2 ^ fd.bits.width) → s.NoReset →
      ∃ t, exec (.regSetf d r f v) s = .next t ∧ t.results = s.results ++ [HostResult.ok .none] ∧ t.seq = .idle ∧
        t.getCell d r f = v ∧
        (∀ d' r' f', (d', r', f') ≠ (d, r, f) → t.getCell d' r' f' = s.getCell d' r' f') ∧ s.SameButCells t) ∧
    (s.cfg.field? r f = none → s.NoReset →
      exec (.regSetf d r f v) s = .next { s with results := s.results ++ [HostResult.err .unknownField] }) ∧
    (s.cfg.strictFields = true →
      ∀ fd, s.cfg.field? r f = some fd → 2 ^ fd.bits.width ≤ v.toNat →
        exec (.regSetf d r f v) s = .refused .strictField)

/-- R96: REG.GETF of a field the register has completes with the cell as stored; of a field it has not it ends with
`UnknownField`; nothing else changes. -/
def Obligations.RegGetfReadsCell : Prop :=
  ∀ (d : DevIx) (r : RegName) (f : FldName) (s : State), s.Ready → s.NoReset → s.HasDev d → s.cfg.hasReg r = true →
    (∀ fd, s.cfg.field? r f = some fd →
      exec (.regGetf d r f) s = .next { s with results := s.results ++ [HostResult.ok (.word (s.getCell d r f))] }) ∧
    (s.cfg.field? r f = none →
      exec (.regGetf d r f) s = .next { s with results := s.results ++ [HostResult.err .unknownField] })

/-! ### CRC-8 family -/

/-- R101, R102: CRC8.BYTE is eight shifts of `rem ^ byte`, CRC8.SEQ folds it over the bytes from 0, first byte first;
both complete in every ready state and change nothing but the result list. -/
def Obligations.CrcFollowsPseudocode : Prop :=
  (∀ (rem b : Byte) (s : State), s.Ready → s.NoReset →
    exec (.crc8Byte rem b) s =
      .next { s with results := s.results ++ [HostResult.ok (.byte (crcStep^[8] (rem ^^^ b)))] }) ∧
  (∀ (l : List Byte) (s : State), s.Ready → s.NoReset →
    exec (.crc8Seq l) s =
      .next { s with
        results := s.results ++ [HostResult.ok (.byte (l.foldl (fun r b => crcStep^[8] (r ^^^ b)) 0x00))] })

/-- R103: CRC8.CHECK completes in every ready state and is true exactly when the CRC of the first four bytes is the
fifth, which is the same as the CRC of all five being 0; nothing else changes. -/
def Obligations.CrcCheckComparesFifthByte : Prop :=
  ∀ (b0 b1 b2 b3 b4 : Byte) (s : State), s.Ready → s.NoReset →
    exec (.crc8Check b0 b1 b2 b3 b4) s =
      .next { s with results := s.results ++ [HostResult.ok (.bool (decide (crc8Seq [b0, b1, b2, b3] = b4)))] } ∧
    (crc8Seq [b0, b1, b2, b3] = b4 ↔ crc8Seq [b0, b1, b2, b3, b4] = 0)

/-- R101, corner cases: the byte step is linear over XOR, and a byte equal to the remainder clears it. -/
def Obligations.CrcByteIsLinear : Prop :=
  ∀ a b c e : Byte, crc8Byte (a ^^^ b) (c ^^^ e) = crc8Byte a c ^^^ crc8Byte b e ∧ crc8Byte a a = 0

/-- R104: the "top bit pair" form gives the CRC of every byte sequence, and so does the table form; the check value is
`0xF4`. -/
def Obligations.CrcFormsAgree : Prop :=
  (∀ l : List Byte, crc8Pair l = crc8Seq l) ∧ (∀ r b : Byte, crc8Byte r b = crc8Byte 0 (r ^^^ b)) ∧
    crc8Seq [0x31, 0x32, 0x33, 0x34, 0x35, 0x36, 0x37, 0x38, 0x39] = 0xF4

/-! ### Transport family -/

/-- R111 on a frame that the block itself could send now (R60 to R64, R69), with `n` the length of frame and reply: XFER
completes with the device side's answer, whatever it is; its six events stand on the trace in order, the device's line is
left high, and nothing else changes. With any other frame or count it is refused. That XFER, which R111 makes internal,
runs as an operation of its own and gives its answer as a result is the model's choice (log 4). -/
def Obligations.XferIsOneTransaction : Prop :=
  ∀ (d : DevIx) (cmd : List Byte) (n : Nat) (s : State), s.Ready → s.NoReset → s.HasDev d →
    (s.forms d cmd → n = s.flen d →
      exec (.xfer d cmd n) s =
        .next { s.setCsN d true with
          trace := s.trace ++ [.csAssert d, .tx cmd, .csDeassert d, .csAssert d, .rx n 0xFF s.nextReply.1, .csDeassert d]
          results := s.results ++ [HostResult.ok (.bytes s.nextReply.1)]
          replies := s.nextReply.2.replies
          draws := s.nextReply.2.draws }) ∧
    (¬ (s.forms d cmd ∧ n = s.flen d) → ∃ x, exec (.xfer d cmd n) s = .refused x)

/-- R113, R114, R161, R162: RDREG of any catalog register makes one read transaction. A reply of another length than
`flen(d)` ends it with `ShortReply`; else, with CRC framing on, a wrong fifth byte ends it with `CrcMismatch`; either
leaves every cell as it was. Any other reply completes it: each cell of the register becomes the decode of the reply's
low 3 bytes (or all 4, by `READ_DATA_BYTES`), and when the register is `UART_REG` and its CRC-enable bit is then not the
intended one, the drift flag is set and `WARN` emitted. No other cell and no other flag changes. -/
def Obligations.RdregFollowsItsRule : Prop :=
  ∀ (d : DevIx) (r : RegName) (s : State), s.Ready → s.Shaped → s.NoReset → s.HasDev d → s.cfg.hasReg r = true →
    let n := s.flen d
    let reply := s.nextReply.1
    let cmd := frame n [s.cfg.addr r, 0xFF, 0xFF, 0xFF]
    let u := s.withTransaction d cmd n
    (reply.length ≠ n →
      exec (.rdreg d r) s = .next { u with results := s.results ++ [HostResult.err .shortReply] }) ∧
    (reply.length = n → n = 5 → crc8Seq (reply.take 4) ≠ reply.getD 4 0 →
      exec (.rdreg d r) s = .next { u with results := s.results ++ [HostResult.err .crcMismatch] }) ∧
    (reply.length = n → (n = 5 → crc8Seq (reply.take 4) = reply.getD 4 0) →
      ∃ t, exec (.rdreg d r) s = .next t ∧ t.results = s.results ++ [HostResult.ok .none] ∧ t.seq = .idle ∧
        (∀ f fd, s.cfg.field? r f = some fd →
          t.getCell d r f =
            bfDecode fd.bits
              ((reply.getD 0 0).setWidth 32 ||| (reply.getD 1 0).setWidth 32 <<< 8 |||
                (reply.getD 2 0).setWidth 32 <<< 16 |||
                (if s.cfg.readDataBytes = 4 then (reply.getD 3 0).setWidth 32 <<< 24 else 0))) ∧
        (∀ d' r', (d', r') ≠ (d, r) → t.cells d' r' = s.cells d' r') ∧
        (let warned := decide (r = s.cfg.uartReg) && (t.crcOn d != (s.dev d).crcIntended)
         t.trace = u.trace ++ (if warned then [.warn .crcDrift d] else []) ∧
         (t.dev d).warnDrift = ((s.dev d).warnDrift || warned)) ∧
        (t.dev d).csN = true ∧ (t.dev d).latch = (s.dev d).latch ∧ (t.dev d).crcIntended = (s.dev d).crcIntended ∧
        (∀ d', d' ≠ d → t.dev d' = s.dev d') ∧ t.cfg = s.cfg ∧ t.pollCount = s.pollCount ∧ t.port = s.port ∧
        t.replies = s.nextReply.2.replies ∧ t.cancels = s.cancels ∧ t.resets = s.resets ∧
        t.draws = s.nextReply.2.draws)

/-- R116: WRREG of any control register completes with `Ok` whatever the replies are, after exactly two write
transactions, at `address + 1` with bytes 2 and 3 of the register's image and then at `address` with bytes 0 and 1;
only the select line's level, left high, and the answers taken change beside the trace and the result. -/
def Obligations.WrregMakesTwoTransactions : Prop :=
  ∀ (d : DevIx) (r : RegName) (s : State), s.Ready → s.Shaped → s.NoReset → s.HasDev d → s.cfg.isControl r = true →
    let n := s.flen d
    let w := s.encodeReg d r
    let a := s.cfg.addr r
    let u := s.withTransaction d (frame n [a + 1, a + 1, wordByte w 2, wordByte w 3]) n
    let v := u.withTransaction d (frame n [a, a, wordByte w 0, wordByte w 1]) n
    exec (.wrreg d r) s = .next { v with results := s.results ++ [HostResult.ok .none] }

/-- LATCH on a device that never clears a requested latch bit within the budget (R121 (1), R122 (f), on R119; poll
replies with good framing, `LATCH_REG` not the register that selects the framing): it ends with `LatchTimeout` after
exactly `timeout_iterations` polls, having written `LATCH_REG` with the latch bits set, polled with one read frame each,
and slept once between successive polls; the state tells it, and device `d'` is untouched. -/
def Obligations.LatchTimesOutWhenNeverCleared : Prop :=
  ∀ (d : DevIx) (c1 c2 : Bool) (n iv : Word) (s : State) (r1 r2 : List Byte) (polls rest : List (List Byte)),
    s.Ready → s.Shaped → s.NoReset → s.HasDev d → s.cfg.latchReg ≠ s.cfg.uartReg → s.noCancel n.toNat →
    s.replies = r1 :: r2 :: (polls ++ rest) → polls.length = n.toNat →
    (∀ p ∈ polls, replyError (s.flen d) p = none ∧ s.cfg.showsLatch c1 c2 p = true) →
    ∃ t evs, exec (.latch d c1 c2 n iv) s = .next t ∧ t.results = s.results ++ [HostResult.err .latchTimeout] ∧
      (t.dev d).latch = .timedOut ∧ t.pollCount = n.toNat ∧ t.replies = rest ∧ t.seq = .idle ∧
      t.trace = s.trace ++ evs ∧ disciplined evs = true ∧
      framesSent evs =
        (s.withLatchBits d c1 c2).writeFrames d s.cfg.latchReg ++
          List.replicate n.toNat (s.readFrame d s.cfg.latchReg) ∧
      sleeps evs = List.replicate (n.toNat - 1) iv ∧ (∀ d', d' ≠ d → t.dev d' = s.dev d') ∧
      (∀ r, r ≠ s.cfg.latchReg → t.cells d r = s.cells d r)

/-- LATCH succeeds on the first poll that shows every requested bit clear (R121 (2), on R119; same premises on the
replies): after `k` polls that show a requested bit and one that shows none, with `k` below the budget, it ends with
`Ok`, no further transaction and no sleep after that poll; `latch_state[d]` is `Latched`, and the shadow of `LATCH_REG`
holds that poll's word. -/
def Obligations.LatchSucceedsOnFirstClearPoll : Prop :=
  ∀ (d : DevIx) (c1 c2 : Bool) (n iv : Word) (s : State) (r1 r2 p : List Byte) (polls rest : List (List Byte)),
    s.Ready → s.Shaped → s.NoReset → s.HasDev d → s.cfg.latchReg ≠ s.cfg.uartReg → s.noCancel (polls.length + 1) →
    s.replies = r1 :: r2 :: (polls ++ p :: rest) → polls.length < n.toNat →
    (∀ q ∈ polls, replyError (s.flen d) q = none ∧ s.cfg.showsLatch c1 c2 q = true) →
    replyError (s.flen d) p = none → s.cfg.showsLatch c1 c2 p = false →
    ∃ t evs, exec (.latch d c1 c2 n iv) s = .next t ∧ t.results = s.results ++ [HostResult.ok .none] ∧
      (t.dev d).latch = .latched ∧ t.pollCount = polls.length + 1 ∧ t.replies = rest ∧ t.seq = .idle ∧
      t.trace = s.trace ++ evs ∧ disciplined evs = true ∧
      framesSent evs =
        (s.withLatchBits d c1 c2).writeFrames d s.cfg.latchReg ++
          List.replicate (polls.length + 1) (s.readFrame d s.cfg.latchReg) ∧
      sleeps evs = List.replicate polls.length iv ∧
      (∀ f fd, s.cfg.field? s.cfg.latchReg f = some fd →
        t.getCell d s.cfg.latchReg f = bfDecode fd.bits (rword s.cfg.readDataBytes p)) ∧
      (∀ d', d' ≠ d → t.dev d' = s.dev d') ∧ (∀ r, r ≠ s.cfg.latchReg → t.cells d r = s.cells d r)

/-- R122 (a), (b): with a budget of 0 LATCH writes the register, makes no poll and ends with `LatchTimeout`, the requested
latch cells staying 1; with neither channel requested and a budget above 0 it sets no bit, writes, and succeeds on its
one poll whatever word that returns. -/
def Obligations.LatchCornerCases : Prop :=
  ∀ (d : DevIx) (iv : Word) (s : State),
    s.Ready → s.Shaped → s.NoReset → s.HasDev d → s.cfg.latchReg ≠ s.cfg.uartReg →
    (∀ c1 c2 : Bool, ∃ t evs, exec (.latch d c1 c2 0 iv) s = .next t ∧
      t.results = s.results ++ [HostResult.err .latchTimeout] ∧ t.pollCount = 0 ∧ (t.dev d).latch = .timedOut ∧
      t.trace = s.trace ++ evs ∧ framesSent evs = (s.withLatchBits d c1 c2).writeFrames d s.cfg.latchReg ∧
      (c1 = true → t.getCell d s.cfg.latchReg s.cfg.latchF1 = 1) ∧
      (c2 = true → t.getCell d s.cfg.latchReg s.cfg.latchF2 = 1)) ∧
    (∀ (n : Word) (r1 r2 p : List Byte) (rest : List (List Byte)), n ≠ 0 → s.noCancel 1 →
      s.replies = r1 :: r2 :: p :: rest → replyError (s.flen d) p = none →
      ∃ t evs, exec (.latch d false false n iv) s = .next t ∧ t.results = s.results ++ [HostResult.ok .none] ∧
        t.pollCount = 1 ∧ (t.dev d).latch = .latched ∧ t.trace = s.trace ++ evs ∧
        framesSent evs = s.writeFrames d s.cfg.latchReg ++ [s.readFrame d s.cfg.latchReg])

/-- R167 and R119: after `k` polls that show a requested bit, with `k` below the budget, a high sample of the cancel input
ends LATCH with `Cancelled` and no further transaction, and otherwise a poll reply that fails its check ends it with
that reply's error; either way `latch_state[d]` is `Idle`. Without the cancel input `Cancelled` is never raised, whatever the
budget, the answers and the registers the parameters name. -/
def Obligations.LatchEndsEarly : Prop :=
  (∀ (d : DevIx) (c1 c2 : Bool) (n iv : Word) (s : State) (r1 r2 : List Byte) (polls more : List (List Byte)),
    s.Ready → s.Shaped → s.NoReset → s.HasDev d → s.cfg.latchReg ≠ s.cfg.uartReg →
    s.replies = r1 :: r2 :: (polls ++ more) → polls.length < n.toNat →
    (∀ q ∈ polls, replyError (s.flen d) q = none ∧ s.cfg.showsLatch c1 c2 q = true) →
    (∀ samples, s.cfg.hasCancel = true → s.cancels = List.replicate polls.length false ++ true :: samples →
      ∃ t evs, exec (.latch d c1 c2 n iv) s = .next t ∧ t.results = s.results ++ [HostResult.err .cancelled] ∧
        (t.dev d).latch = .idle ∧ t.pollCount = polls.length ∧ t.replies = more ∧ t.cancels = samples ∧
        t.trace = s.trace ++ evs ∧
        framesSent evs =
          (s.withLatchBits d c1 c2).writeFrames d s.cfg.latchReg ++
            List.replicate polls.length (s.readFrame d s.cfg.latchReg)) ∧
    (∀ p rest e, s.noCancel (polls.length + 1) → more = p :: rest → replyError (s.flen d) p = some e →
      ∃ t, exec (.latch d c1 c2 n iv) s = .next t ∧ t.results = s.results ++ [HostResult.err e] ∧
        (t.dev d).latch = .idle ∧ t.pollCount = polls.length ∧ t.replies = rest)) ∧
  (∀ (d : DevIx) (c1 c2 : Bool) (n iv : Word) (s t : State), s.cfg.hasCancel = false →
    exec (.latch d c1 c2 n iv) s = .next t → t.results ≠ s.results ++ [HostResult.err .cancelled])

/-- R121 (4), R120: the result of LATCH and `latch_state[d]` say the same: `Ok` with `Latched`, `LatchTimeout` with
`TimedOut`, any other error with `Idle`. -/
def Obligations.LatchStateTellsOutcome : Prop :=
  ∀ (d : DevIx) (c1 c2 : Bool) (n iv : Word) (s t : State), s.Shaped → s.NoReset →
    exec (.latch d c1 c2 n iv) s = .next t →
    (t.results = s.results ++ [HostResult.ok .none] ∧ (t.dev d).latch = .latched) ∨
    (t.results = s.results ++ [HostResult.err .latchTimeout] ∧ (t.dev d).latch = .timedOut) ∨
    (∃ e, (e = .shortReply ∨ e = .crcMismatch ∨ e = .cancelled) ∧ t.results = s.results ++ [HostResult.err e] ∧
      (t.dev d).latch = .idle)

/-- R124: CRCINTEND completes, records the host's intention and clears the drift flag; no event, no cell and no frame
length changes. -/
def Obligations.CrcintendRecordsIntention : Prop :=
  ∀ (d : DevIx) (b : Bool) (s : State), s.Ready → s.NoReset → s.Shaped → s.HasDev d →
    ∃ t, exec (.crcintend d b) s = .next t ∧ t.results = s.results ++ [HostResult.ok .none] ∧ t.seq = .idle ∧
      (t.dev d) = { s.dev d with crcIntended := b, warnDrift := false } ∧ (∀ d', d' ≠ d → t.dev d' = s.dev d') ∧
      t.flen d = s.flen d ∧ t.cfg = s.cfg ∧ t.pollCount = s.pollCount ∧ t.trace = s.trace ∧ t.port = s.port ∧
      t.replies = s.replies ∧ t.cancels = s.cancels ∧ t.resets = s.resets ∧ t.draws = s.draws

/-! ### Rules of the whole machine -/

/-- R112: whatever operation runs, with the reset input quiet, the events it adds are whole transactions, each on one
device, with only line-free events between them, and a quiet link is quiet again after it. -/
def Obligations.SelectLineDiscipline : Prop :=
  ∀ (i : Instr) (s t : State), s.NoReset → exec i s = .next t →
    (∃ evs, t.trace = s.trace ++ evs ∧ disciplined evs = true) ∧ (s.Quiet → t.Quiet)

/-- R69 (b), (c), with R43, R47 and R62 to R64: every command frame that any operation sends, XFER and the wire frames
among them, is a read frame of a catalog register or a write frame of one half of a control register, with the CRC of its
four bytes appended or not. No frame writes a data register. -/
def Obligations.OnlyControlRegistersAreWritten : Prop :=
  ∀ (i : Instr) (s t : State), s.NoReset → exec i s = .next t →
    ∃ evs, t.trace = s.trace ++ evs ∧ ∀ f ∈ framesSent evs,
      ∃ body, (f = body ∨ f = body ++ [crc8Seq body]) ∧
        ((∃ r, body = [s.cfg.addr r, 0xFF, 0xFF, 0xFF] ∧ s.cfg.hasReg r = true) ∨
         (∃ r l m, s.cfg.isControl r = true ∧
            (body = [s.cfg.addr r, s.cfg.addr r, l, m] ∨ body = [s.cfg.addr r + 1, s.cfg.addr r + 1, l, m])))

/-- R186: the two device contexts do not meet: with the reset input quiet, an operation leaves every context but its own
device's as it was. -/
def Obligations.DevicesAreIsolated : Prop :=
  ∀ (i : Instr) (s t : State), s.NoReset → exec i s = .next t → ∀ d', i.dev? ≠ some d' → t.dev d' = s.dev d'

/-- R120: no operation but LATCH, and RDBOTH through it, changes a latch state. -/
def Obligations.OnlyLatchChangesLatchState : Prop :=
  ∀ (i : Instr) (s t : State), s.NoReset → exec i s = .next t →
    (∀ d c1 c2 n iv, i ≠ .latch d c1 c2 n iv) → (∀ d n iv, i ≠ .rdboth d n iv) →
    ∀ d, (t.dev d).latch = (s.dev d).latch

/-- R19, R23: beside reset only CRCINTEND writes `crc_intended` or clears `warn_drift`. -/
def Obligations.OnlyCrcintendClearsWarning : Prop :=
  ∀ (i : Instr) (s t : State), s.NoReset → exec i s = .next t → (∀ d b, i ≠ .crcintend d b) →
    ∀ d, (t.dev d).crcIntended = (s.dev d).crcIntended ∧
      ((s.dev d).warnDrift = true → (t.dev d).warnDrift = true)

/-- R8, R13: the parameters, the catalog among them, are fixed: no step changes them. -/
def Obligations.ParametersNeverChange : Prop := ∀ s t : State, step s = .next t → t.cfg = s.cfg

/-- R160, R20: with the reset input quiet, every operation that is accepted ends with exactly one result and leaves the
sequencer idle. -/
def Obligations.OneResultPerOperation : Prop :=
  ∀ (i : Instr) (s t : State), s.NoReset → exec i s = .next t →
    t.seq = .idle ∧ ∃ r, t.results = s.results ++ [r]

/-- R160's column "raised by", R161 to R167: `UnknownField` comes only from REG.SETF and REG.GETF, `LatchTimeout` and
`Cancelled` only from LATCH and RDBOTH, `ShortReply` and `CrcMismatch` only from operations that read a register or take
a reply, and `NotARegister` from none. The codes on the result port are 1 to 6. -/
def Obligations.ErrorsComeFromTheirOperations : Prop :=
  (∀ (i : Instr) (s t : State) (e : Err), s.NoReset → exec i s = .next t → t.results = s.results ++ [HostResult.err e] →
    match e with
    | .unknownField => (∃ d r f v, i = .regSetf d r f v) ∨ (∃ d r f, i = .regGetf d r f)
    | .latchTimeout => (∃ d c1 c2 n iv, i = .latch d c1 c2 n iv) ∨ (∃ d n iv, i = .rdboth d n iv)
    | .cancelled => (∃ d c1 c2 n iv, i = .latch d c1 c2 n iv) ∨ (∃ d n iv, i = .rdboth d n iv)
    | .notARegister => False
    | _ => (∃ d r, i = .rdreg d r) ∨ (∃ d c1 c2 n iv, i = .latch d c1 c2 n iv) ∨ (∃ d n iv, i = .rdboth d n iv) ∨
        (∃ d, i = .cfgapply d) ∨ (∃ d, i = .cfgread d) ∨ (∃ d a, i = .cmdRd4 d a) ∨ (∃ d a c, i = .cmdRd5 d a c) ∨
        (∃ d r b0 b1 b2 b3, i = .rpl4 d r b0 b1 b2 b3) ∨ (∃ d r b0 b1 b2 b3 k, i = .rpl5 d r b0 b1 b2 b3 k)) ∧
  (HostResult.ok .none).code = 0 ∧ Err.shortReply.code = 1 ∧ Err.crcMismatch.code = 2 ∧ Err.latchTimeout.code = 3 ∧
    Err.unknownField.code = 4 ∧ Err.notARegister.code = 5 ∧ Err.cancelled.code = 6

/-- R166: the requests that cannot be formed are refused: an unlisted selector, XFER on the host port (R70, R111), a
register outside the catalog, a raw address, WRREG aimed at a data register, a device index not below `NDEV`, a catalog
that breaks R13, and any operation while the sequencer is not idle. -/
def Obligations.UnformableRequestsAreRefused : Prop :=
  (∀ (s : State) (sel : Byte) (bytes : List Byte) (rest : List Request), s.resetNow = false →
    s.port = ⟨.host, sel :: bytes⟩ :: rest →
    (sel = 0x40 → step s = .refused (.undecodable .internalOnly)) ∧
    (sel ∉ [0x10, 0x11, 0x20, 0x21, 0x22, 0x23, 0x24, 0x30, 0x31, 0x32, 0x40, 0x41, 0x42, 0x43, 0x44, 0x50, 0x51, 0x52,
        0x53, 0x54, 0x60, 0x61, 0x62] →
      step s = .refused (.undecodable (.unknownSelector sel)))) ∧
  (∀ (i : Instr) (s : State), s.seq ≠ .idle → exec i s = .refused .busy) ∧
  (∀ (i : Instr) (s : State), s.seq = .idle → s.cfg.admitted = false → exec i s = .refused .badCatalog) ∧
  (∀ (i : Instr) (s : State) (d : DevIx), s.Ready → i.dev? = some d → ¬ s.HasDev d → exec i s = .refused .noDevice) ∧
  (∀ (s : State) (d : DevIx) (r : RegName), s.Ready → s.HasDev d → s.cfg.hasReg r = false →
    (∀ w, exec (.regDecode d r w) s = .refused .noRegister) ∧ exec (.regEncode d r) s = .refused .noRegister ∧
    exec (.regWire d r) s = .refused .noRegister ∧ (∀ f v, exec (.regSetf d r f v) s = .refused .noRegister) ∧
    (∀ f, exec (.regGetf d r f) s = .refused .noRegister) ∧ exec (.rdreg d r) s = .refused .noRegister ∧
    exec (.wrreg d r) s = .refused .noRegister ∧
    (∀ b0 b1 b2 b3, exec (.rpl4 d r b0 b1 b2 b3) s = .refused .noRegister) ∧
    (∀ b0 b1 b2 b3 k, exec (.rpl5 d r b0 b1 b2 b3 k) s = .refused .noRegister)) ∧
  (∀ (s : State) (d : DevIx) (r : RegName), s.Ready → s.HasDev d → s.cfg.hasReg r = true → s.cfg.isControl r = false →
    exec (.wrreg d r) s = .refused .dataBank) ∧
  (∀ (s : State) (d : DevIx) (a l m : Byte), s.Ready → s.HasDev d → (∀ x ∈ s.cfg.catalog, x.address ≠ a) →
    let read := [a, 0xFF, 0xFF, 0xFF]
    let write := [a, a, l, m]
    (a.toNat ≤ 0xFD →
      exec (.cmdRd4 d a) s = .refused .rawAddress ∧ exec (.cmdRd5 d a (crc8Seq read)) s = .refused .rawAddress ∧
      (∀ n, exec (.xfer d read n) s = .refused .rawAddress)) ∧
    (a.toNat ≤ 0xFE → (∀ x ∈ s.cfg.catalog, x.address + 1 ≠ a) →
      exec (.cmdWr4 d a a l m) s = .refused .rawAddress ∧
      exec (.cmdWr5 d a a l m (crc8Seq write)) s = .refused .rawAddress ∧
      (∀ n, exec (.xfer d write n) s = .refused .rawAddress)))

/-! ### Calibration family -/

/-- R132: GAIN completes for every code, in binary64, and its value is `code / 16384 + 3/4` exactly. -/
def Obligations.GainIsExact : Prop :=
  ∀ (code : Code) (s : State), s.Ready → s.NoReset →
    ∃ x a, exec (.gain code) s = .next { s with results := s.results ++ [HostResult.ok (.real x)] } ∧ x.frac? = some a ∧
      (a.den : ℚ) ≠ 0 ∧ (a.num : ℚ) / a.den = (code.toInt : ℚ) / 16384 + 3 / 4

/-- R131: `code_of` zero-extends the low 12 bits of a field value and `field_of` keeps the low 12 bits of a code, so a code
survives the field exactly when it is in `0 .. 4095`. -/
def Obligations.CodeFieldConversions : Prop :=
  (∀ v : Word, (codeOf v).toInt = (v.toNat % 4096 : Nat)) ∧
  (∀ c : Code, ((fieldOf c).toNat : Int) = c.toInt % 4096) ∧
  (∀ c : Code, codeOf (fieldOf c) = c ↔ 0 ≤ c.toInt ∧ c.toInt ≤ 4095)

/-- R133, R134, R135 (2): with binary64 numerics VCONV and ICONV complete, for every raw code and every calibration code
whose gain is not 0, with the formula evaluated one operation per written operator in the written order; nothing else
changes. -/
def Obligations.ConversionsFollowFormulas : Prop :=
  ∀ (raw : Word) (code : Code) (s : State), s.Ready → s.NoReset → s.cfg.numerics = .binary64 → code.toInt ≠ -12288 →
    let g := gain code
    let x := F64.ofInt raw.toNat
    let dec := F64.ofDec
    exec (.vconv raw code) s =
      .next { s with
        results := s.results ++
          [HostResult.ok (.real
            (((x.mul (dec 118 100)).mul ((dec 1 1).add ((dec 998000 1).div (dec 499 1)))).div
              ((g.mul (dec 2 1)).mul (dec 32768 1))))] } ∧
    exec (.iconv raw code) s =
      .next { s with
        results := s.results ++
          [HostResult.ok (.real
            ((x.mul (dec 118 100)).div
              ((((g.mul (dec 2 1)).mul (dec 131072 1)).mul (dec 3115264797 100000000000)).mul (dec 1 1))))] }

/-- R133, R134, R135 (1): the exact fractions of the model are the reference values, and with exact numerics VCONV and ICONV
complete with the reference value rounded once. -/
def Obligations.ConversionReferenceValues : Prop :=
  ∀ (raw : Word) (code : Code), code.toInt ≠ -12288 →
    let g : ℚ := (code.toInt : ℚ) / 16384 + 3 / 4
    ((vconvFrac raw code).num : ℚ) / (vconvFrac raw code).den = raw.toNat * (118 / 100) * 2001 / (g * 65536) ∧
    ((iconvFrac raw code).num : ℚ) / (iconvFrac raw code).den =
      raw.toNat * (118 / 100) / (g * 262144 * (3115264797 / 10 ^ 11)) ∧
    ∀ s : State, s.Ready → s.NoReset → s.cfg.numerics = .exact →
      exec (.vconv raw code) s =
        .next { s with results := s.results ++ [HostResult.ok (.real (F64.ofFrac false (vconvFrac raw code)))] } ∧
      exec (.iconv raw code) s =
        .next { s with results := s.results ++ [HostResult.ok (.real (F64.ofFrac false (iconvFrac raw code)))] }

/-- R135 (2), (3): for raw codes below `2^17` and calibration codes `0 .. 4095`, under either numerics, VCONV and ICONV are
finite and within `1e-9` of the reference value. -/
def Obligations.ConversionsWithinTolerance : Prop :=
  ∀ (n : Numerics) (raw : Word) (code : Code), raw.toNat < 2 ^ 17 → 0 ≤ code.toInt → code.toInt ≤ 4095 →
    let g : ℚ := (code.toInt : ℚ) / 16384 + 3 / 4
    (∃ a, (vconv n raw code).frac? = some a ∧
      |(a.num : ℚ) / a.den - raw.toNat * (118 / 100) * 2001 / (g * 65536)| ≤ 1 / 10 ^ 9) ∧
    (∃ a, (iconv n raw code).frac? = some a ∧
      |(a.num : ℚ) / a.den - raw.toNat * (118 / 100) / (g * 262144 * (3115264797 / 10 ^ 11))| ≤ 1 / 10 ^ 9)

/-- Only the code -12288 has gain 0. There the treatment is a parameter of the model (log 9): under `ZeroGain.refuse` VCONV
and ICONV are refused (R135 item 4), under `ZeroGain.quotient` they complete with the IEEE quotient of U3, a NaN for raw code
0 and else an infinity. -/
def Obligations.ConversionsAtZeroGain : Prop :=
  (∀ code : Code, (gain code).isZero = true ↔ code.toInt = -12288) ∧
  ∀ (raw : Word) (code : Code) (s : State), s.Ready → code.toInt = -12288 →
    (s.cfg.zeroGain = .refuse →
      exec (.vconv raw code) s = .refused .zeroGain ∧ exec (.iconv raw code) s = .refused .zeroGain) ∧
    (s.cfg.zeroGain = .quotient → s.NoReset →
      let x := if raw = 0 then F64.nan else .inf false
      exec (.vconv raw code) s = .next { s with results := s.results ++ [HostResult.ok (.real x)] } ∧
      exec (.iconv raw code) s = .next { s with results := s.results ++ [HostResult.ok (.real x)] })

/-- R136, R137: with binary64 numerics CALDRV, on finite operands with averages other than 0 and laws whose truncated values
fit an `i16`, completes with those values, the formulas of `Xv`, `Xi` and of the law evaluated in the written order;
nothing else changes. When either value lies outside `-32768 .. 32767` it is refused. -/
def Obligations.CaldrvFollowsLaw : Prop :=
  ∀ (nomV nomI avgV avgI : Bits64) (priorV priorI : Code) (s : State) (cv ci : Int), s.Ready →
    s.cfg.numerics = .binary64 →
    let f := F64.ofBits
    let dec := F64.ofDec
    let div := (dec 1 1).add ((dec 998000 1).div (dec 499 1))
    let xv := ((((f nomV).mul (gain priorV)).mul (dec 2 1)).mul (dec 32768 1)).div ((dec 118 100).mul div)
    let xi := ((((((f nomI).mul (gain priorI)).mul (dec 2 1)).mul (dec 131072 1)).mul
      (dec 3115264797 100000000000)).mul (dec 1 1)).div (dec 118 100)
    let law := fun x a : F64 => (((dec 14336 1).mul (x.div a)).sub (dec 12288 1)).trunc0?
    (f nomV).isFinite = true → (f nomI).isFinite = true → (f avgV).isFinite = true → (f avgI).isFinite = true →
    (f avgV).isZero = false → (f avgI).isZero = false →
    law xv (f avgV) = some cv → law xi (f avgI) = some ci →
    ((-32768 ≤ cv ∧ cv ≤ 32767) ∧ -32768 ≤ ci ∧ ci ≤ 32767 → s.NoReset →
      exec (.caldrv nomV nomI avgV avgI priorV priorI) s =
        .next { s with results := s.results ++ [HostResult.ok (.codes (BitVec.ofInt 16 cv) (BitVec.ofInt 16 ci))] }) ∧
    (cv < -32768 ∨ 32767 < cv ∨ ci < -32768 ∨ 32767 < ci →
      exec (.caldrv nomV nomI avgV avgI priorV priorI) s = .refused .caldrvDomain)

/-- R135 (1), (3), R136, R137: with exact numerics CALDRV, on finite operands with averages other than 0 and values that fit
an `i16`, completes with the exact rational values of the law truncated toward zero; nothing else changes. When either
value lies outside `-32768 .. 32767` it is refused. (That the model offers exact numerics is its choice, log 11.) -/
def Obligations.CaldrvExactLaw : Prop :=
  ∀ (nomV nomI avgV avgI : Bits64) (priorV priorI : Code) (s : State) (nv ni av ai : Frac), s.Ready →
    s.cfg.numerics = .exact →
    (F64.ofBits nomV).frac? = some nv → (F64.ofBits nomI).frac? = some ni →
    (F64.ofBits avgV).frac? = some av → (F64.ofBits avgI).frac? = some ai → av.num ≠ 0 → ai.num ≠ 0 →
    let value := fun a : Frac => (a.num : ℚ) / a.den
    let g := fun c : Code => (c.toInt : ℚ) / 16384 + 3 / 4
    let trunc := fun q : ℚ => if 0 ≤ q then ⌊q⌋ else ⌈q⌉
    let cv := trunc (14336 * (value nv * g priorV * 65536 / (118 / 100 * 2001) / value av) - 12288)
    let ci := trunc (14336 * (value ni * g priorI * 262144 * (3115264797 / 10 ^ 11) / (118 / 100) / value ai) - 12288)
    ((-32768 ≤ cv ∧ cv ≤ 32767) ∧ -32768 ≤ ci ∧ ci ≤ 32767 → s.NoReset →
      exec (.caldrv nomV nomI avgV avgI priorV priorI) s =
        .next { s with results := s.results ++ [HostResult.ok (.codes (BitVec.ofInt 16 cv) (BitVec.ofInt 16 ci))] }) ∧
    (cv < -32768 ∨ 32767 < cv ∨ ci < -32768 ∨ 32767 < ci →
      exec (.caldrv nomV nomI avgV avgI priorV priorI) s = .refused .caldrvDomain)

/-- R136: CALDRV has no result, and is refused, when an averaged code is 0, when an operand is not finite, and when the law
has no finite value; for the value outside `-32768 .. 32767` see also `CaldrvFollowsLaw` and `CaldrvExactLaw`. A derived code
exists only inside that range and only where the law gives it, and wherever both exist the call completes with them. -/
def Obligations.CaldrvOutsideDomain : Prop :=
  ∀ (nomV nomI avgV avgI : Bits64) (priorV priorI : Code) (s : State), s.Ready →
    let f := F64.ofBits
    let cv := deriveV s.cfg.numerics (f nomV) (f avgV) priorV
    let ci := deriveI s.cfg.numerics (f nomI) (f avgI) priorI
    let i := Instr.caldrv nomV nomI avgV avgI priorV priorI
    ((f avgV).isZero = true ∨ (f avgI).isZero = true ∨ (f nomV).isFinite = false ∨ (f nomI).isFinite = false ∨
        (f avgV).isFinite = false ∨ (f avgI).isFinite = false →
      exec i s = .refused .caldrvDomain) ∧
    (s.cfg.numerics = .binary64 →
      law (targetV (f nomV) priorV) (f avgV) = none ∨ law (targetI (f nomI) priorI) (f avgI) = none →
      exec i s = .refused .caldrvDomain) ∧
    (∀ x, cv = some x →
      ∃ z : Int, -32768 ≤ z ∧ z ≤ 32767 ∧ x = BitVec.ofInt 16 z ∧
        (s.cfg.numerics = .binary64 → law (targetV (f nomV) priorV) (f avgV) = some z)) ∧
    (∀ x, ci = some x →
      ∃ z : Int, -32768 ≤ z ∧ z ≤ 32767 ∧ x = BitVec.ofInt 16 z ∧
        (s.cfg.numerics = .binary64 → law (targetI (f nomI) priorI) (f avgI) = some z)) ∧
    (cv = none ∨ ci = none → exec i s = .refused .caldrvDomain) ∧
    (∀ v c, cv = some v → ci = some c → s.NoReset →
      exec i s = .next { s with results := s.results ++ [HostResult.ok (.codes v c)] })

/-- R136, corner case: an average equal to the target code derives the midpoint 2048, for every finite number but 0. -/
def Obligations.CaldrvMidpoint : Prop :=
  ∀ x : F64, x.isFinite = true → x.isZero = false → (law x x).bind toCode = some 2048

/-- R140: CALSET completes; the four calibration cells take the low 12 bits of the codes before the first transaction; the
eight write transactions go to the four registers in order, high half first; the codes as given are persisted last;
no other cell changes. (The four cells are distinct, as R17's record of four views needs.) -/
def Obligations.CalsetWritesFourRegisters : Prop :=
  ∀ (d : DevIx) (v1 i1 v2 i2 : Code) (s : State), s.Ready → s.Shaped → s.NoReset → s.HasDev d →
    [s.cfg.calV1, s.cfg.calI1, s.cfg.calV2, s.cfg.calI2].Nodup →
    let s1 := (((s.setCell d s.cfg.calV1.reg s.cfg.calV1.fld (fieldOf v1)).setCell d s.cfg.calI1.reg s.cfg.calI1.fld
      (fieldOf i1)).setCell d s.cfg.calV2.reg s.cfg.calV2.fld (fieldOf v2)).setCell d s.cfg.calI2.reg s.cfg.calI2.fld
      (fieldOf i2)
    ∃ t evs, exec (.calset d v1 i1 v2 i2) s = .next t ∧ t.results = s.results ++ [HostResult.ok .none] ∧ t.seq = .idle ∧
      t.trace = s.trace ++ evs ++ [.persist d v1 i1 v2 i2] ∧ disciplined evs = true ∧ evs.length = 48 ∧
      framesSent evs =
        s1.writeFrames d s.cfg.calV1.reg ++ s1.writeFrames d s.cfg.calI1.reg ++
          s1.writeFrames d s.cfg.calV2.reg ++ s1.writeFrames d s.cfg.calI2.reg ∧
      (∀ d' r, t.cells d' r = s1.cells d' r) ∧
      t.calCodes d = (codeOf (fieldOf v1), codeOf (fieldOf i1), codeOf (fieldOf v2), codeOf (fieldOf i2)) ∧
      (t.dev d).latch = (s.dev d).latch ∧ (t.dev d).crcIntended = (s.dev d).crcIntended ∧
      (t.dev d).warnDrift = (s.dev d).warnDrift ∧ (∀ d', d' ≠ d → t.dev d' = s.dev d')

/-! ### Facade family -/

/-- R150, R151: RDBOTH is LATCH of both channels, RDREG of the two RMS registers, and the four conversions of the snapshot
with the shadow's calibration codes, and it ends at the first error with that error and with what was done before it
left done. -/
def Obligations.RdbothComposesItsParts : Prop :=
  ∀ (d : DevIx) (n iv : Word) (s s1 : State), s.Ready → s.NoReset →
    exec (.latch d true true n iv) s = .next s1 →
    (∀ e, s1.results = s.results ++ [HostResult.err e] → exec (.rdboth d n iv) s = .next s1) ∧
    (s1.results = s.results ++ [HostResult.ok .none] → ∃ s2, exec (.rdreg d s.cfg.rms1.reg) s1 = .next s2 ∧
      (∀ e, s2.results = s1.results ++ [HostResult.err e] →
        exec (.rdboth d n iv) s = .next { s2 with results := s.results ++ [HostResult.err e] }) ∧
      (s2.results = s1.results ++ [HostResult.ok .none] → ∃ s3, exec (.rdreg d s.cfg.rms2.reg) s2 = .next s3 ∧
        (∀ e, s3.results = s2.results ++ [HostResult.err e] →
          exec (.rdboth d n iv) s = .next { s3 with results := s.results ++ [HostResult.err e] }) ∧
        (s3.results = s2.results ++ [HostResult.ok .none] →
          exec (.rdboth d n iv) s =
            .next { s3 with
              results := s.results ++ [HostResult.ok (.reals
                (vconv s.cfg.numerics (s3.rmsSnapshot d).1 (s3.calCodes d).1)
                (iconv s.cfg.numerics (s3.rmsSnapshot d).2.1 (s3.calCodes d).2.1)
                (vconv s.cfg.numerics (s3.rmsSnapshot d).2.2.1 (s3.calCodes d).2.2.1)
                (iconv s.cfg.numerics (s3.rmsSnapshot d).2.2.2 (s3.calCodes d).2.2.2))] })))

/-- R151: RDBOTH completes on a device whose first poll is clear and whose replies are good: four transactions beside the
two of the write, and the conversions of the two words just read. -/
def Obligations.RdbothReturnsMeasurement : Prop :=
  ∀ (d : DevIx) (n iv : Word) (s : State) (r1 r2 p q1 q2 : List Byte) (rest : List (List Byte)),
    s.Ready → s.Shaped → s.NoReset → s.HasDev d → s.cfg.latchReg ≠ s.cfg.uartReg → s.noCancel 1 → n ≠ 0 →
    s.cfg.rms1.reg ≠ s.cfg.rms2.reg → s.replies = r1 :: r2 :: p :: q1 :: q2 :: rest →
    replyError (s.flen d) p = none → s.cfg.showsLatch true true p = false →
    replyError (s.flen d) q1 = none → replyError (s.flen d) q2 = none →
    s.cfg.latchReg ∉ [s.cfg.calV1.reg, s.cfg.calI1.reg, s.cfg.calV2.reg, s.cfg.calI2.reg] →
    ∀ fv1 fi1 fv2 fi2 : FieldDesc,
    s.cfg.field? s.cfg.rms1.reg s.cfg.rms1.vFld = some fv1 → s.cfg.field? s.cfg.rms1.reg s.cfg.rms1.iFld = some fi1 →
    s.cfg.field? s.cfg.rms2.reg s.cfg.rms2.vFld = some fv2 → s.cfg.field? s.cfg.rms2.reg s.cfg.rms2.iFld = some fi2 →
    let w1 := rword s.cfg.readDataBytes q1
    let w2 := rword s.cfg.readDataBytes q2
    ∃ t evs, exec (.rdboth d n iv) s = .next t ∧ t.trace = s.trace ++ evs ∧ t.replies = rest ∧
      framesSent evs =
        (s.withLatchBits d true true).writeFrames d s.cfg.latchReg ++
          [s.readFrame d s.cfg.latchReg, s.readFrame d s.cfg.rms1.reg, s.readFrame d s.cfg.rms2.reg] ∧
      (t.dev d).latch = .latched ∧
      t.results = s.results ++ [HostResult.ok (.reals
        (vconv s.cfg.numerics (bfDecode fv1.bits w1) (s.calCode d s.cfg.calV1))
        (iconv s.cfg.numerics (bfDecode fi1.bits w1) (s.calCode d s.cfg.calI1))
        (vconv s.cfg.numerics (bfDecode fv2.bits w2) (s.calCode d s.cfg.calV2))
        (iconv s.cfg.numerics (bfDecode fi2.bits w2) (s.calCode d s.cfg.calI2)))]

/-- R150, R153: CFGREAD sends one read frame for each control register in catalog order, each in the CRC mode that the
replies before it have left (a reply of `UART_REG` may change it). On good replies to all of them it completes; at the
first reply that fails its check it ends with that reply's error. Either way the cells of each register read are the
decode of its reply, and no other register's cells are changed. -/
def Obligations.CfgreadRefreshesControlRegisters : Prop :=
  ∀ (d : DevIx) (s : State) (rs rest : List (List Byte)), s.Ready → s.Shaped → s.NoReset → s.HasDev d →
    s.replies = rs ++ rest → rs.length ≤ s.cfg.ctrl.length →
    let pairs := s.cfg.ctrl.zip rs
    s.cfg.readsWell (s.flen d) pairs = true →
    let kept := fun t : State =>
      t.seq = .idle ∧ (∀ p ∈ pairs, ∀ f fd, s.cfg.field? p.1 f = some fd →
        t.getCell d p.1 f = bfDecode fd.bits (rword s.cfg.readDataBytes p.2)) ∧
      (∀ r, r ∉ s.cfg.ctrl.take rs.length → t.cells d r = s.cells d r) ∧ (∀ d', d' ≠ d → t.dev d' = s.dev d') ∧
      (t.dev d).latch = (s.dev d).latch ∧ (t.dev d).crcIntended = (s.dev d).crcIntended
    (rs.length = s.cfg.ctrl.length →
      ∃ t evs, exec (.cfgread d) s = .next t ∧ t.results = s.results ++ [HostResult.ok .none] ∧ kept t ∧
        t.trace = s.trace ++ evs ∧ framesSent evs = s.cfg.readFrames (s.flen d) pairs ∧ t.replies = rest) ∧
    (∀ r p more e, s.cfg.ctrl[rs.length]? = some r → rest = p :: more →
      replyError (s.cfg.lengthAfter (s.flen d) pairs) p = some e →
      ∃ t evs, exec (.cfgread d) s = .next t ∧ t.results = s.results ++ [HostResult.err e] ∧ kept t ∧
        t.trace = s.trace ++ evs ∧ framesSent evs = s.cfg.readFrames (s.flen d) (pairs ++ [(r, p)]) ∧ t.replies = more)

/-- R150, R152: CFGAPPLY writes every control register and then reads them as CFGREAD does. On good replies to the reads it
completes with the list, in catalog order, of the control registers whose read-back word is not the word written,
whatever the words are; at the first read reply that fails its check it ends with that reply's error, the registers after
it unread and at their intended values, and nothing rolled back. -/
def Obligations.CfgapplyListsDifferingRegisters : Prop :=
  ∀ (d : DevIx) (s : State) (ws rs rest : List (List Byte)), s.Ready → s.Shaped → s.NoReset → s.HasDev d →
    ws.length = 2 * s.cfg.ctrl.length → s.replies = ws ++ (rs ++ rest) → rs.length ≤ s.cfg.ctrl.length →
    let pairs := s.cfg.ctrl.zip rs
    s.cfg.readsWell (s.flen d) pairs = true →
    let written := s.cfg.ctrl.flatMap (s.writeFrames d)
    let kept := fun t : State =>
      t.seq = .idle ∧ (∀ p ∈ pairs, ∀ f fd, s.cfg.field? p.1 f = some fd →
        t.getCell d p.1 f = bfDecode fd.bits (rword s.cfg.readDataBytes p.2)) ∧
      (∀ r, r ∉ s.cfg.ctrl.take rs.length → t.cells d r = s.cells d r) ∧ (∀ d', d' ≠ d → t.dev d' = s.dev d') ∧
      (t.dev d).latch = (s.dev d).latch ∧ (t.dev d).crcIntended = (s.dev d).crcIntended
    (rs.length = s.cfg.ctrl.length →
      ∃ t evs, exec (.cfgapply d) s = .next t ∧
        t.results = s.results ++ [HostResult.ok (.regs ((pairs.filter (fun p =>
          rword s.cfg.readDataBytes p.2 &&& s.cfg.covered p.1 != s.encodeReg d p.1)).map Prod.fst))] ∧ kept t ∧
        t.trace = s.trace ++ evs ∧ framesSent evs = written ++ s.cfg.readFrames (s.flen d) pairs ∧ t.replies = rest) ∧
    (∀ r p more e, s.cfg.ctrl[rs.length]? = some r → rest = p :: more →
      replyError (s.cfg.lengthAfter (s.flen d) pairs) p = some e →
      ∃ t evs, exec (.cfgapply d) s = .next t ∧ t.results = s.results ++ [HostResult.err e] ∧ kept t ∧
        t.trace = s.trace ++ evs ∧ framesSent evs = written ++ s.cfg.readFrames (s.flen d) (pairs ++ [(r, p)]) ∧
        t.replies = more)

/-- R152 and `90_conflicts.md` C1: CFGAPPLY against a device that returns in each read-back exactly the word just written (and
whose CRC-enable bit is among the bits read) completes with the list of the control registers whose written word has a 1
in bits 31:24 when `READ_DATA_BYTES` is 3, and with the empty list when it is 4; two write frames for each control
register go first, then one read frame for each. -/
def Obligations.CfgapplyReportsUnreadTopBytes : Prop :=
  ∀ (d : DevIx) (s : State) (ws rest : List (List Byte)), s.Ready → s.Shaped → s.NoReset → s.HasDev d →
    ws.length = 2 * s.cfg.ctrl.length →
    s.replies = ws ++ s.cfg.ctrl.map (fun r => frame (s.flen d) (leBytes (s.encodeReg d r))) ++ rest →
    (s.cfg.readDataBytes = 3 → ∀ fd, s.cfg.field? s.cfg.uartReg s.cfg.crcEnF = some fd → fd.bits.start < 24) →
    ∃ t evs, exec (.cfgapply d) s = .next t ∧
      t.results = s.results ++ [HostResult.ok (.regs
        (if s.cfg.readDataBytes = 3 then s.cfg.ctrl.filter (fun r => s.encodeReg d r >>> 24 != 0) else []))] ∧
      t.seq = .idle ∧ t.trace = s.trace ++ evs ∧ t.replies = rest ∧
      framesSent evs =
        s.cfg.ctrl.flatMap (s.writeFrames d) ++ s.cfg.ctrl.map (s.readFrame d) ∧
      (∀ r ∈ s.cfg.ctrl, t.encodeReg d r =
        if s.cfg.readDataBytes = 3 then s.encodeReg d r &&& 0x00FFFFFF else s.encodeReg d r) ∧
      (∀ r, r ∉ s.cfg.ctrl → t.cells d r = s.cells d r)

/-! ### Wire frames -/

/-- CMD.RD4 and CMD.RD5, `MemRead` of R9 (log 4), on R60, R62, R64, R111, R113: at a catalog address the frame whose length
is `flen(d)`, with the right CRC byte where it has one, is the command of one transaction whose reply is expected to be as
long; a reply that passes its checks yields its word, one that does not its error; no shadow cell changes. The frame of the
other length is refused, and so is a wrong CRC byte. -/
def Obligations.ReadFrameIsOneTransaction : Prop :=
  ∀ (d : DevIx) (a : Byte) (s : State), s.Ready → s.NoReset → s.HasDev d → (∃ x ∈ s.cfg.catalog, x.address = a) →
    let reply := s.nextReply.1
    let result := fun n : Nat =>
      match replyError n reply with
      | none => HostResult.ok (.word (rword s.cfg.readDataBytes reply))
      | some e => .err e
    let c := crc8Seq [a, 0xFF, 0xFF, 0xFF]
    (s.flen d = 4 →
      exec (.cmdRd4 d a) s =
        .next { s.withTransaction d [a, 0xFF, 0xFF, 0xFF] 4 with results := s.results ++ [result 4] } ∧
      exec (.cmdRd5 d a c) s = .refused .frameLength) ∧
    (s.flen d = 5 →
      exec (.cmdRd5 d a c) s =
        .next { s.withTransaction d [a, 0xFF, 0xFF, 0xFF, c] 5 with results := s.results ++ [result 5] } ∧
      exec (.cmdRd4 d a) s = .refused .frameLength) ∧
    (∀ k, k ≠ c → exec (.cmdRd5 d a k) s = .refused .illFormed)

/-- CMD.WR4 and CMD.WR5, `MemWrite` of R9 (log 4), on R60, R63, R64, R111, R116: at a write address of a control register the
frame whose length is `flen(d)`, with the right CRC byte where it has one, is the command of one transaction whose reply is
dropped; no shadow cell changes. The frame of the other length is refused, and so are unequal address bytes (R69 (b)), a
wrong CRC byte, and a write address of a data register (R69 (c)). -/
def Obligations.WriteFrameIsOneTransaction : Prop :=
  ∀ (d : DevIx) (w l m : Byte) (s : State) (x : RegDesc), s.Ready → s.NoReset → s.HasDev d →
    x ∈ s.cfg.catalog → (w = x.address ∨ w = x.address + 1) →
    let c := crc8Seq [w, w, l, m]
    (x.bank = .control →
      (s.flen d = 4 →
        exec (.cmdWr4 d w w l m) s =
          .next { s.withTransaction d [w, w, l, m] 4 with results := s.results ++ [HostResult.ok .none] } ∧
        exec (.cmdWr5 d w w l m c) s = .refused .frameLength) ∧
      (s.flen d = 5 →
        exec (.cmdWr5 d w w l m c) s =
          .next { s.withTransaction d [w, w, l, m, c] 5 with results := s.results ++ [HostResult.ok .none] } ∧
        exec (.cmdWr4 d w w l m) s = .refused .frameLength)) ∧
    (x.bank = .data →
      exec (.cmdWr4 d w w l m) s = .refused .dataBank ∧ exec (.cmdWr5 d w w l m c) s = .refused .dataBank) ∧
    (∀ r, r ≠ w → exec (.cmdWr4 d r w l m) s = .refused .illFormed ∧
      ∀ k, exec (.cmdWr5 d r w l m k) s = .refused .illFormed) ∧
    (∀ k, k ≠ c → exec (.cmdWr5 d w w l m k) s = .refused .illFormed)

/-- RPL4 and RPL5 (log 4), on R65, R69 (d), R113: a reply of the length the shadow's CRC mode asks for, with a right CRC byte
when it has one, is decoded into the register's cells; a reply of the other length ends with `ShortReply` and one with a
wrong CRC byte with `CrcMismatch`, and neither changes a cell. No transaction is made. -/
def Obligations.ReplyFrameIsCheckedAndDecoded : Prop :=
  ∀ (d : DevIx) (r : RegName) (b0 b1 b2 b3 k : Byte) (s : State), s.Ready → s.Shaped → s.NoReset → s.HasDev d →
    s.cfg.hasReg r = true →
    let w := rword s.cfg.readDataBytes [b0, b1, b2, b3]
    let decoded := fun t : State =>
      t.results = s.results ++ [HostResult.ok .none] ∧ t.seq = .idle ∧
        (∀ f fd, s.cfg.field? r f = some fd → t.getCell d r f = bfDecode fd.bits w) ∧
        (∀ d' r', (d', r') ≠ (d, r) → t.cells d' r' = s.cells d' r') ∧
        (∃ evs, t.trace = s.trace ++ evs ∧ framesSent evs = [] ∧ evs.length ≤ 1) ∧ t.replies = s.replies
    (s.flen d = 4 →
      (∃ t, exec (.rpl4 d r b0 b1 b2 b3) s = .next t ∧ decoded t) ∧
      exec (.rpl5 d r b0 b1 b2 b3 k) s = .next { s with results := s.results ++ [HostResult.err .shortReply] }) ∧
    (s.flen d = 5 →
      exec (.rpl4 d r b0 b1 b2 b3) s = .next { s with results := s.results ++ [HostResult.err .shortReply] } ∧
      (crc8Seq [b0, b1, b2, b3] = k → ∃ t, exec (.rpl5 d r b0 b1 b2 b3 k) s = .next t ∧ decoded t) ∧
      (crc8Seq [b0, b1, b2, b3] ≠ k →
        exec (.rpl5 d r b0 b1 b2 b3 k) s = .next { s with results := s.results ++ [HostResult.err .crcMismatch] }))

/-- R113 with log 4: RDREG is its read frame as one transaction followed by its reply frame: the device contexts, the trace and
the inputs come out the same, in either CRC mode. -/
def Obligations.RdregIsReadFrameThenReply : Prop :=
  ∀ (d : DevIx) (r : RegName) (b0 b1 b2 b3 k : Byte) (rest : List (List Byte)) (s t : State),
    s.Ready → s.Shaped → s.NoReset → s.HasDev d → s.cfg.hasReg r = true → exec (.rdreg d r) s = .next t →
    let same := fun u : State => u.devs = t.devs ∧ u.trace = t.trace ∧ u.replies = t.replies ∧ u.draws = t.draws
    (s.flen d = 4 → s.replies = [b0, b1, b2, b3] :: rest →
      ∃ s1 u, exec (.cmdRd4 d (s.cfg.addr r)) s = .next s1 ∧ exec (.rpl4 d r b0 b1 b2 b3) s1 = .next u ∧ same u) ∧
    (s.flen d = 5 → s.replies = [b0, b1, b2, b3, k] :: rest →
      ∃ s1 u, exec (.cmdRd5 d (s.cfg.addr r) (crc8Seq [s.cfg.addr r, 0xFF, 0xFF, 0xFF])) s = .next s1 ∧
        exec (.rpl5 d r b0 b1 b2 b3 k) s1 = .next u ∧ same u)

/-! ### Encoding -/

/-- Decoding the encoding of a well-formed operation gives it back, for every operation and frame with every operand at every
value (R61 to R65, R70; the operands' bytes are the model's own, log 3). -/
def Obligations.DecodeOfEncode : Prop := ∀ i : Instr, i.wf = true → decode (encode i) = .ok i

/-- Each request has one meaning: what decodes encodes back to the same bytes at the same place (log 3). So the host port
carries the operations that the host may issue and no others: not XFER, and no frame (R70, R111). -/
def Obligations.EncodeOfDecode : Prop :=
  ∀ (q : Request) (i : Instr), decode q = .ok i → encode i = q ∧ (q.port = .host ↔ i.fromHost = true)

/-- Frames written out from R62, R63, R65 and their examples, and selectors of R70 with operand bytes in the model's own form
(log 3; R70 gives operands no binary form), decode to what they stand for; XFER decodes inside the block and not on the host
port. -/
def Obligations.SpecWordsDecode : Prop :=
  decode ⟨.command 0, [0x04, 0xFF, 0xFF, 0xFF]⟩ = .ok (.cmdRd4 0 0x04) ∧
  decode ⟨.command 0, [0x04, 0xFF, 0xFF, 0xFF, 0x57]⟩ = .ok (.cmdRd5 0 0x04 0x57) ∧
  decode ⟨.command 1, [0x04, 0x04, 0xE0, 0x04]⟩ = .ok (.cmdWr4 1 0x04 0x04 0xE0 0x04) ∧
  decode ⟨.command 1, [0x04, 0x04, 0xE0, 0x04, 0xAC]⟩ = .ok (.cmdWr5 1 0x04 0x04 0xE0 0x04 0xAC) ∧
  (∀ r, decode ⟨.reply 0 r, [0xE0, 0x04, 0x20, 0x00, 0x61]⟩ = .ok (.rpl5 0 r 0xE0 0x04 0x20 0x00 0x61)) ∧
  decode ⟨.host, [0x41, 1, 2]⟩ = .ok (.rdreg 1 2) ∧ decode ⟨.host, [0x42, 0, 2]⟩ = .ok (.wrreg 0 2) ∧
  decode ⟨.host, [0x50, 0x00, 0x08]⟩ = .ok (.gain 2048) ∧ decode ⟨.host, [0x62, 0]⟩ = .ok (.cfgread 0) ∧
  decode ⟨.internal, [0x40, 0, 1, 0x04, 0xFF, 0xFF, 0xFF, 0x57]⟩ = .ok (.xfer 0 [0x04, 0xFF, 0xFF, 0xFF, 0x57] 5) ∧
  decode ⟨.host, [0x40, 0, 1, 0x04, 0xFF, 0xFF, 0xFF, 0x57]⟩ = .error .internalOnly

/-! ### Stepping and reset -/

/-- A step runs the decoded operation: when the reset input is not applied and the request at the front of the port decodes
to a well-formed operation, the step is exec of it with that request taken off the port and the moment passed. That the
requests a host will issue wait in a list, that a step takes one whole, and that its start is a moment at which reset can land,
is the model's choice (log 6, 7, 15). -/
def Obligations.StepRunsDecodedOperation : Prop :=
  ∀ (s : State) (q : Request) (rest : List Request) (i : Instr), s.resetNow = false → s.port = q :: rest →
    decode q = .ok i → i.wf = true → step s = exec i { s.pass with port := rest }

/-- Every step keeps the invariant: the shadow files have the catalog's shape, the sequencer is idle and every select line is
high between operations (R11, R20, R21, R112), whatever the device side answers and whenever reset is applied. -/
def Obligations.StepKeepsInvariant : Prop := ∀ s t : State, s.Inv → step s = .next t → t.Inv

/-- R190, R10 and the table of section 8: reset, under any parameters, leaves every cell at the value the spec gives, and the
invariant holds then. -/
def Obligations.ResetGivesTableValues : Prop :=
  ∀ c : Config, (State.resetWith c).Inv ∧ (State.resetWith c).seq = .idle ∧ (State.resetWith c).pollCount = 0 ∧
    ∀ d, (State.resetWith c).HasDev d →
      ((State.resetWith c).dev d).crcIntended = c.crcIntendedReset ∧ ((State.resetWith c).dev d).csN = true ∧
      ((State.resetWith c).dev d).latch = .idle ∧ ((State.resetWith c).dev d).warnDrift = false ∧
      ∀ r f fd, c.field? r f = some fd → (State.resetWith c).getCell d r f = bfDecode fd.bits (c.powerOn r)

/-- R16: after reset the word of a shadow register is its default word in the covered bits and 0 in the others, so it is the
default word exactly when that has no bit outside them. -/
def Obligations.ResetWordIsCoveredDefault : Prop :=
  ∀ (c : Config) (d : DevIx) (r : RegName), c.admitted = true → (State.resetWith c).HasDev d → c.hasReg r = true →
    (State.resetWith c).encodeReg d r = c.powerOn r &&& c.covered r ∧
    ((State.resetWith c).encodeReg d r = c.powerOn r ↔ c.powerOn r &&& ~~~ c.covered r = 0)

/-- R190, R191: reset applied at any time, as often as the environment likes, gives the reset cells, emits no event, and an
operation in progress is abandoned without a result. Between operations it is a step. Inside an operation, whichever it is: if
the operation would emit the events `evs` undisturbed, and reset is due at its moment `k`, then it lands after the first `k` of
them when `k` is at most their number (the last moment is the one before the result), and otherwise the operation runs
undisturbed and reset is due that much earlier after it. (Which moments there are is the model's choice, log 6.) -/
def Obligations.ResetAbandonsWithoutResult : Prop :=
  (∀ s : State, s.resets.head? = some 0 →
    step s = .next { s with
      devs := List.replicate s.cfg.ndev (Dev.reset s.cfg), seq := .idle, pollCount := 0, resets := s.resets.tail }) ∧
  (∀ (i : Instr) (s t0 : State) (evs : List Event) (k : Nat) (rest : List Nat), s.resets = k :: rest →
    exec i { s with resets := [] } = .next t0 → t0.trace = s.trace ++ evs →
    (k ≤ evs.length →
      ∃ t, exec i s = .next t ∧ t.devs = List.replicate s.cfg.ndev (Dev.reset s.cfg) ∧ t.seq = .idle ∧
        t.pollCount = 0 ∧ t.resets = rest ∧ t.results = s.results ∧ t.port = s.port ∧ t.cfg = s.cfg ∧
        t.trace = s.trace ++ evs.take k) ∧
    (evs.length < k → exec i s = .next { t0 with resets := (k - (evs.length + 1)) :: rest }))

/-- R175: when an operation raises, and reset is not applied before it ends, the host result is that error, the sequencer is
idle, and every cell keeps the value it had at the raise: nothing is saved, no mode changes and control goes nowhere. -/
def Obligations.TakingAnErrorKeepsCells : Prop :=
  ∀ (i : Instr) (body : Op Value) (e : Err) (s t : State), body { s with seq := .busy i 0 } = .error (.err e) t →
    s.Ready → t.resetNow = false →
    accept i none body s = .next { t.pass with results := t.results ++ [HostResult.err e], seq := .idle }
end

