-- ==== Sys2Proof/Laws/State.lean ====
section
/-! SUPPORT. What each named update of the state does to each field, one lemma a field, true by unfolding. -/

namespace Sys2Proof.Machine

section
variable (s : State)


@[simp] theorem State.record_cfg (e : Event) : (s.record e).cfg = s.cfg := rfl
@[simp] theorem State.record_devs (e : Event) : (s.record e).devs = s.devs := rfl
@[simp] theorem State.record_seq (e : Event) : (s.record e).seq = s.seq.tick := rfl
@[simp] theorem State.record_pollCount (e : Event) : (s.record e).pollCount = s.pollCount := rfl
@[simp] theorem State.record_trace (e : Event) : (s.record e).trace = s.trace ++ [e] := rfl
@[simp] theorem State.record_results (e : Event) : (s.record e).results = s.results := rfl
@[simp] theorem State.record_port (e : Event) : (s.record e).port = s.port := rfl
@[simp] theorem State.record_replies (e : Event) : (s.record e).replies = s.replies := rfl
@[simp] theorem State.record_cancels (e : Event) : (s.record e).cancels = s.cancels := rfl
@[simp] theorem State.record_resets (e : Event) : (s.record e).resets = s.resets := rfl
@[simp] theorem State.record_draws (e : Event) : (s.record e).draws = s.draws := rfl

@[simp] theorem State.begin_cfg (i : Instr) : (s.begin i).cfg = s.cfg := rfl
@[simp] theorem State.begin_devs (i : Instr) : (s.begin i).devs = s.devs := rfl
@[simp] theorem State.begin_pollCount (i : Instr) : (s.begin i).pollCount = s.pollCount := rfl
@[simp] theorem State.begin_trace (i : Instr) : (s.begin i).trace = s.trace := rfl
@[simp] theorem State.begin_results (i : Instr) : (s.begin i).results = s.results := rfl
@[simp] theorem State.begin_port (i : Instr) : (s.begin i).port = s.port := rfl
@[simp] theorem State.begin_replies (i : Instr) : (s.begin i).replies = s.replies := rfl
@[simp] theorem State.begin_cancels (i : Instr) : (s.begin i).cancels = s.cancels := rfl
@[simp] theorem State.begin_resets (i : Instr) : (s.begin i).resets = s.resets := rfl
@[simp] theorem State.begin_draws (i : Instr) : (s.begin i).draws = s.draws := rfl
@[simp] theorem State.begin_seq (i : Instr) : (s.begin i).seq = .busy i 0 := rfl
@[simp] theorem State.begin_dev (i : Instr) (d : DevIx) : (s.begin i).dev d = s.dev d := rfl
@[simp] theorem State.begin_cells (i : Instr) (d : DevIx) (r : RegName) : (s.begin i).cells d r = s.cells d r := rfl
@[simp] theorem State.begin_getCell (i : Instr) (d : DevIx) (r : RegName) (f : FldName) :
    (s.begin i).getCell d r f = s.getCell d r f := rfl
@[simp] theorem State.begin_flen (i : Instr) (d : DevIx) : (s.begin i).flen d = s.flen d := rfl
@[simp] theorem State.begin_encodeReg (i : Instr) (d : DevIx) (r : RegName) :
    (s.begin i).encodeReg d r = s.encodeReg d r := rfl
@[simp] theorem State.begin_readFrame (i : Instr) (d : DevIx) (r : RegName) :
    (s.begin i).readFrame d r = s.readFrame d r := rfl

@[simp] theorem State.finish_cfg (r : HostResult) : (s.finish r).cfg = s.cfg := rfl
@[simp] theorem State.finish_devs (r : HostResult) : (s.finish r).devs = s.devs := rfl
@[simp] theorem State.finish_seq (r : HostResult) : (s.finish r).seq = .idle := rfl
@[simp] theorem State.finish_pollCount (r : HostResult) : (s.finish r).pollCount = s.pollCount := rfl
@[simp] theorem State.finish_trace (r : HostResult) : (s.finish r).trace = s.trace := rfl
@[simp] theorem State.finish_results (r : HostResult) : (s.finish r).results = s.results ++ [r] := rfl
@[simp] theorem State.finish_port (r : HostResult) : (s.finish r).port = s.port := rfl
@[simp] theorem State.finish_replies (r : HostResult) : (s.finish r).replies = s.replies := rfl
@[simp] theorem State.finish_cancels (r : HostResult) : (s.finish r).cancels = s.cancels := rfl
@[simp] theorem State.finish_resets (r : HostResult) : (s.finish r).resets = s.resets := rfl
@[simp] theorem State.finish_draws (r : HostResult) : (s.finish r).draws = s.draws := rfl

@[simp] theorem State.takeError_cfg (e : Err) : (s.takeError e).cfg = s.cfg := rfl
@[simp] theorem State.takeError_devs (e : Err) : (s.takeError e).devs = s.devs := rfl
@[simp] theorem State.takeError_seq (e : Err) : (s.takeError e).seq = .idle := rfl
@[simp] theorem State.takeError_pollCount (e : Err) : (s.takeError e).pollCount = s.pollCount := rfl
@[simp] theorem State.takeError_trace (e : Err) : (s.takeError e).trace = s.trace := rfl
@[simp] theorem State.takeError_results (e : Err) : (s.takeError e).results = s.results ++ [.err e] := rfl
@[simp] theorem State.takeError_port (e : Err) : (s.takeError e).port = s.port := rfl
@[simp] theorem State.takeError_replies (e : Err) : (s.takeError e).replies = s.replies := rfl
@[simp] theorem State.takeError_cancels (e : Err) : (s.takeError e).cancels = s.cancels := rfl
@[simp] theorem State.takeError_resets (e : Err) : (s.takeError e).resets = s.resets := rfl
@[simp] theorem State.takeError_draws (e : Err) : (s.takeError e).draws = s.draws := rfl

@[simp] theorem State.applyReset_cfg : (s.applyReset).cfg = s.cfg := rfl
@[simp] theorem State.applyReset_devs : (s.applyReset).devs = List.replicate s.cfg.ndev (Dev.reset s.cfg) := rfl
@[simp] theorem State.applyReset_seq : (s.applyReset).seq = .idle := rfl
@[simp] theorem State.applyReset_pollCount : (s.applyReset).pollCount = 0 := rfl
@[simp] theorem State.applyReset_trace : (s.applyReset).trace = s.trace := rfl
@[simp] theorem State.applyReset_results : (s.applyReset).results = s.results := rfl
@[simp] theorem State.applyReset_port : (s.applyReset).port = s.port := rfl
@[simp] theorem State.applyReset_replies : (s.applyReset).replies = s.replies := rfl
@[simp] theorem State.applyReset_cancels : (s.applyReset).cancels = s.cancels := rfl
@[simp] theorem State.applyReset_resets : (s.applyReset).resets = s.resets.tail := rfl
@[simp] theorem State.applyReset_draws : (s.applyReset).draws = s.draws := rfl

@[simp] theorem State.pass_cfg : (s.pass).cfg = s.cfg := rfl
@[simp] theorem State.pass_devs : (s.pass).devs = s.devs := rfl
@[simp] theorem State.pass_seq : (s.pass).seq = s.seq := rfl
@[simp] theorem State.pass_pollCount : (s.pass).pollCount = s.pollCount := rfl
@[simp] theorem State.pass_trace : (s.pass).trace = s.trace := rfl
@[simp] theorem State.pass_results : (s.pass).results = s.results := rfl
@[simp] theorem State.pass_port : (s.pass).port = s.port := rfl
@[simp] theorem State.pass_replies : (s.pass).replies = s.replies := rfl
@[simp] theorem State.pass_cancels : (s.pass).cancels = s.cancels := rfl
@[simp] theorem State.pass_draws : (s.pass).draws = s.draws := rfl
@[simp] theorem State.pass_resets : (s.pass).resets = passed s.resets := rfl

@[simp] theorem State.modDev_cfg (d : DevIx) (f : Dev → Dev) : (s.modDev d f).cfg = s.cfg := rfl
@[simp] theorem State.modDev_devs (d : DevIx) (f : Dev → Dev) : (s.modDev d f).devs = s.devs.modify d.toNat f := rfl
@[simp] theorem State.modDev_seq (d : DevIx) (f : Dev → Dev) : (s.modDev d f).seq = s.seq := rfl
@[simp] theorem State.modDev_pollCount (d : DevIx) (f : Dev → Dev) : (s.modDev d f).pollCount = s.pollCount := rfl
@[simp] theorem State.modDev_trace (d : DevIx) (f : Dev → Dev) : (s.modDev d f).trace = s.trace := rfl
@[simp] theorem State.modDev_results (d : DevIx) (f : Dev → Dev) : (s.modDev d f).results = s.results := rfl
@[simp] theorem State.modDev_port (d : DevIx) (f : Dev → Dev) : (s.modDev d f).port = s.port := rfl
@[simp] theorem State.modDev_replies (d : DevIx) (f : Dev → Dev) : (s.modDev d f).replies = s.replies := rfl
@[simp] theorem State.modDev_cancels (d : DevIx) (f : Dev → Dev) : (s.modDev d f).cancels = s.cancels := rfl
@[simp] theorem State.modDev_resets (d : DevIx) (f : Dev → Dev) : (s.modDev d f).resets = s.resets := rfl
@[simp] theorem State.modDev_draws (d : DevIx) (f : Dev → Dev) : (s.modDev d f).draws = s.draws := rfl

@[simp] theorem State.setCells_cfg (d : DevIx) (r : RegName) (l : List Word) : (s.setCells d r l).cfg = s.cfg := rfl
@[simp] theorem State.setCells_seq (d : DevIx) (r : RegName) (l : List Word) : (s.setCells d r l).seq = s.seq := rfl
@[simp] theorem State.setCells_pollCount (d : DevIx) (r : RegName) (l : List Word) : (s.setCells d r l).pollCount = s.pollCount := rfl
@[simp] theorem State.setCells_trace (d : DevIx) (r : RegName) (l : List Word) : (s.setCells d r l).trace = s.trace := rfl
@[simp] theorem State.setCells_results (d : DevIx) (r : RegName) (l : List Word) : (s.setCells d r l).results = s.results := rfl
@[simp] theorem State.setCells_port (d : DevIx) (r : RegName) (l : List Word) : (s.setCells d r l).port = s.port := rfl
@[simp] theorem State.setCells_replies (d : DevIx) (r : RegName) (l : List Word) : (s.setCells d r l).replies = s.replies := rfl
@[simp] theorem State.setCells_cancels (d : DevIx) (r : RegName) (l : List Word) : (s.setCells d r l).cancels = s.cancels := rfl
@[simp] theorem State.setCells_resets (d : DevIx) (r : RegName) (l : List Word) : (s.setCells d r l).resets = s.resets := rfl
@[simp] theorem State.setCells_draws (d : DevIx) (r : RegName) (l : List Word) : (s.setCells d r l).draws = s.draws := rfl

@[simp] theorem State.setCell_cfg (d : DevIx) (r : RegName) (f : FldName) (v : Word) : (s.setCell d r f v).cfg = s.cfg := rfl
@[simp] theorem State.setCell_seq (d : DevIx) (r : RegName) (f : FldName) (v : Word) : (s.setCell d r f v).seq = s.seq := rfl
@[simp] theorem State.setCell_pollCount (d : DevIx) (r : RegName) (f : FldName) (v : Word) : (s.setCell d r f v).pollCount = s.pollCount := rfl
@[simp] theorem State.setCell_trace (d : DevIx) (r : RegName) (f : FldName) (v : Word) : (s.setCell d r f v).trace = s.trace := rfl
@[simp] theorem State.setCell_results (d : DevIx) (r : RegName) (f : FldName) (v : Word) : (s.setCell d r f v).results = s.results := rfl
@[simp] theorem State.setCell_port (d : DevIx) (r : RegName) (f : FldName) (v : Word) : (s.setCell d r f v).port = s.port := rfl
@[simp] theorem State.setCell_replies (d : DevIx) (r : RegName) (f : FldName) (v : Word) : (s.setCell d r f v).replies = s.replies := rfl
@[simp] theorem State.setCell_cancels (d : DevIx) (r : RegName) (f : FldName) (v : Word) : (s.setCell d r f v).cancels = s.cancels := rfl
@[simp] theorem State.setCell_resets (d : DevIx) (r : RegName) (f : FldName) (v : Word) : (s.setCell d r f v).resets = s.resets := rfl
@[simp] theorem State.setCell_draws (d : DevIx) (r : RegName) (f : FldName) (v : Word) : (s.setCell d r f v).draws = s.draws := rfl

@[simp] theorem State.decodeReg_cfg (d : DevIx) (r : RegName) (w : Word) : (s.decodeReg d r w).cfg = s.cfg := rfl
@[simp] theorem State.decodeReg_seq (d : DevIx) (r : RegName) (w : Word) : (s.decodeReg d r w).seq = s.seq := rfl
@[simp] theorem State.decodeReg_pollCount (d : DevIx) (r : RegName) (w : Word) : (s.decodeReg d r w).pollCount = s.pollCount := rfl
@[simp] theorem State.decodeReg_trace (d : DevIx) (r : RegName) (w : Word) : (s.decodeReg d r w).trace = s.trace := rfl
@[simp] theorem State.decodeReg_results (d : DevIx) (r : RegName) (w : Word) : (s.decodeReg d r w).results = s.results := rfl
@[simp] theorem State.decodeReg_port (d : DevIx) (r : RegName) (w : Word) : (s.decodeReg d r w).port = s.port := rfl
@[simp] theorem State.decodeReg_replies (d : DevIx) (r : RegName) (w : Word) : (s.decodeReg d r w).replies = s.replies := rfl
@[simp] theorem State.decodeReg_cancels (d : DevIx) (r : RegName) (w : Word) : (s.decodeReg d r w).cancels = s.cancels := rfl
@[simp] theorem State.decodeReg_resets (d : DevIx) (r : RegName) (w : Word) : (s.decodeReg d r w).resets = s.resets := rfl
@[simp] theorem State.decodeReg_draws (d : DevIx) (r : RegName) (w : Word) : (s.decodeReg d r w).draws = s.draws := rfl

@[simp] theorem State.setCsN_cfg (d : DevIx) (b : Bool) : (s.setCsN d b).cfg = s.cfg := rfl
@[simp] theorem State.setCsN_seq (d : DevIx) (b : Bool) : (s.setCsN d b).seq = s.seq := rfl
@[simp] theorem State.setCsN_pollCount (d : DevIx) (b : Bool) : (s.setCsN d b).pollCount = s.pollCount := rfl
@[simp] theorem State.setCsN_trace (d : DevIx) (b : Bool) : (s.setCsN d b).trace = s.trace := rfl
@[simp] theorem State.setCsN_results (d : DevIx) (b : Bool) : (s.setCsN d b).results = s.results := rfl
@[simp] theorem State.setCsN_port (d : DevIx) (b : Bool) : (s.setCsN d b).port = s.port := rfl
@[simp] theorem State.setCsN_replies (d : DevIx) (b : Bool) : (s.setCsN d b).replies = s.replies := rfl
@[simp] theorem State.setCsN_cancels (d : DevIx) (b : Bool) : (s.setCsN d b).cancels = s.cancels := rfl
@[simp] theorem State.setCsN_resets (d : DevIx) (b : Bool) : (s.setCsN d b).resets = s.resets := rfl
@[simp] theorem State.setCsN_draws (d : DevIx) (b : Bool) : (s.setCsN d b).draws = s.draws := rfl

@[simp] theorem State.setWarn_cfg (d : DevIx) (b : Bool) : (s.setWarn d b).cfg = s.cfg := rfl
@[simp] theorem State.setWarn_seq (d : DevIx) (b : Bool) : (s.setWarn d b).seq = s.seq := rfl
@[simp] theorem State.setWarn_pollCount (d : DevIx) (b : Bool) : (s.setWarn d b).pollCount = s.pollCount := rfl
@[simp] theorem State.setWarn_trace (d : DevIx) (b : Bool) : (s.setWarn d b).trace = s.trace := rfl
@[simp] theorem State.setWarn_results (d : DevIx) (b : Bool) : (s.setWarn d b).results = s.results := rfl
@[simp] theorem State.setWarn_port (d : DevIx) (b : Bool) : (s.setWarn d b).port = s.port := rfl
@[simp] theorem State.setWarn_replies (d : DevIx) (b : Bool) : (s.setWarn d b).replies = s.replies := rfl
@[simp] theorem State.setWarn_cancels (d : DevIx) (b : Bool) : (s.setWarn d b).cancels = s.cancels := rfl
@[simp] theorem State.setWarn_resets (d : DevIx) (b : Bool) : (s.setWarn d b).resets = s.resets := rfl
@[simp] theorem State.setWarn_draws (d : DevIx) (b : Bool) : (s.setWarn d b).draws = s.draws := rfl

@[simp] theorem State.setIntended_cfg (d : DevIx) (b : Bool) : (s.setIntended d b).cfg = s.cfg := rfl
@[simp] theorem State.setIntended_seq (d : DevIx) (b : Bool) : (s.setIntended d b).seq = s.seq := rfl
@[simp] theorem State.setIntended_pollCount (d : DevIx) (b : Bool) : (s.setIntended d b).pollCount = s.pollCount := rfl
@[simp] theorem State.setIntended_trace (d : DevIx) (b : Bool) : (s.setIntended d b).trace = s.trace := rfl
@[simp] theorem State.setIntended_results (d : DevIx) (b : Bool) : (s.setIntended d b).results = s.results := rfl
@[simp] theorem State.setIntended_port (d : DevIx) (b : Bool) : (s.setIntended d b).port = s.port := rfl
@[simp] theorem State.setIntended_replies (d : DevIx) (b : Bool) : (s.setIntended d b).replies = s.replies := rfl
@[simp] theorem State.setIntended_cancels (d : DevIx) (b : Bool) : (s.setIntended d b).cancels = s.cancels := rfl
@[simp] theorem State.setIntended_resets (d : DevIx) (b : Bool) : (s.setIntended d b).resets = s.resets := rfl
@[simp] theorem State.setIntended_draws (d : DevIx) (b : Bool) : (s.setIntended d b).draws = s.draws := rfl

@[simp] theorem State.setLatch_cfg (d : DevIx) (l : LatchState) : (s.setLatch d l).cfg = s.cfg := rfl
@[simp] theorem State.setLatch_seq (d : DevIx) (l : LatchState) : (s.setLatch d l).seq = s.seq := rfl
@[simp] theorem State.setLatch_pollCount (d : DevIx) (l : LatchState) : (s.setLatch d l).pollCount = s.pollCount := rfl
@[simp] theorem State.setLatch_trace (d : DevIx) (l : LatchState) : (s.setLatch d l).trace = s.trace := rfl
@[simp] theorem State.setLatch_results (d : DevIx) (l : LatchState) : (s.setLatch d l).results = s.results := rfl
@[simp] theorem State.setLatch_port (d : DevIx) (l : LatchState) : (s.setLatch d l).port = s.port := rfl
@[simp] theorem State.setLatch_replies (d : DevIx) (l : LatchState) : (s.setLatch d l).replies = s.replies := rfl
@[simp] theorem State.setLatch_cancels (d : DevIx) (l : LatchState) : (s.setLatch d l).cancels = s.cancels := rfl
@[simp] theorem State.setLatch_resets (d : DevIx) (l : LatchState) : (s.setLatch d l).resets = s.resets := rfl
@[simp] theorem State.setLatch_draws (d : DevIx) (l : LatchState) : (s.setLatch d l).draws = s.draws := rfl

@[simp] theorem State.nextReply_cfg : s.nextReply.2.cfg = s.cfg := by unfold State.nextReply; split <;> rfl
@[simp] theorem State.nextReply_devs : s.nextReply.2.devs = s.devs := by unfold State.nextReply; split <;> rfl
@[simp] theorem State.nextReply_seq : s.nextReply.2.seq = s.seq := by unfold State.nextReply; split <;> rfl
@[simp] theorem State.nextReply_pollCount : s.nextReply.2.pollCount = s.pollCount := by unfold State.nextReply; split <;> rfl
@[simp] theorem State.nextReply_trace : s.nextReply.2.trace = s.trace := by unfold State.nextReply; split <;> rfl
@[simp] theorem State.nextReply_results : s.nextReply.2.results = s.results := by unfold State.nextReply; split <;> rfl
@[simp] theorem State.nextReply_port : s.nextReply.2.port = s.port := by unfold State.nextReply; split <;> rfl
@[simp] theorem State.nextReply_cancels : s.nextReply.2.cancels = s.cancels := by unfold State.nextReply; split <;> rfl
@[simp] theorem State.nextReply_resets : s.nextReply.2.resets = s.resets := by unfold State.nextReply; split <;> rfl

@[simp] theorem State.nextCancel_cfg : s.nextCancel.2.cfg = s.cfg := by unfold State.nextCancel; split <;> rfl
@[simp] theorem State.nextCancel_devs : s.nextCancel.2.devs = s.devs := by unfold State.nextCancel; split <;> rfl
@[simp] theorem State.nextCancel_seq : s.nextCancel.2.seq = s.seq := by unfold State.nextCancel; split <;> rfl
@[simp] theorem State.nextCancel_pollCount : s.nextCancel.2.pollCount = s.pollCount := by unfold State.nextCancel; split <;> rfl
@[simp] theorem State.nextCancel_trace : s.nextCancel.2.trace = s.trace := by unfold State.nextCancel; split <;> rfl
@[simp] theorem State.nextCancel_results : s.nextCancel.2.results = s.results := by unfold State.nextCancel; split <;> rfl
@[simp] theorem State.nextCancel_port : s.nextCancel.2.port = s.port := by unfold State.nextCancel; split <;> rfl
@[simp] theorem State.nextCancel_replies : s.nextCancel.2.replies = s.replies := by unfold State.nextCancel; split <;> rfl
@[simp] theorem State.nextCancel_resets : s.nextCancel.2.resets = s.resets := by unfold State.nextCancel; split <;> rfl

/-- Where no reset is to come, a moment at which it could land changes nothing. -/
theorem State.pass_of_quiet (h : s.resets = []) : s.pass = s := by
  cases s; cases h; rfl

theorem State.resetNow_of_quiet (h : s.resets = []) : s.resetNow = false := by simp [State.resetNow, h]

theorem State.resetNow_iff : s.resetNow = true ↔ s.resets.head? = some 0 := by simp [State.resetNow]

/-- Where no reset is to come, an operation ends as given. -/
theorem State.settle_of_quiet (h : s.resets = []) (done : State → State) : s.settle done = done s := by
  simp [State.settle, s.resetNow_of_quiet h, s.pass_of_quiet h]

/-- The next answer depends on the script and the draws alone. -/
theorem State.nextReply_congr {t : State} (h1 : t.replies = s.replies) (h2 : t.draws = s.draws) :
    t.nextReply =
      (s.nextReply.1, { t with replies := s.nextReply.2.replies, draws := s.nextReply.2.draws }) := by
  unfold State.nextReply
  rw [h1]
  split <;> simp_all

/-- A scripted answer is taken from the front of the script. -/
theorem State.nextReply_cons {reply : List Byte} {rest : List (List Byte)} (h : s.replies = reply :: rest) :
    s.nextReply = (reply, { s with replies := rest }) := by
  simp [State.nextReply, h]

/-- A scripted sample is taken from the front of the script. -/
theorem State.nextCancel_cons {level : Bool} {rest : List Bool} (h : s.cancels = level :: rest) :
    s.nextCancel = (level, { s with cancels := rest }) := by
  simp [State.nextCancel, h]

end

/-! ### The device contexts -/

section
variable (s : State) (d d' : DevIx) (f : Dev → Dev)

@[simp] theorem State.modDev_length : (s.modDev d f).devs.length = s.devs.length := by simp [State.modDev]

/-- An update of one device is seen in that device. -/
theorem State.dev_modDev_same (h : d.toNat < s.devs.length) : (s.modDev d f).dev d = f (s.dev d) := by
  simp [State.dev, State.modDev, List.getD_eq_getElem?_getD, h]

/-- An update of one device is not seen in another. -/
theorem State.dev_modDev_other (h : d' ≠ d) : (s.modDev d f).dev d' = s.dev d' := by
  have : ¬ d.toNat = d'.toNat := fun e => h (BitVec.eq_of_toNat_eq e.symm)
  simp [State.dev, State.modDev, List.getD_eq_getElem?_getD, this]

/-- Two updates of one device are one. -/
theorem State.modDev_modDev (g : Dev → Dev) : (s.modDev d f).modDev d g = s.modDev d (fun v => g (f v)) := by
  simp [State.modDev, List.modify_modify_eq, Function.comp_def]

/-- A device a state has is one of its contexts. -/
theorem State.dev_mem (h : d.toNat < s.devs.length) : s.dev d ∈ s.devs := by
  simp [State.dev, List.getD_eq_getElem?_getD, h]

/-- A property every update keeps holds of every context after an update of one. -/
theorem State.forall_modDev {P : Dev → Prop} (hf : ∀ v, P v → P (f v)) (h : ∀ v ∈ s.devs, P v) :
    ∀ v ∈ (s.modDev d f).devs, P v := by
  intro v hv
  obtain ⟨i, hi, rfl⟩ := List.getElem_of_mem hv
  simp only [State.modDev, List.length_modify] at hi
  simp only [State.modDev, List.getElem_modify]
  split
  · exact hf _ (h _ (List.getElem_mem _))
  · exact h _ (List.getElem_mem _)

end

end Sys2Proof.Machine
end

