-- ==== Sys2Proof/Laws/Catalog.lean ====
section
/-! SUPPORT. What an admitted catalog gives (spec/10_state.md R13): names and addresses that single out one register, the
registers and fields the parameters name, and where a register and a field stand. -/

namespace Sys2Proof

theorem allDistinct_iff (l : List Byte) : allDistinct l = true ↔ l.Nodup := by
  induction l with
  | nil => simp [allDistinct]
  | cons x xs ih => simp [allDistinct, ih]

/-- Two keys are found at one position only when they are one. -/
theorem findIdx_key_ne {α : Type} {l : List α} (key : α → Byte) {a b : Byte}
    (h : List.findIdx (fun x => key x == a) l < l.length) (hn : b ≠ a) :
    List.findIdx (fun x => key x == b) l ≠ List.findIdx (fun x => key x == a) l := by
  intro e
  have h1 := List.findIdx_getElem (w := h)
  have h2 := List.findIdx_getElem (w := (e ▸ h : List.findIdx (fun x => key x == b) l < l.length))
  simp only [e, beq_iff_eq] at h1 h2
  exact hn (h2.symm.trans h1)

section
variable {c : Config} {r r' : RegName} {f f' : FldName}

/-! ### Lookups -/

theorem Config.reg?_mem {x : RegDesc} (h : c.reg? r = some x) : x ∈ c.catalog ∧ x.name = r :=
  ⟨List.mem_of_find?_eq_some h, by simpa using List.find?_some h⟩

theorem Config.hasReg_iff : c.hasReg r = true ↔ ∃ x ∈ c.catalog, x.name = r := by
  simp [Config.hasReg, Config.reg?]

theorem Config.regIx_lt : c.regIx r < c.catalog.length ↔ c.hasReg r = true := by
  rw [Config.hasReg_iff, Config.regIx, List.findIdx_lt_length]
  simp

/-- The register of a name stands at its position. -/
theorem Config.getElem_regIx (h : c.hasReg r = true) : c.reg? r = some (c.catalog[c.regIx r]'(regIx_lt.2 h)) := by
  simp only [Config.reg?, Config.regIx]
  rw [List.find?_eq_some_iff_getElem]
  have hl : List.findIdx (fun x : RegDesc => x.name == r) c.catalog < c.catalog.length := regIx_lt.2 h
  refine ⟨List.findIdx_getElem (w := hl), _, hl, rfl, ?_⟩
  intro j hj
  simpa using List.not_of_lt_findIdx hj

/-- Two names stand at one position only when they are one. -/
theorem Config.regIx_ne (h : c.hasReg r = true) (hn : r' ≠ r) : c.regIx r' ≠ c.regIx r :=
  findIdx_key_ne RegDesc.name (regIx_lt.2 h) hn

theorem Config.fieldsOf_eq {x : RegDesc} (h : c.reg? r = some x) : c.fieldsOf r = x.fields := by
  simp [Config.fieldsOf, h]

theorem Config.field?_mem {x : FieldDesc} (h : c.field? r f = some x) : x ∈ c.fieldsOf r ∧ x.name = f :=
  ⟨List.mem_of_find?_eq_some h, by simpa using List.find?_some h⟩

theorem Config.fldIx_lt : c.fldIx r f < (c.fieldsOf r).length ↔ (c.field? r f).isSome = true := by
  rw [Config.fldIx, Config.field?, List.findIdx_lt_length]
  simp

/-- The field of a name stands at its position. -/
theorem Config.getElem_fldIx {x : FieldDesc} (h : c.field? r f = some x) : (c.fieldsOf r)[c.fldIx r f]? = some x := by
  simp only [Config.field?, Config.fldIx] at *
  rw [List.find?_eq_some_iff_getElem] at h
  obtain ⟨hp, i, hi, hx, hj⟩ := h
  have : List.findIdx (fun x : FieldDesc => x.name == f) (c.fieldsOf r) = i := by
    rw [List.findIdx_eq hi, hx]
    exact ⟨hp, fun j h => by simpa using hj j h⟩
  rw [this, List.getElem?_eq_getElem hi, hx]

/-- Two field names of a register stand at one position only when they are one. -/
theorem Config.fldIx_ne {x : FieldDesc} (h : c.field? r f = some x) (hn : f' ≠ f) : c.fldIx r f' ≠ c.fldIx r f :=
  findIdx_key_ne FieldDesc.name (fldIx_lt.2 (by simp [h])) hn

theorem Config.isControl_hasReg (h : c.isControl r = true) : c.hasReg r = true := by
  unfold Config.isControl at h
  unfold Config.hasReg
  cases e : c.reg? r <;> simp_all

/-! ### Admission -/

theorem Config.admitted_names (h : c.admitted = true) : (c.catalog.map RegDesc.name).Nodup := by
  simp only [Config.admitted, Bool.and_eq_true, allDistinct_iff] at h
  exact h.1.1.1.1.1.2

theorem Config.admitted_addresses (h : c.admitted = true) : (c.catalog.map RegDesc.address).Nodup := by
  simp only [Config.admitted, Bool.and_eq_true, allDistinct_iff] at h
  exact h.1.1.1.1.2

theorem Config.admitted_ok (h : c.admitted = true) {x : RegDesc} (hx : x ∈ c.catalog) : x.ok = true := by
  simp only [Config.admitted, Bool.and_eq_true, List.all_eq_true] at h
  exact h.1.1.1.1.1.1 x hx

theorem Config.admitted_halves (h : c.admitted = true) {x y : RegDesc} (hx : x ∈ c.catalog) (hy : y ∈ c.catalog) :
    x.address + 1 ≠ y.address := by
  simp only [Config.admitted, Bool.and_eq_true, List.all_eq_true, bne_iff_ne] at h
  exact h.1.1.1.2 x hx y hy

theorem Config.admitted_params (h : c.admitted = true) : c.paramsOk = true := by
  simp only [Config.admitted, Bool.and_eq_true] at h
  exact h.1.1.2

theorem Config.admitted_dataBytes (h : c.admitted = true) : c.readDataBytes = 3 ∨ c.readDataBytes = 4 := by
  simp only [Config.admitted, Bool.and_eq_true, Bool.or_eq_true, beq_iff_eq] at h
  exact h.1.2

theorem Config.hasField_isSome {b : Bank} {w : Nat} (h : c.hasField b r f w = true) : (c.field? r f).isSome = true := by
  simp only [Config.hasField, Bool.and_eq_true] at h
  cases e : c.field? r f <;> simp_all

theorem Config.hasField_width {b : Bank} {w : Nat} {x : FieldDesc} (h : c.hasField b r f w = true)
    (e : c.field? r f = some x) : x.bits.width = w := by
  simp only [Config.hasField, Bool.and_eq_true] at h
  simpa [e] using h.2

theorem Config.hasField_hasReg {b : Bank} {w : Nat} (h : c.hasField b r f w = true) : c.hasReg r = true := by
  simp only [Config.hasField, Bool.and_eq_true] at h
  unfold Config.hasReg
  cases e : c.reg? r <;> simp_all

theorem Config.hasField_isControl {w : Nat} (h : c.hasField .control r f w = true) : c.isControl r = true := by
  simp only [Config.hasField, Bool.and_eq_true] at h
  exact h.1

/-- The register of a name is the only one of that name. -/
theorem Config.reg?_of_mem (h : c.admitted = true) {x : RegDesc} (hx : x ∈ c.catalog) : c.reg? x.name = some x := by
  have hn := Config.admitted_names h
  unfold Config.reg?
  generalize c.catalog = l at hx hn
  induction l with
  | nil => cases hx
  | cons y ys ih =>
    simp only [List.map_cons, List.nodup_cons] at hn
    rcases List.mem_cons.1 hx with rfl | hx
    · simp
    · have : y.name ≠ x.name := fun e => hn.1 (e ▸ List.mem_map_of_mem hx)
      rw [List.find?_cons_of_neg (by simpa using this)]
      exact ih hx hn.2

/-- What `ctrl` lists are the control registers. -/
theorem Config.mem_ctrl (h : c.admitted = true) : r ∈ c.ctrl ↔ c.isControl r = true := by
  constructor
  · intro hr
    simp only [Config.ctrl, List.mem_map, List.mem_filter, beq_iff_eq] at hr
    obtain ⟨x, ⟨hx, hb⟩, rfl⟩ := hr
    simp [Config.isControl, Config.reg?_of_mem h hx, hb]
  · intro hr
    unfold Config.isControl at hr
    cases e : c.reg? r with
    | none => simp [e] at hr
    | some x =>
      obtain ⟨hx, hn⟩ := Config.reg?_mem e
      simp only [e, Option.any_some, beq_iff_eq] at hr
      exact List.mem_map.2 ⟨x, List.mem_filter.2 ⟨hx, by simpa using hr⟩, hn⟩

theorem Config.ctrl_nodup (h : c.admitted = true) : c.ctrl.Nodup :=
  (Config.admitted_names h).sublist (List.Sublist.map _ List.filter_sublist)

/-- The fields of a register of an admitted catalog. -/
theorem Config.fieldsOf_ok (h : c.admitted = true) (r : RegName) :
    (∀ x ∈ c.fieldsOf r, Machine.fieldOk x.bits = true) ∧ ((c.fieldsOf r).map FieldDesc.name).Nodup ∧
      noOverlap (c.fieldsOf r) = true := by
  cases e : c.reg? r with
  | none => simp [Config.fieldsOf, e, noOverlap]
  | some x =>
    have := Config.admitted_ok h (Config.reg?_mem e).1
    simp only [RegDesc.ok, Bool.and_eq_true, List.all_eq_true, allDistinct_iff] at this
    rw [Config.fieldsOf_eq e]
    exact ⟨this.1.1.1, this.1.1.2, this.1.2⟩

/-- The registers and fields that the parameters name. -/
theorem Config.latch_fields (h : c.admitted = true) :
    c.hasField .control c.latchReg c.latchF1 1 = true ∧ c.hasField .control c.latchReg c.latchF2 1 = true := by
  have := Config.admitted_params h
  simp only [Config.paramsOk, Bool.and_eq_true] at this
  grind

theorem Config.uart_field (h : c.admitted = true) : c.hasField .control c.uartReg c.crcEnF 1 = true := by
  have := Config.admitted_params h
  simp only [Config.paramsOk, Bool.and_eq_true] at this
  grind

theorem Config.cal_fields (h : c.admitted = true) :
    c.hasField .control c.calV1.reg c.calV1.fld 12 = true ∧ c.hasField .control c.calI1.reg c.calI1.fld 12 = true ∧
    c.hasField .control c.calV2.reg c.calV2.fld 12 = true ∧ c.hasField .control c.calI2.reg c.calI2.fld 12 = true := by
  have := Config.admitted_params h
  simp only [Config.paramsOk, Bool.and_eq_true] at this
  grind

theorem Config.rms_fields (h : c.admitted = true) :
    c.hasField .data c.rms1.reg c.rms1.vFld 15 = true ∧ c.hasField .data c.rms1.reg c.rms1.iFld 17 = true ∧
    c.hasField .data c.rms2.reg c.rms2.vFld 15 = true ∧ c.hasField .data c.rms2.reg c.rms2.iFld 17 = true := by
  have := Config.admitted_params h
  simp only [Config.paramsOk, Bool.and_eq_true] at this
  grind

end

end Sys2Proof
end

