-- ==== Sys2Proof/Laws/Bits.lean ====
section
/-! SUPPORT. Bit fields bit by bit: one equation for each of the functions of spec/40_bitfield.md and for the two folds over
the fields of a register (spec/41_register.md R90, R92). -/

namespace Sys2Proof.Machine

section
variable {f g : BitField} {v w : Word} {i : Nat}

theorem fieldOk_iff : fieldOk f = true ↔ 1 ≤ f.width ∧ f.start + f.width ≤ 32 := by simp [fieldOk]

theorem fmask_getLsbD (h : fieldOk f = true) : (fmask f).getLsbD i = decide (i < f.width) := by
  rw [fieldOk_iff] at h
  unfold fmask
  rw [BitVec.getLsbD_ofNat]
  by_cases hi : i < 32
  · simp [hi, Nat.testBit_two_pow_sub_one]
  · simp [hi]; omega

/-- The bits of a field in place. -/
theorem placed_getLsbD (h : fieldOk f = true) :
    ((v &&& fmask f) <<< f.start).getLsbD i =
      (decide (f.start ≤ i ∧ i < f.start + f.width) && v.getLsbD (i - f.start)) := by
  have h' := fieldOk_iff.1 h
  simp only [BitVec.getLsbD_shiftLeft, BitVec.getLsbD_and, fmask_getLsbD h]
  by_cases h1 : f.start ≤ i ∧ i < f.start + f.width
  · have h2 : i < 32 := by omega
    have h3 : i - f.start < f.width := by omega
    simp [h1, h2, h3]
  · by_cases h4 : f.start ≤ i
    · have h5 : ¬ i - f.start < f.width := by omega
      have h6 : ¬ i < f.start + f.width := by omega
      simp [h5, h6]
    · have h5 : i < f.start := by omega
      simp [h4, h5]

theorem span_getLsbD (h : fieldOk f = true) :
    (span f).getLsbD i = decide (f.start ≤ i ∧ i < f.start + f.width) := by
  have h' := fieldOk_iff.1 h
  have := placed_getLsbD (v := BitVec.allOnes 32) (i := i) h
  rw [BitVec.allOnes_and] at this
  rw [span, this]
  by_cases h1 : f.start ≤ i ∧ i < f.start + f.width
  · rw [BitVec.getLsbD_allOnes]
    have h2 : i - f.start < 32 := by omega
    simp [h1, h2]
  · simp [h1]

theorem bfDecode_getLsbD (h : fieldOk f = true) :
    (bfDecode f w).getLsbD i = (decide (i < f.width) && w.getLsbD (f.start + i)) := by
  simp [bfDecode, fmask_getLsbD h, Bool.and_comm]

theorem bfEncode_getLsbD (h : fieldOk f = true) :
    (bfEncode f v w).getLsbD i =
      if f.start ≤ i ∧ i < f.start + f.width then v.getLsbD (i - f.start) else w.getLsbD i := by
  have h' := fieldOk_iff.1 h
  rw [bfEncode, BitVec.getLsbD_or, BitVec.getLsbD_and, BitVec.getLsbD_not, span_getLsbD h, placed_getLsbD h]
  split
  · rename_i h1
    simp [h1]
  · rename_i h1
    by_cases h2 : i < 32
    · simp [h1, h2]
    · simp [h1, h2, BitVec.getLsbD_of_ge w i (by omega)]

/-- Fields whose spans are disjoint share no bit. -/
theorem span_disjoint (hf : fieldOk f = true) (hg : fieldOk g = true) (h : span f &&& span g = 0) (i : Nat) :
    ¬ ((f.start ≤ i ∧ i < f.start + f.width) ∧ (g.start ≤ i ∧ i < g.start + g.width)) := by
  intro ⟨a, b⟩
  have := congrArg (fun x => x.getLsbD i) h
  simp [BitVec.getLsbD_and, span_getLsbD hf, span_getLsbD hg, a, b] at this

/-- A field encoded into a word that is 0 in its span is the field ORed in. -/
theorem bfEncode_of_clear (h : w &&& span f = 0) : bfEncode f v w = w ||| ((v &&& fmask f) <<< f.start) := by
  have : w &&& ~~~ span f = w := by
    apply BitVec.eq_of_getLsbD_eq
    intro i hi
    have : (w &&& span f).getLsbD i = false := by rw [h]; simp
    rw [BitVec.getLsbD_and, Bool.and_eq_false_iff] at this
    rw [BitVec.getLsbD_and, BitVec.getLsbD_not]
    rcases this with e | e <;> rw [e] <;> simp [hi]
  rw [bfEncode, this]

/-- Four bytes make the word whose bytes they are. -/
theorem ofLeBytes_eq (b0 b1 b2 b3 : Byte) :
    ofLeBytes b0 b1 b2 b3 =
      b0.setWidth 32 ||| b1.setWidth 32 <<< 8 ||| b2.setWidth 32 <<< 16 ||| b3.setWidth 32 <<< 24 := by
  apply BitVec.eq_of_getLsbD_eq
  intro i hi
  have hs (b : Byte) (k : Nat) (hk : k ≤ i) :
      (b.setWidth 32 <<< k).getLsbD i = b.getLsbD (i - k) := by
    have h' : ¬ i < k := by omega
    simp [hi, h']
  have hz (b : Byte) (k : Nat) (hk : i < k) : (b.setWidth 32 <<< k).getLsbD i = false := by simp [hk]
  have hb (b : Byte) (k : Nat) (hk : 8 ≤ k) : b.getLsbD k = false := BitVec.getLsbD_of_ge b k hk
  simp only [ofLeBytes, BitVec.getLsbD_append, BitVec.getLsbD_or, BitVec.getLsbD_setWidth, hi, decide_true,
    Bool.true_and, Nat.sub_sub]
  by_cases h0 : i < 8
  · rw [hz b1 8 h0, hz b2 16 (by omega), hz b3 24 (by omega)]
    simp [h0]
  · rw [hs b1 8 (by omega), hb b0 i (by omega)]
    by_cases h1 : i < 16
    · rw [hz b2 16 h1, hz b3 24 (by omega)]
      simp [h0, show i - 8 < 8 by omega]
    · rw [hs b2 16 (by omega), hb b1 _ (by omega)]
      by_cases h2 : i < 24
      · rw [hz b3 24 h2]
        simp [h0, show ¬ i - 8 < 8 by omega, show i - 16 < 8 by omega]
      · rw [hs b3 24 (by omega), hb b2 _ (by omega)]
        simp [h0, show ¬ i - 8 < 8 by omega, show ¬ i - 16 < 8 by omega]

end

/-! ### The fields of a register -/

/-- The fields of a register do not meet: what R13 items 1 and 3 give of a field list. -/
def Apart (fs : List FieldDesc) : Prop := (∀ x ∈ fs, fieldOk x.bits = true) ∧ noOverlap fs = true

theorem Apart.tail {x : FieldDesc} {fs : List FieldDesc} (h : Apart (x :: fs)) : Apart fs := by
  refine ⟨fun y hy => h.1 y (by simp [hy]), ?_⟩
  have := h.2
  simp only [noOverlap, Bool.and_eq_true] at this
  exact this.2

theorem Apart.head {x y : FieldDesc} {fs : List FieldDesc} (h : Apart (x :: fs)) (hy : y ∈ fs) :
    span x.bits &&& span y.bits = 0 := by
  have := h.2
  simp only [noOverlap, Bool.and_eq_true, List.all_eq_true, beq_iff_eq] at this
  exact this.1 y hy

theorem apart_fieldsOf {c : Config} (h : c.admitted = true) (r : RegName) : Apart (c.fieldsOf r) :=
  ⟨(Config.fieldsOf_ok h r).1, (Config.fieldsOf_ok h r).2.2⟩

/-- The bits of a fold of fields: those of the accumulator and those of the fields. -/
theorem foldFields_getLsbD (fs : List FieldDesc) (cells : List Word) (h : ∀ x ∈ fs, fieldOk x.bits = true) (a : Word)
    (i : Nat) :
    ((fs.zip cells).foldl (fun acc p => acc ||| ((p.2 &&& fmask p.1.bits) <<< p.1.bits.start)) a).getLsbD i =
      (a.getLsbD i || (fs.zip cells).any (fun p =>
        decide (p.1.bits.start ≤ i ∧ i < p.1.bits.start + p.1.bits.width) && p.2.getLsbD (i - p.1.bits.start))) := by
  induction fs generalizing cells a with
  | nil => simp
  | cons x fs ih =>
    cases cells with
    | nil => simp
    | cons v cells =>
      simp only [List.zip_cons_cons, List.foldl_cons, List.any_cons]
      rw [ih cells (fun y hy => h y (by simp [hy])), BitVec.getLsbD_or, placed_getLsbD (h x (by simp)), Bool.or_assoc]

theorem foldCells_getLsbD (fs : List FieldDesc) (cells : List Word) (h : ∀ x ∈ fs, fieldOk x.bits = true) (i : Nat) :
    (foldCells fs cells).getLsbD i = (fs.zip cells).any (fun p =>
      decide (p.1.bits.start ≤ i ∧ i < p.1.bits.start + p.1.bits.width) && p.2.getLsbD (i - p.1.bits.start)) := by
  rw [foldCells, foldFields_getLsbD fs cells h]
  simp

theorem coveredBy_getLsbD (fs : List FieldDesc) (h : ∀ x ∈ fs, fieldOk x.bits = true) (i : Nat) :
    (coveredBy fs).getLsbD i =
      fs.any (fun x => decide (x.bits.start ≤ i ∧ i < x.bits.start + x.bits.width)) := by
  suffices ∀ a : Word, (fs.foldl (fun acc f => acc ||| span f.bits) a).getLsbD i =
      (a.getLsbD i || fs.any (fun x => decide (x.bits.start ≤ i ∧ i < x.bits.start + x.bits.width))) by
    rw [coveredBy, this]; simp
  induction fs with
  | nil => simp
  | cons x fs ih =>
    intro a
    simp only [List.foldl_cons, List.any_cons]
    rw [ih (fun y hy => h y (by simp [hy])), BitVec.getLsbD_or, span_getLsbD (h x (by simp)), Bool.or_assoc]

/-- Decoding one field of a word folded from cells gives its cell, cut to the field. -/
theorem bfDecode_foldCells (fs : List FieldDesc) (cells : List Word) (h : Apart fs) (hl : cells.length = fs.length)
    (k : Nat) (x : FieldDesc) (v : Word) (hx : fs[k]? = some x) (hv : cells[k]? = some v) :
    bfDecode x.bits (foldCells fs cells) = v &&& fmask x.bits := by
  have hxm : x ∈ fs := List.mem_of_getElem? hx
  have hok := h.1 x hxm
  apply BitVec.eq_of_getLsbD_eq
  intro i _
  rw [bfDecode_getLsbD hok, BitVec.getLsbD_and, fmask_getLsbD hok, foldCells_getLsbD fs cells h.1]
  by_cases hi : i < x.bits.width
  · simp only [hi, decide_true, Bool.true_and, Bool.and_true]
    clear hxm hok
    induction fs generalizing cells k with
    | nil => simp at hx
    | cons y fs ih =>
      cases cells with
      | nil => simp at hl
      | cons u cells =>
        simp only [List.zip_cons_cons, List.any_cons]
        cases k with
        | zero =>
          simp only [List.getElem?_cons_zero, Option.some.injEq] at hx hv
          subst hx; subst hv
          have : (fs.zip cells).any (fun p => decide (p.1.bits.start ≤ y.bits.start + i ∧
              y.bits.start + i < p.1.bits.start + p.1.bits.width) && p.2.getLsbD (y.bits.start + i - p.1.bits.start)) = false := by
            rw [List.any_eq_false]
            intro p hp
            have hm : p.1 ∈ fs := (List.of_mem_zip hp).1
            have hd := span_disjoint (h.1 y (by simp)) (h.1 p.1 (by simp [hm])) (h.head hm) (y.bits.start + i)
            have : ¬ (p.1.bits.start ≤ y.bits.start + i ∧ y.bits.start + i < p.1.bits.start + p.1.bits.width) := by
              intro e; exact hd ⟨⟨by omega, by omega⟩, e⟩
            simp [this]
          rw [this]
          simp [hi]
        | succ k =>
          simp only [List.getElem?_cons_succ] at hx hv
          have hm : x ∈ fs := List.mem_of_getElem? hx
          have hd := span_disjoint (h.1 y (by simp)) (h.1 x (by simp [hm])) (h.head hm) (x.bits.start + i)
          have : ¬ (y.bits.start ≤ x.bits.start + i ∧ x.bits.start + i < y.bits.start + y.bits.width) := by
            intro e; exact hd ⟨e, ⟨by omega, by omega⟩⟩
          rw [ih cells h.tail (by simpa using hl) k hx hv]
          simp [this]
  · simp [hi]

/-- Folding the cells decoded from a word gives its covered bits. -/
theorem foldCells_decodeCells (fs : List FieldDesc) (h : ∀ x ∈ fs, fieldOk x.bits = true) (w : Word) :
    foldCells fs (decodeCells fs w) = w &&& coveredBy fs := by
  apply BitVec.eq_of_getLsbD_eq
  intro i _
  rw [foldCells_getLsbD fs _ h, BitVec.getLsbD_and, coveredBy_getLsbD fs h, decodeCells]
  induction fs with
  | nil => simp
  | cons x fs ih =>
    simp only [List.map_cons, List.zip_cons_cons, List.any_cons]
    rw [ih (fun y hy => h y (by simp [hy])), bfDecode_getLsbD (h x (by simp))]
    by_cases hx : x.bits.start ≤ i ∧ i < x.bits.start + x.bits.width
    · have h1 : i - x.bits.start < x.bits.width := by omega
      have h2 : x.bits.start + (i - x.bits.start) = i := by omega
      simp [hx, h1, h2]
      cases w.getLsbD i <;> simp
    · simp [hx]

/-- A fold of cells is 0 outside the covered bits. -/
theorem foldCells_covered (fs : List FieldDesc) (cells : List Word) (h : ∀ x ∈ fs, fieldOk x.bits = true) :
    foldCells fs cells &&& ~~~ coveredBy fs = 0 := by
  apply BitVec.eq_of_getLsbD_eq
  intro i _
  rw [BitVec.getLsbD_and, BitVec.getLsbD_not, foldCells_getLsbD fs _ h, coveredBy_getLsbD fs h]
  induction fs generalizing cells with
  | nil => simp
  | cons x fs ih =>
    cases cells with
    | nil => simp
    | cons v cells =>
      simp only [List.zip_cons_cons, List.any_cons]
      have := ih cells (fun y hy => h y (by simp [hy]))
      revert this
      by_cases hx : x.bits.start ≤ i ∧ i < x.bits.start + x.bits.width <;> simp [hx]

/-- The fold of cells that do not meet is `BF.ENCODE` field by field. -/
theorem foldCells_eq_bfEncode (fs : List FieldDesc) (cells : List Word) (h : Apart fs) :
    foldCells fs cells = (fs.zip cells).foldl (fun acc p => bfEncode p.1.bits p.2 acc) 0 := by
  suffices ∀ a : Word, (∀ x ∈ fs, a &&& span x.bits = 0) →
      (fs.zip cells).foldl (fun acc p => acc ||| ((p.2 &&& fmask p.1.bits) <<< p.1.bits.start)) a =
        (fs.zip cells).foldl (fun acc p => bfEncode p.1.bits p.2 acc) a from this 0 (by simp)
  induction fs generalizing cells with
  | nil => simp
  | cons x fs ih =>
    intro a ha
    cases cells with
    | nil => simp
    | cons v cells =>
      simp only [List.zip_cons_cons, List.foldl_cons]
      rw [bfEncode_of_clear (ha x (by simp))]
      refine ih cells h.tail _ fun y hy => ?_
      apply BitVec.eq_of_getLsbD_eq
      intro i _
      have h1 : (a &&& span y.bits).getLsbD i = false := by rw [ha y (by simp [hy])]; simp
      have h2 := span_disjoint (h.1 x (by simp)) (h.1 y (by simp [hy])) (h.head hy) i
      simp only [BitVec.getLsbD_and, span_getLsbD (h.1 y (by simp [hy]))] at h1
      rw [BitVec.getLsbD_and, BitVec.getLsbD_or, placed_getLsbD (h.1 x (by simp)), span_getLsbD (h.1 y (by simp [hy]))]
      by_cases hb : y.bits.start ≤ i ∧ i < y.bits.start + y.bits.width
      · have : ¬ (x.bits.start ≤ i ∧ i < x.bits.start + x.bits.width) := fun e => h2 ⟨e, hb⟩
        simp [hb] at h1
        simp [hb, this, h1]
      · simp [hb]

end Sys2Proof.Machine
end

