-- ==== Sys2Proof/Laws/Cells.lean ====
section
/-! SUPPORT. The cells of the shadow files: what a read of a cell gives after each write, on a state whose files have the
catalog's shape (spec/10_state.md R11), and that every write keeps that shape. -/

namespace Sys2Proof.Machine

section
variable {s : State} {d d' : DevIx} {r r' : RegName} {f f' : FldName} {l : List Word} {v w : Word}

/-! ### The shape -/

theorem State.Shaped.lt (hs : s.Shaped) (hd : s.HasDev d) : d.toNat < s.devs.length := hs.1 ▸ hd

theorem State.Shaped.fv (hs : s.Shaped) (hd : s.HasDev d) :
    (s.dev d).fv.map List.length = s.cfg.catalog.map (fun x => x.fields.length) :=
  hs.2 _ (s.dev_mem d (hs.lt hd))

theorem State.Shaped.fv_length (hs : s.Shaped) (hd : s.HasDev d) : (s.dev d).fv.length = s.cfg.catalog.length := by
  simpa using congrArg List.length (hs.fv hd)

/-- A register has as many cells as fields. -/
theorem State.Shaped.cells_length (hs : s.Shaped) (hd : s.HasDev d) (hr : s.cfg.hasReg r = true) :
    (s.cells d r).length = (s.cfg.fieldsOf r).length := by
  have h1 : s.cfg.regIx r < s.cfg.catalog.length := Config.regIx_lt.2 hr
  have h2 : s.cfg.regIx r < (s.dev d).fv.length := by rw [hs.fv_length hd]; exact h1
  have h3 := congrArg (fun l => l[s.cfg.regIx r]?) (hs.fv hd)
  simp only [List.getElem?_map, List.getElem?_eq_getElem h1, List.getElem?_eq_getElem h2, Option.map_some,
    Option.some.injEq] at h3
  rw [Config.fieldsOf_eq (Config.getElem_regIx hr), ← h3, State.cells, List.getD_eq_getElem?_getD,
    List.getElem?_eq_getElem h2, Option.getD_some]

/-- An update that keeps the length of every list of cells keeps the shape. -/
theorem State.Shaped.modDev {g : Dev → Dev} (hs : s.Shaped)
    (hg : ∀ v, (v.fv.map List.length = s.cfg.catalog.map (fun x => x.fields.length)) →
      (g v).fv.map List.length = s.cfg.catalog.map (fun x => x.fields.length)) : (s.modDev d g).Shaped :=
  ⟨by simpa using hs.1, s.forall_modDev d g hg hs.2⟩

theorem State.Shaped.setCells (hs : s.Shaped) (h : l.length = (s.cfg.fieldsOf r).length) :
    (s.setCells d r l).Shaped := by
  refine hs.modDev fun v hv => ?_
  simp only
  rw [List.map_set, hv]
  by_cases hr : s.cfg.hasReg r = true
  · apply List.ext_getElem?
    intro i
    rw [List.getElem?_set]
    split
    · rename_i e
      subst e
      have h1 : s.cfg.regIx r < s.cfg.catalog.length := Config.regIx_lt.2 hr
      rw [if_pos (by simpa using h1), List.getElem?_map, List.getElem?_eq_getElem h1, Option.map_some, h,
        Config.fieldsOf_eq (Config.getElem_regIx hr)]
    · rfl
  · rw [List.set_eq_of_length_le]
    have : ¬ s.cfg.regIx r < s.cfg.catalog.length := fun e => hr (Config.regIx_lt.1 e)
    simpa using Nat.le_of_not_lt this

theorem State.Shaped.decodeReg (hs : s.Shaped) : (s.decodeReg d r w).Shaped :=
  hs.setCells (by simp [decodeCells])

theorem State.Shaped.setCell (hs : s.Shaped) : (s.setCell d r f v).Shaped := by
  by_cases hd : s.HasDev d
  · by_cases hr : s.cfg.hasReg r = true
    · exact hs.setCells (by simpa using hs.cells_length hd hr)
    · refine hs.modDev fun u hu => ?_
      simp only
      rw [List.map_set, hu, List.set_eq_of_length_le]
      have : ¬ s.cfg.regIx r < s.cfg.catalog.length := fun e => hr (Config.regIx_lt.1 e)
      simpa using Nat.le_of_not_lt this
  · have : s.setCell d r f v = s := by
      unfold State.setCell State.setCells State.modDev
      rw [List.modify_eq_self]
      rw [hs.1]
      exact Nat.le_of_not_lt hd
    rwa [this]

/-! ### The cells of one register -/

theorem State.cells_setCells_same (hs : s.Shaped) (hd : s.HasDev d) (hr : s.cfg.hasReg r = true) :
    (s.setCells d r l).cells d r = l := by
  have h1 : s.cfg.regIx r < (s.dev d).fv.length := by
    rw [hs.fv_length hd]; exact Config.regIx_lt.2 hr
  unfold State.cells
  rw [show (s.setCells d r l).dev d = _ from s.dev_modDev_same d _ (hs.lt hd), State.setCells_cfg]
  simp [List.getD_eq_getElem?_getD, h1]

/-- A write of one register's cells leaves every other register's, on every device. -/
theorem State.cells_setCells_other (hr : s.cfg.hasReg r = true) (hn : (d', r') ≠ (d, r)) :
    (s.setCells d r l).cells d' r' = s.cells d' r' := by
  unfold State.cells
  by_cases e : d' = d
  · subst e
    have hne : r' ≠ r := fun e => hn (by rw [e])
    by_cases hl : d'.toNat < s.devs.length
    · rw [show (s.setCells d' r l).dev d' = _ from s.dev_modDev_same d' _ hl, State.setCells_cfg]
      simp [List.getD_eq_getElem?_getD, (Config.regIx_ne hr hne).symm]
    · unfold State.setCells State.modDev State.dev
      rw [List.modify_eq_self (by omega)]
  · rw [show (s.setCells d r l).dev d' = _ from s.dev_modDev_other d d' _ e, State.setCells_cfg]

/-- The other cells of a device context do not change with its registers. -/
theorem State.dev_setCells (hs : s.Shaped) (hd : s.HasDev d) :
    (s.setCells d r l).dev d = { s.dev d with fv := (s.dev d).fv.set (s.cfg.regIx r) l } :=
  s.dev_modDev_same d _ (hs.lt hd)

theorem State.dev_setCells_other (hn : d' ≠ d) : (s.setCells d r l).dev d' = s.dev d' := s.dev_modDev_other d d' _ hn

theorem State.dev_setCells_rest (s : State) (d d' : DevIx) (r : RegName) (l : List Word) :
    ((s.setCells d r l).dev d').crcIntended = (s.dev d').crcIntended ∧
    ((s.setCells d r l).dev d').csN = (s.dev d').csN ∧ ((s.setCells d r l).dev d').latch = (s.dev d').latch ∧
    ((s.setCells d r l).dev d').warnDrift = (s.dev d').warnDrift := by
  by_cases e : d' = d
  · subst e
    by_cases hl : d'.toNat < s.devs.length
    · rw [show (s.setCells d' r l).dev d' = _ from s.dev_modDev_same d' _ hl]
      simp
    · unfold State.setCells State.modDev State.dev
      rw [List.modify_eq_self (by omega)]
      simp
  · rw [State.dev_setCells_other e]; simp

/-- An update that touches no shadow file touches no cell. -/
theorem State.cells_modDev {g : Dev → Dev} (hg : ∀ v, (g v).fv = v.fv) : (s.modDev d g).cells d' r = s.cells d' r := by
  unfold State.cells
  by_cases e : d' = d
  · subst e
    by_cases hl : d'.toNat < s.devs.length
    · rw [s.dev_modDev_same d' g hl, State.modDev_cfg, hg]
    · unfold State.modDev State.dev
      rw [List.modify_eq_self (by omega)]
  · rw [s.dev_modDev_other d d' g e, State.modDev_cfg]

/-! ### One cell -/

theorem State.getCell_eq (s : State) (d : DevIx) (r : RegName) (f : FldName) :
    s.getCell d r f = (s.cells d r).getD (s.cfg.fldIx r f) 0 := rfl

theorem State.getCell_of_cells {t : State} (hc : t.cfg = s.cfg) (h : t.cells d r = s.cells d r) :
    t.getCell d r f = s.getCell d r f := by
  rw [State.getCell_eq, State.getCell_eq, h, hc]

/-- A cell just written reads as written. -/
theorem State.getCell_setCell_same {x : FieldDesc} (hs : s.Shaped) (hd : s.HasDev d) (hr : s.cfg.hasReg r = true)
    (hf : s.cfg.field? r f = some x) : (s.setCell d r f v).getCell d r f = v := by
  have h1 : s.cfg.fldIx r f < (s.cells d r).length := by
    rw [hs.cells_length hd hr]; exact Config.fldIx_lt.2 (by simp [hf])
  rw [State.getCell_eq, State.setCell, State.cells_setCells_same hs hd hr, State.setCells_cfg]
  simp [List.getD_eq_getElem?_getD, h1]

/-- A write of one cell leaves every other cell. -/
theorem State.getCell_setCell_other {x : FieldDesc} (hs : s.Shaped) (hr : s.cfg.hasReg r = true)
    (hf : s.cfg.field? r f = some x) (hn : (d', r', f') ≠ (d, r, f)) :
    (s.setCell d r f v).getCell d' r' f' = s.getCell d' r' f' := by
  by_cases e : (d', r') = (d, r)
  · obtain ⟨rfl, rfl⟩ := Prod.mk.inj e
    have hne : f' ≠ f := fun e => hn (by rw [e])
    by_cases hd : s.HasDev d'
    · rw [State.getCell_eq, State.setCell, State.cells_setCells_same hs hd hr, State.setCells_cfg, State.getCell_eq]
      simp [List.getD_eq_getElem?_getD, (Config.fldIx_ne hf hne).symm]
    · have : s.setCell d' r' f v = s := by
        unfold State.setCell State.setCells State.modDev
        rw [List.modify_eq_self (by rw [hs.1]; exact Nat.le_of_not_lt hd)]
      rw [this]
  · exact State.getCell_of_cells rfl (State.cells_setCells_other hr e)

/-- A register just decoded reads, field by field, as the decode of the word. -/
theorem State.getCell_decodeReg {x : FieldDesc} (hs : s.Shaped) (hd : s.HasDev d) (hr : s.cfg.hasReg r = true)
    (hf : s.cfg.field? r f = some x) : (s.decodeReg d r w).getCell d r f = bfDecode x.bits w := by
  rw [State.getCell_eq, State.decodeReg, State.cells_setCells_same hs hd hr, State.setCells_cfg]
  simp [List.getD_eq_getElem?_getD, decodeCells, Config.getElem_fldIx hf]

theorem State.encodeReg_of_cells {t : State} (hc : t.cfg = s.cfg) (h : t.cells d r = s.cells d r) :
    t.encodeReg d r = s.encodeReg d r := by
  unfold State.encodeReg
  rw [h, hc]

/-- The framing of a device depends on the cells of `UART_REG` alone. -/
theorem State.flen_of_cells {t : State} (hc : t.cfg = s.cfg) (h : t.cells d s.cfg.uartReg = s.cells d s.cfg.uartReg) :
    t.flen d = s.flen d ∧ t.crcOn d = s.crcOn d := by
  have : t.crcOn d = s.crcOn d := by
    unfold State.crcOn
    rw [hc, State.getCell_of_cells hc h]
  exact ⟨by unfold State.flen; rw [this], this⟩

end

end Sys2Proof.Machine
end

