-- ==== Sys2Proof/Laws/Op.lean ====
section
/-! SUPPORT. What each program of events does when it is run: one equation for each primitive, one for a transaction
when the reset input is not applied, and one for the frame in which every operation runs. -/

namespace Sys2Proof.Machine

section
variable {α β : Type} (s : State)

@[simp] theorem Op.pure_apply (a : α) : (pure a : Op α) s = .ok a s := rfl

@[simp] theorem Op.bind_apply (m : Op α) (k : α → Op β) :
    (m >>= k) s = match m s with
      | .ok a t => k a t
      | .error e t => .error e t := by
  change EStateM.bind m k s = _
  unfold EStateM.bind
  cases m s <;> rfl

@[simp] theorem Op.get_apply : (get : Op State) s = .ok s s := rfl

@[simp] theorem Op.modify_apply (f : State → State) : (modify f : Op Unit) s = .ok () (f s) := rfl

@[simp] theorem Op.raise_apply (e : Err) : (raise e : Op α) s = .error (.err e) s := rfl

theorem onRaise_apply (m : Op α) (f : State → State) : onRaise m f s = match m s with
    | .error (.err e) t => .error (.err e) (f t)
    | r => r := rfl

/-- An event with the reset input quiet is appended to the trace. -/
theorem emit_noReset (h : s.resets = []) (e : Event) : emit e s = .ok () (s.record e) := by
  simp [emit, s.resetNow_of_quiet h, s.pass_of_quiet h]

/-- An event before which the reset input is applied is not emitted. -/
theorem emit_reset (h : s.resetNow = true) (e : Event) : emit e s = .error .reset s := by simp [emit, h]

/-- An answer with the reset input quiet. -/
theorem rx_noReset (h : s.resets = []) (n : Nat) :
    rx n s = .ok s.nextReply.1 (s.nextReply.2.record (.rx n fillByte s.nextReply.1)) := by
  simp [rx, s.resetNow_of_quiet h, h, emit_noReset]

/-- A select line driven with the reset input quiet. -/
theorem drive_noReset (h : s.resets = []) (d : DevIx) (b : Bool) :
    drive d b s = .ok () ((s.record (if b then .csDeassert d else .csAssert d)).setCsN d b) := by
  simp [drive, emit_noReset, h]

/-- The sequencer after `k` more transport events. -/
def Seq.ticks (k : Nat) (q : Seq) : Seq :=
  match q with
  | .idle => .idle
  | .busy i n => .busy i (n + k)

/-- The state after one whole transaction. -/
def State.afterXfer (s : State) (d : DevIx) (cmd : List Byte) (n : Nat) : State :=
  { s with
    devs := s.devs.modify d.toNat (fun v => { v with csN := true })
    trace := s.trace ++ transaction d cmd n s.nextReply.1
    seq := s.seq.ticks 6
    replies := s.nextReply.2.replies
    draws := s.nextReply.2.draws }

/-- One transaction with the reset input quiet: six events, one answer taken, and the line left high (R111). -/
theorem xfer_noReset (h : s.resets = []) (d : DevIx) (cmd : List Byte) (n : Nat) :
    xfer d cmd n s = .ok s.nextReply.1 (s.afterXfer d cmd n) := by
  simp only [xfer, Op.bind_apply, drive_noReset, emit_noReset, rx_noReset, h, State.setCsN_resets,
    State.record_resets, State.nextReply_resets, Op.pure_apply]
  rw [State.nextReply_congr s]
  · cases hq : s.seq <;>
      simp [State.afterXfer, State.record, State.setCsN, State.modDev, List.modify_modify_eq, transaction, Seq.ticks, hq,
        Seq.tick, Function.comp_def]
  · rfl
  · rfl

theorem State.nextReply_begin (i : Instr) : (s.begin i).nextReply = (s.nextReply.1, s.nextReply.2.begin i) := by
  unfold State.begin State.nextReply
  cases s
  simp only
  split <;> simp_all

/-- A transaction inside an operation differs from one by itself in the sequencer alone. -/
theorem State.afterXfer_withTransaction (d : DevIx) (cmd : List Byte) (n : Nat) :
    s.afterXfer d cmd n = { s.withTransaction d cmd n with seq := s.seq.ticks 6 } := rfl

/-- A transaction does not look at the sequencer. -/
theorem State.withTransaction_seq (q : Seq) (d : DevIx) (cmd : List Byte) (n : Nat) :
    ({ s with seq := q } : State).withTransaction d cmd n = { s.withTransaction d cmd n with seq := q } := by
  unfold State.withTransaction
  rw [State.nextReply_congr s (t := { s with seq := q }) rfl rfl]
  rfl

theorem State.finish_seq_any (q : Seq) (r : HostResult) : ({ s with seq := q } : State).finish r = s.finish r := rfl

theorem State.finish_idle (h : s.seq = .idle) (r : HostResult) :
    s.finish r = { s with results := s.results ++ [r] } := by
  cases s; simp_all [State.finish]

/-- An operation that is one transaction leaves one transaction. -/
theorem State.finish_afterXfer_begin (h : s.seq = .idle) (i : Instr) (d : DevIx) (cmd : List Byte) (n : Nat)
    (r : HostResult) :
    ((s.begin i).afterXfer d cmd n).finish r = { s.withTransaction d cmd n with results := s.results ++ [r] } := by
  rw [State.afterXfer_withTransaction, State.begin, State.withTransaction_seq, State.finish_seq_any,
    State.finish_seq_any, State.finish_idle (s.withTransaction d cmd n) h]
  rfl

/-- An operation that is two transactions leaves two transactions. -/
theorem State.finish_afterXfer_afterXfer_begin (h : s.seq = .idle) (i : Instr) (d : DevIx) (c1 c2 : List Byte)
    (n1 n2 : Nat) (r : HostResult) :
    (((s.begin i).afterXfer d c1 n1).afterXfer d c2 n2).finish r =
      { (s.withTransaction d c1 n1).withTransaction d c2 n2 with results := s.results ++ [r] } := by
  simp only [State.afterXfer_withTransaction, State.begin, State.withTransaction_seq, State.finish_seq_any]
  exact State.finish_idle ((s.withTransaction d c1 n1).withTransaction d c2 n2) h r

/-- What a body leaves, by how it ends. -/
theorem runOp_eq (i : Instr) (body : Op Value) :
    runOp i body s = match body (s.begin i) with
      | .ok v t => t.settle (fun u => u.finish (.ok v))
      | .error (.err e) t => t.settle (fun u => u.takeError e)
      | .error .reset t => t.applyReset := rfl

/-- An operation whose body ends with a value, no reset being to come. -/
theorem runOp_ok {i : Instr} {body : Op Value} {v : Value} {t : State} (hn : t.resets = [])
    (h : body (s.begin i) = .ok v t) : runOp i body s = t.finish (.ok v) := by
  rw [runOp_eq, h]
  exact t.settle_of_quiet hn _

/-- An operation whose body raises, no reset being to come. -/
theorem runOp_err {i : Instr} {body : Op Value} {e : Err} {t : State} (hn : t.resets = [])
    (h : body (s.begin i) = .error (.err e) t) : runOp i body s = t.finish (.err e) := by
  rw [runOp_eq, h]
  exact t.settle_of_quiet hn _

/-- An operation that has changed nothing leaves its result alone. -/
theorem State.finish_begin (hi : s.seq = .idle) (i : Instr) (r : HostResult) :
    (s.begin i).finish r = { s with results := s.results ++ [r] } := by
  cases s
  simp_all [State.finish, State.begin]

/-- An operation whose body only answers changes nothing but the result list. -/
theorem runOp_reads {i : Instr} {body : Op Value} {v : Value} (hi : s.seq = .idle) (hn : s.resets = [])
    (h : body (s.begin i) = .ok v (s.begin i)) :
    runOp i body s = { s with results := s.results ++ [.ok v] } :=
  (runOp_ok s (by simpa using hn) h).trans (s.finish_begin hi i _)

/-- An operation whose body raises before it changes anything changes nothing but the result list. -/
theorem runOp_raises {i : Instr} {body : Op Value} {e : Err} (hi : s.seq = .idle) (hn : s.resets = [])
    (h : body (s.begin i) = .error (.err e) (s.begin i)) :
    runOp i body s = { s with results := s.results ++ [.err e] } :=
  (runOp_err s (by simpa using hn) h).trans (s.finish_begin hi i _)

/-- A ready block accepts every operation whose operands are right. -/
theorem accept_ready (h : s.Ready) (i : Instr) (body : Op Value) : accept i none body s = .next (runOp i body s) := by
  simp [accept, h.1, h.2]

/-- A ready block that finds nothing wrong with the operands runs the body. -/
theorem accept_good (h : s.Ready) {bad : Option Refusal} (hb : bad = none) (i : Instr) (body : Op Value) :
    accept i bad body s = .next (runOp i body s) := hb ▸ accept_ready s h i body

/-- A ready block that finds the operands wrong refuses. -/
theorem accept_bad (h : s.Ready) {bad : Option Refusal} {x : Refusal} (hb : bad = some x) (i : Instr) (body : Op Value) :
    accept i bad body s = .refused x := by
  simp [accept, h.1, h.2, hb]

theorem badDev_none {s : State} {d : DevIx} : s.badDev d = none ↔ s.HasDev d := by
  unfold State.badDev State.HasDev
  split <;> simp_all

theorem badReg_none {s : State} {d : DevIx} {r : RegName} :
    s.badReg d r = none ↔ s.HasDev d ∧ s.cfg.hasReg r = true := by
  unfold State.badReg
  rw [Option.or_eq_none_iff, badDev_none]
  split <;> simp_all

theorem badCtrl_none {s : State} {d : DevIx} {r : RegName} :
    s.badCtrl d r = none ↔ s.HasDev d ∧ s.cfg.hasReg r = true ∧ s.cfg.isControl r = true := by
  unfold State.badCtrl
  rw [Option.or_eq_none_iff, badReg_none]
  split <;> simp_all

/-- What is accepted is accepted by a ready block, with right operands. -/
theorem accept_next {i : Instr} {bad : Option Refusal} {body : Op Value} {t : State}
    (h : accept i bad body s = .next t) : s.Ready ∧ bad = none ∧ t = runOp i body s := by
  unfold accept at h
  split at h
  · cases h
  · split at h
    · cases h
    · split at h
      · cases h
      · rename_i h1 h2 _
        exact ⟨⟨by simpa using h1, by simpa using h2⟩, rfl, by cases h; rfl⟩

end

end Sys2Proof.Machine
end

