-- ==== Sys2Proof/Laws/Frames.lean ====
section
/-! SUPPORT. Which transactions the block accepts as a frame of their own: exactly those whose frame it could send at that
moment (spec/30_encoding.md R60 to R64, R69). -/

namespace Sys2Proof.Machine

section
variable {s : State} {d : DevIx} {c : Config}

/-- Two entries of a list whose keys are distinct are one when their keys are. -/
theorem key_inj {α β : Type} (key : α → β) {l : List α} (h : (l.map key).Nodup) {x y : α} (hx : x ∈ l) (hy : y ∈ l)
    (e : key x = key y) : x = y := by
  induction l with
  | nil => cases hx
  | cons z l ih =>
    simp only [List.map_cons, List.nodup_cons] at h
    rcases List.mem_cons.1 hx with rfl | hx' <;> rcases List.mem_cons.1 hy with rfl | hy'
    · rfl
    · exact absurd (e ▸ List.mem_map_of_mem hy') h.1
    · exact absurd (e ▸ List.mem_map_of_mem hx') h.1
    · exact ih h.2 hx' hy'

theorem addr_of_mem (ha : c.admitted = true) {x : RegDesc} (hx : x ∈ c.catalog) : c.addr x.name = x.address := by
  simp [Config.addr, Config.reg?_of_mem ha hx]

/-- An address of an admitted catalog is at most `0xFD`. -/
theorem addr_le (ha : c.admitted = true) {r : RegName} (hr : c.hasReg r = true) : (c.addr r).toNat ≤ 0xFD := by
  obtain ⟨x, hx, rfl⟩ := Config.hasReg_iff.1 hr
  have := Config.admitted_ok ha hx
  simp only [RegDesc.ok, Bool.and_eq_true] at this
  rw [addr_of_mem ha hx]
  simpa using this.2

/-- Two registers of an admitted catalog have no write address in common. -/
theorem writeTarget_of_mem (ha : c.admitted = true) {x : RegDesc} (hx : x ∈ c.catalog) {w : Byte}
    (hw : w = x.address ∨ w = x.address + 1) : writeTarget c w = some x := by
  have hsome : (writeTarget c w).isSome = true := by
    unfold writeTarget
    rw [List.find?_isSome]
    refine ⟨x, hx, ?_⟩
    rcases hw with rfl | rfl <;> simp
  obtain ⟨y, hy⟩ := Option.isSome_iff_exists.1 hsome
  have hym : y ∈ c.catalog := List.mem_of_find?_eq_some hy
  have hyp : y.address = w ∨ y.address + 1 = w := by simpa using List.find?_some hy
  have hn := Config.admitted_addresses ha
  have h1 := Config.admitted_halves ha hx hym
  have h2 := Config.admitted_halves ha hym hx
  have : y = x := by
    rcases hw with rfl | rfl <;> rcases hyp with e | e
    · exact key_inj RegDesc.address hn hym hx e
    · exact absurd e h2
    · exact absurd e.symm h1
    · exact key_inj RegDesc.address hn hym hx (by simpa using e)
  rw [hy, this]

theorem badReadAddr_none {a : Byte} : s.badReadAddr a = none ↔ ∃ x ∈ s.cfg.catalog, x.address = a := by
  unfold State.badReadAddr readTarget
  cases h : (s.cfg.catalog.find? (fun x => x.address == a)) with
  | none => simpa using h
  | some x =>
    have := List.mem_of_find?_eq_some h
    simp only [Option.isSome_some, if_true, true_iff]
    exact ⟨x, this, by simpa using List.find?_some h⟩

theorem badWriteAddr_none (ha : s.cfg.admitted = true) {w : Byte} :
    s.badWriteAddr w = none ↔ ∃ x ∈ s.cfg.catalog, x.bank = .control ∧ (w = x.address ∨ w = x.address + 1) := by
  unfold State.badWriteAddr
  constructor
  · cases h : writeTarget s.cfg w with
    | none => simp
    | some x =>
      intro hb
      refine ⟨x, List.mem_of_find?_eq_some h, ?_, ?_⟩
      · simpa using hb
      · have : x.address = w ∨ x.address + 1 = w := by simpa using List.find?_some h
        exact this.imp Eq.symm Eq.symm
  · rintro ⟨x, hx, hb, hw⟩
    rw [writeTarget_of_mem ha hx hw]
    simp [hb]

/-- What a frame and a count must be. -/
theorem badFrame_parts {cmd : List Byte} {n : Nat} : s.badFrame d cmd n = none ↔
    s.HasDev d ∧ commandOk cmd = true ∧
      (if cmd.getD 1 0 = sentinel then s.badReadAddr (cmd.getD 0 0) else s.badWriteAddr (cmd.getD 1 0)) = none ∧
      cmd.length = s.flen d ∧ n = s.flen d := by
  unfold State.badFrame
  rw [Option.or_eq_none_iff, Option.or_eq_none_iff, Option.or_eq_none_iff, badDev_none]
  simp

/-- What is wrong with a frame, in the order in which it is found: its bytes, its address, its length (R42, R60, R69). -/
theorem badFrame_illFormed {cmd : List Byte} {n : Nat} (hd : s.HasDev d) (hc : commandOk cmd = false) :
    s.badFrame d cmd n = some .illFormed := by
  unfold State.badFrame
  rw [badDev_none.2 hd, hc]
  rfl

theorem badFrame_address {cmd : List Byte} {n : Nat} {x : Refusal} (hd : s.HasDev d) (hc : commandOk cmd = true)
    (ha : (if cmd.getD 1 0 = sentinel then s.badReadAddr (cmd.getD 0 0) else s.badWriteAddr (cmd.getD 1 0)) = some x) :
    s.badFrame d cmd n = some x := by
  unfold State.badFrame
  rw [badDev_none.2 hd, ha, hc]
  rfl

theorem badFrame_length {cmd : List Byte} {n : Nat} (hd : s.HasDev d) (hc : commandOk cmd = true)
    (ha : (if cmd.getD 1 0 = sentinel then s.badReadAddr (cmd.getD 0 0) else s.badWriteAddr (cmd.getD 1 0)) = none)
    (hl : ¬ (cmd.length = s.flen d ∧ n = s.flen d)) : s.badFrame d cmd n = some .frameLength := by
  unfold State.badFrame
  rw [badDev_none.2 hd, ha, hc, if_neg hl]
  rfl

theorem flen_cases (s : State) (d : DevIx) : s.flen d = 4 ∨ s.flen d = 5 := by
  unfold State.flen
  split <;> simp

/-- A frame of `flen(d)` bytes whose command is in order is a body with its CRC where there is one. -/
theorem commandOk_frame {cmd : List Byte} (h : commandOk cmd = true) :
    ∃ r w l m, bodyOk r w l m = true ∧ cmd = frame cmd.length [r, w, l, m] ∧ cmd.getD 0 0 = r ∧ cmd.getD 1 0 = w := by
  unfold commandOk at h
  split at h
  · exact ⟨_, _, _, _, h, by simp [frame], rfl, rfl⟩
  · rename_i r w l m c
    simp only [Bool.and_eq_true, beq_iff_eq] at h
    exact ⟨_, _, _, _, h.1, by simp [frame, h.2], rfl, rfl⟩
  · cases h

theorem commandOk_of_body {r w l m : Byte} (h : bodyOk r w l m = true) {n : Nat} (hn : n = 4 ∨ n = 5) :
    commandOk (frame n [r, w, l, m]) = true ∧ (frame n [r, w, l, m]).length = n ∧
      (frame n [r, w, l, m]).getD 0 0 = r ∧ (frame n [r, w, l, m]).getD 1 0 = w := by
  rcases hn with rfl | rfl <;> simp [frame, commandOk, h]

/-- A transaction is accepted exactly when the block could make it now. -/
theorem badFrame_none (ha : s.cfg.admitted = true) {cmd : List Byte} {n : Nat} :
    s.badFrame d cmd n = none ↔ s.HasDev d ∧ s.forms d cmd ∧ n = s.flen d := by
  rw [badFrame_parts]
  constructor
  · rintro ⟨hd, hc, haddr, hl, hn⟩
    refine ⟨hd, ?_, hn⟩
    obtain ⟨r, w, l, m, hb, hcmd, h0, h1⟩ := commandOk_frame hc
    rw [h0, h1] at haddr
    rw [hl] at hcmd
    unfold bodyOk at hb
    by_cases hw : w = 0xFF
    · rw [if_pos hw] at hb
      rw [if_pos (show w = sentinel from hw), badReadAddr_none] at haddr
      simp only [Bool.and_eq_true, beq_iff_eq] at hb
      obtain ⟨x, hx, hxr⟩ := haddr
      refine .inl ⟨x.name, Config.hasReg_iff.2 ⟨x, hx, rfl⟩, ?_⟩
      rw [State.readFrame, addr_of_mem ha hx, hxr, hcmd, hw, hb.1.2, hb.2]
      rfl
    · rw [if_neg hw] at hb
      rw [if_neg (show ¬ w = sentinel from hw), badWriteAddr_none ha] at haddr
      simp only [writeAddressOk, Bool.and_eq_true, beq_iff_eq] at hb
      obtain ⟨x, hx, hxb, hxw⟩ := haddr
      refine .inr ⟨x.name, w, l, m, ?_, ?_, ?_⟩
      · simp [Config.isControl, Config.reg?_of_mem ha hx, hxb]
      · rw [addr_of_mem ha hx]; exact hxw
      · rw [hcmd, hb.1]; rfl
  · rintro ⟨hd, hf, hn⟩
    have hl := flen_cases s d
    rcases hf with ⟨r, hr, rfl⟩ | ⟨r, wa, l, m, hr, hw, rfl⟩
    · have hb : bodyOk (s.cfg.addr r) 0xFF 0xFF 0xFF = true := by
        simpa [bodyOk, readAddressOk] using addr_le ha hr
      obtain ⟨h1, h2, h3, h4⟩ := commandOk_of_body hb hl
      refine ⟨hd, h1, ?_, h2, hn⟩
      show (if (frame (s.flen d) [s.cfg.addr r, 0xFF, 0xFF, 0xFF]).getD 1 0 = sentinel then
        s.badReadAddr ((frame (s.flen d) [s.cfg.addr r, 0xFF, 0xFF, 0xFF]).getD 0 0) else _) = none
      rw [h3, h4, if_pos (show (0xFF : Byte) = sentinel from rfl), badReadAddr_none]
      obtain ⟨x, hx, rfl⟩ := Config.hasReg_iff.1 hr
      exact ⟨x, hx, (addr_of_mem ha hx).symm⟩
    · have hreg := Config.isControl_hasReg hr
      have ha' := addr_le ha hreg
      have hle : wa.toNat ≤ 0xFE := by
        rcases hw with rfl | rfl
        · omega
        · rw [BitVec.toNat_add]; simp; omega
      have hne : ¬ wa = 0xFF := by
        rintro rfl
        simp at hle
      have hb : bodyOk wa wa l m = true := by
        rw [bodyOk, if_neg hne]
        simpa [writeAddressOk] using hle
      obtain ⟨h1, h2, h3, h4⟩ := commandOk_of_body hb hl
      refine ⟨hd, h1, ?_, h2, hn⟩
      show (if (frame (s.flen d) [wa, wa, l, m]).getD 1 0 = sentinel then _ else
        s.badWriteAddr ((frame (s.flen d) [wa, wa, l, m]).getD 1 0)) = none
      rw [h4, if_neg (show ¬ wa = sentinel from hne), badWriteAddr_none ha]
      obtain ⟨x, hx, rfl⟩ := Config.hasReg_iff.1 hreg
      rw [addr_of_mem ha hx] at hw
      refine ⟨x, hx, ?_, hw⟩
      simpa [Config.isControl, Config.reg?_of_mem ha hx] using hr

/-- A frame on the link has the length of the device's mode. -/
theorem State.forms_length {cmd : List Byte} (h : s.forms d cmd) : cmd.length = s.flen d := by
  have hl := flen_cases s d
  rcases h with ⟨r, -, rfl⟩ | ⟨r, wa, l, m, -, -, rfl⟩ <;>
    rcases hl with e | e <;> simp [State.readFrame, readBody, writeBody, frame, e]

end

end Sys2Proof.Machine
end

