-- ==== Sys2Proof/Laws/Keeps.lean ====
section
/-! SUPPORT. What a body of events can do to the state, said once: a relation that holds across each primitive update
holds across the whole body. `Link R Q d` lists what the framer does to device `d`, `Store R Q d` and
`Shake R Q d` what CALSET and the latch handshake do beside it; `Q` is the relation for a body that reset cuts short. -/

namespace Sys2Proof.Machine

/-- From the state a body starts in, `R` holds to the state in which it ends with a value or a typed error, and `Q` to
the one in which reset cuts it short. -/
def Op.Ends {α : Type} (R Q : State → State → Prop) (m : Op α) : Prop :=
  ∀ s, match m s with
    | .ok _ t => R s t
    | .error (.err _) t => R s t
    | .error .reset t => Q s t

/-- What the framer does on device `d`, each of which the relations hold across. -/
structure Link (R Q : State → State → Prop) (d : DevIx) : Prop where
  refl : ∀ s, R s s
  trans : ∀ s t u, R s t → R t u → R s u
  cut : ∀ s t u, R s t → Q t u → Q s u
  event : ∀ e, (emit e).Ends R Q
  xfer : ∀ cmd n, (xfer d cmd n).Ends R Q
  sample : sampleCancel.Ends R Q
  decode : ∀ s r w, R s (s.decodeReg d r w)
  warn : ∀ s, R s (s.setWarn d true)

/-- What CALSET does beside it. -/
structure Store (R Q : State → State → Prop) (d : DevIx) : Prop extends Link R Q d where
  cell : ∀ s r f v, R s (s.setCell d r f v)

/-- What LATCH does beside that. -/
structure Shake (R Q : State → State → Prop) (d : DevIx) : Prop extends Store R Q d where
  latch : ∀ s l, R s (s.setLatch d l)
  count : ∀ s n, R s { s with pollCount := n }

section
variable {α β : Type} {R Q : State → State → Prop} {d : DevIx}

theorem ends_pure (hr : ∀ s, R s s) (a : α) : (pure a : Op α).Ends R Q := fun s => hr s

theorem ends_get (hr : ∀ s, R s s) : (get : Op State).Ends R Q := fun s => hr s

theorem ends_raise (hr : ∀ s, R s s) (e : Err) : (raise e : Op α).Ends R Q := fun s => hr s

theorem ends_modify {f : State → State} (h : ∀ s, R s (f s)) : (modify f : Op Unit).Ends R Q := fun s => h s

theorem ends_bind (ht : ∀ s t u, R s t → R t u → R s u) (hq : ∀ s t u, R s t → Q t u → Q s u) {m : Op α}
    {k : α → Op β} (hm : m.Ends R Q) (hk : ∀ a, (k a).Ends R Q) : (m >>= k).Ends R Q := by
  intro s
  rw [Op.bind_apply]
  have h1 := hm s
  cases h : m s with
  | ok a t =>
    rw [h] at h1
    have h2 := hk a t
    change match k a t with
      | .ok _ t => R s t
      | .error (.err _) t => R s t
      | .error .reset t => Q s t
    cases h' : k a t with
    | ok b u => rw [h'] at h2; exact ht _ _ _ h1 h2
    | error x u =>
      rw [h'] at h2
      cases x with
      | err _ => exact ht _ _ _ h1 h2
      | reset => exact hq _ _ _ h1 h2
  | error x t =>
    rw [h] at h1
    cases x <;> exact h1

/-- What a body does from one state, seen from an earlier one. -/
theorem Op.Ends.after (ht : ∀ s t u, R s t → R t u → R s u) {m : Op α} (hm : m.Ends R R) {s t : State} (h : R s t) :
    match m t with
    | .ok _ u => R s u
    | .error (.err _) u => R s u
    | .error .reset u => R s u := by
  have h2 := hm t
  rcases e : m t with ⟨a, u⟩ | ⟨_ | _, u⟩ <;> rw [e] at h2 <;> exact ht _ _ _ h h2

theorem ends_ite {c : Prop} [Decidable c] {a b : Op α} (ha : a.Ends R Q) (hb : b.Ends R Q) :
    (if c then a else b).Ends R Q := by split <;> assumption

theorem ends_onRaise (ht : ∀ s t u, R s t → R t u → R s u) {m : Op α} {f : State → State} (hm : m.Ends R Q)
    (hf : ∀ s, R s (f s)) : (onRaise m f).Ends R Q := by
  intro s
  have h := hm s
  rw [onRaise_apply]
  cases e : m s with
  | ok a t => rw [e] at h; exact h
  | error x t =>
    rw [e] at h
    cases x with
    | err e => exact ht _ _ _ h (hf _)
    | reset => exact h

/-! ### Relations that hold across each update -/

/-- The updates of which the framer is made: a relation that holds across each holds across all it does, also when
reset cuts it short. -/
structure Updates (R : State → State → Prop) (d : DevIx) : Prop where
  refl : ∀ s, R s s
  trans : ∀ s t u, R s t → R t u → R s u
  event : ∀ s e, R s (s.pass.record e)
  inputs : ∀ s rs cs n, R s { s with replies := rs, cancels := cs, draws := n }
  line : ∀ s b, R s (s.setCsN d b)

theorem ends_emit (L : Updates R d) (e : Event) : (emit e).Ends R R := by
  intro s
  unfold emit
  cases s.resetNow
  · exact L.event s e
  · exact L.refl s

theorem ends_rx (L : Updates R d) (n : Nat) : (rx n).Ends R R := by
  have hn : ∀ s : State, R s s.nextReply.2 := by
    intro s
    unfold State.nextReply
    split
    · exact L.inputs s _ s.cancels s.draws
    · exact L.inputs s s.replies s.cancels _
  intro s
  have h : (do emit (.rx n fillByte s.nextReply.1); return s.nextReply.1 : Op (List Byte)).Ends R R :=
    ends_bind L.trans L.trans (ends_emit L _) (fun _ => ends_pure L.refl _)
  unfold rx
  cases s.resetNow
  · exact h.after L.trans (hn s)
  · exact L.refl s

theorem ends_drive (L : Updates R d) (b : Bool) : (drive d b).Ends R R :=
  ends_bind L.trans L.trans (ends_emit L _) (fun _ => ends_modify (fun s => L.line s b))

theorem ends_xfer (L : Updates R d) (cmd : List Byte) (n : Nat) : (xfer d cmd n).Ends R R :=
  ends_bind L.trans L.trans (ends_drive L _) fun _ =>
    ends_bind L.trans L.trans (ends_emit L _) fun _ =>
      ends_bind L.trans L.trans (ends_drive L _) fun _ =>
        ends_bind L.trans L.trans (ends_drive L _) fun _ =>
          ends_bind L.trans L.trans (ends_rx L n) fun _ =>
            ends_bind L.trans L.trans (ends_drive L _) fun _ => ends_pure L.refl _

theorem ends_sampleCancel (L : Updates R d) : sampleCancel.Ends R R := by
  intro s
  have hn : R s s.nextCancel.2 := by
    unfold State.nextCancel
    split
    · exact L.inputs s s.replies _ s.draws
    · exact L.inputs s s.replies s.cancels _
  unfold sampleCancel
  cases s.cfg.hasCancel
  · exact L.refl s
  · exact hn

/-- A relation that holds across the framer's updates, a decode and a warning is a `Link`. -/
theorem Updates.link (U : Updates R d) (hd : ∀ s r w, R s (s.decodeReg d r w)) (hw : ∀ s, R s (s.setWarn d true)) :
    Link R R d :=
  ⟨U.refl, U.trans, U.trans, ends_emit U, ends_xfer U, ends_sampleCancel U, hd, hw⟩

/-! ### The bodies -/

theorem ends_checkReply (L : Link R Q d) (n : Nat) (reply : List Byte) : (checkReply n reply).Ends R Q := by
  unfold checkReply
  split
  · exact ends_raise L.refl _
  · exact ends_pure L.refl _

theorem ends_checkDrift (L : Link R Q d) (r : RegName) : (checkDrift d r).Ends R Q :=
  ends_bind L.trans L.cut (ends_get L.refl) fun _ =>
    ends_ite (ends_bind L.trans L.cut (ends_modify L.warn) fun _ => L.event _) (ends_pure L.refl _)

theorem ends_acceptReply (L : Link R Q d) (r : RegName) (n : Nat) (reply : List Byte) :
    (acceptReply d r n reply).Ends R Q :=
  ends_bind L.trans L.cut (ends_checkReply L n reply) fun _ =>
    ends_bind L.trans L.cut (ends_get L.refl) fun _ =>
      ends_bind L.trans L.cut (ends_modify fun s => L.decode s r _) fun _ => ends_checkDrift L r

theorem ends_rdreg (L : Link R Q d) (r : RegName) : (rdreg d r).Ends R Q :=
  ends_bind L.trans L.cut (ends_get L.refl) fun _ =>
    ends_bind L.trans L.cut (L.xfer _ _) fun _ => ends_acceptReply L r _ _

theorem ends_writeHalf (L : Link R Q d) (wa lsb msb : Byte) : (writeHalf d wa lsb msb).Ends R Q :=
  ends_bind L.trans L.cut (ends_get L.refl) fun _ =>
    ends_bind L.trans L.cut (L.xfer _ _) fun _ => ends_pure L.refl _

theorem ends_wrreg (L : Link R Q d) (r : RegName) : (wrreg d r).Ends R Q :=
  ends_bind L.trans L.cut (ends_get L.refl) fun _ =>
    ends_bind L.trans L.cut (ends_writeHalf L _ _ _) fun _ => ends_writeHalf L _ _ _

theorem ends_readAll (L : Link R Q d) (rs : List RegName) : (readAll d rs).Ends R Q := by
  induction rs with
  | nil => exact ends_pure L.refl _
  | cons r rs ih => exact ends_bind L.trans L.cut (ends_rdreg L r) fun _ => ih

theorem ends_writeAll (L : Link R Q d) (rs : List RegName) : (writeAll d rs).Ends R Q := by
  induction rs with
  | nil => exact ends_pure L.refl _
  | cons r rs ih =>
    exact ends_bind L.trans L.cut (ends_get L.refl) fun _ =>
      ends_bind L.trans L.cut (ends_wrreg L r) fun _ => ends_bind L.trans L.cut ih fun _ => ends_pure L.refl _

theorem ends_cfgread (L : Link R Q d) : (cfgread d).Ends R Q :=
  ends_bind L.trans L.cut (ends_get L.refl) fun _ => ends_readAll L _

theorem ends_cfgapply (L : Link R Q d) : (cfgapply d).Ends R Q :=
  ends_bind L.trans L.cut (ends_get L.refl) fun _ =>
    ends_bind L.trans L.cut (ends_writeAll L _) fun _ =>
      ends_bind L.trans L.cut (ends_cfgread L) fun _ =>
        ends_bind L.trans L.cut (ends_get L.refl) fun _ => ends_pure L.refl _

theorem ends_memRead (L : Link R Q d) (cmd : List Byte) : (memRead d cmd).Ends R Q :=
  ends_bind L.trans L.cut (L.xfer _ _) fun _ =>
    ends_bind L.trans L.cut (ends_checkReply L _ _) fun _ =>
      ends_bind L.trans L.cut (ends_get L.refl) fun _ => ends_pure L.refl _

theorem ends_memWrite (L : Link R Q d) (cmd : List Byte) : (memWrite d cmd).Ends R Q :=
  ends_bind L.trans L.cut (L.xfer _ _) fun _ => ends_pure L.refl _

theorem ends_receive (L : Link R Q d) (r : RegName) (reply : List Byte) : (receive d r reply).Ends R Q :=
  ends_bind L.trans L.cut (ends_get L.refl) fun _ =>
    ends_bind L.trans L.cut (ends_acceptReply L r _ _) fun _ => ends_pure L.refl _

/-! ### Cells, and the latch handshake -/

theorem ends_regSetf (hr : ∀ s, R s s) (ht : ∀ s t u, R s t → R t u → R s u)
    (hq : ∀ s t u, R s t → Q t u → Q s u)
    (hc : ∀ s r f v, R s (s.setCell d r f v)) (r : RegName) (f : FldName) (v : Word) : (regSetf d r f v).Ends R Q :=
  ends_bind ht hq (ends_get hr) fun _ =>
    ends_ite (ends_bind ht hq (ends_raise hr _) fun _ => ends_modify fun s => hc s r f v)
      (ends_modify fun s => hc s r f v)

theorem ends_regGetf (hr : ∀ s, R s s) (ht : ∀ s t u, R s t → R t u → R s u)
    (hq : ∀ s t u, R s t → Q t u → Q s u) (r : RegName) (f : FldName) :
    (regGetf d r f).Ends R Q :=
  ends_bind ht hq (ends_get hr) fun _ =>
    ends_ite
      (ends_bind ht hq (ends_raise hr _) fun _ => ends_bind ht hq (ends_get hr) fun _ => ends_pure hr _)
      (ends_bind ht hq (ends_get hr) fun _ => ends_pure hr _)

theorem ends_poll (S : Shake R Q d) : (poll d).Ends R Q :=
  ends_bind S.trans S.cut (ends_get S.refl) fun _ =>
    ends_bind S.trans S.cut (ends_onRaise S.trans (ends_rdreg S.toLink _) fun s => S.latch s _) fun _ =>
      ends_modify fun s => S.count s _

theorem ends_pollLoop (S : Shake R Q d) (c1 c2 : Bool) (iv : Word) (n : Nat) : (pollLoop d c1 c2 iv n).Ends R Q := by
  induction n with
  | zero => exact ends_bind S.trans S.cut (ends_modify fun s => S.latch s _) fun _ => ends_raise S.refl _
  | succ n ih =>
    have rest : (do
        poll d
        let s ← get
        if s.latchDone d c1 s.cfg.latchF1 && s.latchDone d c2 s.cfg.latchF2 then
          modify (fun t => t.setLatch d .latched)
        else
          if n ≠ 0 then emit (.sleep iv)
          pollLoop d c1 c2 iv n : Op Unit).Ends R Q :=
      ends_bind S.trans S.cut (ends_poll S) fun _ =>
        ends_bind S.trans S.cut (ends_get S.refl) fun _ =>
          ends_ite (ends_modify fun s => S.latch s _)
            (ends_ite (ends_bind S.trans S.cut (S.event _) fun _ => ih) ih)
    exact ends_bind S.trans S.cut (S.sample) fun _ =>
      ends_ite
        (ends_bind S.trans S.cut (ends_modify fun s => S.latch s _) fun _ =>
          ends_bind S.trans S.cut (ends_raise S.refl _) fun _ => rest) rest

theorem ends_requestLatch (S : Shake R Q d) (c : Bool) (f : FldName) : (requestLatch d c f).Ends R Q :=
  ends_ite
    (ends_bind S.trans S.cut (ends_get S.refl) fun _ => ends_regSetf S.refl S.trans S.cut S.cell _ _ _) (ends_pure S.refl _)

theorem ends_latch (S : Shake R Q d) (c1 c2 : Bool) (n iv : Word) : (latch d c1 c2 n iv).Ends R Q :=
  ends_bind S.trans S.cut (ends_get S.refl) fun _ =>
    ends_bind S.trans S.cut (ends_requestLatch S _ _) fun _ =>
      ends_bind S.trans S.cut (ends_requestLatch S _ _) fun _ =>
        ends_bind S.trans S.cut (ends_modify fun s => S.latch s _) fun _ =>
          ends_bind S.trans S.cut (ends_wrreg S.toLink _) fun _ =>
            ends_bind S.trans S.cut (ends_modify fun s => S.trans _ _ _ (S.latch s _) (S.count _ _)) fun _ =>
              ends_pollLoop S _ _ _ _

theorem ends_rdboth (S : Shake R Q d) (n iv : Word) : (rdboth d n iv).Ends R Q :=
  ends_bind S.trans S.cut (ends_latch S _ _ _ _) fun _ =>
    ends_bind S.trans S.cut (ends_get S.refl) fun _ =>
      ends_bind S.trans S.cut (ends_rdreg S.toLink _) fun _ =>
        ends_bind S.trans S.cut (ends_rdreg S.toLink _) fun _ =>
          ends_bind S.trans S.cut (ends_get S.refl) fun _ =>
            ends_bind S.trans S.cut (ends_regGetf S.refl S.trans S.cut _ _) fun _ =>
              ends_bind S.trans S.cut (ends_regGetf S.refl S.trans S.cut _ _) fun _ =>
                ends_bind S.trans S.cut (ends_regGetf S.refl S.trans S.cut _ _) fun _ =>
                  ends_bind S.trans S.cut (ends_regGetf S.refl S.trans S.cut _ _) fun _ => ends_pure S.refl _

theorem ends_calset (S : Store R Q d) (v1 i1 v2 i2 : Code) : (calset d v1 i1 v2 i2).Ends R Q :=
  ends_bind S.trans S.cut (ends_get S.refl) fun _ =>
    ends_bind S.trans S.cut (ends_regSetf S.refl S.trans S.cut S.cell _ _ _) fun _ =>
      ends_bind S.trans S.cut (ends_regSetf S.refl S.trans S.cut S.cell _ _ _) fun _ =>
        ends_bind S.trans S.cut (ends_regSetf S.refl S.trans S.cut S.cell _ _ _) fun _ =>
          ends_bind S.trans S.cut (ends_regSetf S.refl S.trans S.cut S.cell _ _ _) fun _ =>
            ends_bind S.trans S.cut (ends_wrreg S.toLink _) fun _ =>
              ends_bind S.trans S.cut (ends_wrreg S.toLink _) fun _ =>
                ends_bind S.trans S.cut (ends_wrreg S.toLink _) fun _ =>
                  ends_bind S.trans S.cut (ends_wrreg S.toLink _) fun _ => S.event _

end

end Sys2Proof.Machine
end

