-- ==== Sys2Proof/Laws/Traces.lean ====
section
/-! SUPPORT. What a body of events adds to the trace while the reset input is quiet, said once: a property of event
lists that holds of nothing, of a concatenation, and of each transaction the block can make, holds of everything an
operation emits. -/

namespace Sys2Proof.Machine

/-- Run from `s` under parameters `c` with the reset input quiet, the body appends to the trace events with property
`P`, ends by a value or a typed error with property `E`, and leaves the parameters and the reset input as they are. -/
def Op.TracesAt {α : Type} (c : Config) (P : List Event → Prop) (E : Err → Prop) (m : Op α) (s : State) : Prop :=
  s.cfg = c → s.resets = [] →
    match m s with
    | .ok _ t => t.cfg = c ∧ t.resets = [] ∧ ∃ evs, t.trace = s.trace ++ evs ∧ P evs
    | .error (.err e) t => t.cfg = c ∧ t.resets = [] ∧ (∃ evs, t.trace = s.trace ++ evs ∧ P evs) ∧ E e
    | .error .reset _ => False

/-- The events an operation on device `d` can emit all have the property. -/
structure Grammar (c : Config) (d : DevIx) (P : List Event → Prop) : Prop where
  nil : P []
  append : ∀ a b, P a → P b → P (a ++ b)
  read : ∀ r k n reply, c.hasReg r = true → P (transaction d (frame k (readBody (c.addr r))) n reply)
  high : ∀ r k n reply l m, c.isControl r = true → P (transaction d (frame k (writeBody (c.addr r + 1) l m)) n reply)
  low : ∀ r k n reply l m, c.isControl r = true → P (transaction d (frame k (writeBody (c.addr r) l m)) n reply)
  sleep : ∀ iv, P [.sleep iv]
  warn : P [.warn .crcDrift d]
  persist : ∀ v1 i1 v2 i2, P [.persist d v1 i1 v2 i2]

/-- The errors of a reply that does not pass its checks (R161, R162). -/
structure Checks (E : Err → Prop) : Prop where
  short : E .shortReply
  mismatch : E .crcMismatch

/-- The errors of the latch handshake beside those (R163, R167). -/
structure Waits (E : Err → Prop) : Prop extends Checks E where
  timeout : E .latchTimeout
  cancelled : E .cancelled

section
variable {α β : Type} {c : Config} {d : DevIx} {P : List Event → Prop} {E : Err → Prop} {s : State}

theorem tracesAt_ok (hn : P []) {m : Op α} {a : α} {t : State} (h : m s = .ok a t) (h1 : t.cfg = s.cfg)
    (h2 : t.resets = s.resets) (h3 : t.trace = s.trace) : m.TracesAt c P E s := by
  intro hc hr
  rw [h]
  exact ⟨h1.trans hc, h2.trans hr, [], by simp [h3], hn⟩

theorem tracesAt_pure (hn : P []) (a : α) : (pure a : Op α).TracesAt c P E s := tracesAt_ok hn rfl rfl rfl rfl

theorem tracesAt_modify (hn : P []) {f : State → State} (h1 : (f s).cfg = s.cfg) (h2 : (f s).resets = s.resets)
    (h3 : (f s).trace = s.trace) : (modify f : Op Unit).TracesAt c P E s :=
  tracesAt_ok hn (Op.modify_apply s f) h1 h2 h3

theorem tracesAt_raise (hn : P []) {e : Err} (he : E e) : (raise e : Op α).TracesAt c P E s :=
  fun hc hr => ⟨hc, hr, ⟨[], by simp, hn⟩, he⟩

theorem tracesAt_bind (ha : ∀ a b, P a → P b → P (a ++ b)) {m : Op α} {k : α → Op β} (hm : m.TracesAt c P E s)
    (hk : ∀ a t, t.cfg = c → t.resets = [] → (k a).TracesAt c P E t) : (m >>= k).TracesAt c P E s := by
  intro hc hr
  have h1 := hm hc hr
  rw [Op.bind_apply]
  cases e : m s with
  | error x t =>
    rw [e] at h1
    cases x <;> exact h1
  | ok a t =>
    rw [e] at h1
    obtain ⟨hc', hr', evs, he, hp⟩ := h1
    have h2 := hk a t hc' hr' hc' hr'
    change match k a t with
      | .ok _ t => t.cfg = c ∧ t.resets = [] ∧ ∃ evs, t.trace = s.trace ++ evs ∧ P evs
      | .error (.err e) t => t.cfg = c ∧ t.resets = [] ∧ (∃ evs, t.trace = s.trace ++ evs ∧ P evs) ∧ E e
      | .error .reset _ => False
    cases e' : k a t with
    | ok b u =>
      rw [e'] at h2
      obtain ⟨h3, h4, evs', he', hp'⟩ := h2
      exact ⟨h3, h4, evs ++ evs', by rw [he', he, List.append_assoc], ha _ _ hp hp'⟩
    | error x u =>
      rw [e'] at h2
      cases x with
      | reset => exact h2
      | err x =>
        obtain ⟨h3, h4, ⟨evs', he', hp'⟩, hx⟩ := h2
        exact ⟨h3, h4, ⟨evs ++ evs', by rw [he', he, List.append_assoc], ha _ _ hp hp'⟩, hx⟩

theorem tracesAt_get_bind {k : State → Op β} (h : s.cfg = c → s.resets = [] → (k s).TracesAt c P E s) :
    ((get : Op State) >>= k).TracesAt c P E s :=
  fun hc hr => h hc hr hc hr

theorem tracesAt_ite {q : Prop} [Decidable q] {a b : Op α} (ha : a.TracesAt c P E s) (hb : b.TracesAt c P E s) :
    (if q then a else b).TracesAt c P E s := by split <;> assumption

theorem tracesAt_onRaise {m : Op α} {f : State → State} (hm : m.TracesAt c P E s) (h1 : ∀ t, (f t).cfg = t.cfg)
    (h2 : ∀ t, (f t).resets = t.resets) (h3 : ∀ t, (f t).trace = t.trace) : (onRaise m f).TracesAt c P E s := by
  intro hc hr
  have h := hm hc hr
  unfold onRaise
  cases e : m s with
  | ok a t => rw [e] at h; exact h
  | error x t =>
    rw [e] at h
    cases x with
    | reset => exact h
    | err x =>
      obtain ⟨a, b, ⟨evs, e', p⟩, hx⟩ := h
      exact ⟨(h1 t).trans a, (h2 t).trans b, ⟨evs, (h3 t).trans e', p⟩, hx⟩

/-! ### The framer -/

theorem tracesAt_emit {e : Event} (h : P [e]) : (emit e).TracesAt c P E s := by
  intro hc hr
  rw [emit_noReset s hr]
  exact ⟨hc, hr, [e], rfl, h⟩

theorem tracesAt_xfer {cmd : List Byte} {n : Nat} (h : ∀ reply, P (transaction d cmd n reply)) :
    (xfer d cmd n).TracesAt c P E s := by
  intro hc hr
  rw [xfer_noReset s hr]
  exact ⟨hc, hr, _, rfl, h _⟩

theorem tracesAt_checkReply (hn : P []) (hE : Checks E) (n : Nat) (reply : List Byte) : (checkReply n reply).TracesAt c P E s := by
  unfold checkReply
  split
  · rename_i h
    unfold replyError at h
    refine tracesAt_raise hn ?_
    split at h
    · cases h; exact hE.short
    · split at h
      · cases h; exact hE.mismatch
      · cases h
  · exact tracesAt_pure hn _

theorem tracesAt_checkDrift (G : Grammar c d P) (r : RegName) : (checkDrift d r).TracesAt c P E s :=
  tracesAt_get_bind fun _ _ =>
    tracesAt_ite
      (tracesAt_bind G.append (tracesAt_modify G.nil rfl rfl rfl) fun _ _ _ _ => tracesAt_emit G.warn)
      (tracesAt_pure G.nil _)

theorem tracesAt_acceptReply (G : Grammar c d P) (hE : Checks E) (r : RegName) (n : Nat) (reply : List Byte) :
    (acceptReply d r n reply).TracesAt c P E s :=
  tracesAt_bind G.append (tracesAt_checkReply G.nil hE n reply) fun _ _ _ _ =>
    tracesAt_get_bind fun _ _ =>
      tracesAt_bind G.append (tracesAt_modify G.nil rfl rfl rfl) fun _ _ _ _ => tracesAt_checkDrift G r

theorem tracesAt_rdreg (G : Grammar c d P) (hE : Checks E) {r : RegName} (h : c.hasReg r = true) : (rdreg d r).TracesAt c P E s :=
  tracesAt_get_bind fun hc _ =>
    tracesAt_bind G.append (tracesAt_xfer fun reply => hc ▸ G.read r _ _ reply h) fun _ _ _ _ =>
      tracesAt_acceptReply G hE r _ _

theorem tracesAt_writeHalf (G : Grammar c d P) {wa lsb msb : Byte}
    (h : ∀ k n reply, P (transaction d (frame k (writeBody wa lsb msb)) n reply)) :
    (writeHalf d wa lsb msb).TracesAt c P E s :=
  tracesAt_get_bind fun _ _ =>
    tracesAt_bind G.append (tracesAt_xfer fun reply => h _ _ reply) fun _ _ _ _ => tracesAt_pure G.nil _

theorem tracesAt_wrreg (G : Grammar c d P) {r : RegName} (h : c.isControl r = true) : (wrreg d r).TracesAt c P E s :=
  tracesAt_get_bind fun hc _ =>
    tracesAt_bind G.append (tracesAt_writeHalf G fun k n reply => hc ▸ G.high r k n reply _ _ h) fun _ _ _ _ =>
      tracesAt_writeHalf G fun k n reply => hc ▸ G.low r k n reply _ _ h

theorem tracesAt_readAll (G : Grammar c d P) (hE : Checks E) (rs : List RegName) (h : ∀ r ∈ rs, c.hasReg r = true) :
    ∀ s, (readAll d rs).TracesAt c P E s := by
  induction rs with
  | nil => exact fun s => tracesAt_pure G.nil _
  | cons r rs ih =>
    exact fun s => tracesAt_bind G.append (tracesAt_rdreg G hE (h r (by simp))) fun _ t _ _ =>
      ih (fun r hr => h r (by simp [hr])) t

theorem tracesAt_writeAll (G : Grammar c d P) (rs : List RegName) (h : ∀ r ∈ rs, c.isControl r = true) :
    ∀ s, (writeAll d rs).TracesAt c P E s := by
  induction rs with
  | nil => exact fun s => tracesAt_pure G.nil _
  | cons r rs ih =>
    exact fun s => tracesAt_get_bind fun _ _ =>
      tracesAt_bind G.append (tracesAt_wrreg G (h r (by simp))) fun _ t _ _ =>
        tracesAt_bind G.append (ih (fun r hr => h r (by simp [hr])) t) fun _ _ _ _ => tracesAt_pure G.nil _

theorem tracesAt_cfgread (G : Grammar c d P) (hE : Checks E) (h : ∀ r ∈ c.ctrl, c.isControl r = true) : (cfgread d).TracesAt c P E s :=
  tracesAt_get_bind fun hc _ =>
    tracesAt_readAll G hE _ (by rw [hc]; exact fun r hr => Config.isControl_hasReg (h r hr)) _

theorem tracesAt_cfgapply (G : Grammar c d P) (hE : Checks E) (h : ∀ r ∈ c.ctrl, c.isControl r = true) :
    (cfgapply d).TracesAt c P E s :=
  tracesAt_get_bind fun hc _ =>
    tracesAt_bind G.append (tracesAt_writeAll G _ (by rw [hc]; exact h) _) fun _ _ _ _ =>
      tracesAt_bind G.append (tracesAt_cfgread G hE h) fun _ _ _ _ =>
        tracesAt_get_bind fun _ _ => tracesAt_pure G.nil _

/-! ### Cells, and the latch handshake -/

theorem tracesAt_regSetf (hn : P []) (ha : ∀ a b, P a → P b → P (a ++ b)) {r : RegName} {f : FldName}
    (hf : (c.field? r f).isSome = true ∨ E .unknownField) (v : Word) : (regSetf d r f v).TracesAt c P E s :=
  tracesAt_get_bind fun hc _ => by
    split
    · rename_i h
      refine tracesAt_bind ha (tracesAt_raise hn (hf.resolve_left ?_)) fun _ _ _ _ => tracesAt_modify hn rfl rfl rfl
      rw [hc] at h
      simpa using h
    · exact tracesAt_modify hn rfl rfl rfl

theorem tracesAt_regGetf (hn : P []) (ha : ∀ a b, P a → P b → P (a ++ b)) {r : RegName} {f : FldName}
    (hf : (c.field? r f).isSome = true ∨ E .unknownField) : (regGetf d r f).TracesAt c P E s :=
  tracesAt_get_bind fun hc _ => by
    split
    · rename_i h
      refine tracesAt_bind ha (tracesAt_raise hn (hf.resolve_left ?_)) fun _ _ _ _ =>
        tracesAt_get_bind fun _ _ => tracesAt_pure hn _
      rw [hc] at h
      simpa using h
    · exact tracesAt_get_bind fun _ _ => tracesAt_pure hn _

theorem tracesAt_sampleCancel (hn : P []) : sampleCancel.TracesAt c P E s := by
  by_cases h : s.cfg.hasCancel = true
  · exact tracesAt_ok hn (a := s.nextCancel.1) (t := s.nextCancel.2) (by simp [sampleCancel, h]) (by simp) (by simp)
      (by simp)
  · exact tracesAt_ok hn (a := false) (t := s) (by simp [sampleCancel, h]) rfl rfl rfl

theorem tracesAt_poll (G : Grammar c d P) (hE : Checks E) (h : c.hasReg c.latchReg = true) : (poll d).TracesAt c P E s :=
  tracesAt_get_bind fun hc _ =>
    tracesAt_bind G.append
      (tracesAt_onRaise (tracesAt_rdreg G hE (by rw [hc]; exact h)) (fun _ => rfl) (fun _ => rfl) (fun _ => rfl)) fun _ _ _ _ =>
      tracesAt_modify G.nil rfl rfl rfl

theorem tracesAt_pollLoop (G : Grammar c d P) (hE : Waits E) (h : c.hasReg c.latchReg = true) (c1 c2 : Bool) (iv : Word) (n : Nat) :
    ∀ s, (pollLoop d c1 c2 iv n).TracesAt c P E s := by
  induction n with
  | zero =>
    exact fun s => tracesAt_bind G.append (tracesAt_modify G.nil rfl rfl rfl) fun _ _ _ _ => tracesAt_raise G.nil hE.timeout
  | succ n ih =>
    have rest : ∀ t : State, (do
        poll d
        let s ← get
        if s.latchDone d c1 s.cfg.latchF1 && s.latchDone d c2 s.cfg.latchF2 then
          modify (fun t => t.setLatch d .latched)
        else
          if n ≠ 0 then emit (.sleep iv)
          pollLoop d c1 c2 iv n : Op Unit).TracesAt c P E t := fun t =>
      tracesAt_bind G.append (tracesAt_poll G hE.toChecks h) fun _ _ _ _ =>
        tracesAt_get_bind fun _ _ =>
          tracesAt_ite (tracesAt_modify G.nil rfl rfl rfl)
            (tracesAt_ite (tracesAt_bind G.append (tracesAt_emit (G.sleep iv)) fun _ t _ _ => ih t) (ih _))
    exact fun s => tracesAt_bind G.append (tracesAt_sampleCancel G.nil) fun _ t _ _ =>
      tracesAt_ite
        (tracesAt_bind G.append (tracesAt_modify G.nil rfl rfl rfl) fun _ _ _ _ =>
          tracesAt_bind G.append (tracesAt_raise G.nil hE.cancelled) fun _ t _ _ => rest t)
        (rest t)

theorem tracesAt_requestLatch (G : Grammar c d P) (b : Bool) {f : FldName} (hf : (c.field? c.latchReg f).isSome = true) : (requestLatch d b f).TracesAt c P E s :=
  tracesAt_ite (tracesAt_get_bind fun hc _ => tracesAt_regSetf G.nil G.append (.inl (hc ▸ hf)) _) (tracesAt_pure G.nil _)

theorem tracesAt_latch (G : Grammar c d P) (hE : Waits E) (h : c.isControl c.latchReg = true)
    (hf1 : (c.field? c.latchReg c.latchF1).isSome = true) (hf2 : (c.field? c.latchReg c.latchF2).isSome = true) (c1 c2 : Bool) (n iv : Word) :
    (latch d c1 c2 n iv).TracesAt c P E s :=
  tracesAt_get_bind fun hc _ =>
    tracesAt_bind G.append (tracesAt_requestLatch G _ (by rw [hc]; exact hf1)) fun _ _ _ _ =>
      tracesAt_bind G.append (tracesAt_requestLatch G _ (by rw [hc]; exact hf2)) fun _ _ _ _ =>
        tracesAt_bind G.append (tracesAt_modify G.nil rfl rfl rfl) fun _ _ _ _ =>
          tracesAt_bind G.append (tracesAt_wrreg G (by rw [hc]; exact h)) fun _ _ _ _ =>
            tracesAt_bind G.append (tracesAt_modify G.nil rfl rfl rfl) fun _ _ _ _ =>
              tracesAt_pollLoop G hE (Config.isControl_hasReg h) _ _ _ _ _

theorem tracesAt_rdboth (G : Grammar c d P) (hE : Waits E) (ha : c.admitted = true) (n iv : Word) :
    (rdboth d n iv).TracesAt c P E s :=
  have ⟨l1, l2⟩ := Config.latch_fields ha
  have ⟨r1, r2, r3, r4⟩ := Config.rms_fields ha
  tracesAt_bind G.append (tracesAt_latch G hE (Config.hasField_isControl l1) (Config.hasField_isSome l1)
      (Config.hasField_isSome l2) _ _ _ _) fun _ _ _ _ =>
    tracesAt_get_bind fun hc _ =>
      tracesAt_bind G.append (tracesAt_rdreg G hE.toChecks (by rw [hc]; exact Config.hasField_hasReg r1)) fun _ _ _ _ =>
        tracesAt_bind G.append (tracesAt_rdreg G hE.toChecks (by rw [hc]; exact Config.hasField_hasReg r3)) fun _ _ _ _ =>
          tracesAt_get_bind fun _ _ =>
            tracesAt_bind G.append (tracesAt_regGetf (d := d) G.nil G.append
                (.inl (by rw [hc]; exact Config.hasField_isSome r1))) fun _ _ _ _ =>
              tracesAt_bind G.append (tracesAt_regGetf (d := d) G.nil G.append
                (.inl (by rw [hc]; exact Config.hasField_isSome r2))) fun _ _ _ _ =>
                tracesAt_bind G.append (tracesAt_regGetf (d := d) G.nil G.append
                (.inl (by rw [hc]; exact Config.hasField_isSome r3))) fun _ _ _ _ =>
                  tracesAt_bind G.append (tracesAt_regGetf (d := d) G.nil G.append
                (.inl (by rw [hc]; exact Config.hasField_isSome r4))) fun _ _ _ _ =>
                    tracesAt_pure G.nil _

theorem tracesAt_calset (G : Grammar c d P) (ha : c.admitted = true) (v1 i1 v2 i2 : Code) :
    (calset d v1 i1 v2 i2).TracesAt c P E s :=
  have ⟨c1, c2, c3, c4⟩ := Config.cal_fields ha
  tracesAt_get_bind fun hc _ =>
    tracesAt_bind G.append (tracesAt_regSetf (d := d) G.nil G.append
      (.inl (by rw [hc]; exact Config.hasField_isSome c1)) _) fun _ _ _ _ =>
      tracesAt_bind G.append (tracesAt_regSetf (d := d) G.nil G.append
      (.inl (by rw [hc]; exact Config.hasField_isSome c2)) _) fun _ _ _ _ =>
        tracesAt_bind G.append (tracesAt_regSetf (d := d) G.nil G.append
      (.inl (by rw [hc]; exact Config.hasField_isSome c3)) _) fun _ _ _ _ =>
          tracesAt_bind G.append (tracesAt_regSetf (d := d) G.nil G.append
      (.inl (by rw [hc]; exact Config.hasField_isSome c4)) _) fun _ _ _ _ =>
            tracesAt_bind G.append (tracesAt_wrreg G (by rw [hc]; exact Config.hasField_isControl c1)) fun _ _ _ _ =>
              tracesAt_bind G.append (tracesAt_wrreg G (by rw [hc]; exact Config.hasField_isControl c2)) fun _ _ _ _ =>
                tracesAt_bind G.append (tracesAt_wrreg G (by rw [hc]; exact Config.hasField_isControl c3)) fun _ _ _ _ =>
                  tracesAt_bind G.append (tracesAt_wrreg G (by rw [hc]; exact Config.hasField_isControl c4)) fun _ _ _ _ =>
                    tracesAt_emit (G.persist v1 i1 v2 i2)

end

end Sys2Proof.Machine
end

