-- ==== Sys2Proof/Laws/Transport.lean ====
section
/-! SUPPORT. The framer's operations as equations, while the reset input is quiet: what RDREG and WRREG leave, and which
parts of the state one transaction, one reply and one drift check reach. -/

namespace Sys2Proof.Machine

/-- The state after the drift check of a successful read. -/
def State.afterDrift (s : State) (d : DevIx) (r : RegName) : State :=
  if s.drifted d r then (s.setWarn d true).record (.warn .crcDrift d) else s

/-- The state after a reply that passed its checks. -/
def State.afterReply (s : State) (d : DevIx) (r : RegName) (reply : List Byte) : State :=
  (s.decodeReg d r (rword s.cfg.readDataBytes reply)).afterDrift d r

section
variable (s : State) (d d' : DevIx) (r r' : RegName) (cmd : List Byte) (n : Nat)

@[simp] theorem State.afterXfer_cfg : (s.afterXfer d cmd n).cfg = s.cfg := rfl
@[simp] theorem State.afterXfer_pollCount : (s.afterXfer d cmd n).pollCount = s.pollCount := rfl
@[simp] theorem State.afterXfer_trace :
    (s.afterXfer d cmd n).trace = s.trace ++ transaction d cmd n s.nextReply.1 := rfl
@[simp] theorem State.afterXfer_results : (s.afterXfer d cmd n).results = s.results := rfl
@[simp] theorem State.afterXfer_port : (s.afterXfer d cmd n).port = s.port := rfl
@[simp] theorem State.afterXfer_replies : (s.afterXfer d cmd n).replies = s.nextReply.2.replies := rfl
@[simp] theorem State.afterXfer_cancels : (s.afterXfer d cmd n).cancels = s.cancels := rfl
@[simp] theorem State.afterXfer_resets : (s.afterXfer d cmd n).resets = s.resets := rfl
@[simp] theorem State.afterXfer_draws : (s.afterXfer d cmd n).draws = s.nextReply.2.draws := rfl
@[simp] theorem State.afterXfer_seq : (s.afterXfer d cmd n).seq = s.seq.ticks 6 := rfl

theorem State.afterXfer_eq : s.afterXfer d cmd n =
    { s.setCsN d true with
      trace := s.trace ++ transaction d cmd n s.nextReply.1
      seq := s.seq.ticks 6
      replies := s.nextReply.2.replies
      draws := s.nextReply.2.draws } := rfl

theorem State.afterXfer_dev : (s.afterXfer d cmd n).dev d' = (s.setCsN d true).dev d' := rfl

@[simp] theorem State.afterXfer_cells : (s.afterXfer d cmd n).cells d' r' = s.cells d' r' :=
  State.cells_modDev (s := s) (g := fun v => { v with csN := true }) fun _ => rfl

@[simp] theorem State.afterXfer_flen : (s.afterXfer d cmd n).flen d' = s.flen d' :=
  (State.flen_of_cells (by simp) (by simp)).1

@[simp] theorem State.afterXfer_crcOn : (s.afterXfer d cmd n).crcOn d' = s.crcOn d' :=
  (State.flen_of_cells (by simp) (by simp)).2

@[simp] theorem State.afterXfer_encodeReg : (s.afterXfer d cmd n).encodeReg d' r' = s.encodeReg d' r' :=
  State.encodeReg_of_cells (by simp) (by simp)

theorem State.afterXfer_shaped {s : State} (h : s.Shaped) : (s.afterXfer d cmd n).Shaped :=
  show (s.setCsN d true).Shaped from h.modDev fun _ hv => hv

/-- The drift check with the reset input quiet. -/
theorem checkDrift_noReset (h : s.resets = []) : checkDrift d r s = .ok () (s.afterDrift d r) := by
  unfold checkDrift State.afterDrift
  simp only [Op.bind_apply, Op.get_apply]
  split
  · rw [Op.bind_apply, Op.modify_apply]
    exact emit_noReset _ (by simpa using h) _
  · rfl

theorem checkReply_apply (reply : List Byte) : checkReply n reply s = match replyError n reply with
    | some e => .error (.err e) s
    | none => .ok () s := by
  unfold checkReply
  cases replyError n reply <;> rfl

theorem regDecode_apply (w : Word) : regDecode d r w s = .ok () (s.decodeReg d r w) := rfl

/-- What the block does with a reply, the reset input quiet. -/
theorem acceptReply_noReset (h : s.resets = []) (reply : List Byte) :
    acceptReply d r n reply s = match replyError n reply with
      | some e => .error (.err e) s
      | none => .ok () (s.afterReply d r reply) := by
  unfold acceptReply
  rw [Op.bind_apply, checkReply_apply]
  cases replyError n reply with
  | some e => rfl
  | none =>
    simp only [Op.bind_apply, Op.get_apply, regDecode_apply]
    exact checkDrift_noReset _ d r (by simpa using h)

/-- RDREG with the reset input quiet (R113). -/
theorem rdreg_noReset (h : s.resets = []) :
    rdreg d r s = match replyError (s.flen d) s.nextReply.1 with
      | some e => .error (.err e) (s.afterXfer d (s.readFrame d r) (s.flen d))
      | none => .ok () ((s.afterXfer d (s.readFrame d r) (s.flen d)).afterReply d r s.nextReply.1) := by
  unfold rdreg
  simp only [Op.bind_apply, Op.get_apply, xfer_noReset s h]
  exact acceptReply_noReset _ d r _ (by simpa using h) _

theorem writeHalf_noReset (h : s.resets = []) (wa lsb msb : Byte) :
    writeHalf d wa lsb msb s = .ok () (s.afterXfer d (frame (s.flen d) (writeBody wa lsb msb)) (s.flen d)) := by
  unfold writeHalf
  simp only [Op.bind_apply, Op.get_apply, xfer_noReset s h]
  rfl

/-- The state after the two transactions of WRREG. -/
def State.afterWrite : State :=
  let w := s.encodeReg d r
  let a := s.cfg.addr r
  (s.afterXfer d (frame (s.flen d) (writeBody (a + 1) (wordByte w 2) (wordByte w 3))) (s.flen d)).afterXfer d
    (frame (s.flen d) (writeBody a (wordByte w 0) (wordByte w 1))) (s.flen d)

/-- WRREG with the reset input quiet (R116): it never raises. -/
theorem wrreg_noReset (h : s.resets = []) : wrreg d r s = .ok () (s.afterWrite d r) := by
  unfold wrreg State.afterWrite
  simp only [Op.bind_apply, Op.get_apply, writeHalf_noReset s d h]
  rw [writeHalf_noReset _ d (by simpa using h)]
  simp

@[simp] theorem State.afterWrite_cfg : (s.afterWrite d r).cfg = s.cfg := rfl
@[simp] theorem State.afterWrite_pollCount : (s.afterWrite d r).pollCount = s.pollCount := rfl
@[simp] theorem State.afterWrite_results : (s.afterWrite d r).results = s.results := rfl
@[simp] theorem State.afterWrite_port : (s.afterWrite d r).port = s.port := rfl
@[simp] theorem State.afterWrite_cancels : (s.afterWrite d r).cancels = s.cancels := rfl
@[simp] theorem State.afterWrite_resets : (s.afterWrite d r).resets = s.resets := rfl
@[simp] theorem State.afterWrite_cells : (s.afterWrite d r).cells d' r' = s.cells d' r' := by simp [State.afterWrite]
@[simp] theorem State.afterWrite_flen : (s.afterWrite d r).flen d' = s.flen d' := by simp [State.afterWrite]
@[simp] theorem State.afterWrite_encodeReg : (s.afterWrite d r).encodeReg d' r' = s.encodeReg d' r' := by
  simp [State.afterWrite]

theorem State.afterWrite_shaped {s : State} (h : s.Shaped) : (s.afterWrite d r).Shaped :=
  State.afterXfer_shaped d _ _ (State.afterXfer_shaped d _ _ h)

/-- A write adds its two transactions to the trace, whatever their answers. -/
theorem State.afterWrite_trace : ∃ x y, (s.afterWrite d r).trace = s.trace ++
    (transaction d ((s.writeFrames d r).getD 0 []) (s.flen d) x ++
      transaction d ((s.writeFrames d r).getD 1 []) (s.flen d) y) :=
  ⟨_, _, by rw [← List.append_assoc]; rfl⟩

/-- A write takes two answers. -/
theorem State.afterWrite_replies {r1 r2 : List Byte} {rest : List (List Byte)} (h : s.replies = r1 :: r2 :: rest) :
    (s.afterWrite d r).replies = rest ∧ (s.afterWrite d r).draws = s.draws := by
  have h1 : ∀ cmd n, (s.afterXfer d cmd n).replies = r2 :: rest ∧ (s.afterXfer d cmd n).draws = s.draws := by
    intro cmd n
    rw [State.afterXfer_replies, State.afterXfer_draws, State.nextReply_cons s h]
    exact ⟨rfl, rfl⟩
  obtain ⟨h2, h3⟩ :=
    h1 (frame (s.flen d) (writeBody (s.cfg.addr r + 1) (wordByte (s.encodeReg d r) 2) (wordByte (s.encodeReg d r) 3)))
      (s.flen d)
  unfold State.afterWrite
  rw [State.afterXfer_replies _ d _ _, State.afterXfer_draws _ d _ _, State.nextReply_cons _ h2]
  exact ⟨rfl, h3⟩

theorem State.afterWrite_dev_other (hn : d' ≠ d) : (s.afterWrite d r).dev d' = s.dev d' :=
  (State.dev_modDev_other (s.setCsN d true) d d' _ hn).trans (State.dev_modDev_other s d d' _ hn)

theorem State.afterWrite_dev (hd : d.toNat < s.devs.length) :
    (s.afterWrite d r).dev d = { s.dev d with csN := true } := by
  refine (State.dev_modDev_same (s.setCsN d true) d _ (by simpa [State.setCsN] using hd)).trans ?_
  rw [show (s.setCsN d true).dev d = _ from State.dev_modDev_same s d _ hd]

/-- The frames of a write depend on the cells of its register and of `UART_REG` alone. -/
theorem State.writeFrames_of_cells {s t : State} {d : DevIx} {r : RegName} (hc : t.cfg = s.cfg)
    (h : t.cells d r = s.cells d r) (hu : t.cells d s.cfg.uartReg = s.cells d s.cfg.uartReg) :
    t.writeFrames d r = s.writeFrames d r := by
  unfold State.writeFrames
  rw [State.encodeReg_of_cells hc h, hc, (State.flen_of_cells hc hu).1]

/-! ### Replies -/

@[simp] theorem State.afterDrift_cfg : (s.afterDrift d r).cfg = s.cfg := by unfold State.afterDrift; split <;> rfl
@[simp] theorem State.afterDrift_pollCount : (s.afterDrift d r).pollCount = s.pollCount := by
  unfold State.afterDrift; split <;> rfl
@[simp] theorem State.afterDrift_results : (s.afterDrift d r).results = s.results := by
  unfold State.afterDrift; split <;> rfl
@[simp] theorem State.afterDrift_port : (s.afterDrift d r).port = s.port := by unfold State.afterDrift; split <;> rfl
@[simp] theorem State.afterDrift_replies : (s.afterDrift d r).replies = s.replies := by
  unfold State.afterDrift; split <;> rfl
@[simp] theorem State.afterDrift_cancels : (s.afterDrift d r).cancels = s.cancels := by
  unfold State.afterDrift; split <;> rfl
@[simp] theorem State.afterDrift_resets : (s.afterDrift d r).resets = s.resets := by
  unfold State.afterDrift; split <;> rfl
@[simp] theorem State.afterDrift_draws : (s.afterDrift d r).draws = s.draws := by
  unfold State.afterDrift; split <;> rfl

@[simp] theorem State.afterDrift_cells : (s.afterDrift d r).cells d' r' = s.cells d' r' := by
  unfold State.afterDrift
  split
  · exact State.cells_modDev (s := s) (g := fun v => { v with warnDrift := true }) fun _ => rfl
  · rfl

theorem State.afterDrift_shaped {s : State} (h : s.Shaped) : (s.afterDrift d r).Shaped := by
  unfold State.afterDrift
  split
  · exact show (s.setWarn d true).Shaped from h.modDev fun _ hv => hv
  · exact h

theorem State.afterDrift_trace : (s.afterDrift d r).trace =
    s.trace ++ (if s.drifted d r then [.warn .crcDrift d] else []) := by
  unfold State.afterDrift
  split <;> simp

/-- The drift check writes the drift flag of its device alone. -/
theorem State.afterDrift_dev (hd : d.toNat < s.devs.length) :
    (s.afterDrift d r).dev d = { s.dev d with warnDrift := (s.dev d).warnDrift || s.drifted d r } := by
  unfold State.afterDrift
  split
  · rename_i h
    rw [show ((s.setWarn d true).record (.warn .crcDrift d)).dev d = _ from s.dev_modDev_same d _ hd]
    simp [h]
  · rename_i h
    simp [h]

theorem State.afterDrift_dev_other (hn : d' ≠ d) : (s.afterDrift d r).dev d' = s.dev d' := by
  unfold State.afterDrift
  split
  · exact s.dev_modDev_other d d' _ hn
  · rfl

/-- Only a read of `UART_REG` can drift. -/
theorem State.drifted_false (h : r ≠ s.cfg.uartReg) : s.drifted d r = false := by simp [State.drifted, h]

variable (reply : List Byte)

@[simp] theorem State.afterReply_cfg : (s.afterReply d r reply).cfg = s.cfg := by simp [State.afterReply]
@[simp] theorem State.afterReply_pollCount : (s.afterReply d r reply).pollCount = s.pollCount := by
  simp [State.afterReply]
@[simp] theorem State.afterReply_results : (s.afterReply d r reply).results = s.results := by simp [State.afterReply]
@[simp] theorem State.afterReply_port : (s.afterReply d r reply).port = s.port := by simp [State.afterReply]
@[simp] theorem State.afterReply_replies : (s.afterReply d r reply).replies = s.replies := by simp [State.afterReply]
@[simp] theorem State.afterReply_cancels : (s.afterReply d r reply).cancels = s.cancels := by simp [State.afterReply]
@[simp] theorem State.afterReply_resets : (s.afterReply d r reply).resets = s.resets := by simp [State.afterReply]
@[simp] theorem State.afterReply_draws : (s.afterReply d r reply).draws = s.draws := by simp [State.afterReply]

variable {s d d' r r'}

theorem State.afterReply_shaped (h : s.Shaped) : (s.afterReply d r reply).Shaped :=
  State.afterDrift_shaped d r h.decodeReg

/-- A reply decodes into the register it answers for. -/
theorem State.afterReply_cells (hs : s.Shaped) (hd : s.HasDev d) (hr : s.cfg.hasReg r = true) :
    (s.afterReply d r reply).cells d r = decodeCells (s.cfg.fieldsOf r) (rword s.cfg.readDataBytes reply) := by
  simp [State.afterReply, State.decodeReg, State.cells_setCells_same hs hd hr]

/-- A reply leaves every other register's cells. -/
theorem State.afterReply_cells_other (hr : s.cfg.hasReg r = true) (hn : (d', r') ≠ (d, r)) :
    (s.afterReply d r reply).cells d' r' = s.cells d' r' := by
  simp [State.afterReply, State.decodeReg, State.cells_setCells_other hr hn]

theorem State.afterReply_dev_other (hn : d' ≠ d) : (s.afterReply d r reply).dev d' = s.dev d' := by
  rw [State.afterReply, State.afterDrift_dev_other _ _ _ _ hn, State.decodeReg, State.dev_setCells_other hn]

/-- A reply for a register that does not select the framing adds no event. -/
theorem State.afterReply_trace (h : r ≠ s.cfg.uartReg) : (s.afterReply d r reply).trace = s.trace := by
  rw [State.afterReply, State.afterDrift_trace, State.drifted_false _ _ _ (by simpa using h)]
  simp

/-- A reply for a register that does not select the framing keeps it. -/
theorem State.afterReply_flen (hr : s.cfg.hasReg r = true) (h : r ≠ s.cfg.uartReg) :
    (s.afterReply d r reply).flen d' = s.flen d' :=
  (State.flen_of_cells (by simp) (State.afterReply_cells_other reply hr (fun e => h (Prod.mk.inj e).2.symm))).1

end

end Sys2Proof.Machine
end

