-- ==== Sys2Proof/Laws/Exec.lean ====
section
/-! SUPPORT. What an accepted operation can do to the state, for all operations at once: a relation that holds across
what the families do holds from the state in which the operation begins to the one in which it ends. -/

namespace Sys2Proof.Machine

/-- An accepted operation ends with one result, or reset cuts it short, the last moment being the one before it ends. -/
def Settles (R Q : State → State → Prop) (s t : State) : Prop :=
  (∃ u r, R s u ∧ t = u.pass.finish r) ∨ (∃ u, (Q s u ∨ R s u ∧ u.resetNow = true) ∧ t = u.applyReset)

theorem settle_settles {R Q : State → State → Prop} {s u : State} (h : R s u) (r : HostResult) :
    Settles R Q s (u.settle fun t => t.finish r) := by
  unfold State.settle
  split
  · rename_i h'
    exact .inr ⟨u, .inr ⟨h, h'⟩, rfl⟩
  · exact .inl ⟨u, r, h, rfl⟩

theorem runOp_ends {R Q : State → State → Prop} {i : Instr} {body : Op Value} (h : body.Ends R Q) (s : State) :
    Settles R Q (s.begin i) (runOp i body s) := by
  have h1 := h (s.begin i)
  rw [runOp_eq]
  rcases e : body (s.begin i) with ⟨v, u⟩ | ⟨_ | _, u⟩ <;> rw [e] at h1
  · exact settle_settles h1 _
  · exact settle_settles h1 _
  · exact .inr ⟨u, .inl h1, rfl⟩

/-- The same of the operation as exec accepts it. -/
theorem accept_ends {R Q : State → State → Prop} {i : Instr} {bad : Option Refusal} {body : Op Value} {s t : State}
    (he : accept i bad body s = .next t) (h : body.Ends R Q) : Settles R Q (s.begin i) t := by
  obtain ⟨-, -, rfl⟩ := accept_next s he
  exact runOp_ends h s

/-- Whether the operation runs the latch handshake. -/
def Instr.latches : Instr → Bool
  | .latch _ _ _ _ _ => true
  | .rdboth _ _ _ => true
  | _ => false

/-- What the relations must hold across, for an operation. -/
structure Holds (R Q : State → State → Prop) (i : Instr) : Prop where
  refl : ∀ s, R s s
  trans : ∀ s t u, R s t → R t u → R s u
  cut : ∀ s t u, R s t → Q t u → Q s u
  store : ∀ d, i.dev? = some d → Store R Q d
  shake : ∀ d, i.dev? = some d → Instr.latches i = true → Shake R Q d
  intend : ∀ d b, i = .crcintend d b → ∀ s, R s ((s.setIntended d b).setWarn d false)

/-- What holds across the families' parts holds across every operation. -/
theorem exec_ends {R Q : State → State → Prop} {i : Instr} (H : Holds R Q i) {s t : State} (he : exec i s = .next t) :
    Settles R Q (s.begin i) t := by
  have bind {α : Type} {m : Op α} {k : α → Op Value} (hm : m.Ends R Q) (hk : ∀ a, (k a).Ends R Q) : (m >>= k).Ends R Q :=
    ends_bind H.trans H.cut hm hk
  have ans {α : Type} {m : Op α} {v : α → Value} (hm : m.Ends R Q) : (m >>= fun a => pure (v a)).Ends R Q :=
    bind hm fun _ => ends_pure H.refl _
  have get : (get : Op State).Ends R Q := ends_get H.refl
  cases i with
  | bfDecode f w => exact accept_ends (bad := none) he (ends_pure H.refl _)
  | bfEncode f v w => exact accept_ends (bad := none) he (ends_pure H.refl _)
  | regDecode d r w => exact accept_ends he (ans (ends_modify fun s => (H.store d rfl).decode s r w))
  | regEncode d r => exact accept_ends he (ans get)
  | regWire d r => exact accept_ends he (ans get)
  | regSetf d r f v => exact accept_ends he (ans (ends_regSetf H.refl H.trans H.cut (H.store d rfl).cell r f v))
  | regGetf d r f => exact accept_ends he (ans (ends_regGetf H.refl H.trans H.cut r f))
  | crc8Byte rem b => exact accept_ends (bad := none) he (ends_pure H.refl _)
  | crc8Seq l => exact accept_ends (bad := none) he (ends_pure H.refl _)
  | crc8Check b0 b1 b2 b3 b4 => exact accept_ends (bad := none) he (ends_pure H.refl _)
  | xfer d cmd n => exact accept_ends he (ans ((H.store d rfl).xfer cmd _))
  | rdreg d r => exact accept_ends he (ans (ends_rdreg (H.store d rfl).toLink r))
  | wrreg d r => exact accept_ends he (ans (ends_wrreg (H.store d rfl).toLink r))
  | latch d c1 c2 n iv => exact accept_ends he (ans (ends_latch (H.shake d rfl rfl) c1 c2 n iv))
  | crcintend d b => exact accept_ends he (ans (ends_modify fun s => H.intend d b rfl s))
  | gain c => exact accept_ends (bad := none) he (ends_pure H.refl _)
  | vconv raw c => exact accept_ends (bad := s.badGain c) he (ends_pure H.refl _)
  | iconv raw c => exact accept_ends (bad := s.badGain c) he (ends_pure H.refl _)
  | caldrv nv ni av ai pv pi => exact accept_ends he (ends_pure H.refl _)
  | calset d v1 i1 v2 i2 => exact accept_ends he (ans (ends_calset (H.store d rfl) v1 i1 v2 i2))
  | rdboth d n iv => exact accept_ends he (ends_rdboth (H.shake d rfl rfl) n iv)
  | cfgapply d => exact accept_ends he (ends_cfgapply (H.store d rfl).toLink)
  | cfgread d => exact accept_ends he (ans (ends_cfgread (H.store d rfl).toLink))
  | cmdRd4 d a => exact accept_ends he (ends_memRead (H.store d rfl).toLink _)
  | cmdRd5 d a c => exact accept_ends he (ends_memRead (H.store d rfl).toLink _)
  | cmdWr4 d r w l m => exact accept_ends he (ends_memWrite (H.store d rfl).toLink _)
  | cmdWr5 d r w l m c => exact accept_ends he (ends_memWrite (H.store d rfl).toLink _)
  | rpl4 d reg b0 b1 b2 b3 => exact accept_ends he (ends_receive (H.store d rfl).toLink reg _)
  | rpl5 d reg b0 b1 b2 b3 k => exact accept_ends he (ends_receive (H.store d rfl).toLink reg _)

/-! ### With the reset input quiet -/

theorem Op.Ends.and {α : Type} {R Q R' Q' : State → State → Prop} {m : Op α} (h : m.Ends R Q) (h' : m.Ends R' Q') :
    m.Ends (fun s t => R s t ∧ R' s t) (fun s t => Q s t ∧ Q' s t) := by
  intro s
  have a := h s
  have b := h' s
  rcases e : m s with ⟨v, t⟩ | ⟨_ | _, t⟩ <;> rw [e] at a b <;> exact ⟨a, b⟩

theorem Link.and {R Q R' Q' : State → State → Prop} {d : DevIx} (h : Link R Q d) (h' : Link R' Q' d) :
    Link (fun s t => R s t ∧ R' s t) (fun s t => Q s t ∧ Q' s t) d where
  refl s := ⟨h.refl s, h'.refl s⟩
  trans s t u a b := ⟨h.trans s t u a.1 b.1, h'.trans s t u a.2 b.2⟩
  cut s t u a b := ⟨h.cut s t u a.1 b.1, h'.cut s t u a.2 b.2⟩
  event e := (h.event e).and (h'.event e)
  xfer cmd n := (h.xfer cmd n).and (h'.xfer cmd n)
  sample := h.sample.and h'.sample
  decode s r w := ⟨h.decode s r w, h'.decode s r w⟩
  warn s := ⟨h.warn s, h'.warn s⟩

theorem Store.and {R Q R' Q' : State → State → Prop} {d : DevIx} (h : Store R Q d) (h' : Store R' Q' d) :
    Store (fun s t => R s t ∧ R' s t) (fun s t => Q s t ∧ Q' s t) d where
  toLink := h.toLink.and h'.toLink
  cell s r f v := ⟨h.cell s r f v, h'.cell s r f v⟩

theorem Shake.and {R Q R' Q' : State → State → Prop} {d : DevIx} (h : Shake R Q d) (h' : Shake R' Q' d) :
    Shake (fun s t => R s t ∧ R' s t) (fun s t => Q s t ∧ Q' s t) d where
  toStore := h.toStore.and h'.toStore
  latch s l := ⟨h.latch s l, h'.latch s l⟩
  count s n := ⟨h.count s n, h'.count s n⟩

theorem Holds.and {R Q R' Q' : State → State → Prop} {i : Instr} (h : Holds R Q i) (h' : Holds R' Q' i) :
    Holds (fun s t => R s t ∧ R' s t) (fun s t => Q s t ∧ Q' s t) i where
  refl s := ⟨h.refl s, h'.refl s⟩
  trans s t u a b := ⟨h.trans s t u a.1 b.1, h'.trans s t u a.2 b.2⟩
  cut s t u a b := ⟨h.cut s t u a.1 b.1, h'.cut s t u a.2 b.2⟩
  store d hd := (h.store d hd).and (h'.store d hd)
  shake d hd hl := (h.shake d hd hl).and (h'.shake d hd hl)
  intend d b hi s := ⟨h.intend d b hi s, h'.intend d b hi s⟩

/-- A quiet reset input stays quiet, and a body that it does not cut short is one in which it was quiet. -/
theorem shake_quiet (d : DevIx) :
    Shake (fun s t => s.resets = [] → t.resets = []) (fun s _ => s.resets ≠ []) d where
  refl _ h := h
  trans _ _ _ h1 h2 h := h2 (h1 h)
  cut _ _ _ h1 h2 h := h2 (h1 h)
  event e s := by
    unfold emit
    cases h : s.resetNow
    · intro h'
      simp [h', passed]
    · intro h'
      simp [s.resetNow_of_quiet h'] at h
  xfer cmd n s := by
    by_cases h : s.resets = []
    · rw [xfer_noReset s h]
      exact fun _ => h
    · rcases xfer d cmd n s with ⟨a, t⟩ | ⟨_ | _, t⟩
      · exact fun h' => absurd h' h
      · exact fun h' => absurd h' h
      · exact h
  sample s := by
    unfold sampleCancel
    cases s.cfg.hasCancel
    · exact fun h => h
    · exact fun h => by simpa using h
  decode _ _ _ h := by simpa using h
  warn _ h := by simpa using h
  cell _ _ _ _ h := by simpa using h
  latch _ _ h := by simpa using h
  count _ _ h := h

theorem holds_quiet (i : Instr) :
    Holds (fun s t => s.resets = [] → t.resets = []) (fun s _ => s.resets ≠ []) i where
  refl _ h := h
  trans _ _ _ h1 h2 h := h2 (h1 h)
  cut _ _ _ h1 h2 h := h2 (h1 h)
  store d _ := (shake_quiet d).toStore
  shake d _ _ := shake_quiet d
  intend _ _ _ _ h := by simpa using h

/-- With the reset input quiet, an accepted operation ends with one result, and a relation that holds across the
families' parts holds across it. -/
theorem exec_quietly {R Q : State → State → Prop} {i : Instr} (H : Holds R Q i) {s t : State} (hn : s.NoReset)
    (he : exec i s = .next t) : ∃ u r, R (s.begin i) u ∧ t = u.finish r := by
  rcases exec_ends (H.and (holds_quiet i)) he with ⟨u, r, h, rfl⟩ | ⟨u, h | ⟨h, h'⟩, -⟩
  · exact ⟨u, r, h.1, by rw [u.pass_of_quiet (h.2 hn)]⟩
  · exact absurd hn h.2
  · rw [u.resetNow_of_quiet (h.2 hn)] at h'
    cases h'

/-! ### The events and the errors of an operation -/

/-- Whether the operation checks a reply. -/
def Instr.checks : Instr → Bool
  | .rdreg _ _ => true
  | .latch _ _ _ _ _ => true
  | .rdboth _ _ _ => true
  | .cfgapply _ => true
  | .cfgread _ => true
  | .cmdRd4 _ _ => true
  | .cmdRd5 _ _ _ => true
  | .rpl4 _ _ _ _ _ _ => true
  | .rpl5 _ _ _ _ _ _ _ => true
  | _ => false

/-- Whether the operation is given a field's name. -/
def Instr.names : Instr → Bool
  | .regSetf _ _ _ _ => true
  | .regGetf _ _ _ => true
  | _ => false

/-- What a property of event lists and one of errors must hold of, for an operation that begins under parameters `c`. -/
structure Speaks (c : Config) (P : List Event → Prop) (E : Err → Prop) (i : Instr) : Prop where
  nil : P []
  append : ∀ a b, P a → P b → P (a ++ b)
  grammar : ∀ d, i.dev? = some d → Grammar c d P
  checks : Instr.checks i = true → Checks E
  waits : Instr.latches i = true → Waits E
  names : Instr.names i = true → E .unknownField

theorem accept_traces {P : List Event → Prop} {E : Err → Prop} {i : Instr} {bad : Option Refusal} {body : Op Value} {s t : State}
    (he : accept i bad body s = .next t) (hn : s.NoReset)
    (h : s.Ready → bad = none → body.TracesAt s.cfg P E (s.begin i)) :
    (∃ evs, t.trace = s.trace ++ evs ∧ P evs) ∧ ∀ e, t.results = s.results ++ [HostResult.err e] → E e := by
  obtain ⟨hr, hb, rfl⟩ := accept_next s he
  have h1 := h hr hb rfl hn
  rw [runOp_eq]
  rcases e : body (s.begin i) with ⟨v, u⟩ | ⟨x | _, u⟩ <;> rw [e] at h1
  · dsimp only
    rw [u.settle_of_quiet h1.2.1]
    refine ⟨h1.2.2, fun e he => ?_⟩
    have := (List.append_inj' (show u.results ++ [HostResult.ok v] = s.results ++ [HostResult.err e] from he) rfl).2
    cases this
  · dsimp only
    rw [u.settle_of_quiet h1.2.1]
    refine ⟨h1.2.2.1, fun e he => ?_⟩
    have := (List.append_inj' (show u.results ++ [HostResult.err x] = s.results ++ [HostResult.err e] from he) rfl).2
    cases this
    exact h1.2.2.2
  · exact h1.elim

/-- With the reset input quiet, what an accepted operation appends to the trace has every property that holds of nothing,
of a concatenation, and of each transaction the operation can make; and the error it ends with, if any, has every
property that holds of the errors it can raise. -/
theorem exec_traces {P : List Event → Prop} {E : Err → Prop} {i : Instr} {s t : State} (G : Speaks s.cfg P E i) (hn : s.NoReset)
    (he : exec i s = .next t) :
    (∃ evs, t.trace = s.trace ++ evs ∧ P evs) ∧ ∀ e, t.results = s.results ++ [HostResult.err e] → E e := by
  have pure {v : Value} {u : State} : (pure v : Op Value).TracesAt s.cfg P E u := tracesAt_pure G.nil v
  have ans {α : Type} {m : Op α} {v : α → Value} {u : State} (hm : m.TracesAt s.cfg P E u) :
      (m >>= fun a => Pure.pure (v a)).TracesAt s.cfg P E u := tracesAt_bind G.append hm fun _ _ _ _ => pure
  have get {v : State → Value} {u : State} : ((get : Op State) >>= fun a => Pure.pure (v a)).TracesAt s.cfg P E u :=
    tracesAt_get_bind fun _ _ => pure
  have receive {d : DevIx} {r : RegName} {reply : List Byte} {u : State} (h : Grammar s.cfg d P) (hE : Checks E) :
      (receive d r reply).TracesAt s.cfg P E u :=
    tracesAt_get_bind fun _ _ => ans (tracesAt_acceptReply h hE r _ reply)
  have memRead {d : DevIx} {cmd : List Byte} {u : State} (hE : Checks E) (h : ∀ n reply, P (transaction d cmd n reply)) :
      (memRead d cmd).TracesAt s.cfg P E u :=
    tracesAt_bind G.append (tracesAt_xfer fun _ => h _ _) fun _ _ _ _ =>
      tracesAt_bind G.append (tracesAt_checkReply G.nil hE _ _) fun _ _ _ _ => get
  have framed {d : DevIx} {cmd : List Byte} {n : Nat} (g : Grammar s.cfg d P) (h : s.Ready)
      (hb : s.badFrame d cmd n = none) : ∀ k reply, P (transaction d cmd k reply) := fun k reply => by
    rcases ((badFrame_none h.2).1 hb).2.1 with ⟨r, hr, rfl⟩ | ⟨r, wa, l, m, hr, rfl | rfl, rfl⟩
    · exact g.read r _ k reply hr
    · exact g.low r _ k reply l m hr
    · exact g.high r _ k reply l m hr
  have memWrite {d : DevIx} {cmd : List Byte} {u : State} (h : ∀ n reply, P (transaction d cmd n reply)) :
      (memWrite d cmd).TracesAt s.cfg P E u := ans (tracesAt_xfer fun _ => h _ _)
  cases i with
  | bfDecode f w => exact accept_traces (bad := none) he hn fun _ _ => pure
  | bfEncode f v w => exact accept_traces (bad := none) he hn fun _ _ => pure
  | regDecode d r w => exact accept_traces he hn fun _ _ => ans (tracesAt_modify G.nil rfl rfl rfl)
  | regEncode d r => exact accept_traces he hn fun _ _ => get
  | regWire d r => exact accept_traces he hn fun _ _ => get
  | regSetf d r f v => exact accept_traces he hn fun _ _ => ans (tracesAt_regSetf G.nil G.append (.inr (G.names rfl)) v)
  | regGetf d r f => exact accept_traces he hn fun _ _ => ans (tracesAt_regGetf G.nil G.append (.inr (G.names rfl)))
  | crc8Byte rem b => exact accept_traces (bad := none) he hn fun _ _ => pure
  | crc8Seq l => exact accept_traces (bad := none) he hn fun _ _ => pure
  | crc8Check b0 b1 b2 b3 b4 => exact accept_traces (bad := none) he hn fun _ _ => pure
  | xfer d cmd n => exact accept_traces he hn fun h hb => ans (tracesAt_xfer (framed (G.grammar d rfl) h hb _))
  | rdreg d r => exact accept_traces he hn fun _ h => ans (tracesAt_rdreg (G.grammar d rfl) (G.checks rfl) (badReg_none.1 h).2)
  | wrreg d r => exact accept_traces he hn fun _ h => ans (tracesAt_wrreg (G.grammar d rfl) (badCtrl_none.1 h).2.2)
  | latch d c1 c2 n iv =>
    exact accept_traces he hn fun h _ =>
      have ⟨h1, h2⟩ := Config.latch_fields h.2
      ans (tracesAt_latch (G.grammar d rfl) (G.waits rfl) (Config.hasField_isControl h1) (Config.hasField_isSome h1)
        (Config.hasField_isSome h2) c1 c2 n iv)
  | crcintend d b => exact accept_traces he hn fun _ _ => ans (tracesAt_modify G.nil rfl rfl rfl)
  | gain c => exact accept_traces (bad := none) he hn fun _ _ => pure
  | vconv raw c => exact accept_traces (bad := s.badGain c) he hn fun _ _ => pure
  | iconv raw c => exact accept_traces (bad := s.badGain c) he hn fun _ _ => pure
  | caldrv nv ni av ai pv pi =>
    exact accept_traces he hn fun _ _ => pure
  | calset d v1 i1 v2 i2 =>
    exact accept_traces he hn fun h _ => ans (tracesAt_calset (G.grammar d rfl) h.2 v1 i1 v2 i2)
  | rdboth d n iv => exact accept_traces he hn fun h _ => tracesAt_rdboth (G.grammar d rfl) (G.waits rfl) h.2 n iv
  | cfgapply d =>
    exact accept_traces he hn fun h _ =>
      tracesAt_cfgapply (G.grammar d rfl) (G.checks rfl) fun _ hr => (Config.mem_ctrl h.2).1 hr
  | cfgread d =>
    exact accept_traces he hn fun h _ =>
      ans (tracesAt_cfgread (G.grammar d rfl) (G.checks rfl) fun _ hr => (Config.mem_ctrl h.2).1 hr)
  | cmdRd4 d a => exact accept_traces he hn fun h hb => memRead (G.checks rfl) (framed (G.grammar d rfl) h hb)
  | cmdRd5 d a c => exact accept_traces he hn fun h hb => memRead (G.checks rfl) (framed (G.grammar d rfl) h hb)
  | cmdWr4 d r w l m => exact accept_traces he hn fun h hb => memWrite (framed (G.grammar d rfl) h hb)
  | cmdWr5 d r w l m c => exact accept_traces he hn fun h hb => memWrite (framed (G.grammar d rfl) h hb)
  | rpl4 d reg b0 b1 b2 b3 => exact accept_traces he hn fun _ _ => receive (G.grammar d rfl) (G.checks rfl)
  | rpl5 d reg b0 b1 b2 b3 k => exact accept_traces he hn fun _ _ => receive (G.grammar d rfl) (G.checks rfl)

end Sys2Proof.Machine
end

