-- ==== Sys2Proof/Laws/Latch.lean ====
section
/-! SUPPORT. The latch handshake against a scripted device side, while the reset input is quiet: what a run of polls does,
and how each of its ends is reached (spec/43_transport.md R119 to R122). -/

namespace Sys2Proof.Machine

/-! ### Events -/

theorem framesSent_append (a b : List Event) : framesSent (a ++ b) = framesSent a ++ framesSent b := by
  induction a with
  | nil => rfl
  | cons e a ih => cases e <;> simp [framesSent, ih]

theorem sleeps_append (a b : List Event) : sleeps (a ++ b) = sleeps a ++ sleeps b := by
  induction a with
  | nil => rfl
  | cons e a ih => cases e <;> simp [sleeps, ih]

theorem disciplined_append (a b : List Event) (ha : disciplined a = true) (hb : disciplined b = true) :
    disciplined (a ++ b) = true := by
  fun_induction disciplined a <;> simp_all [disciplined]

@[simp] theorem framesSent_transaction (d : DevIx) (cmd : List Byte) (n : Nat) (reply : List Byte) :
    framesSent (transaction d cmd n reply) = [cmd] := rfl

@[simp] theorem sleeps_transaction (d : DevIx) (cmd : List Byte) (n : Nat) (reply : List Byte) :
    sleeps (transaction d cmd n reply) = [] := rfl

@[simp] theorem disciplined_transaction (d : DevIx) (cmd : List Byte) (n : Nat) (reply : List Byte) :
    disciplined (transaction d cmd n reply) = true := by simp [transaction, disciplined]

/-! ### A run of polls -/

/-- From `s` to `t` by `k` polls of device `d` that were not the last, the events being `evs` and the answers taken
`polls`: what such a run changes, and what it leaves. -/
structure Polled (d : DevIx) (polls : List (List Byte)) (evs : List Event) (s t : State) : Prop where
  cfg : t.cfg = s.cfg
  resets : t.resets = []
  shaped : t.Shaped
  results : t.results = s.results
  port : t.port = s.port
  trace : t.trace = s.trace ++ evs
  count : t.pollCount = s.pollCount + polls.length
  replies : s.replies = polls ++ t.replies
  cancels : s.cfg.hasCancel = true → s.cancels = List.replicate polls.length false ++ t.cancels
  others : ∀ d', d' ≠ d → t.dev d' = s.dev d'
  cells : ∀ r, r ≠ s.cfg.latchReg → t.cells d r = s.cells d r
  latch : (t.dev d).latch = (s.dev d).latch

section
variable {s t u : State} {d : DevIx} {p q : List (List Byte)} {a b : List Event}

theorem Polled.refl (h1 : s.resets = []) (h2 : s.Shaped) : Polled d [] [] s s :=
  ⟨rfl, h1, h2, rfl, rfl, by simp, by simp, by simp, by simp, fun _ _ => rfl, fun _ _ => rfl, rfl⟩

theorem Polled.trans (h1 : Polled d p a s t) (h2 : Polled d q b t u) : Polled d (p ++ q) (a ++ b) s u where
  cfg := h2.cfg.trans h1.cfg
  resets := h2.resets
  shaped := h2.shaped
  results := h2.results.trans h1.results
  port := h2.port.trans h1.port
  trace := by rw [h2.trace, h1.trace, List.append_assoc]
  count := by rw [h2.count, h1.count, List.length_append, Nat.add_assoc]
  replies := by rw [h1.replies, h2.replies, List.append_assoc]
  cancels := fun h => by
    rw [h1.cancels h, h2.cancels (by rw [h1.cfg]; exact h), List.length_append,
      ← List.replicate_append_replicate, List.append_assoc]
  others := fun d' hd => (h2.others d' hd).trans (h1.others d' hd)
  cells := fun r hr => (h2.cells r (by rw [h1.cfg]; exact hr)).trans (h1.cells r hr)
  latch := h2.latch.trans h1.latch

theorem Polled.flen (h : Polled d p a s t) (hu : s.cfg.latchReg ≠ s.cfg.uartReg) : t.flen d = s.flen d :=
  (State.flen_of_cells h.cfg (h.cells _ hu.symm)).1

theorem Polled.readFrame (h : Polled d p a s t) (hu : s.cfg.latchReg ≠ s.cfg.uartReg) (r : RegName) :
    t.readFrame d r = s.readFrame d r := by
  unfold State.readFrame
  rw [h.flen hu, h.cfg]

end

section
variable {s : State} {d : DevIx}

/-- The state after one poll answered by `p`, the answer being good. -/
def State.afterPoll (s : State) (d : DevIx) (p : List Byte) : State :=
  let t := (s.afterXfer d (s.readFrame d s.cfg.latchReg) (s.flen d)).afterReply d s.cfg.latchReg p
  { t with pollCount := t.pollCount + 1 }

/-- A poll answered well. -/
theorem poll_good (hn : s.resets = []) {p : List Byte} {rest : List (List Byte)} (hr : s.replies = p :: rest)
    (hp : replyError (s.flen d) p = none) : poll d s = .ok () (s.afterPoll d p) := by
  unfold poll
  simp only [Op.bind_apply, Op.get_apply, onRaise_apply, rdreg_noReset s d _ hn, State.nextReply_cons s hr, hp, Op.modify_apply]
  rfl

/-- A poll answered badly: the handshake is abandoned with the error of the reply. -/
theorem poll_bad (hn : s.resets = []) {p : List Byte} {rest : List (List Byte)} (hr : s.replies = p :: rest) {e : Err}
    (hp : replyError (s.flen d) p = some e) :
    poll d s = .error (.err e) ((s.afterXfer d (s.readFrame d s.cfg.latchReg) (s.flen d)).setLatch d .idle) := by
  unfold poll
  simp only [Op.bind_apply, Op.get_apply, onRaise_apply, rdreg_noReset s d _ hn, State.nextReply_cons s hr, hp]

/-- What one good poll changes, seen as a run of one poll without its cancel sample. -/
theorem State.afterPoll_polled (hn : s.resets = []) (hs : s.Shaped) (hd : s.HasDev d)
    (hr : s.cfg.hasReg s.cfg.latchReg = true) (hu : s.cfg.latchReg ≠ s.cfg.uartReg) {p : List Byte}
    {rest : List (List Byte)} (hp : s.replies = p :: rest) :
    let t := s.afterPoll d p
    t.cfg = s.cfg ∧ t.resets = [] ∧ t.Shaped ∧ t.results = s.results ∧ t.port = s.port ∧
      t.trace = s.trace ++ transaction d (s.readFrame d s.cfg.latchReg) (s.flen d) p ∧
      t.pollCount = s.pollCount + 1 ∧ t.replies = rest ∧ t.cancels = s.cancels ∧
      (∀ d', d' ≠ d → t.dev d' = s.dev d') ∧ (∀ r, r ≠ s.cfg.latchReg → t.cells d r = s.cells d r) ∧
      t.cells d s.cfg.latchReg = decodeCells (s.cfg.fieldsOf s.cfg.latchReg) (rword s.cfg.readDataBytes p) ∧
      (t.dev d).latch = (s.dev d).latch := by
  have hsx := State.afterXfer_shaped (s := s) d (s.readFrame d s.cfg.latchReg) (s.flen d) hs
  have hnr := State.nextReply_cons s hp
  generalize hx : s.afterXfer d (s.readFrame d s.cfg.latchReg) (s.flen d) = x at hsx
  have hc : x.cfg = s.cfg := by rw [← hx]; rfl
  have hdx : x.HasDev d := by unfold State.HasDev; rw [hc]; exact hd
  have hrx : x.cfg.hasReg s.cfg.latchReg = true := by rw [hc]; exact hr
  have htr : x.trace = s.trace ++ transaction d (s.readFrame d s.cfg.latchReg) (s.flen d) p := by
    rw [← hx, State.afterXfer_trace, hnr]
  have hxd : x.dev d = { s.dev d with csN := true } := by
    rw [← hx]; exact s.dev_modDev_same d _ (hs.lt hd)
  unfold State.afterPoll
  simp only [hx]
  refine ⟨by simp [hc], by simp [← hx, hn], ?_, by simp [← hx], by simp [← hx], ?_, by simp [← hx], ?_, by simp [← hx],
    ?_, ?_, ?_, ?_⟩
  · exact State.afterReply_shaped p hsx
  · show (x.afterReply d s.cfg.latchReg p).trace = _
    rw [State.afterReply_trace p (by rw [hc]; exact hu), htr]
  · simp [← hx, hnr]
  · intro d' hd'
    refine (State.afterReply_dev_other p hd').trans ?_
    rw [← hx]
    exact s.dev_modDev_other d d' _ hd'
  · intro r hr'
    refine (State.afterReply_cells_other p hrx (fun e => hr' (Prod.mk.inj e).2)).trans ?_
    rw [← hx]
    exact State.afterXfer_cells _ _ _ _ _ _
  · refine (State.afterReply_cells p hsx hdx hrx).trans ?_
    rw [hc]
  · show ((x.afterReply d s.cfg.latchReg p).dev d).latch = _
    rw [State.afterReply, State.afterDrift_dev, State.decodeReg, State.dev_setCells hsx hdx, hxd]
    simpa [State.decodeReg, State.setCells] using hsx.lt hdx

/-- Whether a channel is done after a poll is what the reply shows. -/
theorem State.latchDone_of_cells {t : State} (hc : t.cfg = s.cfg) {p : List Byte}
    (ht : t.cells d s.cfg.latchReg = decodeCells (s.cfg.fieldsOf s.cfg.latchReg) (rword s.cfg.readDataBytes p))
    {f : FldName} (hf : (s.cfg.field? s.cfg.latchReg f).isSome = true) (c : Bool) :
    t.latchDone d c f = !(c && s.cfg.showsBit f p) := by
  obtain ⟨x, hx⟩ := Option.isSome_iff_exists.1 hf
  have : t.getCell d s.cfg.latchReg f = bfDecode x.bits (rword s.cfg.readDataBytes p) := by
    rw [State.getCell_eq, ht, hc]
    simp [List.getD_eq_getElem?_getD, decodeCells, Config.getElem_fldIx hx]
  unfold State.latchDone Config.showsBit
  rw [hc, this, hx]
  simp only [Option.any_some]
  generalize bfDecode x.bits (rword s.cfg.readDataBytes p) = w
  have hw : (w &&& 1 == 0) = !(w &&& 1 == 1) := by
    have : w &&& 1 = 0 ∨ w &&& 1 = 1 := by
      have h1 : (w &&& 1).toNat ≤ 1 := by
        rw [BitVec.toNat_and]; exact Nat.and_le_right
      rcases Nat.le_one_iff_eq_zero_or_eq_one.1 h1 with h | h
      · exact .inl (BitVec.eq_of_toNat_eq h)
      · exact .inr (BitVec.eq_of_toNat_eq h)
    rcases this with h | h <;> rw [h] <;> decide
  rw [hw]
  cases c <;> cases (w &&& 1 == 1) <;> rfl

/-- The premises under which the handshake is described: the reset input quiet, the shadow in shape, and a `LATCH_REG` with
both latch fields that does not select the framing. -/
structure Site (s : State) (d : DevIx) : Prop where
  quiet : s.resets = []
  shaped : s.Shaped
  dev : s.HasDev d
  reg : s.cfg.hasReg s.cfg.latchReg = true
  apart : s.cfg.latchReg ≠ s.cfg.uartReg
  field1 : (s.cfg.field? s.cfg.latchReg s.cfg.latchF1).isSome = true
  field2 : (s.cfg.field? s.cfg.latchReg s.cfg.latchF2).isSome = true

theorem Polled.site {t : State} {p : List (List Byte)} {a : List Event} (h : Polled d p a s t) (hs : Site s d) :
    Site t d := by
  have hc := h.cfg
  exact ⟨h.resets, h.shaped, by unfold State.HasDev; rw [hc]; exact hs.dev, by rw [hc]; exact hs.reg,
    by rw [hc]; exact hs.apart, by rw [hc]; exact hs.field1, by rw [hc]; exact hs.field2⟩

/-- A low sample of the cancel input. -/
theorem sampleCancel_low {n : Nat} (h : s.noCancel (n + 1)) :
    ∃ cs, sampleCancel s = .ok false { s with cancels := cs } ∧
      (s.cfg.hasCancel = true → s.cancels = false :: cs) ∧ (s.cfg.hasCancel = false → cs = s.cancels) := by
  by_cases hc : s.cfg.hasCancel = true
  · obtain ⟨rest, hr⟩ := h hc
    rw [List.replicate_succ, List.cons_append] at hr
    refine ⟨List.replicate n false ++ rest, ?_, fun _ => hr, fun h => by simp [hc] at h⟩
    simp [sampleCancel, hc, State.nextCancel_cons s hr]
  · exact ⟨s.cancels, by simp [sampleCancel, hc], fun h => absurd h hc, fun _ => rfl⟩

theorem State.noCancel_tail {n : Nat} {cs : List Bool} (h : s.noCancel (n + 1))
    (hc : s.cfg.hasCancel = true → s.cancels = false :: cs) : ({ s with cancels := cs } : State).noCancel n := by
  intro h'
  obtain ⟨rest, hr⟩ := h h'
  have := hc h'
  rw [hr, List.replicate_succ, List.cons_append] at this
  exact ⟨rest, by simpa using this.symm⟩

/-- One poll of the loop, with a low cancel sample and a good reply. -/
theorem pollLoop_good (hs : Site s d) {c1 c2 : Bool} {iv : Word} {n k : Nat} (hc : s.noCancel (k + 1)) {p : List Byte}
    {rest : List (List Byte)} (hr : s.replies = p :: rest) (hp : replyError (s.flen d) p = none) :
    ∃ t, Polled d [p] (transaction d (s.readFrame d s.cfg.latchReg) (s.flen d) p) s t ∧ t.noCancel k ∧
      t.cells d s.cfg.latchReg = decodeCells (s.cfg.fieldsOf s.cfg.latchReg) (rword s.cfg.readDataBytes p) ∧
      pollLoop d c1 c2 iv (n + 1) s =
        if s.cfg.showsLatch c1 c2 p then
          (do
            if n ≠ 0 then emit (.sleep iv)
            pollLoop d c1 c2 iv n : Op Unit) t
        else .ok () (t.setLatch d .latched) := by
  obtain ⟨cs, hsc, hc1, hc2⟩ := sampleCancel_low hc
  obtain ⟨g1, g2, g3, g4, g5, g6, g7, g8, g9, g10, g11, g12, g13⟩ :=
    State.afterPoll_polled (s := { s with cancels := cs }) (d := d) hs.quiet hs.shaped hs.dev hs.reg hs.apart hr
  have hpoll := poll_good (s := { s with cancels := cs }) (d := d) hs.quiet hr hp
  generalize ht : State.afterPoll { s with cancels := cs } d p = t at *
  have hpol : Polled d [p] (transaction d (s.readFrame d s.cfg.latchReg) (s.flen d) p) s t :=
    ⟨g1, g2, g3, g4, g5, g6, g7, by rw [g8, hr]; rfl, fun h => by rw [g9, hc1 h]; rfl, g10, g11, g13⟩
  refine ⟨t, hpol, ?_, g12, ?_⟩
  · intro h
    obtain ⟨r, hr'⟩ := State.noCancel_tail hc hc1 (by rw [g1] at h; exact h)
    exact ⟨r, g9.trans hr'⟩
  · have d1 := State.latchDone_of_cells (s := s) (t := t) g1 g12 hs.field1 c1
    have d2 := State.latchDone_of_cells (s := s) (t := t) g1 g12 hs.field2 c2
    rw [pollLoop]
    simp only [Op.bind_apply, hsc]
    simp only [Bool.false_eq_true, if_false, hpoll, Op.get_apply, Op.bind_apply]
    have hcfg : t.cfg = s.cfg := g1
    rw [hcfg, d1, d2, ← Bool.not_or, ← Config.showsLatch]
    cases s.cfg.showsLatch c1 c2 p <;> rfl

/-- A run of polls each of which shows a requested latch bit, within the budget: the loop goes on with the rest of it. -/
theorem pollLoop_run {c1 c2 : Bool} {iv : Word} (polls : List (List Byte)) :
    ∀ (s : State) (n k : Nat) (rest : List (List Byte)), Site s d → polls.length ≤ n → s.noCancel (polls.length + k) →
      s.replies = polls ++ rest →
      (∀ p ∈ polls, replyError (s.flen d) p = none ∧ s.cfg.showsLatch c1 c2 p = true) →
      ∃ t evs, Polled d polls evs s t ∧ t.noCancel k ∧
        pollLoop d c1 c2 iv n s = pollLoop d c1 c2 iv (n - polls.length) t ∧
        framesSent evs = List.replicate polls.length (s.readFrame d s.cfg.latchReg) ∧
        sleeps evs = List.replicate (if polls.length = n then n - 1 else polls.length) iv ∧ disciplined evs = true := by
  induction polls with
  | nil =>
    intro s n k rest hs hl hc hr hp
    refine ⟨s, [], Polled.refl hs.quiet hs.shaped, by simpa using hc, rfl, rfl, ?_, rfl⟩
    simp only [List.length_nil]
    split <;> simp_all [sleeps]
    omega
  | cons p polls ih =>
    intro s n k rest hs hl hc hr hp
    cases n with
    | zero => simp at hl
    | succ n =>
      simp only [List.length_cons, Nat.add_le_add_iff_right] at hl
      obtain ⟨hp1, hp2⟩ := hp p (by simp)
      have hc' : s.noCancel ((polls.length + k) + 1) := by
        rw [List.length_cons] at hc
        rwa [show polls.length + k + 1 = polls.length + 1 + k by omega]
      obtain ⟨t, ht, hct, -, he⟩ := pollLoop_good (c1 := c1) (c2 := c2) (iv := iv) (n := n) hs hc' hr hp1
      rw [hp2, if_pos rfl] at he
      have hts := ht.site hs
      have hflen := ht.flen hs.apart
      -- the sleep between two polls
      obtain ⟨u, hu, hcu, heu⟩ : ∃ u, Polled d [] (if n ≠ 0 then [.sleep iv] else []) t u ∧
          u.noCancel (polls.length + k) ∧
          (do
            if n ≠ 0 then emit (.sleep iv)
            pollLoop d c1 c2 iv n : Op Unit) t = pollLoop d c1 c2 iv n u := by
        by_cases hn : n = 0
        · exact ⟨t, by simpa [hn] using Polled.refl hts.quiet hts.shaped, hct, by simp [hn]⟩
        · refine ⟨t.record (.sleep iv), ?_, hct, ?_⟩
          · rw [if_pos hn]
            exact ⟨rfl, hts.quiet, hts.shaped, rfl, rfl, rfl, rfl, rfl, fun _ => rfl, fun _ _ => rfl, fun _ _ => rfl, rfl⟩
          · simp [hn, emit_noReset t hts.quiet]
      have htu := ht.trans hu
      have hrf := htu.readFrame hs.apart s.cfg.latchReg
      obtain ⟨v, evs, hv, hcv, hev, h1, h2, h3⟩ := ih u n k rest (htu.site hs) hl hcu
        (by have := htu.replies; rw [hr] at this; simpa using this.symm)
        (fun q hq => by
          rw [htu.flen hs.apart, htu.cfg]
          exact hp q (by simp [hq]))
      refine ⟨v, _, htu.trans hv, hcv, ?_, ?_, ?_, ?_⟩
      · rw [he, heu, hev]
        congr 1
        simp only [List.length_cons]
        omega
      · rw [framesSent_append, framesSent_append, h1, htu.cfg, hrf, framesSent_transaction, List.length_cons,
          List.replicate_succ]
        by_cases hn : n = 0 <;> simp [hn, framesSent]
      · rw [sleeps_append, sleeps_append, h2, sleeps_transaction, List.length_cons]
        by_cases hn : n = 0
        · have : polls.length = 0 := by omega
          simp [hn, this, sleeps]
        · by_cases hl' : polls.length = n
          · simp only [hl', hn, ne_eq, not_false_eq_true, if_true, sleeps, List.nil_append, List.singleton_append]
            rw [← List.replicate_succ]
            congr 1
            omega
          · have h4 : ¬ polls.length + 1 = n + 1 := by omega
            simp only [hl', h4, hn, ne_eq, not_false_eq_true, if_true, if_false, sleeps, List.nil_append,
              List.singleton_append]
            rw [← List.replicate_succ]
      · refine disciplined_append _ _ (disciplined_append _ _ (disciplined_transaction _ _ _ _) ?_) h3
        by_cases hn : n = 0 <;> simp [hn, disciplined]

/-- The spent budget. -/
theorem pollLoop_spent (c1 c2 : Bool) (iv : Word) (s : State) :
    pollLoop d c1 c2 iv 0 s = .error (.err .latchTimeout) (s.setLatch d .timedOut) := rfl

/-- A high sample of the cancel input. -/
theorem pollLoop_cancel {c1 c2 : Bool} {iv : Word} {n : Nat} (hh : s.cfg.hasCancel = true) {cs : List Bool}
    (hc : s.cancels = true :: cs) :
    pollLoop d c1 c2 iv (n + 1) s = .error (.err .cancelled) ({ s with cancels := cs }.setLatch d .idle) := by
  rw [pollLoop]
  simp [sampleCancel, hh, State.nextCancel_cons s hc]

/-- A poll whose reply does not pass its checks. -/
theorem pollLoop_bad (hs : Site s d) {c1 c2 : Bool} {iv : Word} {n k : Nat} (hc : s.noCancel (k + 1)) {p : List Byte}
    {rest : List (List Byte)} (hr : s.replies = p :: rest) {e : Err} (hp : replyError (s.flen d) p = some e) :
    ∃ t : State, pollLoop d c1 c2 iv (n + 1) s = .error (.err e) (t.setLatch d .idle) ∧ t.cfg = s.cfg ∧ t.Shaped ∧
      t.results = s.results ∧ t.pollCount = s.pollCount ∧ t.replies = rest := by
  obtain ⟨cs, hsc, -, -⟩ := sampleCancel_low hc
  have hpoll := poll_bad (s := { s with cancels := cs }) (d := d) hs.quiet hr hp
  have hl : pollLoop d c1 c2 iv (n + 1) s = .error (.err e)
      ((({ s with cancels := cs } : State).afterXfer d (s.readFrame d s.cfg.latchReg) (s.flen d)).setLatch d .idle) := by
    rw [pollLoop]
    simp only [Op.bind_apply, hsc]
    simp only [Bool.false_eq_true, if_false, hpoll, Op.bind_apply]
    rfl
  exact ⟨_, hl, rfl, State.afterXfer_shaped _ _ _ hs.shaped, rfl, rfl,
    congrArg (fun x : List Byte × State => x.2.replies) (State.nextReply_cons { s with cancels := cs } hr)⟩

/-! ### The request -/

/-- The state in which the poll loop of LATCH starts. -/
def State.latchStart (s : State) (d : DevIx) (c1 c2 : Bool) : State :=
  { (((s.withLatchBits d c1 c2).setLatch d .requested).afterWrite d s.cfg.latchReg).setLatch d .polling with
    pollCount := 0 }

theorem requestLatch_apply {c : Bool} {f : FldName} (hf : (s.cfg.field? s.cfg.latchReg f).isSome = true) :
    requestLatch d c f s = .ok () (if c then s.setCell d s.cfg.latchReg f 1 else s) := by
  cases c
  · rfl
  · obtain ⟨x, hx⟩ := Option.isSome_iff_exists.1 hf
    simp [requestLatch, regSetf, hx]

theorem State.withLatchBits_cfg (s : State) (d : DevIx) (c1 c2 : Bool) : (s.withLatchBits d c1 c2).cfg = s.cfg := by
  cases c1 <;> cases c2 <;> rfl

/-- LATCH is its request, then the poll loop. -/
theorem latch_start_of (hn : s.resets = []) (h1 : (s.cfg.field? s.cfg.latchReg s.cfg.latchF1).isSome = true)
    (h2 : (s.cfg.field? s.cfg.latchReg s.cfg.latchF2).isSome = true) (c1 c2 : Bool) (n iv : Word) :
    latch d c1 c2 n iv s = pollLoop d c1 c2 iv n.toNat (s.latchStart d c1 c2) := by
  unfold latch
  simp only [Op.bind_apply, Op.get_apply, requestLatch_apply (d := d) (c := c1) h1]
  rw [requestLatch_apply (by cases c1 <;> exact h2)]
  simp only [Op.modify_apply]
  have hc := State.withLatchBits_cfg s d c1 c2
  have hw : (if c2 = true then (if c1 = true then s.setCell d s.cfg.latchReg s.cfg.latchF1 1 else s).setCell d
      (if c1 = true then s.setCell d s.cfg.latchReg s.cfg.latchF1 1 else s).cfg.latchReg s.cfg.latchF2 1
      else (if c1 = true then s.setCell d s.cfg.latchReg s.cfg.latchF1 1 else s)) = s.withLatchBits d c1 c2 := by
    cases c1 <;> cases c2 <;> rfl
  rw [hw, wrreg_noReset _ _ _ (by cases c1 <;> cases c2 <;> exact hn)]
  rfl

theorem latch_start (hs : Site s d) (c1 c2 : Bool) (n iv : Word) :
    latch d c1 c2 n iv s = pollLoop d c1 c2 iv n.toNat (s.latchStart d c1 c2) :=
  latch_start_of hs.quiet hs.field1 hs.field2 c1 c2 n iv

theorem State.latchStart_rest (s : State) (d : DevIx) (c1 c2 : Bool) :
    (s.latchStart d c1 c2).cfg = s.cfg ∧ (s.latchStart d c1 c2).resets = s.resets ∧
      (s.latchStart d c1 c2).results = s.results ∧ (s.latchStart d c1 c2).devs.length = s.devs.length := by
  cases c1 <;> cases c2 <;>
    exact ⟨rfl, rfl, rfl, by simp [State.latchStart, State.withLatchBits, State.afterWrite, State.afterXfer,
      State.setLatch, State.setCell, State.setCells]⟩

theorem State.withLatchBits_fields (s : State) (d : DevIx) (c1 c2 : Bool) :
    (s.withLatchBits d c1 c2).resets = s.resets ∧ (s.withLatchBits d c1 c2).results = s.results ∧
      (s.withLatchBits d c1 c2).port = s.port ∧ (s.withLatchBits d c1 c2).trace = s.trace ∧
      (s.withLatchBits d c1 c2).replies = s.replies ∧ (s.withLatchBits d c1 c2).draws = s.draws ∧
      (s.withLatchBits d c1 c2).cancels = s.cancels ∧ (s.withLatchBits d c1 c2).seq = s.seq := by
  cases c1 <;> cases c2 <;> exact ⟨rfl, rfl, rfl, rfl, rfl, rfl, rfl, rfl⟩

theorem State.withLatchBits_shaped (hs : s.Shaped) (c1 c2 : Bool) : (s.withLatchBits d c1 c2).Shaped := by
  cases c1 <;> cases c2
  · exact hs
  · exact hs.setCell
  · exact hs.setCell
  · exact hs.setCell.setCell

theorem State.withLatchBits_others (s : State) {d d' : DevIx} (hd : d' ≠ d) (c1 c2 : Bool) :
    (s.withLatchBits d c1 c2).dev d' = s.dev d' := by
  cases c1 <;> cases c2
  · rfl
  · exact State.dev_setCells_other hd
  · exact State.dev_setCells_other hd
  · exact (State.dev_setCells_other hd).trans (State.dev_setCells_other hd)

theorem State.withLatchBits_cells (hr : s.cfg.hasReg s.cfg.latchReg = true) {r : RegName} (hn : r ≠ s.cfg.latchReg)
    (c1 c2 : Bool) : (s.withLatchBits d c1 c2).cells d r = s.cells d r := by
  have h (t : State) (ht : t.cfg = s.cfg) (f : FldName) (v : Word) :
      (t.setCell d s.cfg.latchReg f v).cells d r = t.cells d r :=
    State.cells_setCells_other (by rw [ht]; exact hr) (fun e => hn (Prod.mk.inj e).2)
  cases c1 <;> cases c2
  · rfl
  · exact h s rfl _ _
  · exact h s rfl _ _
  · exact (h (s.setCell d s.cfg.latchReg s.cfg.latchF1 1) rfl _ _).trans (h s rfl _ _)

/-- What the request of LATCH leaves: two write frames sent, its answers dropped, the latch bits in the shadow. -/
theorem State.latchStart_facts (hs : Site s d) (c1 c2 : Bool) :
    Site (s.latchStart d c1 c2) d ∧ (s.latchStart d c1 c2).cfg = s.cfg ∧ (s.latchStart d c1 c2).results = s.results ∧
      (s.latchStart d c1 c2).port = s.port ∧ (s.latchStart d c1 c2).pollCount = 0 ∧
      (∃ evs, (s.latchStart d c1 c2).trace = s.trace ++ evs ∧
        framesSent evs = (s.withLatchBits d c1 c2).writeFrames d s.cfg.latchReg ∧ sleeps evs = [] ∧
        disciplined evs = true) ∧
      (∀ r1 r2 rest, s.replies = r1 :: r2 :: rest → (s.latchStart d c1 c2).replies = rest) ∧
      (s.latchStart d c1 c2).cancels = s.cancels ∧ (∀ d', d' ≠ d → (s.latchStart d c1 c2).dev d' = s.dev d') ∧
      (∀ r, (s.latchStart d c1 c2).cells d r = (s.withLatchBits d c1 c2).cells d r) ∧
      (∀ r, r ≠ s.cfg.latchReg → (s.latchStart d c1 c2).cells d r = s.cells d r) ∧
      (s.latchStart d c1 c2).flen d = s.flen d := by
  obtain ⟨w1, w2, w3, w4, w5, w6, w7, w8⟩ := State.withLatchBits_fields s d c1 c2
  have wc := State.withLatchBits_cfg s d c1 c2
  have ws := State.withLatchBits_shaped (d := d) hs.shaped c1 c2
  have hcells : ∀ r, (s.latchStart d c1 c2).cells d r = (s.withLatchBits d c1 c2).cells d r := by
    intro r
    refine (State.cells_modDev (g := fun v => { v with latch := .polling }) fun _ => rfl).trans ?_
    refine (State.afterWrite_cells _ _ _ _ _).trans ?_
    exact State.cells_modDev (g := fun v => { v with latch := .requested }) fun _ => rfl
  have hother : ∀ r, r ≠ s.cfg.latchReg → (s.latchStart d c1 c2).cells d r = s.cells d r :=
    fun r hr => (hcells r).trans (State.withLatchBits_cells hs.reg hr c1 c2)
  have hcfg : (s.latchStart d c1 c2).cfg = s.cfg := wc
  have hshape : (s.latchStart d c1 c2).Shaped := by
    have h1 : ((s.withLatchBits d c1 c2).setLatch d .requested).Shaped := ws.modDev fun _ hv => hv
    have h2 := State.afterWrite_shaped d s.cfg.latchReg h1
    exact (show (((s.withLatchBits d c1 c2).setLatch d .requested).afterWrite d s.cfg.latchReg).Shaped from h2).modDev
      (g := fun v => { v with latch := .polling }) fun _ hv => hv
  refine ⟨⟨w1.trans hs.quiet, hshape, ?_, ?_, ?_, ?_, ?_⟩, hcfg, w2, w3, rfl, ?_, ?_, w7, ?_, hcells, hother,
    (State.flen_of_cells hcfg (hother _ hs.apart.symm)).1⟩
  · unfold State.HasDev; rw [hcfg]; exact hs.dev
  · rw [hcfg]; exact hs.reg
  · rw [hcfg]; exact hs.apart
  · rw [hcfg]; exact hs.field1
  · rw [hcfg]; exact hs.field2
  · obtain ⟨x, y, h⟩ := State.afterWrite_trace ((s.withLatchBits d c1 c2).setLatch d .requested) d s.cfg.latchReg
    have hl : ∀ r, ((s.withLatchBits d c1 c2).setLatch d .requested).cells d r = (s.withLatchBits d c1 c2).cells d r :=
      fun r => State.cells_modDev (g := fun v => { v with latch := .requested }) fun _ => rfl
    rw [State.writeFrames_of_cells (s := s.withLatchBits d c1 c2)
      (t := (s.withLatchBits d c1 c2).setLatch d .requested) rfl (hl _) (hl _)] at h
    refine ⟨_, (show (s.latchStart d c1 c2).trace = _ from h).trans (by rw [State.setLatch_trace, w4]), ?_, ?_, ?_⟩
    · simp [framesSent_append, State.writeFrames]
    · simp [sleeps_append]
    · exact disciplined_append _ _ (disciplined_transaction _ _ _ _) (disciplined_transaction _ _ _ _)
  · intro r1 r2 rest hr
    exact (State.afterWrite_replies ((s.withLatchBits d c1 c2).setLatch d .requested) d s.cfg.latchReg
      (w5.trans hr)).1
  · intro d' hd'
    refine (State.dev_modDev_other _ _ _ _ hd').trans ?_
    refine (State.afterWrite_dev_other _ _ _ _ hd').trans ?_
    refine (State.dev_modDev_other _ _ _ _ hd').trans ?_
    exact State.withLatchBits_others s hd' c1 c2

/-! ### Every end -/

theorem replyError_cases {n : Nat} {reply : List Byte} {e : Err} (h : replyError n reply = some e) :
    e = .shortReply ∨ e = .crcMismatch := by
  unfold replyError at h
  split at h
  · exact .inl (Option.some.inj h).symm
  · split at h
    · exact .inr (Option.some.inj h).symm
    · cases h

/-- A poll ends well or with the error of its reply. -/
theorem poll_cases (hn : s.resets = []) :
    poll d s = .ok () (s.afterPoll d s.nextReply.1) ∨
    ∃ e, (e = .shortReply ∨ e = .crcMismatch) ∧
      poll d s =
        .error (.err e) ((s.afterXfer d (s.readFrame d s.cfg.latchReg) (s.flen d)).setLatch d .idle) := by
  unfold poll
  simp only [Op.bind_apply, Op.get_apply, onRaise_apply, rdreg_noReset s d _ hn]
  cases h : replyError (s.flen d) s.nextReply.1 with
  | none => exact .inl rfl
  | some e => exact .inr ⟨e, replyError_cases h, rfl⟩

theorem State.setLatch_latch (h : d.toNat < s.devs.length) (l : LatchState) : ((s.setLatch d l).dev d).latch = l := by
  rw [show (s.setLatch d l).dev d = _ from s.dev_modDev_same d _ h]

/-- What the poll loop can end with (R120, R121 (4)): the latch state tells it. -/
theorem pollLoop_outcome {c1 c2 : Bool} {iv : Word} (n : Nat) :
    ∀ s : State, s.resets = [] → d.toNat < s.devs.length →
      (∃ t : State, pollLoop d c1 c2 iv n s = .ok () t ∧ t.results = s.results ∧ (t.dev d).latch = .latched) ∨
      (∃ t : State, pollLoop d c1 c2 iv n s = .error (.err .latchTimeout) t ∧ t.results = s.results ∧
        (t.dev d).latch = .timedOut) ∨
      (∃ (e : Err) (t : State), (e = .shortReply ∨ e = .crcMismatch ∨ e = .cancelled ∧ s.cfg.hasCancel = true) ∧
        pollLoop d c1 c2 iv n s = .error (.err e) t ∧ t.results = s.results ∧ (t.dev d).latch = .idle) := by
  induction n with
  | zero => exact fun s _ hd => .inr (.inl ⟨_, rfl, rfl, State.setLatch_latch (s := s) hd _⟩)
  | succ n ih =>
    intro s hn hd
    obtain ⟨b, t, hb, ht1, ht2, ht3, ht4, ht5⟩ : ∃ b t, sampleCancel s = .ok b t ∧ t.cfg = s.cfg ∧ t.resets = [] ∧
        t.results = s.results ∧ d.toNat < t.devs.length ∧ (b = true → s.cfg.hasCancel = true) := by
      by_cases h : s.cfg.hasCancel = true
      · exact ⟨_, _, by simp only [sampleCancel, h]; rfl, by simp, by simp [hn], by simp, by simpa using hd, fun _ => h⟩
      · exact ⟨false, s, by simp [sampleCancel, h], rfl, hn, rfl, hd, fun e => by cases e⟩
    rw [pollLoop]
    simp only [Op.bind_apply, hb]
    cases b with
    | true =>
      exact .inr (.inr ⟨.cancelled, _, .inr (.inr ⟨rfl, ht5 rfl⟩), rfl, ht3, State.setLatch_latch (s := t) ht4 _⟩)
    | false =>
      simp only [Bool.false_eq_true, if_false, Op.bind_apply]
      rcases poll_cases (d := d) ht2 with hp | ⟨e, he, hp⟩
      · rw [hp]
        simp only [Op.get_apply]
        have hq1 : (t.afterPoll d t.nextReply.1).cfg = s.cfg := by simp [State.afterPoll, ht1]
        have hq2 : (t.afterPoll d t.nextReply.1).resets = [] := by simp [State.afterPoll, ht2]
        have hq3 : (t.afterPoll d t.nextReply.1).results = s.results := by simp [State.afterPoll, ht3]
        have hq4 : d.toNat < (t.afterPoll d t.nextReply.1).devs.length := by
          have : (t.afterPoll d t.nextReply.1).devs.length = t.devs.length := by
            simp only [State.afterPoll, State.afterReply, State.afterDrift]
            split <;> simp [State.decodeReg, State.setCells, State.afterXfer, State.setWarn]
          omega
        generalize t.afterPoll d t.nextReply.1 = q at hq1 hq2 hq3 hq4
        split
        · exact .inl ⟨_, rfl, hq3, State.setLatch_latch (s := q) hq4 _⟩
        · by_cases hz : n = 0
          · simp only [hz, ne_eq, not_true_eq_false, if_false]
            rw [← hz]
            have := ih q hq2 hq4
            rw [hq1, hq3] at this
            exact this
          · simp only [hz, ne_eq, not_false_eq_true, if_true, Op.bind_apply, emit_noReset q hq2]
            have := ih (q.record (.sleep iv)) hq2 hq4
            rw [State.record_cfg, State.record_results, hq1, hq3] at this
            exact this
      · rw [hp]
        refine .inr (.inr ⟨e, _, ?_, rfl, ht3, State.setLatch_latch (by simpa [State.afterXfer] using ht4) _⟩)
        rcases he with rfl | rfl
        · exact .inl rfl
        · exact .inr (.inl rfl)

end

end Sys2Proof.Machine
end

