-- ==== Sys2Proof/Laws/Facade.lean ====
section
/-! SUPPORT. Reading and writing a list of registers against a scripted device side, while the reset input is quiet: what
CFGREAD and CFGAPPLY are made of (spec/45_facade.md R150, R152, R153). -/

namespace Sys2Proof.Machine

/-! ### Reading registers one after another -/

/-- From `s` to `t` by reads of registers of device `d`, each answered well, the events being `evs` and the registers with
the answers taken `pairs`: what such a run changes, and what it leaves. -/
structure ReadBack (d : DevIx) (pairs : List (RegName × List Byte)) (evs : List Event) (s t : State) : Prop where
  cfg : t.cfg = s.cfg
  resets : t.resets = []
  shaped : t.Shaped
  results : t.results = s.results
  port : t.port = s.port
  trace : t.trace = s.trace ++ evs
  frames : framesSent evs = s.cfg.readFrames (s.flen d) pairs
  flen : t.flen d = s.cfg.lengthAfter (s.flen d) pairs
  replies : s.replies = pairs.map Prod.snd ++ t.replies
  others : ∀ d', d' ≠ d → t.dev d' = s.dev d'
  cells : ∀ r, r ∉ pairs.map Prod.fst → t.cells d r = s.cells d r
  read : ∀ p ∈ pairs, (pairs.map Prod.fst).Nodup →
    t.cells d p.1 = decodeCells (s.cfg.fieldsOf p.1) (rword s.cfg.readDataBytes p.2)
  latch : (t.dev d).latch = (s.dev d).latch
  intended : (t.dev d).crcIntended = (s.dev d).crcIntended

section
variable {s t u : State} {d : DevIx} {r : RegName} {reply : List Byte} {rest : List (List Byte)}
  {ps qs : List (RegName × List Byte)} {a b : List Event}

theorem Config.readFrames_append (c : Config) (n : Nat) (ps qs : List (RegName × List Byte)) :
    c.readFrames n (ps ++ qs) = c.readFrames n ps ++ c.readFrames (c.lengthAfter n ps) qs := by
  induction ps generalizing n with
  | nil => rfl
  | cons p ps ih => simp only [List.cons_append, Config.readFrames, ih]; rfl

theorem Config.lengthAfter_append (c : Config) (n : Nat) (ps qs : List (RegName × List Byte)) :
    c.lengthAfter n (ps ++ qs) = c.lengthAfter (c.lengthAfter n ps) qs := by
  induction ps generalizing n with
  | nil => rfl
  | cons p ps ih => simp only [List.cons_append, Config.lengthAfter, ih]

theorem ReadBack.refl (h1 : s.resets = []) (h2 : s.Shaped) : ReadBack d [] [] s s :=
  ⟨rfl, h1, h2, rfl, rfl, by simp, rfl, rfl, by simp, fun _ _ => rfl, fun _ _ => rfl, by simp, rfl, rfl⟩

theorem ReadBack.trans (h1 : ReadBack d ps a s t) (h2 : ReadBack d qs b t u) : ReadBack d (ps ++ qs) (a ++ b) s u where
  cfg := h2.cfg.trans h1.cfg
  resets := h2.resets
  shaped := h2.shaped
  results := h2.results.trans h1.results
  port := h2.port.trans h1.port
  trace := by rw [h2.trace, h1.trace, List.append_assoc]
  frames := by rw [framesSent_append, h1.frames, h2.frames, h1.cfg, h1.flen, Config.readFrames_append]
  flen := by rw [h2.flen, h1.flen, h1.cfg, Config.lengthAfter_append]
  replies := by rw [h1.replies, h2.replies, List.map_append, List.append_assoc]
  others := fun d' hd => (h2.others d' hd).trans (h1.others d' hd)
  cells := fun r hr => by
    rw [List.map_append, List.mem_append, not_or] at hr
    exact (h2.cells r hr.2).trans (h1.cells r hr.1)
  read := fun p hp hn => by
    rw [List.map_append, List.nodup_append] at hn
    rcases List.mem_append.1 hp with hp | hp
    · rw [h2.cells p.1 fun hq => hn.2.2 _ (List.mem_map_of_mem hp) _ hq rfl]
      exact h1.read p hp hn.1
    · rw [← h1.cfg]; exact h2.read p hp hn.2.1
  latch := h2.latch.trans h1.latch
  intended := h2.intended.trans h1.intended

/-- The state after RDREG of a register, answered well. -/
def State.afterRead (s : State) (d : DevIx) (r : RegName) (reply : List Byte) : State :=
  (s.afterXfer d (s.readFrame d r) (s.flen d)).afterReply d r reply

/-- A register just read decides the framing when it is `UART_REG`, and no other register does (R110, R113). -/
theorem State.afterReply_lengthAfter (ha : s.cfg.admitted = true) (hs : s.Shaped) (hd : s.HasDev d)
    (hr : s.cfg.hasReg r = true) : (s.afterReply d r reply).flen d = s.cfg.lengthAfter (s.flen d) [(r, reply)] := by
  by_cases hu : r = s.cfg.uartReg
  · obtain ⟨fd, hf⟩ := Option.isSome_iff_exists.1 (Config.hasField_isSome (Config.uart_field ha))
    have hc : (s.afterReply d r reply).getCell d s.cfg.uartReg s.cfg.crcEnF =
        bfDecode fd.bits (rword s.cfg.readDataBytes reply) := by
      rw [State.getCell_eq, State.afterReply_cfg, ← hu, State.afterReply_cells reply hs hd hr]
      rw [← hu] at hf
      simp [List.getD_eq_getElem?_getD, decodeCells, Config.getElem_fldIx hf]
    unfold State.flen State.crcOn
    rw [State.afterReply_cfg, hc]
    simp [Config.lengthAfter, hu, hf]
  · rw [State.afterReply_flen reply hr hu]
    simp [Config.lengthAfter, hu]

/-- One read answered well is a run of one. -/
theorem State.afterRead_readBack (hn : s.resets = []) (ha : s.cfg.admitted = true) (hs : s.Shaped) (hd : s.HasDev d)
    (hr : s.cfg.hasReg r = true) (hp : s.replies = reply :: rest) :
    ∃ evs, ReadBack d [(r, reply)] evs s (s.afterRead d r reply) ∧ (s.afterRead d r reply).replies = rest := by
  have hnr := State.nextReply_cons s hp
  have hsx := State.afterXfer_shaped (s := s) d (s.readFrame d r) (s.flen d) hs
  have hfl := State.afterXfer_flen s d d (s.readFrame d r) (s.flen d)
  have hdev : ∀ d', (s.afterXfer d (s.readFrame d r) (s.flen d)).dev d' = (s.setCsN d true).dev d' := fun _ => rfl
  have hxc : ∀ r', (s.afterXfer d (s.readFrame d r) (s.flen d)).cells d r' = s.cells d r' :=
    fun r' => State.afterXfer_cells s d d r' (s.readFrame d r) (s.flen d)
  have htr : (s.afterXfer d (s.readFrame d r) (s.flen d)).trace =
      s.trace ++ transaction d (s.readFrame d r) (s.flen d) reply := by rw [State.afterXfer_trace, hnr]
  have hxr : (s.afterXfer d (s.readFrame d r) (s.flen d)).replies = rest := by rw [State.afterXfer_replies, hnr]
  have hcfg : (s.afterXfer d (s.readFrame d r) (s.flen d)).cfg = s.cfg := rfl
  have hres : (s.afterXfer d (s.readFrame d r) (s.flen d)).resets = [] := hn
  have hrs : (s.afterXfer d (s.readFrame d r) (s.flen d)).results = s.results := rfl
  have hpt : (s.afterXfer d (s.readFrame d r) (s.flen d)).port = s.port := rfl
  unfold State.afterRead
  generalize s.afterXfer d (s.readFrame d r) (s.flen d) = x at *
  have hdx : x.HasDev d := by unfold State.HasDev; rw [hcfg]; exact hd
  have hrx : x.cfg.hasReg r = true := hcfg ▸ hr
  have hlt : d.toNat < (x.decodeReg d r (rword x.cfg.readDataBytes reply)).devs.length := by
    simpa [State.decodeReg, State.setCells] using hsx.lt hdx
  have hrest := State.dev_setCells_rest x d d r (decodeCells (x.cfg.fieldsOf r) (rword x.cfg.readDataBytes reply))
  have hself : (s.setCsN d true).dev d = { s.dev d with csN := true } := s.dev_modDev_same d _ (hs.lt hd)
  refine ⟨transaction d (s.readFrame d r) (s.flen d) reply ++
    (if (x.decodeReg d r (rword x.cfg.readDataBytes reply)).drifted d r then [.warn .crcDrift d] else []),
    ⟨by simp [hcfg], by simp [hres], State.afterReply_shaped reply hsx, by simp [hrs], by simp [hpt],
    ?_, ?_, ?_, ?_, fun d' hd' => ?_, fun r' hr' => ?_, ?_, ?_, ?_⟩, by simp [hxr]⟩
  · rw [State.afterReply, State.afterDrift_trace, State.decodeReg, State.setCells_trace, htr, List.append_assoc]
  · rw [framesSent_append, framesSent_transaction]
    split <;> rfl
  · rw [State.afterReply_lengthAfter (hcfg ▸ ha) hsx hdx hrx, hfl, hcfg]
  · simp [hp, hxr]
  · rw [State.afterReply_dev_other reply hd', hdev]
    exact s.dev_modDev_other d d' _ hd'
  · rw [State.afterReply_cells_other reply hrx fun e => hr' (by simp [(Prod.mk.inj e).2]), hxc]
  · intro p hp _
    rw [List.mem_singleton.1 hp]
    rw [State.afterReply_cells reply hsx hdx hrx, hcfg]
  · rw [State.afterReply, State.afterDrift_dev _ _ _ hlt]
    exact hrest.2.2.1.trans (by rw [hdev, hself])
  · rw [State.afterReply, State.afterDrift_dev _ _ _ hlt]
    exact hrest.1.trans (by rw [hdev, hself])

/-- RDREG answered well. -/
theorem rdreg_good (hn : s.resets = []) (hp : s.replies = reply :: rest) (hg : replyError (s.flen d) reply = none) :
    rdreg d r s = .ok () (s.afterRead d r reply) := by
  rw [rdreg_noReset s d r hn, State.nextReply_cons s hp, hg]
  rfl

/-- RDREG answered badly. -/
theorem rdreg_bad (hn : s.resets = []) (hp : s.replies = reply :: rest) {e : Err}
    (hg : replyError (s.flen d) reply = some e) :
    rdreg d r s = .error (.err e) (s.afterXfer d (s.readFrame d r) (s.flen d)) := by
  rw [rdreg_noReset s d r hn, State.nextReply_cons s hp, hg]

/-- A run of good answers reads the registers before any others. -/
theorem readAll_run (rs : List RegName) : ∀ {s : State}, s.resets = [] → s.cfg.admitted = true → s.Shaped → s.HasDev d →
    (∀ p ∈ ps, s.cfg.hasReg p.1 = true) → s.cfg.readsWell (s.flen d) ps = true → s.replies = ps.map Prod.snd ++ rest →
    ∃ t evs, readAll d (ps.map Prod.fst ++ rs) s = readAll d rs t ∧ ReadBack d ps evs s t ∧ t.replies = rest := by
  induction ps with
  | nil => exact fun hn _ hs _ _ _ hp => ⟨_, [], rfl, ReadBack.refl hn hs, hp⟩
  | cons p ps ih =>
    intro s hn ha hs hd hr hw hp
    simp only [Config.readsWell, Bool.and_eq_true, Option.isNone_iff_eq_none] at hw
    obtain ⟨evs, h1, h1r⟩ := State.afterRead_readBack (reply := p.2) hn ha hs hd (hr p (.head _)) hp
    have hd1 : (s.afterRead d p.1 p.2).HasDev d := by unfold State.HasDev; rw [h1.cfg]; exact hd
    obtain ⟨t, evs', ht, h2, h2r⟩ := ih (s := s.afterRead d p.1 p.2) h1.resets (h1.cfg ▸ ha) h1.shaped hd1
      (by rw [h1.cfg]; exact fun q hq => hr q (.tail _ hq)) (by rw [h1.flen, h1.cfg]; exact hw.2) h1r
    refine ⟨t, evs ++ evs', ?_, h1.trans h2, h2r⟩
    rw [List.map_cons, List.cons_append, readAll, Op.bind_apply, rdreg_good hn hp hw.1]
    exact ht

/-- A bad answer ends the reads there, with the transaction made and nothing else changed. -/
theorem readAll_bad (rs : List RegName) (hn : s.resets = []) (hp : s.replies = reply :: rest) {e : Err}
    (hg : replyError (s.flen d) reply = some e) :
    readAll d (r :: rs) s = .error (.err e) (s.afterXfer d (s.readFrame d r) (s.flen d)) := by
  rw [readAll, Op.bind_apply, rdreg_bad hn hp hg]

/-! ### Writing registers one after another -/

/-- The state after WRREG of each register of a list. -/
def State.afterWrites (s : State) (d : DevIx) : List RegName → State
  | [] => s
  | r :: rs => (s.afterWrite d r).afterWrites d rs

/-- What the writes change, and what they leave: no shadow register, and so no word and no frame length, changes. -/
theorem State.afterWrites_facts (rs : List RegName) : ∀ {s : State} {ws : List (List Byte)}, s.Shaped → s.HasDev d →
    ws.length = 2 * rs.length → s.replies = ws ++ rest →
    let t := s.afterWrites d rs
    (∃ evs, t.trace = s.trace ++ evs ∧ framesSent evs = rs.flatMap (s.writeFrames d)) ∧ t.replies = rest ∧
      t.cfg = s.cfg ∧ t.resets = s.resets ∧ t.Shaped ∧ t.results = s.results ∧ (∀ r, t.cells d r = s.cells d r) ∧
      (∀ d', d' ≠ d → t.dev d' = s.dev d') ∧ (t.dev d).latch = (s.dev d).latch ∧
      (t.dev d).crcIntended = (s.dev d).crcIntended := by
  induction rs with
  | nil =>
    intro s ws hs _ hl hp
    cases ws with
    | nil => exact ⟨⟨[], by simp [State.afterWrites], rfl⟩, hp, rfl, rfl, hs, rfl, fun _ => rfl, fun _ _ => rfl, rfl, rfl⟩
    | cons w ws => simp at hl
  | cons r rs ih =>
    intro s ws hs hd hl hp
    obtain ⟨w1, w2, ws, rfl⟩ : ∃ w1 w2 ws', ws = w1 :: w2 :: ws' := by
      match ws, hl with
      | w1 :: w2 :: ws', _ => exact ⟨w1, w2, ws', rfl⟩
    have hl' : ws.length = 2 * rs.length := by simp at hl; omega
    obtain ⟨x, y, htr⟩ := State.afterWrite_trace s d r
    obtain ⟨⟨evs, h1, h2⟩, h3, h4, h5, h6, h7, h8, h9, h10, h11⟩ :=
      ih (s := s.afterWrite d r) (State.afterWrite_shaped d r hs) hd hl' (State.afterWrite_replies s d r hp).1
    have hdv := State.afterWrite_dev s d r (hs.lt hd)
    refine ⟨⟨_, by rw [State.afterWrites, h1, htr, List.append_assoc], ?_⟩, h3, h4, h5, h6, h7, fun r' => ?_,
      fun d' hd' => (h9 d' hd').trans (State.afterWrite_dev_other s d d' r hd'), h10.trans (by rw [hdv]),
      h11.trans (by rw [hdv])⟩
    · have hw : (s.afterWrite d r).writeFrames d = s.writeFrames d := by
        funext r'
        exact State.writeFrames_of_cells rfl (by simp) (by simp)
      rw [framesSent_append, framesSent_append, h2, hw]
      rfl
    · rw [State.afterWrites, h8, State.afterWrite_cells]

/-- WRREG of each register never raises, and answers with the words written. -/
theorem writeAll_noReset (rs : List RegName) : ∀ {s : State}, s.resets = [] →
    writeAll d rs s = .ok (rs.map fun r => (r, s.encodeReg d r)) (s.afterWrites d rs) := by
  induction rs with
  | nil => exact fun _ => rfl
  | cons r rs ih =>
    intro s hn
    simp only [writeAll, Op.bind_apply, Op.get_apply, wrreg_noReset s d r hn, ih (s := s.afterWrite d r) hn,
      State.afterWrite_encodeReg]
    rfl

end

end Sys2Proof.Machine
end

