-- ==== Sys2Proof/Laws/Reset.lean ====
section
/-! SUPPORT. Reset inside an operation (spec/70_reset_and_hazards.md R190, R191), said once for every body of events: a body
that would emit the events `evs` undisturbed is cut short after the first `k` of them when reset is due at its moment `k`,
and runs undisturbed when reset is due later. -/

namespace Sys2Proof.Machine

/-- The state in which the reset input is to be applied after `k` more moments, and then as `rest` says. -/
def State.due (s : State) (k : Nat) (rest : List Nat) : State := { s with resets := k :: rest }

/-- How a body ends that reset does not cut short. -/
def ending {α : Type} (r : Except Err α) (t : State) : EStateM.Result Stop State α :=
  match r with
  | .ok a => .ok a t
  | .error e => .error (.err e) t

/-- From a state in which no reset is to come the body emits some events and ends. With reset due after as many moments as
there are events, or later, it ends the same and reset is due that much earlier; with reset due sooner it has emitted that
many of them when it is cut short. -/
def Op.Counts {α : Type} (m : Op α) (s : State) : Prop :=
  s.resets = [] → ∃ r t evs, m s = ending r t ∧ t.resets = [] ∧ t.trace = s.trace ++ evs ∧ t.cfg = s.cfg ∧
    t.results = s.results ∧ t.port = s.port ∧ ∀ rest,
      (∀ k, m (s.due (evs.length + k) rest) = ending r (t.due k rest)) ∧
      (∀ k, k < evs.length → ∃ u, m (s.due k rest) = .error .reset u ∧ u.resets = 0 :: rest ∧ u.cfg = s.cfg ∧
        u.results = s.results ∧ u.port = s.port ∧ u.trace = s.trace ++ evs.take k)

section
variable {α β : Type} {s : State} {d : DevIx}

/-! ### The parts of a program -/

/-- A body that emits nothing and does not look at the reset input. -/
theorem counts_silent {m : Op α} {r : Except Err α} {t : State} (h : ∀ l, m { s with resets := l } = ending r { t with resets := l })
    (h1 : t.trace = s.trace) (h2 : t.cfg = s.cfg) (h3 : t.results = s.results) (h4 : t.port = s.port) : m.Counts s := by
  intro hs
  refine ⟨r, { t with resets := [] }, [], ?_, rfl, by simpa using h1, h2, h3, h4, fun rest => ⟨fun k => ?_, by simp⟩⟩
  · have := h []
    rwa [show ({ s with resets := [] } : State) = s by rw [← hs]] at this
  · simpa [State.due] using h (k :: rest)

theorem counts_pure (a : α) : (pure a : Op α).Counts s := counts_silent (r := .ok a) (t := s) (fun _ => rfl) rfl rfl rfl rfl

theorem counts_raise (e : Err) : (raise e : Op α).Counts s :=
  counts_silent (r := .error e) (t := s) (fun _ => rfl) rfl rfl rfl rfl

theorem counts_modify {f : State → State} (h : ∀ l, f { s with resets := l } = { f s with resets := l })
    (h1 : (f s).trace = s.trace) (h2 : (f s).cfg = s.cfg) (h3 : (f s).results = s.results) (h4 : (f s).port = s.port) :
    (modify f : Op Unit).Counts s :=
  counts_silent (r := .ok ()) (t := f s) (fun l => by rw [Op.modify_apply, h]; rfl) h1 h2 h3 h4

theorem counts_get_bind {f : State → Op β} (h : ∀ l, f { s with resets := l } = f s) (hc : (f s).Counts s) :
    ((get : Op State) >>= f).Counts s := by
  intro hs
  obtain ⟨r, t, evs, h1, h2, h3, h4, h5, h6, h7⟩ := hc hs
  refine ⟨r, t, evs, h1, h2, h3, h4, h5, h6, fun rest => ⟨fun k => ?_, fun k hk => ?_⟩⟩
  · rw [Op.bind_apply, Op.get_apply]
    exact (congrFun (h _) _).trans ((h7 rest).1 k)
  · obtain ⟨u, hu, hu'⟩ := (h7 rest).2 k hk
    refine ⟨u, ?_, hu'⟩
    rw [Op.bind_apply, Op.get_apply]
    exact (congrFun (h _) _).trans hu

theorem counts_bind {m : Op α} {f : α → Op β} (hm : m.Counts s) (hf : ∀ a t, t.cfg = s.cfg → (f a).Counts t) :
    (m >>= f).Counts s := by
  intro hs
  obtain ⟨r, t, evs, h1, h2, h3, h4, h5, h6, h7⟩ := hm hs
  cases r with
  | error e =>
    refine ⟨.error e, t, evs, by rw [Op.bind_apply, h1]; rfl, h2, h3, h4, h5, h6, fun rest => ⟨fun k => ?_, fun k hk => ?_⟩⟩
    · rw [Op.bind_apply, (h7 rest).1 k]; rfl
    · obtain ⟨u, hu, hu'⟩ := (h7 rest).2 k hk
      exact ⟨u, by rw [Op.bind_apply, hu], hu'⟩
  | ok a =>
    obtain ⟨r', t', evs', g1, g2, g3, g4, g5, g6, g7⟩ := hf a t h4 h2
    refine ⟨r', t', evs ++ evs', ?_, g2, by rw [g3, h3, List.append_assoc], g4.trans h4, g5.trans h5, g6.trans h6,
      fun rest => ⟨fun k => ?_, fun k hk => ?_⟩⟩
    · rw [Op.bind_apply, h1]; exact g1
    · rw [Op.bind_apply, List.length_append, Nat.add_assoc, (h7 rest).1]
      exact (g7 rest).1 k
    · by_cases hk' : k < evs.length
      · obtain ⟨u, hu, u1, u2, u3, u4, u5⟩ := (h7 rest).2 k hk'
        refine ⟨u, by rw [Op.bind_apply, hu], u1, u2, u3, u4, ?_⟩
        rw [u5, List.take_append_of_le_length (by omega)]
      · obtain ⟨j, rfl⟩ : ∃ j, k = evs.length + j := ⟨k - evs.length, by omega⟩
        rw [List.length_append] at hk
        obtain ⟨u, hu, u1, u2, u3, u4, u5⟩ := (g7 rest).2 j (by omega)
        refine ⟨u, ?_, u1, u2.trans h4, u3.trans h5, u4.trans h6, ?_⟩
        · rw [Op.bind_apply, (h7 rest).1]; exact hu
        · rw [u5, h3, List.take_length_add_append, List.append_assoc]

theorem counts_ite {q : Prop} [Decidable q] {a b : Op α} (ha : a.Counts s) (hb : b.Counts s) :
    (if q then a else b).Counts s := by split <;> assumption

theorem counts_onRaise {m : Op α} {f : State → State} (hm : m.Counts s)
    (h : ∀ t l, f { t with resets := l } = { f t with resets := l }) (h1 : ∀ t, (f t).trace = t.trace)
    (h2 : ∀ t, (f t).cfg = t.cfg) (h3 : ∀ t, (f t).results = t.results) (h4 : ∀ t, (f t).port = t.port)
    (h5 : ∀ t, (f t).resets = t.resets) : (onRaise m f).Counts s := by
  intro hs
  obtain ⟨r, t, evs, g1, g2, g3, g4, g5, g6, g7⟩ := hm hs
  cases r with
  | ok a =>
    refine ⟨.ok a, t, evs, by rw [onRaise_apply, g1]; rfl, g2, g3, g4, g5, g6, fun rest => ⟨fun k => ?_, fun k hk => ?_⟩⟩
    · rw [onRaise_apply, (g7 rest).1]; rfl
    · obtain ⟨u, hu, hu'⟩ := (g7 rest).2 k hk
      exact ⟨u, by rw [onRaise_apply, hu], hu'⟩
  | error e =>
    refine ⟨.error e, f t, evs, by rw [onRaise_apply, g1]; rfl, (h5 t).trans g2, (h1 t).trans g3, (h2 t).trans g4,
      (h3 t).trans g5, (h4 t).trans g6, fun rest => ⟨fun k => ?_, fun k hk => ?_⟩⟩
    · rw [onRaise_apply, (g7 rest).1]
      exact congrArg (EStateM.Result.error (Stop.err e)) (h t _)
    · obtain ⟨u, hu, hu'⟩ := (g7 rest).2 k hk
      exact ⟨u, by rw [onRaise_apply, hu], hu'⟩

/-- An event is one moment. -/
theorem counts_emit (e : Event) : (emit e).Counts s := by
  intro hs
  refine ⟨.ok (), s.record e, [e], emit_noReset s hs e, hs, rfl, rfl, rfl, rfl, fun rest => ⟨fun k => ?_, fun k hk => ?_⟩⟩
  · rw [show [e].length + k = k + 1 by simp [Nat.add_comm]]
    rfl
  · have : k = 0 := by simpa using hk
    subst this
    exact ⟨s.due 0 rest, rfl, rfl, rfl, rfl, rfl, by simp [State.due]⟩

/-- An answer is one moment: cut short, it takes no answer. -/
theorem counts_rx (n : Nat) : (rx n).Counts s := by
  intro hs
  refine ⟨.ok s.nextReply.1, s.nextReply.2.record (.rx n fillByte s.nextReply.1), [.rx n fillByte s.nextReply.1],
    rx_noReset s hs n, by simpa using hs, by simp, by simp, by simp, by simp, fun rest => ⟨fun k => ?_, fun k hk => ?_⟩⟩
  · rw [show [Event.rx n fillByte s.nextReply.1].length + k = k + 1 by simp [Nat.add_comm]]
    have h : (s.due (k + 1) rest).nextReply = (s.nextReply.1, s.nextReply.2.due (k + 1) rest) := by
      unfold State.due State.nextReply
      cases s
      simp only
      split <;> rfl
    have h0 : (s.due (k + 1) rest).resetNow = false := rfl
    unfold rx
    rw [h0, h]
    rfl
  · have : k = 0 := by simpa using hk
    subst this
    exact ⟨s.due 0 rest, rfl, rfl, rfl, rfl, rfl, by simp [State.due]⟩

/-! ### The framer -/

theorem counts_drive (b : Bool) : (drive d b).Counts s :=
  counts_bind (counts_emit _) fun _ _ _ => counts_modify (fun _ => rfl) rfl rfl rfl rfl

theorem counts_xfer (cmd : List Byte) (n : Nat) : (xfer d cmd n).Counts s :=
  counts_bind (counts_drive _) fun _ _ _ =>
    counts_bind (counts_emit _) fun _ _ _ =>
      counts_bind (counts_drive _) fun _ _ _ =>
        counts_bind (counts_drive _) fun _ _ _ =>
          counts_bind (counts_rx n) fun _ _ _ => counts_bind (counts_drive _) fun _ _ _ => counts_pure _

theorem counts_checkReply (n : Nat) (reply : List Byte) : (checkReply n reply).Counts s := by
  unfold checkReply
  split
  · exact counts_raise _
  · exact counts_pure _

theorem counts_checkDrift (r : RegName) : (checkDrift d r).Counts s :=
  counts_get_bind (fun _ => rfl)
    (counts_ite (counts_bind (counts_modify (fun _ => rfl) rfl rfl rfl rfl) fun _ _ _ => counts_emit _) (counts_pure _))

theorem counts_regDecode (r : RegName) (w : Word) : (regDecode d r w).Counts s :=
  counts_modify (fun _ => rfl) rfl rfl rfl rfl

theorem counts_acceptReply (r : RegName) (n : Nat) (reply : List Byte) : (acceptReply d r n reply).Counts s :=
  counts_bind (counts_checkReply n reply) fun _ _ _ =>
    counts_get_bind (fun _ => rfl) (counts_bind (counts_regDecode r _) fun _ _ _ => counts_checkDrift r)

theorem counts_rdreg (r : RegName) : (rdreg d r).Counts s :=
  counts_get_bind (fun _ => rfl) (counts_bind (counts_xfer _ _) fun _ _ _ => counts_acceptReply r _ _)

theorem counts_writeHalf (wa lsb msb : Byte) : (writeHalf d wa lsb msb).Counts s :=
  counts_get_bind (fun _ => rfl) (counts_bind (counts_xfer _ _) fun _ _ _ => counts_pure _)

theorem counts_wrreg (r : RegName) : (wrreg d r).Counts s :=
  counts_get_bind (fun _ => rfl) (counts_bind (counts_writeHalf _ _ _) fun _ _ _ => counts_writeHalf _ _ _)

theorem counts_readAll (rs : List RegName) : ∀ s, (readAll d rs).Counts s := by
  induction rs with
  | nil => exact fun s => counts_pure _
  | cons r rs ih => exact fun s => counts_bind (counts_rdreg r) fun _ t _ => ih t

theorem counts_writeAll (rs : List RegName) : ∀ s, (writeAll d rs).Counts s := by
  induction rs with
  | nil => exact fun s => counts_pure _
  | cons r rs ih =>
    exact fun s => counts_get_bind (fun _ => rfl)
      (counts_bind (counts_wrreg r) fun _ t _ => counts_bind (ih t) fun _ _ _ => counts_pure _)

theorem counts_cfgread : (cfgread d).Counts s := counts_get_bind (fun _ => rfl) (counts_readAll _ _)

theorem counts_cfgapply : (cfgapply d).Counts s :=
  counts_get_bind (fun _ => rfl)
    (counts_bind (counts_writeAll _ _) fun _ _ _ =>
      counts_bind counts_cfgread fun _ _ _ => counts_get_bind (fun _ => rfl) (counts_pure _))

theorem counts_memRead (cmd : List Byte) : (memRead d cmd).Counts s :=
  counts_bind (counts_xfer _ _) fun _ _ _ =>
    counts_bind (counts_checkReply _ _) fun _ _ _ => counts_get_bind (fun _ => rfl) (counts_pure _)

theorem counts_memWrite (cmd : List Byte) : (memWrite d cmd).Counts s :=
  counts_bind (counts_xfer _ _) fun _ _ _ => counts_pure _

theorem counts_receive (r : RegName) (reply : List Byte) : (receive d r reply).Counts s :=
  counts_get_bind (fun _ => rfl) (counts_bind (counts_acceptReply r _ _) fun _ _ _ => counts_pure _)

/-! ### Cells, and the latch handshake -/

theorem counts_regSetf (r : RegName) (f : FldName) (v : Word) : (regSetf d r f v).Counts s :=
  have cell {t : State} : (modify (fun u : State => u.setCell d r f v) : Op Unit).Counts t :=
    counts_modify (fun _ => rfl) rfl rfl rfl rfl
  counts_get_bind (fun _ => rfl) (counts_ite (counts_bind (counts_raise _) fun _ _ _ => cell) cell)

theorem counts_regGetf (r : RegName) (f : FldName) : (regGetf d r f).Counts s :=
  have cell {t : State} : ((get : Op State) >>= fun u => (pure (u.getCell d r f) : Op Word)).Counts t :=
    counts_get_bind (fun _ => rfl) (counts_pure _)
  counts_get_bind (fun _ => rfl) (counts_ite (counts_bind (counts_raise _) fun _ _ _ => cell) cell)

theorem counts_sampleCancel : sampleCancel.Counts s := by
  by_cases h : s.cfg.hasCancel = true
  · refine counts_silent (r := .ok s.nextCancel.1) (t := s.nextCancel.2) (fun l => ?_) (by simp) (by simp) (by simp) (by simp)
    unfold sampleCancel State.nextCancel
    cases s
    simp only at h ⊢
    rw [h]
    simp only [if_true]
    split <;> rfl
  · exact counts_silent (r := .ok false) (t := s) (fun l => by simp [sampleCancel, h, ending]) rfl rfl rfl rfl

theorem counts_poll : (poll d).Counts s :=
  counts_get_bind (fun _ => rfl)
    (counts_bind
      (counts_onRaise (counts_rdreg _) (fun _ _ => rfl) (fun _ => rfl) (fun _ => rfl) (fun _ => rfl) (fun _ => rfl) (fun _ => rfl))
      fun _ _ _ => counts_modify (fun _ => rfl) rfl rfl rfl rfl)

theorem counts_pollLoop (c1 c2 : Bool) (iv : Word) (n : Nat) : ∀ s, (pollLoop d c1 c2 iv n).Counts s := by
  have latch {l : LatchState} {t : State} : (modify (fun u : State => u.setLatch d l) : Op Unit).Counts t :=
    counts_modify (fun _ => rfl) rfl rfl rfl rfl
  induction n with
  | zero => exact fun s => counts_bind latch fun _ _ _ => counts_raise _
  | succ n ih =>
    have rest : ∀ t : State, (do
        poll d
        let s ← get
        if s.latchDone d c1 s.cfg.latchF1 && s.latchDone d c2 s.cfg.latchF2 then
          modify (fun t => t.setLatch d .latched)
        else
          if n ≠ 0 then emit (.sleep iv)
          pollLoop d c1 c2 iv n : Op Unit).Counts t := fun t =>
      counts_bind counts_poll fun _ _ _ =>
        counts_get_bind (fun _ => rfl)
          (counts_ite latch (counts_ite (counts_bind (counts_emit _) fun _ t _ => ih t) (ih _)))
    exact fun s => counts_bind counts_sampleCancel fun _ t _ =>
      counts_ite (counts_bind latch fun _ _ _ => counts_bind (counts_raise _) fun _ t _ => rest t) (rest t)

theorem counts_requestLatch (b : Bool) (f : FldName) : (requestLatch d b f).Counts s :=
  counts_ite (counts_get_bind (fun _ => rfl) (counts_regSetf _ _ _)) (counts_pure _)

theorem counts_latch (c1 c2 : Bool) (n iv : Word) : (latch d c1 c2 n iv).Counts s :=
  counts_get_bind (fun _ => rfl)
    (counts_bind (counts_requestLatch _ _) fun _ _ _ =>
      counts_bind (counts_requestLatch _ _) fun _ _ _ =>
        counts_bind (counts_modify (fun _ => rfl) rfl rfl rfl rfl) fun _ _ _ =>
          counts_bind (counts_wrreg _) fun _ _ _ =>
            counts_bind (counts_modify (fun _ => rfl) rfl rfl rfl rfl) fun _ _ _ => counts_pollLoop _ _ _ _ _)

theorem counts_rdboth (n iv : Word) : (rdboth d n iv).Counts s :=
  counts_bind (counts_latch _ _ _ _) fun _ _ _ =>
    counts_get_bind (fun _ => rfl)
      (counts_bind (counts_rdreg _) fun _ _ _ =>
        counts_bind (counts_rdreg _) fun _ _ _ =>
          counts_get_bind (fun _ => rfl)
            (counts_bind (counts_regGetf _ _) fun _ _ _ =>
              counts_bind (counts_regGetf _ _) fun _ _ _ =>
                counts_bind (counts_regGetf _ _) fun _ _ _ =>
                  counts_bind (counts_regGetf _ _) fun _ _ _ => counts_pure _))

theorem counts_calset (v1 i1 v2 i2 : Code) : (calset d v1 i1 v2 i2).Counts s :=
  counts_get_bind (fun _ => rfl)
    (counts_bind (counts_regSetf _ _ _) fun _ _ _ =>
      counts_bind (counts_regSetf _ _ _) fun _ _ _ =>
        counts_bind (counts_regSetf _ _ _) fun _ _ _ =>
          counts_bind (counts_regSetf _ _ _) fun _ _ _ =>
            counts_bind (counts_wrreg _) fun _ _ _ =>
              counts_bind (counts_wrreg _) fun _ _ _ =>
                counts_bind (counts_wrreg _) fun _ _ _ =>
                  counts_bind (counts_wrreg _) fun _ _ _ => counts_emit _)

/-! ### Every operation -/

/-- Every operation is a body that counts, whenever reset is due. -/
theorem exec_counts (i : Instr) (s : State) : ∃ bad body,
    (∀ l, exec i { s with resets := l } = accept i bad body { s with resets := l }) ∧ ∀ u, Op.Counts body u := by
  cases i with
  | bfDecode f w => exact ⟨none, pure (.word (bfDecode f w)), fun _ => rfl, fun _ => counts_pure _⟩
  | bfEncode f v w => exact ⟨none, pure (.word (bfEncode f v w)), fun _ => rfl, fun _ => counts_pure _⟩
  | regDecode d r w =>
    exact ⟨s.badReg d r, (do regDecode d r w; return .none), fun _ => rfl,
      fun _ => counts_bind (counts_modify (fun _ => rfl) rfl rfl rfl rfl) fun _ _ _ => counts_pure _⟩
  | regEncode d r =>
    exact ⟨s.badReg d r, (do return .word ((← get).encodeReg d r)), fun _ => rfl,
      fun _ => counts_get_bind (fun _ => rfl) (counts_pure _)⟩
  | regWire d r =>
    exact ⟨s.badReg d r, (do return .bytes (leBytes ((← get).encodeReg d r))), fun _ => rfl,
      fun _ => counts_get_bind (fun _ => rfl) (counts_pure _)⟩
  | regSetf d r f v =>
    exact ⟨s.badSetf d r f v, (do regSetf d r f v; return .none), fun _ => rfl,
      fun _ => counts_bind (counts_regSetf _ _ _) fun _ _ _ => counts_pure _⟩
  | regGetf d r f =>
    exact ⟨s.badReg d r, (do return .word (← regGetf d r f)), fun _ => rfl,
      fun _ => counts_bind (counts_regGetf _ _) fun _ _ _ => counts_pure _⟩
  | crc8Byte rem b => exact ⟨none, pure (.byte (crc8Byte rem b)), fun _ => rfl, fun _ => counts_pure _⟩
  | crc8Seq l => exact ⟨none, pure (.byte (crc8Seq l)), fun _ => rfl, fun _ => counts_pure _⟩
  | crc8Check b0 b1 b2 b3 b4 =>
    exact ⟨none, pure (.bool (crc8Check b0 b1 b2 b3 b4)), fun _ => rfl,
      fun _ => counts_pure _⟩
  | xfer d cmd n =>
    exact ⟨s.badFrame d cmd n, (do return .bytes (← xfer d cmd n)), fun _ => rfl,
      fun _ => counts_bind (counts_xfer _ _) fun _ _ _ => counts_pure _⟩
  | rdreg d r =>
    exact ⟨s.badReg d r, (do rdreg d r; return .none), fun _ => rfl,
      fun _ => counts_bind (counts_rdreg _) fun _ _ _ => counts_pure _⟩
  | wrreg d r =>
    exact ⟨s.badCtrl d r, (do wrreg d r; return .none), fun _ => rfl,
      fun _ => counts_bind (counts_wrreg _) fun _ _ _ => counts_pure _⟩
  | latch d c1 c2 n iv =>
    exact ⟨s.badDev d, (do latch d c1 c2 n iv; return .none), fun _ => rfl,
      fun _ => counts_bind (counts_latch _ _ _ _) fun _ _ _ => counts_pure _⟩
  | crcintend d b =>
    exact ⟨s.badDev d, (do modify (fun t => (t.setIntended d b).setWarn d false); return .none), fun _ => rfl,
      fun _ => counts_bind (counts_modify (fun _ => rfl) rfl rfl rfl rfl) fun _ _ _ => counts_pure _⟩
  | gain c => exact ⟨none, pure (.real (gain c)), fun _ => rfl, fun _ => counts_pure _⟩
  | vconv raw c =>
    exact ⟨s.badGain c, pure (.real (vconv s.cfg.numerics raw c)), fun _ => rfl,
      fun _ => counts_pure _⟩
  | iconv raw c =>
    exact ⟨s.badGain c, pure (.real (iconv s.cfg.numerics raw c)), fun _ => rfl,
      fun _ => counts_pure _⟩
  | caldrv nv ni av ai pv pi =>
    exact ⟨badDerive (deriveV s.cfg.numerics (.ofBits nv) (.ofBits av) pv)
      (deriveI s.cfg.numerics (.ofBits ni) (.ofBits ai) pi),
      pure (.codes ((deriveV s.cfg.numerics (.ofBits nv) (.ofBits av) pv).getD 0)
        ((deriveI s.cfg.numerics (.ofBits ni) (.ofBits ai) pi).getD 0)),
      fun _ => rfl, fun _ => counts_pure _⟩
  | calset d v1 i1 v2 i2 =>
    exact ⟨s.badDev d, (do calset d v1 i1 v2 i2; return .none), fun _ => rfl,
      fun _ => counts_bind (counts_calset _ _ _ _) fun _ _ _ => counts_pure _⟩
  | rdboth d n iv => exact ⟨s.badDev d, rdboth d n iv, fun _ => rfl, fun _ => counts_rdboth _ _⟩
  | cfgapply d => exact ⟨s.badDev d, cfgapply d, fun _ => rfl, fun _ => counts_cfgapply⟩
  | cfgread d =>
    exact ⟨s.badDev d, (do cfgread d; return .none), fun _ => rfl,
      fun _ => counts_bind counts_cfgread fun _ _ _ => counts_pure _⟩
  | cmdRd4 d a => exact ⟨s.badFrame d (readBody a) 4, memRead d (readBody a), fun _ => rfl, fun _ => counts_memRead _⟩
  | cmdRd5 d a c =>
    exact ⟨s.badFrame d (readBody a ++ [c]) 5, memRead d (readBody a ++ [c]), fun _ => rfl,
      fun _ => counts_memRead _⟩
  | cmdWr4 d r w l m =>
    exact ⟨s.badFrame d [r,w,l,m] 4, memWrite d [r,w,l,m], fun _ => rfl,
      fun _ => counts_memWrite _⟩
  | cmdWr5 d r w l m c =>
    exact ⟨s.badFrame d [r,w,l,m,c] 5, memWrite d [r,w,l,m,c], fun _ => rfl,
      fun _ => counts_memWrite _⟩
  | rpl4 d reg b0 b1 b2 b3 =>
    exact ⟨s.badReg d reg, receive d reg [b0,b1,b2,b3], fun _ => rfl,
      fun _ => counts_receive _ _⟩
  | rpl5 d reg b0 b1 b2 b3 k =>
    exact ⟨s.badReg d reg, receive d reg [b0,b1,b2,b3,k], fun _ => rfl,
      fun _ => counts_receive _ _⟩

end

end Sys2Proof.Machine
end

