-- ==== Sys2Proof/Tests/Slice0.lean ====
section
/-! SUPPORT. The model's own tests: the checks of WellFormed refuse, each row decodes from bytes written out of the
spec's encoding, the spec's worked vectors (spec/95_test_vectors.md), and a witness for the hypotheses of each
obligation. -/

namespace Sys2Proof.Tests
open Sys2Proof Sys2Proof.Machine

-- One theorem at a time: each kernel evaluation waits for those before it, and each wait would take a thread.
set_option Elab.async false

/-! ### WellFormed: an ill-formed term for each check (R12, R60, R62, R63, R72; log 3) -/

theorem test_wf_field_width_zero : (Instr.bfDecode ⟨0, 0⟩ 0).wf = false := by decide
theorem test_wf_field_past_the_word : (Instr.bfEncode ⟨31, 2⟩ 0 0).wf = false := by decide
theorem test_wf_field_full_word : (Instr.bfDecode ⟨0, 32⟩ 0).wf = true := by decide
theorem test_wf_xfer_length : (Instr.xfer 0 [4, 255, 255] 3).wf = false ∧
    (Instr.xfer 0 [4, 255, 255, 255, 0x57, 0] 6).wf = false ∧ (Instr.xfer 0 [4, 255, 255, 255] 5).wf = false ∧
    (Instr.xfer 0 [4, 255, 255, 255] 4).wf = true := by decide
theorem test_wf_xfer_frame : (Instr.xfer 0 [4, 6, 1, 2] 4).wf = false ∧ (Instr.xfer 0 [4, 255, 0, 255] 4).wf = false ∧
    (Instr.xfer 0 [4, 255, 255, 255, 0x56] 5).wf = false ∧ (Instr.xfer 0 [4, 255, 255, 255, 0x57] 5).wf = true := by
  decide +kernel
theorem test_wf_read_address_high : (Instr.cmdRd4 0 0xFE).wf = false := by decide
theorem test_wf_read_address_top : (Instr.cmdRd4 0 0xFD).wf = true := by decide
theorem test_wf_write_addresses_differ : (Instr.cmdWr4 0 4 5 0 0).wf = false := by decide
theorem test_wf_write_sentinel : (Instr.cmdWr4 0 0xFF 0xFF 0 0).wf = false := by decide
theorem test_wf_frames_with_crc :
    (Instr.cmdRd5 0 0xFE (crc8Seq [0xFE, 255, 255, 255])).wf = false ∧ (Instr.cmdRd5 0 0x04 0x56).wf = false ∧
      (Instr.cmdRd5 0 0x04 0x57).wf = true ∧ (Instr.cmdWr5 0 4 5 0 0 (crc8Seq [4, 5, 0, 0])).wf = false ∧
      (Instr.cmdWr5 0 4 4 0xE0 4 0xAD).wf = false ∧ (Instr.cmdWr5 0 4 4 0xE0 4 0xAC).wf = true := by decide +kernel
theorem test_step_refuses_ill_formed :
    (match step { State.reset with port := [⟨.host, [0x10, 31, 1, 0, 0, 0, 0]⟩] } with
      | .refused r => decide (r = .illFormed)
      | _ => false) = true := by decide

/-! ### Decoding, one row each: selectors of R70, operands least significant byte first (log 3); frames of R62 to R65 -/

/-- What the decoder reads from a request. -/
def read (port : Port) (bytes : List Byte) : Option Instr := (decode ⟨port, bytes⟩).toOption

theorem test_decode_bfDecode : read .host [0x10, 15, 16, 0x80, 0x3E, 0x10, 0x27] = some (.bfDecode ⟨15, 17⟩ 0x27103E80) := by
  decide
theorem test_decode_bfEncode : read .host [0x11, 21, 0, 1, 0, 0, 0, 0xE0, 4, 0, 0] = some (.bfEncode ⟨21, 1⟩ 1 0x4E0) := by
  decide
theorem test_decode_regDecode : read .host [0x20, 1, 16, 7, 0x40, 0, 0] = some (.regDecode 1 Reg.US_REG1 0x4007) := by decide
theorem test_decode_regEncode : read .host [0x21, 0, 2] = some (.regEncode 0 Reg.DSP_CR3) := by decide
theorem test_decode_regWire : read .host [0x22, 1, 2] = some (.regWire 1 Reg.DSP_CR3) := by decide
theorem test_decode_regSetf : read .host [0x23, 0, 2, 30, 1, 0, 0, 0] = some (.regSetf 0 Reg.DSP_CR3 Fld.ZCR_EN 1) := by decide
theorem test_decode_regGetf : read .host [0x24, 0, 4, 45] = some (.regGetf 0 Reg.DSP_CR5 Fld.CHV1) := by decide
theorem test_decode_crc8Byte : read .host [0x30, 0x1C, 0x04] = some (.crc8Byte 0x1C 0x04) := by decide
theorem test_decode_crc8Seq : read .host [0x31, 4, 4, 0xE0, 4] = some (.crc8Seq [4, 4, 0xE0, 4]) := by decide
theorem test_decode_crc8Check : read .host [0x32, 0xE0, 4, 0x20, 0, 0x61] = some (.crc8Check 0xE0 4 0x20 0 0x61) := by decide
theorem test_decode_xfer : read .internal [0x40, 1, 0, 4, 255, 255, 255] = some (.xfer 1 [4, 255, 255, 255] 4) := by decide
theorem test_decode_rdreg : read .host [0x41, 1, 19] = some (.rdreg 1 Reg.DSP_REG14) := by decide
theorem test_decode_wrreg : read .host [0x42, 0, 2] = some (.wrreg 0 Reg.DSP_CR3) := by decide
theorem test_decode_latch :
    read .host [0x43, 1, 1, 0, 2, 0, 0, 0, 0xE8, 3, 0, 0] = some (.latch 1 true false 2 1000) := by decide
theorem test_decode_crcintend : read .host [0x44, 0, 1] = some (.crcintend 0 true) := by decide
theorem test_decode_gain : read .host [0x50, 0, 0xD0] = some (.gain (-12288)) := by decide
theorem test_decode_vconv : read .host [0x51, 0x80, 0x3E, 0, 0, 0, 8] = some (.vconv 16000 2048) := by decide
theorem test_decode_iconv : read .host [0x52, 0x20, 0x4E, 0, 0, 0xFF, 0xFF] = some (.iconv 20000 (-1)) := by decide
theorem test_decode_caldrv :
    read .host [0x53, 0, 0, 0, 0, 0, 0xC0, 0x6C, 0x40, 0, 0, 0, 0, 0, 0, 0x14, 0x40, 0, 0, 0, 0, 0, 0xD0, 0xB5, 0x40,
      0, 0, 0, 0, 0, 0x17, 0xE1, 0x40, 0, 8, 1, 8] =
      some (.caldrv 0x406CC00000000000 0x4014000000000000 0x40B5D00000000000 0x40E1170000000000 2048 2049) := by decide
theorem test_decode_calset : read .host [0x54, 0, 1, 0, 2, 0, 3, 0, 4, 0] = some (.calset 0 1 2 3 4) := by decide
theorem test_decode_rdboth : read .host [0x60, 1, 5, 0, 0, 0, 1, 0, 0, 0] = some (.rdboth 1 5 1) := by decide
theorem test_decode_cfgapply : read .host [0x61, 1] = some (.cfgapply 1) := by decide
theorem test_decode_cfgread : read .host [0x62, 0] = some (.cfgread 0) := by decide
theorem test_decode_cmdRd4 : read (.command 0) [0x48, 255, 255, 255] = some (.cmdRd4 0 0x48) := by decide
theorem test_decode_cmdRd5 : read (.command 1) [0x48, 255, 255, 255, 0x24] = some (.cmdRd5 1 0x48 0x24) := by decide
theorem test_decode_cmdWr4 : read (.command 0) [5, 5, 0x60, 0] = some (.cmdWr4 0 5 5 0x60 0) := by decide
theorem test_decode_cmdWr5 : read (.command 1) [5, 5, 0x60, 0, 0x7B] = some (.cmdWr5 1 5 5 0x60 0 0x7B) := by decide
theorem test_decode_rpl4 : read (.reply 0 2) [0xE0, 4, 0x20, 0] = some (.rpl4 0 2 0xE0 4 0x20 0) := by decide
theorem test_decode_rpl5 : read (.reply 1 2) [0xE0, 4, 0x20, 0, 0x61] = some (.rpl5 1 2 0xE0 4 0x20 0 0x61) := by decide

/-- A selector outside R70, XFER on the host port, another operation inside the block, operands too short or too long, and
a sentinel beside real data name no operation (R69, R70). -/
theorem test_decode_rejects :
    read .host [0x12] = none ∧ read .host [0x40, 1, 0, 4, 255, 255, 255] = none ∧ read .internal [0x62, 0] = none ∧
      read .host [0x41, 0] = none ∧ read .host [0x62, 0, 0] = none ∧
      read .host [0x44, 0, 2] = none ∧ read (.command 0) [4, 255, 0, 255] = none ∧ read (.command 0) [4, 255, 255] = none ∧
      read (.reply 0 2) [] = none := by decide

/-- A table word, numbered as spec/opcode_table.json numbers it. -/
theorem test_table_words :
    decodeTableWord 8 0x41 = some (.rdreg 0 0) ∧ decodeTableWord 8 0x40 = some (.xfer 0 [0, 0, 0, 0] 4) ∧
      decodeTableWord 32 0x04FFFFFF = some (.cmdRd4 0 4) ∧
      decodeTableWord 40 0x0404E004AC = some (.cmdWr5 0 4 4 0xE0 4 0xAC) ∧
      decodeTableWord 40 0xE004200061 = some (.rpl5 0 0 0xE0 4 0x20 0 0x61) := by decide

/-! ### The spec's vectors -/

/-- Reset, with scripted answers of the device side and low samples of the cancel input. -/
def scripted (replies : List (List Byte)) : State :=
  { State.reset with replies := replies, cancels := List.replicate 3 false }

/-- The same with CRC framing off on device 0. -/
def crcOff (replies : List (List Byte)) : State := (scripted replies).setCell 0 Reg.US_REG1 Fld.CRC_EN 0

/-- The results after an operation; nothing where it is refused. -/
def resultsOf (o : Host.Outcome State Fault Refusal) : List HostResult :=
  match o with
  | .next s => s.results
  | _ => []

/-- The word of a register after an operation, beside the frames it sent and its results. -/
def after (o : Host.Outcome State Fault Refusal) (d : DevIx) (r : RegName) : List (List Byte) × Word × List HostResult :=
  match o with
  | .next s => (framesSent s.trace, s.encodeReg d r, s.results)
  | _ => ([], 0, [])

/-- BF.DECODE, BF.ENCODE. -/
theorem test_bitfield :
    (resultsOf (exec (.bfDecode ⟨15, 17⟩ 0x27103E80) State.reset) = [.ok (.word 20000)]) ∧
    (resultsOf (exec (.bfEncode ⟨0, 12⟩ 0x1ABC 0x003FF800) State.reset) = [.ok (.word 0x003FFABC)]) := by
  refine ⟨?_, ?_⟩ <;> decide +kernel

/-- The Register family. -/
theorem test_register :
    (after (exec (.regDecode 0 Reg.US_REG1 0xFFFFFFFF) State.reset) 0 Reg.US_REG1 = ([], 0x00FFC3FF, [.ok .none])) ∧
    (resultsOf (exec (.regEncode 0 Reg.DFE_CR1) State.reset) = [.ok (.word 0x0C010001)]) ∧
    (resultsOf (exec (.regWire 0 Reg.DSP_CR1) State.reset) = [.ok (.bytes [0xA0, 0, 0, 4])]) ∧
    (after (exec (.regSetf 0 Reg.DSP_CR3 Fld.SAG_TIME_THR 0x12345) State.reset) 0 Reg.DSP_CR3 =
      ([], 0x2345, [.ok .none])) ∧
    (after (exec (.regSetf 0 Reg.DSP_CR3 Fld.CHV1 1) State.reset) 0 Reg.DSP_CR3 = ([], 0x4E0, [.err .unknownField])) ∧
    (resultsOf (exec (.regGetf 0 Reg.DSP_CR5 Fld.CHV1) State.reset) = [.ok (.word 2048)]) := by
  refine ⟨?_, ?_, ?_, ?_, ?_, ?_⟩ <;> decide +kernel

/-- The CRC-8 family. -/
theorem test_crc :
    (resultsOf (exec (.crc8Byte 0x48 0xE0) State.reset) = [.ok (.byte 0x51)]) ∧
    (resultsOf (exec (.crc8Seq [4, 4, 0xE0, 4]) State.reset) = [.ok (.byte 0xAC)]) ∧
    (resultsOf (exec (.crc8Check 0xE0 4 0x20 0 0x60) State.reset) = [.ok (.bool false)]) := by
  refine ⟨?_, ?_, ?_⟩ <;> decide +kernel

/-- XFER, RDREG (top byte dropped; wrong CRC), WRREG. -/
theorem test_transport :
    ((match exec (.xfer 1 [4, 255, 255, 255, 0x57] 5) (scripted [[0xE0, 4, 0, 0, 0xCF]]) with
      | .next s => decide (s.trace =
          [.csAssert 1, .tx [4, 255, 255, 255, 0x57], .csDeassert 1, .csAssert 1, .rx 5 255 [0xE0, 4, 0, 0, 0xCF],
            .csDeassert 1])
      | _ => false) = true) ∧
    (after (exec (.rdreg 0 Reg.DSP_REG14) (scripted [[0x80, 0x3E, 0x10, 0x27, 0x5E]])) 0 Reg.DSP_REG14 =
      ([[0x48, 255, 255, 255, 0x24]], 0x00103E80, [.ok .none])) ∧
    (after (exec (.rdreg 0 Reg.DSP_CR3) (scripted [[0xE0, 4, 0x20, 0, 0x60]])) 0 Reg.DSP_CR3 =
      ([[4, 255, 255, 255, 0x57]], 0x4E0, [.err .crcMismatch])) ∧
    (after (exec (.wrreg 0 Reg.DFE_CR1) (scripted [[], []])) 0 Reg.DFE_CR1 =
      ([[0x19, 0x19, 1, 0xC, 0x68], [0x18, 0x18, 1, 0, 0x31]], 0x0C010001, [.ok .none])) := by
  refine ⟨?_, ?_, ?_, ?_⟩ <;> decide +kernel

/-- LATCH (programs P2f and P2e), CRCINTEND. -/
theorem test_latch :
    ((match exec (.latch 1 true false 2 1) (scripted [[], [], [0xE0, 4, 0x40, 0, 0x94]]) with
      | .next s => decide (framesSent s.trace = [[5, 5, 0x20, 0, 0x20], [4, 4, 0xE0, 4, 0xAC], [4, 255, 255, 255, 0x57]]) &&
          decide (s.devs.map Dev.latch = [.idle, .latched]) && decide (s.pollCount = 1) &&
          decide (s.encodeReg 1 Reg.DSP_CR3 = 0x004004E0)
      | _ => false) = true) ∧
    (after (exec (.latch 0 true true 3 1) (scripted [[], [], [0xE0, 4, 0x60, 0, 0x3A], [0xE0, 4, 0x40, 0, 0x95]])) 0
      Reg.DSP_CR3 =
      ([[5, 5, 0x60, 0, 0x7B], [4, 4, 0xE0, 4, 0xAC], [4, 255, 255, 255, 0x57], [4, 255, 255, 255, 0x57]], 0x006004E0,
        [.err .crcMismatch])) ∧
    ((match exec (.crcintend 1 false) State.reset with
      | .next s => decide (s.devs.map Dev.crcIntended = [true, false]) && decide (s.trace = [])
      | _ => false) = true) := by
  refine ⟨?_, ?_, ?_⟩ <;> decide +kernel

/-- GAIN, VCONV, ICONV, CALDRV (3.999 gives 3, and the other code is negative), CALSET. -/
theorem test_calibration :
    (resultsOf (exec (.gain 2048) State.reset) = [.ok (.real (F64.ofDec 875 1000))]) ∧
    (resultsOf (exec (.vconv 16000 0) State.reset) = [.ok (.real (F64.ofDec 76861328125 100000000))]) ∧
    (resultsOf (exec (.iconv 20000 0) State.reset) = [.ok (.real (F64.ofDec 3853149414690564 1000000000000000))]) ∧
    (resultsOf (exec (.caldrv 0x406CC00000000000 0x4014000000000000 0x40B5D00000000000 0x40E1170000000000 0 0)
      State.reset) = [.ok (.codes 3 (-1657))]) ∧
    ((match exec (.calset 0 0 0 0 0) (scripted []) with
      | .next s => decide (framesSent s.trace =
          [[9, 9, 0x3F, 0, 0xA6], [8, 8, 0, 0xF0, 0x3F], [0xB, 0xB, 0x3F, 0, 0x5C], [0xA, 0xA, 0, 0xF0, 0xC5],
           [0xD, 0xD, 0x3F, 0, 0x55], [0xC, 0xC, 0, 0xF0, 0xCC], [0xF, 0xF, 0x3F, 0, 0xAF], [0xE, 0xE, 0, 0xF0, 0x36]])
      | _ => false) = true) := by
  refine ⟨?_, ?_, ?_, ?_, ?_⟩ <;> decide +kernel

/-- RDBOTH (program P3 at the reset calibration codes), CFGREAD ended by a short reply. -/
theorem test_facade :
    (after (exec (.rdboth 0 5 1) (scripted
      [[], [], [0xE0, 4, 0, 0, 0xCF], [0x80, 0x3E, 0x10, 0x27, 0x5E], [0, 0x7D, 0x40, 0x1F, 0xF0]])) 0 Reg.DSP_REG15 =
      ([[5, 5, 0x60, 0, 0x7B], [4, 4, 0xE0, 4, 0xAC], [4, 255, 255, 255, 0x57], [0x48, 255, 255, 255, 0x24],
        [0x4A, 255, 255, 255, 0x08]], 0x00407D00,
        [.ok (.reals (vconv .binary64 16000 2048) (iconv .binary64 32 2048) (vconv .binary64 32000 2048)
          (iconv .binary64 128 2048))])) ∧
    (after (exec (.cfgread 0) (scripted [[0xA0, 0, 0, 4]])) 0 Reg.DSP_CR1 =
      ([[0, 255, 255, 255, 0x0F]], 0x040000A0, [.err .shortReply])) := by
  refine ⟨?_, ?_⟩ <;> decide +kernel

/-- The wire frames, those of 4 bytes with CRC framing off. -/
theorem test_frames :
    (resultsOf (exec (.cmdRd4 0 0x48) (crcOff [[0x80, 0x3E, 0x10, 0x27]])) = [.ok (.word 0x00103E80)]) ∧
    (resultsOf (exec (.cmdRd5 0 4 0x57) (scripted [[0xE0, 4, 0x20, 0, 0x60]])) = [.err .crcMismatch]) ∧
    (after (exec (.cmdWr4 0 5 5 0x20 0) (crcOff [[]])) 0 Reg.DSP_CR3 = ([[5, 5, 0x20, 0]], 0x4E0, [.ok .none])) ∧
    (after (exec (.cmdWr5 0 4 4 0xE0 4 0xAC) (scripted [[]])) 0 Reg.DSP_CR3 = ([[4, 4, 0xE0, 4, 0xAC]], 0x4E0, [.ok .none])) ∧
    (after (exec (.rpl4 0 Reg.DSP_CR3 0xE0 4 0x20 0) State.reset) 0 Reg.DSP_CR3 = ([], 0x4E0, [.err .shortReply])) ∧
    ((match exec (.rpl5 0 Reg.US_REG1 7 0 0 0 0x62) State.reset with
      | .next s => decide (s.trace = [.warn .crcDrift 0]) && decide (s.flen 0 = 4)
      | _ => false) = true) := by
  refine ⟨?_, ?_, ?_, ?_, ?_, ?_⟩ <;> decide +kernel

/-- Why an operation is refused. -/
def refusalOf (o : Host.Outcome State Fault Refusal) : Option Refusal :=
  match o with
  | .refused r => some r
  | _ => none

/-- A frame that RDREG and WRREG could not send now: a raw address, a data register's write address, unequal address
bytes, a wrong CRC byte, the other CRC mode's length, another number of reply bytes (R42, R60, R69). -/
theorem test_frames_refused :
    refusalOf (exec (.xfer 0 [0x7F, 255, 255, 255, crc8Seq [0x7F, 255, 255, 255]] 5) State.reset) = some .rawAddress ∧
    refusalOf (exec (.xfer 0 [0x48, 0x48, 1, 2, crc8Seq [0x48, 0x48, 1, 2]] 5) State.reset) = some .dataBank ∧
    refusalOf (exec (.xfer 0 [4, 6, 1, 2] 4) State.reset) = some .illFormed ∧
    refusalOf (exec (.xfer 0 [4, 255, 255, 255, 0x56] 5) State.reset) = some .illFormed ∧
    refusalOf (exec (.xfer 0 [4, 255, 255, 255] 4) State.reset) = some .frameLength ∧
    refusalOf (exec (.xfer 0 [4, 255, 255, 255, 0x57] 4) State.reset) = some .frameLength ∧
    refusalOf (exec (.cmdWr4 0 5 5 0x20 0) State.reset) = some .frameLength := by
  refine ⟨?_, ?_, ?_, ?_, ?_, ?_, ?_⟩ <;> decide +kernel

/-- The host never issues XFER: its selector runs inside the block alone (R70, R111). -/
theorem test_xfer_is_internal :
    refusalOf (step { State.reset with port := [⟨.host, [0x40, 0, 1, 4, 255, 255, 255, 0x57]⟩] }) =
      some (.undecodable .internalOnly) ∧
    resultsOf (step { scripted [[1, 2]] with port := [⟨.internal, [0x40, 0, 1, 4, 255, 255, 255, 0x57]⟩] }) =
      [.ok (.bytes [1, 2])] := by
  refine ⟨?_, ?_⟩ <;> decide +kernel

/-- A frame of 4 bytes placed for the next step runs, in the CRC mode it needs (R60). -/
theorem test_withFetchWord :
    after (step ((scripted [[1, 2, 3, 4]]).withFetchWord 8 0x40)) 0 Reg.DSP_CR1 =
      ([[0, 0, 0, 0]], 0x040000A0, [.ok (.bytes [1, 2, 3, 4])]) ∧
    resultsOf (step ((scripted [[1, 2, 3, 4]]).withFetchWord 32 0x04FFFFFF)) = [.ok (.word 0x00030201)] := by
  refine ⟨?_, ?_⟩ <;> decide +kernel

/-- The step after this one, where there is one. -/
def andThen (o : Host.Outcome State Fault Refusal) : Host.Outcome State Fault Refusal :=
  match o with
  | .next s => step s
  | o => o

/-- Reset between two operations that emit no event, and again before the second has its result (R190): the cell set is
at its reset value when it is read, and the read abandoned has no result. -/
theorem test_reset_between_operations :
    let setf : Request := ⟨.host, [0x23, 0, 2, 30, 1, 0, 0, 0]⟩
    let getf : Request := ⟨.host, [0x24, 0, 2, 30]⟩
    (resultsOf (andThen (step { State.reset with port := [setf, getf] })) = [.ok .none, .ok (.word 1)]) ∧
    (resultsOf (andThen (andThen (step { State.reset with port := [setf, getf], resets := [2] }))) =
      [.ok .none, .ok (.word 0)]) ∧
    (resultsOf (andThen (andThen (andThen (step { State.reset with port := [setf, getf, getf], resets := [2, 1] })))) =
      [.ok .none, .ok (.word 0)]) := by
  refine ⟨?_, ?_, ?_⟩ <;> decide +kernel

/-- CFGAPPLY (program P6): the four registers with a 1 in their top byte are reported, since a read drops that byte. -/
theorem test_cfgapply :
    resultsOf (exec (.cfgapply 0) (scripted (List.replicate 34 [] ++
      [[0xA0, 0, 0, 4, 0xE3], [0xA0, 0, 0, 0x24, 3], [0xE0, 4, 0, 0, 0xCF], [0, 0, 0, 0, 0], [0, 0xF8, 0x3F, 0, 7],
       [0, 0xF8, 0x3F, 0, 7], [0, 0xF8, 0x3F, 0, 7], [0, 0xF8, 0x3F, 0, 7], [0xFF, 0xF, 0, 0, 0x96], [0xFF, 0xF, 0, 0, 0x96],
       [0xFF, 0xF, 0, 0, 0x96], [0xFF, 0xF, 0, 0, 0x96], [1, 0, 1, 0xC, 0x27], [1, 0, 1, 0, 3], [0, 0, 0, 0, 0],
       [0, 0, 0, 0, 0], [7, 0x40, 0, 0, 0xE4]]))) =
      [.ok (.regs [Reg.DSP_CR1, Reg.DSP_CR2, Reg.DFE_CR1])] := by decide +kernel

/-! ### Witnesses: for each obligation with hypotheses, a concrete state and operands that meet them together -/

theorem standard_admitted : Config.standard.admitted = true := by decide +kernel

theorem reset_shaped : State.reset.Shaped := by
  refine ⟨rfl, fun v hv => ?_⟩
  rw [List.eq_of_mem_replicate (show v ∈ List.replicate 2 (Dev.reset Config.standard) from hv)]
  rfl

theorem first_device : State.reset.HasDev 0 := by unfold State.HasDev; decide
theorem last_device : State.reset.HasDev 1 := by unfold State.HasDev; decide
theorem no_third_device : ¬ State.reset.HasDev 2 := by unfold State.HasDev; decide
theorem latch_not_uart : Config.standard.latchReg ≠ Config.standard.uartReg := by decide

/-- What most obligations ask of a state. -/
def Usable (s : State) (d : DevIx) : Prop :=
  s.Ready ∧ s.Shaped ∧ s.NoReset ∧ s.HasDev d ∧ s.cfg.latchReg ≠ s.cfg.uartReg

/-- Reset with scripted inputs, for the first device and the last. -/
theorem scripted_usable (replies : List (List Byte)) : Usable (scripted replies) 0 ∧ Usable (scripted replies) 1 :=
  ⟨⟨⟨rfl, standard_admitted⟩, reset_shaped, rfl, first_device, latch_not_uart⟩,
   ⟨⟨rfl, standard_admitted⟩, reset_shaped, rfl, last_device, latch_not_uart⟩⟩

/-- Reset under other parameters. -/
def under (n : Numerics) (o : ZeroGain) (strict cancel : Bool) : State :=
  State.resetWith { Config.standard with numerics := n, zeroGain := o, strictFields := strict, hasCancel := cancel }

/-- What the operations that emit no event ask of a state. -/
def Open (s : State) : Prop := s.Ready ∧ s.NoReset

theorem reset_open : Open State.reset := ⟨⟨rfl, standard_admitted⟩, rfl⟩

theorem under_open (n : Numerics) (o : ZeroGain) (strict cancel : Bool) : Open (under n o strict cancel) :=
  ⟨⟨rfl, standard_admitted⟩, rfl⟩

/-- Cheap facts about the default catalog: a register of each bank, the last one, and what is not there. -/
theorem catalog_facts :
    Config.standard.hasReg Reg.DSP_CR1 = true ∧ Config.standard.hasReg Reg.DSP_REG15 = true ∧
    Config.standard.isControl Reg.DSP_CR1 = true ∧ Config.standard.isControl Reg.US_REG1 = true ∧
    Config.standard.isControl Reg.DSP_REG15 = false ∧ Config.standard.hasReg 21 = false ∧
    Config.standard.field? Reg.DSP_CR3 Fld.SW_Latch1 = some ⟨Fld.SW_Latch1, ⟨21, 1⟩⟩ ∧
    Config.standard.field? Reg.DSP_CR3 Fld.CHV1 = none ∧ Config.standard.hasReg Reg.US_REG1 = true ∧
    Config.standard.field? Reg.US_REG1 Fld.CRC_EN = some ⟨Fld.CRC_EN, ⟨14, 1⟩⟩ := by decide

theorem crcOff_usable (replies : List (List Byte)) : Usable (crcOff replies) 0 ∧ (crcOff replies).flen 0 = 4 := by
  refine ⟨⟨⟨rfl, standard_admitted⟩, State.Shaped.setCell (s := scripted replies) reset_shaped, rfl, first_device,
    latch_not_uart⟩, ?_⟩
  have h : (crcOff replies).getCell 0 Reg.US_REG1 Fld.CRC_EN = 0 :=
    State.getCell_setCell_same (s := scripted replies) reset_shaped first_device catalog_facts.2.2.2.2.2.2.2.2.1
      catalog_facts.2.2.2.2.2.2.2.2.2
  change (if ((crcOff replies).getCell 0 Reg.US_REG1 Fld.CRC_EN) &&& 1 == 1 then 5 else 4) = 4
  rw [h]
  rfl

theorem scripted_flen (replies : List (List Byte)) : (scripted replies).flen 0 = 5 := by
  have h : (scripted replies).getCell 0 Reg.US_REG1 Fld.CRC_EN = State.reset.getCell 0 Reg.US_REG1 Fld.CRC_EN := rfl
  change (if ((scripted replies).getCell 0 Reg.US_REG1 Fld.CRC_EN) &&& 1 == 1 then 5 else 4) = 5
  rw [h]
  decide +kernel

theorem rdreg_next {s : State} {d : DevIx} {r : RegName} (h : s.Ready) (hd : s.HasDev d) (hr : s.cfg.hasReg r = true) :
    ∃ t, exec (.rdreg d r) s = .next t := ⟨_, accept_good s h (badReg_none.2 ⟨hd, hr⟩) _ _⟩

theorem latch_next {s : State} {d : DevIx} (h : s.Ready) (hd : s.HasDev d) (c1 c2 : Bool) (n iv : Word) :
    ∃ t, exec (.latch d c1 c2 n iv) s = .next t := ⟨_, accept_good s h (badDev_none.2 hd) _ _⟩

theorem witness_BfDecodeExtractsField :
    Open State.reset ∧ fieldOk ⟨31, 1⟩ = true ∧ fieldOk ⟨0, 32⟩ = true := ⟨reset_open, by decide, by decide⟩

theorem witness_BfEncodePlacesField : Open State.reset ∧ fieldOk ⟨0, 32⟩ = true := ⟨reset_open, by decide⟩

theorem witness_PackUnpackLaws :
    fieldOk ⟨0, 15⟩ = true ∧ fieldOk ⟨15, 17⟩ = true ∧ span ⟨0, 15⟩ &&& span ⟨15, 17⟩ = 0 := by decide

theorem witness_RegDecodeReplacesRegister :
    Usable (scripted []) 1 ∧ (scripted []).cfg.hasReg Reg.DSP_REG15 = true := ⟨(scripted_usable []).2, catalog_facts.2.1⟩

theorem witness_RegWireIsLittleEndian :
    Usable (scripted []) 0 ∧ (scripted []).cfg.hasReg Reg.DSP_CR1 = true := ⟨(scripted_usable []).1, catalog_facts.1⟩

theorem witness_RegEncodeFoldsFields :
    Usable (scripted []) 1 ∧ (scripted []).cfg.hasReg Reg.DSP_REG15 = true := ⟨(scripted_usable []).2, catalog_facts.2.1⟩

theorem witness_RegRoundTrip :
    Usable (scripted []) 1 ∧ (scripted []).cfg.hasReg Reg.DSP_CR1 = true := ⟨(scripted_usable []).2, catalog_facts.1⟩

/-- A known field and an unknown one; under `STRICT_FIELDS` the widest value that fits a one-bit field, and one past it. -/
theorem witness_RegSetfStoresOneCell :
    (Usable (scripted []) 1 ∧ (scripted []).cfg.hasReg Reg.DSP_CR3 = true ∧ (scripted []).cfg.strictFields = false ∧
      (scripted []).cfg.field? Reg.DSP_CR3 Fld.SW_Latch1 = some ⟨Fld.SW_Latch1, ⟨21, 1⟩⟩ ∧
      (scripted []).cfg.field? Reg.DSP_CR3 Fld.CHV1 = none) ∧
    (Usable (under .binary64 .quotient true true) 1 ∧ (under .binary64 .quotient true true).cfg.strictFields = true ∧
      (under .binary64 .quotient true true).cfg.field? Reg.DSP_CR3 Fld.SW_Latch1 = some ⟨Fld.SW_Latch1, ⟨21, 1⟩⟩ ∧
      (1 : Word).toNat < 2 ^ 1 ∧ 2 ^ 1 ≤ (2 : Word).toNat) :=
  ⟨⟨(scripted_usable []).2, by decide, rfl, catalog_facts.2.2.2.2.2.2.1, catalog_facts.2.2.2.2.2.2.2.1⟩,
    ⟨(under_open _ _ _ _).1, reset_shaped, rfl, last_device, latch_not_uart⟩, rfl, catalog_facts.2.2.2.2.2.2.1, by decide⟩

theorem witness_RegGetfReadsCell :
    Usable (scripted []) 1 ∧ (scripted []).cfg.hasReg Reg.DSP_CR3 = true ∧
      (scripted []).cfg.field? Reg.DSP_CR3 Fld.SW_Latch1 = some ⟨Fld.SW_Latch1, ⟨21, 1⟩⟩ ∧
      (scripted []).cfg.field? Reg.DSP_CR3 Fld.CHV1 = none :=
  ⟨(scripted_usable []).2, by decide, ⟨catalog_facts.2.2.2.2.2.2.1, catalog_facts.2.2.2.2.2.2.2.1⟩⟩

theorem witness_CrcFollowsPseudocode : Open State.reset := reset_open

theorem witness_CrcCheckComparesFifthByte : Open State.reset := reset_open

/-- The read frame of the last register and a write frame of the high half of the last control register; a frame that
RDREG and WRREG could send, with another count. -/
theorem witness_XferIsOneTransaction :
    Usable (scripted []) 0 ∧ (scripted []).forms 0 ((scripted []).readFrame 0 Reg.DSP_REG15) ∧
      (scripted []).forms 0 (frame ((scripted []).flen 0)
        (writeBody ((scripted []).cfg.addr Reg.US_REG1 + 1) 0xFF 0xFF)) ∧
      ¬ ((scripted []).forms 0 ((scripted []).readFrame 0 Reg.DSP_REG15) ∧ 4 = (scripted []).flen 0) :=
  ⟨(scripted_usable []).1, .inl ⟨_, catalog_facts.2.1, rfl⟩, .inr ⟨_, _, _, _, catalog_facts.2.2.2.1, .inr rfl, rfl⟩,
    fun h => absurd (h.2.trans (scripted_flen [])) (by decide)⟩

/-- A short reply, a long one, a wrong CRC byte, a good reply, and one of `UART_REG` that warns; CRC framing on and off. -/
theorem witness_RdregFollowsItsRule :
    Usable (scripted [[1, 2, 3, 4]]) 0 ∧ (scripted []).cfg.hasReg Reg.US_REG1 = true ∧
      (scripted [[1, 2, 3, 4]]).nextReply.1.length ≠ (scripted [[1, 2, 3, 4]]).flen 0 ∧
      (scripted [[7, 0, 0, 0, 0x62, 0]]).nextReply.1.length ≠ (scripted [[7, 0, 0, 0, 0x62, 0]]).flen 0 ∧
      ((scripted [[7, 0, 0, 0, 0x63]]).nextReply.1.length = (scripted [[7, 0, 0, 0, 0x63]]).flen 0 ∧
        (scripted [[7, 0, 0, 0, 0x63]]).flen 0 = 5 ∧ crc8Seq ([7, 0, 0, 0, 0x63].take 4) ≠ [7, 0, 0, 0, 0x63].getD 4 0) ∧
      ((scripted [[7, 0, 0, 0, 0x62]]).nextReply.1.length = (scripted [[7, 0, 0, 0, 0x62]]).flen 0 ∧
        crc8Seq ([7, 0, 0, 0, 0x62].take 4) = [7, 0, 0, 0, 0x62].getD 4 0) ∧
      ((crcOff [[7, 0, 0, 0]]).nextReply.1.length = (crcOff [[7, 0, 0, 0]]).flen 0) :=
  ⟨(scripted_usable _).1, by decide, by decide +kernel⟩

theorem witness_WrregMakesTwoTransactions :
    Usable (scripted []) 1 ∧ (scripted []).cfg.isControl Reg.US_REG1 = true := ⟨(scripted_usable []).2, catalog_facts.2.2.2.1⟩

/-- A poll reply with both latch bits set, and one with both clear. -/
def stillSet : List Byte := [0xE0, 4, 0x60, 0, 0x3A]
def nowClear : List Byte := [0xE0, 4, 0, 0, 0xCF]

theorem poll_replies :
    replyError 5 stillSet = none ∧ Config.standard.showsLatch true true stillSet = true ∧ replyError 5 nowClear = none ∧
      Config.standard.showsLatch true true nowClear = false ∧ (∀ replies, (scripted replies).flen 0 = 5) ∧
      replyError 5 [0xE0, 4, 0x40, 0, 0x95] = some .crcMismatch :=
  ⟨by decide +kernel, by decide, by decide +kernel, by decide, scripted_flen, by decide +kernel⟩

theorem low_samples (replies : List (List Byte)) {n : Nat} (h : n ≤ 3) : (scripted replies).noCancel n := fun _ =>
  ⟨List.replicate (3 - n) false, by rw [← List.replicate_add, Nat.add_sub_cancel' h]; rfl⟩

/-- A budget of one poll, and of none. -/
theorem witness_LatchTimesOutWhenNeverCleared :
    (Usable (scripted ([] :: [] :: ([stillSet] ++ []))) 0 ∧
      (scripted ([] :: [] :: ([stillSet] ++ []))).noCancel (1 : Word).toNat ∧ [stillSet].length = (1 : Word).toNat ∧
      ∀ p ∈ [stillSet], replyError ((scripted ([] :: [] :: ([stillSet] ++ []))).flen 0) p = none ∧
        Config.standard.showsLatch true true p = true) ∧
    (Usable (scripted ([] :: [] :: ([] ++ []))) 1 ∧ (scripted ([] :: [] :: ([] ++ []))).noCancel (0 : Word).toNat) :=
  ⟨⟨(scripted_usable _).1, low_samples _ (by decide), rfl,
    by simpa using ⟨poll_replies.1, poll_replies.2.1⟩⟩, (scripted_usable _).2, low_samples _ (by decide)⟩

/-- Clear at the last poll of a budget of two, and at the first of a budget of one. -/
theorem witness_LatchSucceedsOnFirstClearPoll :
    (Usable (scripted ([] :: [] :: ([stillSet] ++ nowClear :: []))) 0 ∧
      (scripted ([] :: [] :: ([stillSet] ++ nowClear :: []))).noCancel ([stillSet].length + 1) ∧
      [stillSet].length < (2 : Word).toNat ∧
      (∀ p ∈ [stillSet], replyError ((scripted ([] :: [] :: ([stillSet] ++ nowClear :: []))).flen 0) p = none ∧
        Config.standard.showsLatch true true p = true) ∧
      replyError ((scripted ([] :: [] :: ([stillSet] ++ nowClear :: []))).flen 0) nowClear = none ∧
      Config.standard.showsLatch true true nowClear = false) ∧
    (Usable (scripted ([] :: [] :: ([] ++ nowClear :: []))) 1 ∧
      (scripted ([] :: [] :: ([] ++ nowClear :: []))).noCancel (([] : List (List Byte)).length + 1) ∧
      ([] : List (List Byte)).length < (1 : Word).toNat) :=
  ⟨⟨(scripted_usable _).1, low_samples _ (by decide), by decide,
    by simpa using ⟨poll_replies.1, poll_replies.2.1⟩, poll_replies.2.2.1, poll_replies.2.2.2.1⟩,
    (scripted_usable _).2, low_samples _ (by decide), by decide⟩

theorem witness_LatchCornerCases :
    Usable (scripted [[], [], stillSet]) 0 ∧ (1 : Word) ≠ 0 ∧ (scripted [[], [], stillSet]).noCancel 1 ∧
      (scripted [[], [], stillSet]).replies = [] :: [] :: stillSet :: [] ∧
      replyError ((scripted [[], [], stillSet]).flen 0) stillSet = none :=
  ⟨(scripted_usable _).1, by decide, low_samples _ (by decide), rfl, poll_replies.1⟩

/-- After one poll that shows the bits set: a high sample, a corrupted reply; and a block without the cancel input. -/
theorem witness_LatchEndsEarly :
    (Usable (scripted ([] :: [] :: ([stillSet] ++ [[0xE0, 4, 0x40, 0, 0x95]]))) 0 ∧ [stillSet].length < (2 : Word).toNat ∧
      (∀ p ∈ [stillSet], replyError ((scripted ([] :: [] :: ([stillSet] ++ [[0xE0, 4, 0x40, 0, 0x95]]))).flen 0) p = none ∧
        Config.standard.showsLatch true true p = true) ∧
      (scripted ([] :: [] :: ([stillSet] ++ [[0xE0, 4, 0x40, 0, 0x95]]))).noCancel ([stillSet].length + 1) ∧
      replyError ((scripted ([] :: [] :: ([stillSet] ++ [[0xE0, 4, 0x40, 0, 0x95]]))).flen 0) [0xE0, 4, 0x40, 0, 0x95] =
        some .crcMismatch) ∧
    (Usable { scripted ([] :: [] :: ([stillSet] ++ [])) with cancels := [false, true] } 0 ∧
      Config.standard.hasCancel = true ∧ [false, true] = List.replicate [stillSet].length false ++ true :: []) ∧
    ((under .binary64 .quotient false false).cfg.hasCancel = false ∧
      ∃ t, exec (.latch 0 true true 2 1) { under .binary64 .quotient false false with replies := [[], [], stillSet] } = .next t) :=
  ⟨⟨(scripted_usable _).1, by decide, by simpa using ⟨poll_replies.1, poll_replies.2.1⟩, low_samples _ (by decide),
    by rw [scripted_flen]; exact poll_replies.2.2.2.2.2⟩, ⟨(scripted_usable []).1, rfl, rfl⟩, rfl,
    latch_next (s := { under .binary64 .quotient false false with replies := [[], [], stillSet] })
      (under_open .binary64 .quotient false false).1 first_device true true 2 1⟩

theorem witness_LatchStateTellsOutcome : (scripted []).Shaped ∧ (scripted []).NoReset ∧
    ∃ t, exec (.latch 1 true false 2 1) (scripted []) = .next t :=
  ⟨reset_shaped, rfl, latch_next (scripted_usable []).2.1 last_device _ _ _ _⟩

theorem witness_CrcintendRecordsIntention : Usable (scripted []) 1 := (scripted_usable []).2

/-- For the rules of the whole machine: an operation that answers a next state, on device 1 and not on 0. -/
theorem witness_whole_machine : (scripted []).NoReset ∧
    (∃ t, exec (.rdreg 1 Reg.DSP_CR1) (scripted []) = .next t) ∧ Instr.dev? (.rdreg 1 Reg.DSP_CR1) ≠ some 0 :=
  ⟨rfl, rdreg_next (scripted_usable []).2.1 last_device catalog_facts.1, by decide⟩

theorem witness_SelectLineDiscipline : (scripted []).NoReset ∧ (scripted []).Quiet ∧
    ∃ t, exec (.rdreg 1 Reg.DSP_CR1) (scripted []) = .next t := by
  refine ⟨rfl, ⟨rfl, fun v hv => ?_⟩, witness_whole_machine.2.1⟩
  rw [List.eq_of_mem_replicate (show v ∈ List.replicate 2 (Dev.reset Config.standard) from hv)]
  rfl

theorem witness_OnlyControlRegistersAreWritten : (scripted []).NoReset ∧
    ∃ t, exec (.rdreg 1 Reg.DSP_CR1) (scripted []) = .next t := ⟨rfl, witness_whole_machine.2.1⟩

theorem witness_DevicesAreIsolated : (scripted []).NoReset ∧
    (∃ t, exec (.rdreg 1 Reg.DSP_CR1) (scripted []) = .next t) ∧ Instr.dev? (.rdreg 1 Reg.DSP_CR1) ≠ some 0 :=
  witness_whole_machine

theorem witness_OnlyLatchChangesLatchState : (scripted []).NoReset ∧
    (∃ t, exec (.rdreg 1 Reg.DSP_CR1) (scripted []) = .next t) ∧
    (∀ d c1 c2 n iv, Instr.rdreg 1 Reg.DSP_CR1 ≠ .latch d c1 c2 n iv) ∧
    ∀ d n iv, Instr.rdreg 1 Reg.DSP_CR1 ≠ .rdboth d n iv :=
  ⟨rfl, witness_whole_machine.2.1, fun _ _ _ _ _ h => Instr.noConfusion h, fun _ _ _ h => Instr.noConfusion h⟩

/-- With the drift flag set before. -/
theorem witness_OnlyCrcintendClearsWarning : ((scripted []).setWarn 1 true).NoReset ∧
    (∃ t, exec (.rdreg 1 Reg.DSP_CR1) ((scripted []).setWarn 1 true) = .next t) ∧
    (∀ d b, Instr.rdreg 1 Reg.DSP_CR1 ≠ .crcintend d b) ∧ (((scripted []).setWarn 1 true).dev 1).warnDrift = true :=
  ⟨rfl, rdreg_next (s := (scripted []).setWarn 1 true) (scripted_usable []).2.1 last_device catalog_facts.1,
    fun _ _ h => Instr.noConfusion h, rfl⟩

theorem witness_ParametersNeverChange : step (scripted []) = .next (scripted []) := rfl

theorem witness_OneResultPerOperation : (scripted []).NoReset ∧
    ∃ t, exec (.rdreg 1 Reg.DSP_CR1) (scripted []) = .next t := ⟨rfl, witness_whole_machine.2.1⟩

/-- An operation that ends with each error an operation can end with: `UnknownField`, `LatchTimeout`, `Cancelled`,
`ShortReply`, `CrcMismatch`. -/
theorem witness_ErrorsComeFromTheirOperations :
    resultsOf (exec (.regGetf 0 Reg.DSP_CR3 Fld.CHV1) (scripted [])) = [.err .unknownField] ∧
    resultsOf (exec (.latch 0 true true 0 1) (scripted [])) = [.err .latchTimeout] ∧
    resultsOf (exec (.latch 0 true true 1 1) { scripted [[], []] with cancels := [true] }) = [.err .cancelled] ∧
    resultsOf (exec (.rdreg 0 Reg.DSP_CR3) (scripted [[]])) = [.err .shortReply] ∧
    resultsOf (exec (.rdreg 0 Reg.DSP_CR3) (scripted [[0, 0, 0, 0, 1]])) = [.err .crcMismatch] := by
  refine ⟨?_, ?_, ?_, ?_, ?_⟩ <;> decide +kernel

/-- Each clause: selectors beside a listed one and at the ends, a busy block, a catalog with no registers, the first device
index past the last, a register past the last, a data register, addresses one past a register's and the highest ones. -/
theorem witness_UnformableRequestsAreRefused :
    (∀ sel ∈ ([0x00, 0x12, 0x63, 0xFF] : List Byte), sel ∉ ([0x10, 0x11, 0x20, 0x21, 0x22, 0x23, 0x24, 0x30, 0x31, 0x32,
      0x40, 0x41, 0x42, 0x43, 0x44, 0x50, 0x51, 0x52, 0x53, 0x54, 0x60, 0x61, 0x62] : List Byte)) ∧
    ({ scripted [] with port := [⟨.host, [0xFF]⟩] } : State).resetNow = false ∧
    ((scripted []).begin (.cfgread 0)).seq ≠ .idle ∧
    (State.resetWith { Config.standard with catalog := [] }).seq = .idle ∧
    ({ Config.standard with catalog := [] } : Config).admitted = false ∧
    (Usable (scripted []) 0 ∧ Instr.dev? (.rdreg 2 0) = some 2 ∧ ¬ (scripted []).HasDev 2) ∧
    (scripted []).cfg.hasReg 21 = false ∧
    (Config.standard.hasReg Reg.DSP_REG15 = true ∧ Config.standard.isControl Reg.DSP_REG15 = false) ∧
    (∀ a ∈ ([0x4B, 0xFD] : List Byte), a.toNat ≤ 0xFD ∧ ∀ x ∈ Config.standard.catalog, x.address ≠ a) ∧
    ∀ a ∈ ([0x4C, 0xFE] : List Byte), a.toNat ≤ 0xFE ∧ ∀ x ∈ Config.standard.catalog, x.address ≠ a ∧ x.address + 1 ≠ a :=
  ⟨by decide, by decide, by decide, rfl, by decide, ⟨(scripted_usable []).1, rfl, no_third_device⟩, by decide, by decide,
    by decide, by decide⟩

theorem witness_GainIsExact : Open State.reset := reset_open

theorem witness_ConversionsFollowFormulas :
    Open State.reset ∧ State.reset.cfg.numerics = .binary64 ∧ (-12289 : Code).toInt ≠ -12288 :=
  ⟨reset_open, rfl, by decide⟩

theorem witness_ConversionReferenceValues :
    (-12287 : Code).toInt ≠ -12288 ∧ Open (under .exact .quotient false true) ∧
      (under .exact .quotient false true).cfg.numerics = .exact := ⟨by decide, under_open _ _ _ _, rfl⟩

/-- The largest raw code and both ends of the calibration codes. -/
theorem witness_ConversionsWithinTolerance :
    (131071 : Word).toNat < 2 ^ 17 ∧ 0 ≤ (0 : Code).toInt ∧ (0 : Code).toInt ≤ 4095 ∧ 0 ≤ (4095 : Code).toInt ∧
      (4095 : Code).toInt ≤ 4095 := by decide

theorem witness_ConversionsAtZeroGain :
    (-12288 : Code).toInt = -12288 ∧
    (Open (under .binary64 .refuse false true) ∧ (under .binary64 .refuse false true).cfg.zeroGain = .refuse) ∧
    (Open (under .exact .quotient false true) ∧ (under .exact .quotient false true).cfg.zeroGain = .quotient) :=
  ⟨by decide, ⟨under_open _ _ _ _, rfl⟩, under_open _ _ _ _, rfl⟩

/-- The operands of the spec's first CALDRV vector (nominal 230 and 5, averages 5584 and 35000, prior codes 2048), and
averages whose voltage code is the last that fits an `i16` and the first that does not, at either end. -/
theorem witness_CaldrvFollowsLaw :
    (Open State.reset ∧ State.reset.cfg.numerics = .binary64) ∧
    (let f := F64.ofBits
     let dec := F64.ofDec
     let div := (dec 1 1).add ((dec 998000 1).div (dec 499 1))
     let xv := ((((f 0x406CC00000000000).mul (gain 2048)).mul (dec 2 1)).mul (dec 32768 1)).div ((dec 118 100).mul div)
     let xi := ((((((f 0x4014000000000000).mul (gain 2048)).mul (dec 2 1)).mul (dec 131072 1)).mul
       (dec 3115264797 100000000000)).mul (dec 1 1)).div (dec 118 100)
     let law := fun x a : F64 => (((dec 14336 1).mul (x.div a)).sub (dec 12288 1)).trunc0?
     (f 0x406CC00000000000).isFinite = true ∧ (f 0x4014000000000000).isFinite = true ∧
       (f 0x40B5D00000000000).isFinite = true ∧ (f 0x40E1170000000000).isFinite = true ∧
       (f 0x40B5D00000000000).isZero = false ∧ (f 0x40E1170000000000).isZero = false ∧
       law xv (f 0x40B5D00000000000) = some 2052 ∧ law xi (f 0x40E1170000000000) = some 113 ∧
       law xv (f 0x409BC54D0551D3AD) = some 32767 ∧ law xv (f 0x409BC524A0A2152A) = some 32768 ∧
       law xv (f 0xC0AE8BF40815F140) = some (-32768) ∧ law xv (f 0xC0AE8B924A116776) = some (-32769)) :=
  ⟨⟨reset_open, rfl⟩, by decide +kernel⟩

/-- The same operands under exact numerics, and the current code at either end of an `i16` and one past it. -/
theorem witness_CaldrvExactLaw :
    (Open (under .exact .quotient false true) ∧ (under .exact .quotient false true).cfg.numerics = .exact) ∧
    (let nv : Frac := ⟨230, 1⟩
     let ni : Frac := ⟨5, 1⟩
     let av : Frac := ⟨5584, 1⟩
     let same := fun (b : Bits64) (a : Frac) =>
       (F64.ofBits b).frac?.any (fun x => decide (x.num * a.den = a.num * x.den ∧ x.num ≠ 0))
     let value := fun a : Frac => (a.num : ℚ) / a.den
     let g := fun c : Code => (c.toInt : ℚ) / 16384 + 3 / 4
     let trunc := fun q : ℚ => if 0 ≤ q then ⌊q⌋ else ⌈q⌉
     let ci := fun (b : Bits64) (ai : Frac) (z : Int) => same b ai = true ∧
       trunc (14336 * (value ni * g 2048 * 262144 * (3115264797 / 10 ^ 11) / (118 / 100) / value ai) - 12288) = z
     same 0x406CC00000000000 nv = true ∧ same 0x4014000000000000 ni = true ∧ same 0x40B5D00000000000 av = true ∧
       trunc (14336 * (value nv * g 2048 * 65536 / (118 / 100 * 2001) / value av) - 12288) = 2052 ∧
       ci 0x40E1170000000000 ⟨35000, 1⟩ 113 ∧ ci 0x40C2D10CB5CBC401 ⟨5296402100634625, 549755813888⟩ 32767 ∧
       ci 0x40C2D0F157418BF7 ⟨5296284550401015, 549755813888⟩ 32768 ∧
       ci 0xC0D4B29103078E1E ⟨-2912917712520975, 137438953472⟩ (-32768) ∧
       ci 0xC0D4B24EC8DBCED8 ⟨-728193872656859, 34359738368⟩ (-32769)) :=
  ⟨⟨under_open _ _ _ _, rfl⟩, by decide +kernel⟩

/-- An average of 0, an infinite nominal value, a NaN average; a law without a finite value; codes at the ends of the range,
one past it, and inside it. -/
theorem witness_CaldrvOutsideDomain :
    (Open State.reset ∧ State.reset.cfg.numerics = .binary64) ∧
    ((F64.ofBits 0).isZero = true ∧ (F64.ofBits 0x7FF0000000000000).isFinite = false ∧
      (F64.ofBits 0x7FF8000000000000).isFinite = false) ∧
    ((F64.ofBits 0x7FE0000000000000).isFinite = true ∧
      law (targetV (.ofBits 0x7FE0000000000000) 2048) (.ofBits 0x3FF0000000000000) = none) ∧
    (let v := fun a : Bits64 => deriveV .binary64 (.ofBits 0x406CC00000000000) (.ofBits a) 2048
     v 0 = none ∧ v 0x409BC54D0551D3AD = some 32767 ∧ v 0x409BC524A0A2152A = none ∧
       v 0xC0AE8BF40815F140 = some (-32768) ∧ v 0xC0AE8B924A116776 = none) ∧
    deriveI .binary64 (.ofBits 0x4014000000000000) (.ofBits 0x40E1170000000000) 2048 = some 113 :=
  ⟨⟨reset_open, rfl⟩, by decide +kernel, by decide +kernel, by decide +kernel, by decide +kernel⟩

theorem witness_CaldrvMidpoint :
    (F64.ofBits 0x406CC00000000000).isFinite = true ∧ (F64.ofBits 0x406CC00000000000).isZero = false := by decide +kernel

theorem witness_CalsetWritesFourRegisters :
    Usable (scripted []) 1 ∧
      [Config.standard.calV1, Config.standard.calI1, Config.standard.calV2, Config.standard.calI2].Nodup :=
  ⟨(scripted_usable []).2, by decide⟩

/-- The state after an operation. -/
def next (i : Instr) (s : State) : State :=
  match exec i s with
  | .next t => t
  | _ => s

/-- LATCH times out; LATCH succeeds, then the first read fails; both succeed and the second read fails; all succeed. -/
theorem witness_RdbothComposesItsParts :
    (scripted []).Ready ∧ (scripted []).NoReset ∧
    (next (.latch 0 true true 0 1) (scripted [])).results = (scripted []).results ++ [.err .latchTimeout] ∧
    (let s := scripted [[], [], nowClear, [0x80, 0x3E, 0x10, 0x27, 0x5E], [0, 0x7D, 0x40, 0x1F, 0xF0]]
     let s1 := next (.latch 0 true true 1 1) s
     let s2 := next (.rdreg 0 s.cfg.rms1.reg) s1
     let s3 := next (.rdreg 0 s.cfg.rms2.reg) s2
     s1.results = s.results ++ [.ok .none] ∧ s2.results = s1.results ++ [.ok .none] ∧ s3.results = s2.results ++ [.ok .none]) ∧
    (let s := scripted [[], [], nowClear, [0x80, 0x3E, 0x10, 0x27, 0x5E], []]
     let s2 := next (.rdreg 0 s.cfg.rms1.reg) (next (.latch 0 true true 1 1) s)
     s2.results = [.ok .none, .ok .none] ∧ (next (.rdreg 0 s.cfg.rms2.reg) s2).results = s2.results ++ [.err .shortReply]) ∧
    (let s := scripted [[], [], nowClear, []]
     let s1 := next (.latch 0 true true 1 1) s
     s1.results = [.ok .none] ∧ (next (.rdreg 0 s.cfg.rms1.reg) s1).results = s1.results ++ [.err .shortReply]) :=
  ⟨(scripted_usable []).1.1, rfl, by decide +kernel, by decide +kernel, by decide +kernel, by decide +kernel⟩

theorem witness_RdbothReturnsMeasurement :
    let s := scripted [[], [], nowClear, [0x80, 0x3E, 0x10, 0x27, 0x5E], [0, 0x7D, 0x40, 0x1F, 0xF0]]
    Usable s 0 ∧ s.noCancel 1 ∧ (1 : Word) ≠ 0 ∧ s.cfg.rms1.reg ≠ s.cfg.rms2.reg ∧ replyError (s.flen 0) nowClear = none ∧
      s.cfg.showsLatch true true nowClear = false ∧ replyError (s.flen 0) [0x80, 0x3E, 0x10, 0x27, 0x5E] = none ∧
      replyError (s.flen 0) [0, 0x7D, 0x40, 0x1F, 0xF0] = none ∧
      s.cfg.latchReg ∉ [s.cfg.calV1.reg, s.cfg.calI1.reg, s.cfg.calV2.reg, s.cfg.calI2.reg] ∧
      s.cfg.field? s.cfg.rms1.reg s.cfg.rms1.vFld = some ⟨Fld.V1_RMS, ⟨0, 15⟩⟩ ∧
      s.cfg.field? s.cfg.rms1.reg s.cfg.rms1.iFld = some ⟨Fld.C1_RMS, ⟨15, 17⟩⟩ ∧
      s.cfg.field? s.cfg.rms2.reg s.cfg.rms2.vFld = some ⟨Fld.V2_RMS, ⟨0, 15⟩⟩ ∧
      s.cfg.field? s.cfg.rms2.reg s.cfg.rms2.iFld = some ⟨Fld.C2_RMS, ⟨15, 17⟩⟩ :=
  ⟨(scripted_usable _).1, low_samples _ (by decide), by decide, by decide, by decide +kernel, by decide, by decide +kernel,
    by decide +kernel, by decide, by decide, by decide, by decide, by decide⟩

/-- The read-back of a device that holds the shadow's words. -/
def readBack : List (List Byte) := Config.standard.ctrl.map fun r => frame 5 (leBytes (State.reset.encodeReg 0 r))

theorem readBack_reads : readBack.length = Config.standard.ctrl.length ∧
    Config.standard.readsWell 5 (Config.standard.ctrl.zip readBack) = true ∧
    Config.standard.readsWell 5 (Config.standard.ctrl.zip (readBack.take 16)) = true ∧
    Config.standard.lengthAfter 5 (Config.standard.ctrl.zip (readBack.take 16)) = 5 ∧
    Config.standard.ctrl[(readBack.take 16).length]? = some Reg.US_REG1 := by
  decide +kernel

/-- Parameters under which the first register read decides the CRC mode of the frames after it. -/
def firstDecides : Config := { Config.standard with uartReg := Reg.DSP_CR1, crcEnF := Fld.ENVREF1 }

/-- Good replies to all; an answer that ends it at the last register; and a first reply that turns CRC framing off, with a
second that is one byte too long for the mode it left. -/
theorem witness_CfgreadRefreshesControlRegisters :
    (Usable (scripted (readBack ++ [])) 0 ∧ readBack.length = Config.standard.ctrl.length ∧
      Config.standard.readsWell ((scripted (readBack ++ [])).flen 0) (Config.standard.ctrl.zip readBack) = true) ∧
    (Usable (scripted (readBack.take 16 ++ [] :: [])) 0 ∧
      Config.standard.readsWell ((scripted (readBack.take 16 ++ [] :: [])).flen 0)
        (Config.standard.ctrl.zip (readBack.take 16)) = true ∧
      Config.standard.ctrl[(readBack.take 16).length]? = some Reg.US_REG1 ∧
      replyError (Config.standard.lengthAfter ((scripted (readBack.take 16 ++ [] :: [])).flen 0)
        (Config.standard.ctrl.zip (readBack.take 16))) [] = some .shortReply) ∧
    (firstDecides.admitted = true ∧ (State.resetWith firstDecides).flen 0 = 5 ∧
      firstDecides.readsWell 5 (firstDecides.ctrl.zip [[0x80, 0, 0, 4, 0x2D]]) = true ∧
      firstDecides.lengthAfter 5 (firstDecides.ctrl.zip [[0x80, 0, 0, 4, 0x2D]]) = 4 ∧
      firstDecides.readFrames 5 (firstDecides.ctrl.zip [[0x80, 0, 0, 4, 0x2D], [0xA0, 0, 0, 0x24, 3]]) =
        [[0, 255, 255, 255, 0x0F], [2, 255, 255, 255]] ∧ replyError 4 [0xA0, 0, 0, 0x24, 3] = some .shortReply) := by
  refine ⟨⟨(scripted_usable _).1, readBack_reads.1, ?_⟩, ⟨(scripted_usable _).1, ?_, readBack_reads.2.2.2.2, ?_⟩, ?_⟩
  · rw [scripted_flen]; exact readBack_reads.2.1
  · rw [scripted_flen]; exact readBack_reads.2.2.1
  · rw [scripted_flen, readBack_reads.2.2.2.1]; rfl
  · decide +kernel

/-- The same after the answers to the 34 writes; a register whose word comes back changed in its low byte. -/
theorem witness_CfgapplyListsDifferingRegisters :
    (Usable (scripted (List.replicate 34 [] ++ (readBack ++ []))) 0 ∧
      (List.replicate 34 ([] : List Byte)).length = 2 * Config.standard.ctrl.length ∧
      readBack.length ≤ Config.standard.ctrl.length ∧
      Config.standard.readsWell ((scripted (List.replicate 34 [] ++ (readBack ++ []))).flen 0)
        (Config.standard.ctrl.zip readBack) = true) ∧
    (Usable (scripted (List.replicate 34 [] ++ (readBack.take 16 ++ [] :: []))) 0 ∧
      replyError (Config.standard.lengthAfter ((scripted (List.replicate 34 [] ++ (readBack.take 16 ++ [] :: []))).flen 0)
        (Config.standard.ctrl.zip (readBack.take 16))) [] = some .shortReply) ∧
    rword 3 [0xA1, 0, 0, 4, 0xF5] &&& Config.standard.covered Reg.DSP_CR1 ≠ State.reset.encodeReg 0 Reg.DSP_CR1 := by
  refine ⟨⟨(scripted_usable _).1, rfl, readBack_reads.1.le, ?_⟩, ⟨(scripted_usable _).1, ?_⟩, by decide +kernel⟩
  · rw [scripted_flen]; exact readBack_reads.2.1
  · rw [scripted_flen, readBack_reads.2.2.2.1]; rfl

theorem witness_CfgapplyReportsUnreadTopBytes :
    let s := scripted (List.replicate 34 [] ++ (scripted []).cfg.ctrl.map
      (fun r => frame ((scripted []).flen 0) (leBytes ((scripted []).encodeReg 0 r))) ++ [])
    Usable s 0 ∧ (List.replicate 34 ([] : List Byte)).length = 2 * s.cfg.ctrl.length ∧ s.cfg.readDataBytes = 3 ∧
      ∀ fd, s.cfg.field? s.cfg.uartReg s.cfg.crcEnF = some fd → fd.bits.start < 24 := by
  refine ⟨(scripted_usable _).1, rfl, rfl, fun fd h => ?_⟩
  rw [show fd = ⟨Fld.CRC_EN, ⟨14, 1⟩⟩ from Option.some.inj (h.symm.trans rfl)]
  decide

/-- CRC framing off and on; the last register's address. -/
theorem witness_ReadFrameIsOneTransaction :
    (Usable (crcOff []) 0 ∧ (crcOff []).flen 0 = 4) ∧ (Usable (scripted []) 0 ∧ (scripted []).flen 0 = 5) ∧
      (∃ x ∈ (scripted []).cfg.catalog, x.address = 0x4A) ∧ (0 : Byte) ≠ crc8Seq [0x4A, 0xFF, 0xFF, 0xFF] :=
  ⟨crcOff_usable [], ⟨(scripted_usable []).1, scripted_flen []⟩, by decide, by decide +kernel⟩

/-- CRC framing off and on; both write addresses of a control register and both of a data register. -/
theorem witness_WriteFrameIsOneTransaction :
    (Usable (crcOff []) 0 ∧ (crcOff []).flen 0 = 4) ∧ (Usable (scripted []) 0 ∧ (scripted []).flen 0 = 5) ∧
    (∃ x ∈ (scripted []).cfg.catalog, (0x04 : Byte) = x.address ∧ (0x05 : Byte) = x.address + 1 ∧ x.bank = .control) ∧
    (∃ x ∈ (scripted []).cfg.catalog, (0x4A : Byte) = x.address ∧ (0x4B : Byte) = x.address + 1 ∧ x.bank = .data) ∧
    ((6 : Byte) ≠ 4 ∧ (0 : Byte) ≠ crc8Seq [4, 4, 0xE0, 4]) :=
  ⟨crcOff_usable [], ⟨(scripted_usable []).1, scripted_flen []⟩, by decide, by decide, by decide +kernel⟩

/-- CRC framing off and on; a right and a wrong CRC byte. -/
theorem witness_ReplyFrameIsCheckedAndDecoded :
    (Usable (crcOff []) 0 ∧ (crcOff []).cfg.hasReg Reg.DSP_CR1 = true ∧ (crcOff []).flen 0 = 4) ∧
    (Usable (scripted []) 0 ∧ (scripted []).flen 0 = 5 ∧ crc8Seq [0xE0, 4, 0, 0] = 0xCF ∧ crc8Seq [0xE0, 4, 0, 0] ≠ 0xCE) :=
  ⟨⟨(crcOff_usable []).1, catalog_facts.1, (crcOff_usable []).2⟩, (scripted_usable []).1, scripted_flen _, by decide +kernel⟩

/-- CRC framing off and on. -/
theorem witness_RdregIsReadFrameThenReply :
    (Usable (crcOff [[1, 2, 3, 4]]) 0 ∧ (crcOff [[1, 2, 3, 4]]).flen 0 = 4 ∧
      ∃ t, exec (.rdreg 0 Reg.DSP_CR1) (crcOff [[1, 2, 3, 4]]) = .next t) ∧
    (Usable (scripted [nowClear]) 0 ∧ (scripted [nowClear]).flen 0 = 5 ∧
      (scripted [nowClear]).replies = [0xE0, 4, 0, 0, 0xCF] :: [] ∧
      ∃ t, exec (.rdreg 0 Reg.DSP_CR1) (scripted [nowClear]) = .next t) :=
  ⟨⟨(crcOff_usable _).1, (crcOff_usable _).2, rdreg_next (crcOff_usable _).1.1 first_device catalog_facts.1⟩,
    (scripted_usable _).1, scripted_flen _, rfl, rdreg_next (scripted_usable _).1.1 first_device catalog_facts.1⟩

theorem witness_DecodeOfEncode : (Instr.bfEncode ⟨0, 32⟩ 0xFFFFFFFF 0).wf = true ∧ (Instr.cmdWr4 0 0xFE 0xFE 1 2).wf = true := by
  decide

theorem witness_EncodeOfDecode : ∃ i, decode ⟨.host, [0x41, 1, 20]⟩ = .ok i := ⟨_, rfl⟩

theorem witness_StepRunsDecodedOperation :
    let q : Request := ⟨.host, [0x41, 1, 20]⟩
    let s := { scripted [] with port := [q] }
    s.resetNow = false ∧ s.port = q :: [] ∧ decode q = .ok (.rdreg 1 20) ∧ (Instr.rdreg 1 20).wf = true :=
  ⟨by decide, rfl, rfl, rfl⟩

theorem witness_StepKeepsInvariant : (scripted []).Inv ∧ step (scripted []) = .next (scripted []) :=
  ⟨⟨reset_shaped, witness_SelectLineDiscipline.2.1⟩, rfl⟩

theorem witness_ResetGivesTableValues : (State.resetWith Config.standard).HasDev 1 ∧
    Config.standard.field? Reg.DSP_CR3 Fld.SW_Latch1 = some ⟨Fld.SW_Latch1, ⟨21, 1⟩⟩ :=
  ⟨last_device, catalog_facts.2.2.2.2.2.2.1⟩

theorem witness_ResetWordIsCoveredDefault : Config.standard.admitted = true ∧ (State.resetWith Config.standard).HasDev 1 ∧
    Config.standard.hasReg Reg.DSP_REG15 = true := ⟨standard_admitted, last_device, catalog_facts.2.1⟩

/-- Reset due at once; inside an RDREG before its first event, before its result, and one moment after that. -/
theorem witness_ResetAbandonsWithoutResult :
    ({ scripted [] with resets := [0] } : State).resets.head? = some 0 ∧
    (let s := scripted [nowClear]
     ({ { s with resets := 6 :: [0] } with resets := [] } : State) = s ∧
     ∃ t, exec (.rdreg 1 Reg.DSP_CR1) s = .next t ∧ t.trace = s.trace ++ t.trace) ∧
    (let n := (next (.rdreg 1 Reg.DSP_CR1) (scripted [nowClear])).trace.length
     0 ≤ n ∧ 6 ≤ n ∧ n < 7) :=
  ⟨rfl, ⟨rfl, by
    obtain ⟨t, h⟩ := rdreg_next (scripted_usable [nowClear]).2.1 last_device catalog_facts.1
    exact ⟨t, h, rfl⟩⟩, by decide +kernel⟩

theorem witness_TakingAnErrorKeepsCells : (scripted []).Ready ∧
    ({ scripted [] with seq := .busy (.cfgread 0) 0 } : State).resetNow = false ∧
    (raise .unknownField : Op Value) { scripted [] with seq := .busy (.cfgread 0) 0 } =
      .error (.err .unknownField) { scripted [] with seq := .busy (.cfgread 0) 0 } :=
  ⟨(scripted_usable []).1.1, rfl, rfl⟩

end Sys2Proof.Tests
end

section
/-! The parameters and the catalog are not state (R8, R13): what a step can do, and that none of it touches `cfg`. -/

namespace Sys2Proof.Machine

/-- What a step that goes on can be: reset, waiting with no request, or the operation at the front of the port. -/
theorem step_next {s t : State} (h : step s = .next t) :
    (s.resetNow = true ∧ t = s.applyReset) ∨
    (s.resetNow = false ∧ s.port = [] ∧ t = s.pass) ∨
    (s.resetNow = false ∧ ∃ q rest i, s.port = q :: rest ∧ decode q = .ok i ∧ i.wf = true ∧
      exec i { s.pass with port := rest } = .next t) := by
  unfold step at h
  cases hr : s.resetNow with
  | true =>
    rw [hr] at h
    cases h
    exact .inl ⟨rfl, rfl⟩
  | false =>
    rw [hr] at h
    cases hp : s.port with
    | nil =>
      rw [hp] at h
      cases h
      exact .inr (.inl ⟨rfl, rfl, rfl⟩)
    | cons q rest =>
      simp only [hp, Bool.false_eq_true, if_false] at h
      cases hd : decode q with
      | error e =>
        rw [hd] at h
        cases h
      | ok i =>
        simp only [hd] at h
        split at h
        case isTrue hw => exact .inr (.inr ⟨rfl, q, rest, i, rfl, hd, hw, h⟩)
        case isFalse => cases h

/-- The two states have the same parameters and the same catalog. -/
def SameCfg (s t : State) : Prop := t.cfg = s.cfg

theorem updates_sameCfg (d : DevIx) : Updates SameCfg d where
  refl _ := rfl
  trans _ _ _ h1 h2 := h2.trans h1
  event _ _ := rfl
  inputs _ _ _ _ := rfl
  line _ _ := rfl

theorem shake_sameCfg (d : DevIx) : Shake SameCfg SameCfg d where
  toLink := (updates_sameCfg d).link (fun _ _ _ => rfl) (fun _ => rfl)
  cell _ _ _ _ := rfl
  latch _ _ := rfl
  count _ _ := rfl

theorem holds_sameCfg (i : Instr) : Holds SameCfg SameCfg i where
  refl _ := rfl
  trans _ _ _ h1 h2 := h2.trans h1
  cut _ _ _ h1 h2 := h2.trans h1
  store d _ := (shake_sameCfg d).toStore
  shake d _ _ := shake_sameCfg d
  intend _ _ _ _ := rfl

/-- An accepted operation keeps the parameters, whether it ends with a result or reset cuts it short. -/
theorem exec_cfg {i : Instr} {s t : State} (h : exec i s = .next t) : t.cfg = s.cfg := by
  rcases exec_ends (holds_sameCfg i) h with ⟨u, r, hu, rfl⟩ | ⟨u, hu | ⟨hu, -⟩, rfl⟩ <;> exact hu

/-- Settles O28: reset and waiting rewrite other fields, and an operation keeps `cfg` by `exec_cfg`. -/
theorem parametersNeverChange : Obligations.ParametersNeverChange := by
  intro s t h
  rcases step_next h with ⟨-, rfl⟩ | ⟨-, -, rfl⟩ | ⟨-, q, rest, i, -, -, -, he⟩
  · exact s.applyReset_cfg
  · exact s.pass_cfg
  · exact (exec_cfg he).trans s.pass_cfg

end Sys2Proof.Machine
end

section
/-! SUPPORT. The block at rest: what every reset leaves, and what every change an operation makes keeps (spec/10_state.md
R11, R21; spec/43_transport.md R112). -/

namespace Sys2Proof.Machine

/-- The shadow files have the catalog's shape and every select line is high, whatever the sequencer is at: what holds
between any two transactions of an operation, where `State.Inv` holds between operations. -/
def State.AtRest (s : State) : Prop := s.Shaped ∧ ∀ v ∈ s.devs, v.csN = true

theorem State.inv_iff {s : State} : s.Inv ↔ s.AtRest ∧ s.seq = .idle :=
  ⟨fun ⟨hs, hi, hl⟩ => ⟨⟨hs, hl⟩, hi⟩, fun ⟨⟨hs, hl⟩, hi⟩ => ⟨hs, hi, hl⟩⟩

/-! ### Reset -/

/-- Device contexts that all have their reset values are shaped as the catalog, with every line high. -/
theorem State.atRest_of_reset {s : State} (h : s.devs = List.replicate s.cfg.ndev (Dev.reset s.cfg)) : s.AtRest := by
  have hv : ∀ v ∈ s.devs, v = Dev.reset s.cfg := fun v hv => List.eq_of_mem_replicate (h ▸ hv)
  refine ⟨⟨by simp [h], fun v hm => ?_⟩, fun v hm => ?_⟩
  · rw [hv v hm]
    simp [Dev.reset, Config.resetCells, decodeCells]
  · rw [hv v hm]
    rfl

theorem State.applyReset_inv (s : State) : s.applyReset.Inv := State.inv_iff.2 ⟨State.atRest_of_reset rfl, rfl⟩

theorem State.resetWith_inv (c : Config) : (State.resetWith c).Inv := State.inv_iff.2 ⟨State.atRest_of_reset rfl, rfl⟩

/-! ### The changes an operation makes -/

section
variable {s : State} {d : DevIx}

theorem State.AtRest.modDev {g : Dev → Dev} (h : s.AtRest) (hs : (s.modDev d g).Shaped)
    (hg : ∀ v, v.csN = true → (g v).csN = true) : (s.modDev d g).AtRest :=
  ⟨hs, s.forall_modDev d g hg h.2⟩

/-- A change of the flags of a device that drives no line low. -/
theorem State.AtRest.modFlags {g : Dev → Dev} (h : s.AtRest) (hf : ∀ v, (g v).fv = v.fv)
    (hg : ∀ v, v.csN = true → (g v).csN = true) : (s.modDev d g).AtRest :=
  h.modDev (h.1.modDev fun v hv => by rwa [hf v]) hg

theorem State.AtRest.decodeReg (h : s.AtRest) (r : RegName) (w : Word) : (s.decodeReg d r w).AtRest :=
  h.modDev h.1.decodeReg fun _ hv => hv

theorem State.AtRest.setCell (h : s.AtRest) (r : RegName) (f : FldName) (v : Word) : (s.setCell d r f v).AtRest :=
  h.modDev h.1.setCell fun _ hv => hv

theorem State.AtRest.setWarn (h : s.AtRest) (b : Bool) : (s.setWarn d b).AtRest :=
  h.modFlags (fun _ => rfl) fun _ hv => hv

theorem State.AtRest.setIntended (h : s.AtRest) (b : Bool) : (s.setIntended d b).AtRest :=
  h.modFlags (fun _ => rfl) fun _ hv => hv

theorem State.AtRest.setLatch (h : s.AtRest) (l : LatchState) : (s.setLatch d l).AtRest :=
  h.modFlags (fun _ => rfl) fun _ hv => hv

/-- One whole transaction, which ends with its line high. -/
theorem State.AtRest.afterXfer (h : s.AtRest) (cmd : List Byte) (n : Nat) : (s.afterXfer d cmd n).AtRest :=
  show (s.setCsN d true).AtRest from h.modFlags (fun _ => rfl) fun _ _ => rfl

end

/-! ### A transaction, whenever reset lands -/

/-- With reset due, a transaction is cut short, or leaves what it leaves undisturbed with reset due that much earlier. -/
theorem xfer_due {s : State} (h : s.resets = []) (d : DevIx) (cmd : List Byte) (n k : Nat) (rest : List Nat) :
    (∃ u, xfer d cmd n (s.due k rest) = .error .reset u) ∨
      ∃ j, xfer d cmd n (s.due k rest) = .ok s.nextReply.1 ((s.afterXfer d cmd n).due j rest) := by
  obtain ⟨r, t, evs, hrun, -, -, -, -, -, hdue⟩ := counts_xfer (d := d) cmd n h
  obtain ⟨hlate, hcut⟩ := hdue rest
  by_cases hk : k < evs.length
  · obtain ⟨u, hu, -⟩ := hcut k hk
    exact .inl ⟨u, hu⟩
  · obtain ⟨j, rfl⟩ : ∃ j, k = evs.length + j := ⟨k - evs.length, by omega⟩
    rw [xfer_noReset s h] at hrun
    cases r with
    | error e => cases hrun
    | ok a =>
      cases hrun
      exact .inr ⟨j, hlate j⟩

theorem State.eq_due {s : State} {k : Nat} {rest : List Nat} (h : s.resets = k :: rest) :
    s = ({ s with resets := [] } : State).due k rest := by
  rw [State.due, ← h]

/-! ### Every operation -/

/-- From a block at rest the body leaves a block at rest. -/
def KeepsRest (s t : State) : Prop := s.AtRest → t.AtRest

/-- Nothing is asked of the state in which reset cuts a body short: reset rewrites all that `AtRest` speaks of. -/
def Abandoned (_ _ : State) : Prop := True

theorem xfer_keepsRest (d : DevIx) (cmd : List Byte) (n : Nat) : (xfer d cmd n).Ends KeepsRest Abandoned := by
  intro s
  cases hs : s.resets with
  | nil =>
    rw [xfer_noReset s hs]
    exact fun h : s.AtRest => h.afterXfer cmd n
  | cons k rest =>
    rw [State.eq_due hs]
    obtain ⟨u, hu⟩ | ⟨j, hj⟩ := xfer_due (s := { s with resets := [] }) rfl d cmd n k rest
    · rw [hu]
      trivial
    · rw [hj]
      exact fun h : ({ s with resets := [] } : State).AtRest => h.afterXfer cmd n

theorem shake_keepsRest (d : DevIx) : Shake KeepsRest Abandoned d where
  refl _ h := h
  trans _ _ _ h1 h2 h := h2 (h1 h)
  cut _ _ _ _ _ := trivial
  event e s := by
    unfold emit
    cases s.resetNow
    · exact fun h : s.AtRest => h
    · trivial
  xfer := xfer_keepsRest d
  sample s := by
    unfold sampleCancel State.nextCancel
    cases s.cfg.hasCancel
    · exact fun h : s.AtRest => h
    · cases s.cancels <;> exact fun h : s.AtRest => h
  decode _ r w h := h.decodeReg r w
  warn _ h := h.setWarn true
  cell _ r f v h := h.setCell r f v
  latch _ l h := h.setLatch l
  count _ _ h := h

theorem holds_keepsRest (i : Instr) : Holds KeepsRest Abandoned i where
  refl _ h := h
  trans _ _ _ h1 h2 h := h2 (h1 h)
  cut _ _ _ _ _ := trivial
  store d _ := (shake_keepsRest d).toStore
  shake d _ _ := shake_keepsRest d
  intend _ b _ _ h := (h.setIntended b).setWarn false

/-- An accepted operation ends in a state that meets the invariant: with a result and so idle, or by reset. -/
theorem exec_inv {i : Instr} {s t : State} (hs : s.AtRest) (h : exec i s = .next t) : t.Inv := by
  rcases exec_ends (holds_keepsRest i) h with ⟨u, r, hu, rfl⟩ | ⟨u, -, rfl⟩
  · exact State.inv_iff.2 ⟨hu hs, rfl⟩
  · exact u.applyReset_inv

/-- Settles O56: reset establishes the invariant, waiting changes nothing it speaks of, and an operation keeps it by
`exec_inv`. -/
theorem stepKeepsInvariant : Obligations.StepKeepsInvariant := by
  intro s t hs h
  rcases step_next h with ⟨-, rfl⟩ | ⟨-, -, rfl⟩ | ⟨-, q, rest, i, -, -, -, he⟩
  · exact s.applyReset_inv
  · exact hs
  · have hrest : s.AtRest := (State.inv_iff.1 hs).1
    exact exec_inv (s := { s.pass with port := rest }) hrest he

end Sys2Proof.Machine
end

section
/-! SUPPORT. The flags of a device (spec/10_state.md R19, R23): no operation but CRCINTEND writes `crc_intended` or clears
the drift flag. -/

namespace Sys2Proof.Machine

/-- One context has the `crc_intended` of another, and the drift flag where the other has it. -/
def Dev.FlagsKept (v w : Dev) : Prop := w.crcIntended = v.crcIntended ∧ (v.warnDrift = true → w.warnDrift = true)

theorem Dev.FlagsKept.refl (v : Dev) : v.FlagsKept v := ⟨rfl, id⟩

/-- Every context keeps its flags. -/
def FlagsKept (s t : State) : Prop := ∀ d, (s.dev d).FlagsKept (t.dev d)

theorem FlagsKept.refl (s : State) : FlagsKept s s := fun _ => .refl _

theorem FlagsKept.trans (s t u : State) (h1 : FlagsKept s t) (h2 : FlagsKept t u) : FlagsKept s u :=
  fun d => ⟨(h2 d).1.trans (h1 d).1, fun h => (h2 d).2 ((h1 d).2 h)⟩

theorem flagsKept_modDev (s : State) (d : DevIx) {g : Dev → Dev} (hg : ∀ v : Dev, v.FlagsKept (g v)) :
    FlagsKept s (s.modDev d g) := by
  intro d'
  by_cases e : d' = d
  · subst e
    by_cases hl : d'.toNat < s.devs.length
    · rw [s.dev_modDev_same d' g hl]
      exact hg _
    · unfold State.modDev State.dev
      rw [List.modify_eq_self (by omega)]
      exact .refl _
  · rw [s.dev_modDev_other d d' g e]
    exact .refl _

theorem updates_flagsKept (d : DevIx) : Updates FlagsKept d where
  refl := .refl
  trans := .trans
  event _ _ _ := .refl _
  inputs _ _ _ _ _ := .refl _
  line s _ := flagsKept_modDev s d fun _ => .refl _

theorem shake_flagsKept (d : DevIx) : Shake FlagsKept FlagsKept d where
  toLink := (updates_flagsKept d).link (fun s _ _ => flagsKept_modDev s d fun _ => .refl _)
    (fun s => flagsKept_modDev s d fun _ => ⟨rfl, fun _ => rfl⟩)
  cell s _ _ _ := flagsKept_modDev s d fun _ => .refl _
  latch s _ := flagsKept_modDev s d fun _ => .refl _
  count _ _ _ := .refl _

theorem holds_flagsKept {i : Instr} (hi : ∀ d b, i ≠ .crcintend d b) : Holds FlagsKept FlagsKept i where
  refl := .refl
  trans := .trans
  cut := .trans
  store d _ := (shake_flagsKept d).toStore
  shake d _ _ := shake_flagsKept d
  intend d b h := absurd h (hi d b)

/-- Settles O27: nothing an operation other than CRCINTEND is made of writes `crc_intended` or clears the drift flag. -/
theorem onlyCrcintendClearsWarning : Obligations.OnlyCrcintendClearsWarning := by
  intro i s t hn he hi
  obtain ⟨u, r, hu, rfl⟩ := exec_quietly (holds_flagsKept hi) hn he
  exact hu

end Sys2Proof.Machine
end

section
/-! SUPPORT. The shadow files right after reset (spec/10_state.md R11, R16), and the step as the operation it runs (R20). -/

namespace Sys2Proof

section
variable {c : Config} {r : RegName} {f : FldName}

/-- A register outside the catalog has no field. -/
theorem Config.field?_hasReg {x : FieldDesc} (h : c.field? r f = some x) : c.hasReg r = true := by
  cases e : c.reg? r with
  | none => simp [Config.field?, Config.fieldsOf, e] at h
  | some _ => simp [Config.hasReg, e]

/-- The reset cells of a register are the decode of its default word, field by field (R11). -/
theorem Config.resetCells_regIx (h : c.hasReg r = true) :
    c.resetCells[c.regIx r]? = some (decodeCells (c.fieldsOf r) (c.powerOn r)) := by
  have hr := Config.getElem_regIx h
  rw [Config.resetCells, List.getElem?_map, List.getElem?_eq_getElem (Config.regIx_lt.2 h), Option.map_some,
    Config.fieldsOf_eq hr, Config.powerOn, hr]
  rfl

end

end Sys2Proof

namespace Sys2Proof.Machine

section
variable {c : Config} {d : DevIx} {r : RegName}

theorem State.resetWith_dev (hd : (State.resetWith c).HasDev d) : (State.resetWith c).dev d = Dev.reset c := by
  have hd' : d.toNat < c.ndev := hd
  simp [State.dev, State.resetWith, List.getD_eq_getElem?_getD, hd']

theorem State.resetWith_cells (hd : (State.resetWith c).HasDev d) (hr : c.hasReg r = true) :
    (State.resetWith c).cells d r = decodeCells (c.fieldsOf r) (c.powerOn r) := by
  rw [State.cells, State.resetWith_dev hd, List.getD_eq_getElem?_getD]
  exact congrArg (Option.getD · []) (Config.resetCells_regIx hr)

theorem State.resetWith_getCell {f : FldName} {x : FieldDesc} (hd : (State.resetWith c).HasDev d)
    (hf : c.field? r f = some x) : (State.resetWith c).getCell d r f = bfDecode x.bits (c.powerOn r) := by
  rw [State.getCell_eq, State.resetWith_cells hd (Config.field?_hasReg hf)]
  simp [State.resetWith, List.getD_eq_getElem?_getD, decodeCells, Config.getElem_fldIx hf]

theorem State.resetWith_encodeReg (hc : c.admitted = true) (hd : (State.resetWith c).HasDev d) (hr : c.hasReg r = true) :
    (State.resetWith c).encodeReg d r = c.powerOn r &&& c.covered r := by
  rw [State.encodeReg, State.resetWith_cells hd hr]
  exact foldCells_decodeCells (c.fieldsOf r) (apart_fieldsOf hc r).1 (c.powerOn r)

end

/-- A mask leaves a word as it is exactly when the word has no bit outside it. -/
theorem and_mask_eq_self_iff (w m : Word) : w &&& m = w ↔ w &&& ~~~ m = 0 := by
  have hsplit : (w &&& m) ||| (w &&& ~~~ m) = w := by
    rw [← BitVec.and_or_distrib_left, BitVec.or_not_self, BitVec.and_allOnes]
  constructor
  · intro h
    rw [← h, BitVec.and_assoc, BitVec.and_not_self]
    exact BitVec.and_zero
  · intro h
    rw [h] at hsplit
    exact BitVec.or_zero.symm.trans hsplit

/-- Settles O57: every context is `Dev.reset`, whose cells are decoded from the default words. -/
theorem resetGivesTableValues : Obligations.ResetGivesTableValues := by
  refine fun c => ⟨State.resetWith_inv c, rfl, rfl, fun d hd => ?_⟩
  rw [State.resetWith_dev hd]
  exact ⟨rfl, rfl, rfl, rfl, fun _ _ _ hf => State.resetWith_getCell hd hf⟩

/-- Settles O58: folding the cells decoded from the default word gives its covered bits. -/
theorem resetWordIsCoveredDefault : Obligations.ResetWordIsCoveredDefault := by
  intro c d r hc hd hr
  rw [State.resetWith_encodeReg hc hd hr]
  exact ⟨rfl, and_mask_eq_self_iff _ _⟩

/-- Settles O55: with reset not applied, the port not empty and its first request well formed, `step` is its last branch. -/
theorem stepRunsDecodedOperation : Obligations.StepRunsDecodedOperation := by
  intro s q rest i hr hp hd hw
  simp [step, hr, hp, hd, hw]

end Sys2Proof.Machine
end

section
/-! SUPPORT. The frames the block may send (spec/30_encoding.md R62, R63, R69), as a property of the events of an operation. -/

namespace Sys2Proof.Machine

/-- A command frame R69 (b) and (c) allow under parameters `c`, the CRC byte of R64 appended or not. -/
def Sendable (c : Config) (f : List Byte) : Prop :=
  ∃ body, (f = body ∨ f = body ++ [crc8Seq body]) ∧
    ((∃ r, body = [c.addr r, 0xFF, 0xFF, 0xFF] ∧ c.hasReg r = true) ∨
     (∃ r l m, c.isControl r = true ∧
        (body = [c.addr r, c.addr r, l, m] ∨ body = [c.addr r + 1, c.addr r + 1, l, m])))

/-- Every command frame among some events is one of those. -/
def SendsOnly (c : Config) (evs : List Event) : Prop := ∀ f ∈ framesSent evs, Sendable c f

theorem frame_eq_or (n : Nat) (body : List Byte) : frame n body = body ∨ frame n body = body ++ [crc8Seq body] := by
  unfold frame
  split
  · exact .inr rfl
  · exact .inl rfl

/-- A transaction sends its command and nothing else. -/
theorem sendsOnly_transaction {c : Config} {cmd : List Byte} (h : Sendable c cmd) (d : DevIx) (n : Nat)
    (reply : List Byte) : SendsOnly c (transaction d cmd n reply) := by
  intro f hf
  rw [framesSent_transaction, List.mem_singleton] at hf
  exact hf ▸ h

theorem sendsOnly_append {c : Config} {a b : List Event} (ha : SendsOnly c a) (hb : SendsOnly c b) :
    SendsOnly c (a ++ b) := by
  intro f hf
  rw [framesSent_append, List.mem_append] at hf
  exact hf.elim (ha f) (hb f)

theorem sendsOnly_of_no_frame {c : Config} {evs : List Event} (h : framesSent evs = []) : SendsOnly c evs := by
  intro f hf
  rw [h] at hf
  cases hf

theorem grammar_sendsOnly (c : Config) (d : DevIx) : Grammar c d (SendsOnly c) where
  nil := sendsOnly_of_no_frame rfl
  append _ _ := sendsOnly_append
  read r k n reply h := sendsOnly_transaction ⟨_, frame_eq_or k _, .inl ⟨r, rfl, h⟩⟩ d n reply
  high r k n reply l m h := sendsOnly_transaction ⟨_, frame_eq_or k _, .inr ⟨r, l, m, h, .inr rfl⟩⟩ d n reply
  low r k n reply l m h := sendsOnly_transaction ⟨_, frame_eq_or k _, .inr ⟨r, l, m, h, .inl rfl⟩⟩ d n reply
  sleep _ := sendsOnly_of_no_frame rfl
  warn := sendsOnly_of_no_frame rfl
  persist _ _ _ _ := sendsOnly_of_no_frame rfl

/-- The events of every operation, whatever error it ends with. -/
theorem speaks_sendsOnly (c : Config) (i : Instr) : Speaks c (SendsOnly c) (fun _ => True) i where
  nil := sendsOnly_of_no_frame rfl
  append _ _ := sendsOnly_append
  grammar d _ := grammar_sendsOnly c d
  checks _ := ⟨trivial, trivial⟩
  waits _ := ⟨⟨trivial, trivial⟩, trivial, trivial⟩
  names _ := trivial

/-- Settles O24: every transaction an operation can make sends a frame of R69 (b), and its other events send none. -/
theorem onlyControlRegistersAreWritten : Obligations.OnlyControlRegistersAreWritten :=
  fun i _ _ hn he => (exec_traces (speaks_sendsOnly _ i) hn he).1

end Sys2Proof.Machine
end

section
/-! SUPPORT. The readers of operands, each against the bytes that the encoder writes (log 3): what a reader reads
is exactly what was written in front of the bytes it leaves. -/

namespace Sys2Proof

/-! ### Bytes of a word -/

section
variable {n : Nat}

theorem lowByte_append (x : BitVec n) (b : Byte) : BitVec.extractLsb' 0 8 (x ++ b) = b :=
  (BitVec.extractLsb'_append_eq_of_add_le (Nat.le_refl 8)).trans BitVec.extractLsb'_eq_self

theorem higherByte_append (x : BitVec n) (b : Byte) (k : Nat) :
    BitVec.extractLsb' (k + 8) 8 (x ++ b) = BitVec.extractLsb' k 8 x :=
  BitVec.extractLsb'_append_eq_of_le (Nat.le_add_left 8 k)

theorem extract_append_byte (x : BitVec n) (k m : Nat) :
    BitVec.extractLsb' (k + 8) m x ++ BitVec.extractLsb' k 8 x = BitVec.extractLsb' k (m + 8) x :=
  BitVec.extractLsb'_append_extractLsb'_eq_extractLsb' rfl

end

theorem halfBytes_append (b0 b1 : Byte) : halfBytes (b1 ++ b0) = [b0, b1] := by
  simp only [halfBytes, lowByte_append, higherByte_append _ _ 0, BitVec.extractLsb'_eq_self]

theorem leBytes_ofLeBytes (b0 b1 b2 b3 : Byte) : Machine.leBytes (Machine.ofLeBytes b0 b1 b2 b3) = [b0, b1, b2, b3] := by
  simp only [Machine.leBytes, Machine.ofLeBytes, Machine.wordByte, Nat.mul_zero, lowByte_append, higherByte_append,
    BitVec.extractLsb'_eq_self]

theorem bits64Bytes_append (b0 b1 b2 b3 b4 b5 b6 b7 : Byte) :
    bits64Bytes (b7 ++ b6 ++ b5 ++ b4 ++ b3 ++ b2 ++ b1 ++ b0) = [b0, b1, b2, b3, b4, b5, b6, b7] := by
  simp only [bits64Bytes, lowByte_append, higherByte_append, BitVec.extractLsb'_eq_self]

/-! ### One operand -/

section
variable {bs rest : List Byte}

@[simp] theorem readByte_eq_ok {b : Byte} : readByte bs = .ok (b, rest) ↔ bs = b :: rest := by
  cases bs <;> simp [readByte]

@[simp] theorem readHalf_eq_ok {h : Half} : readHalf bs = .ok (h, rest) ↔ bs = halfBytes h ++ rest := by
  constructor
  · intro e
    unfold readHalf at e
    split at e <;> cases e
    rw [halfBytes_append]
    rfl
  · rintro rfl
    simp only [readHalf, halfBytes, List.cons_append, List.nil_append, extract_append_byte, BitVec.extractLsb'_eq_self]

@[simp] theorem readWord_eq_ok {w : Word} : readWord bs = .ok (w, rest) ↔ bs = Machine.leBytes w ++ rest := by
  constructor
  · intro e
    unfold readWord at e
    split at e <;> cases e
    rw [leBytes_ofLeBytes]
    rfl
  · rintro rfl
    simp only [readWord, Machine.leBytes, Machine.ofLeBytes, Machine.wordByte, List.cons_append, List.nil_append,
      Nat.reduceMul, extract_append_byte, BitVec.extractLsb'_eq_self]

@[simp] theorem readBits64_eq_ok {x : Bits64} : readBits64 bs = .ok (x, rest) ↔ bs = bits64Bytes x ++ rest := by
  constructor
  · intro e
    unfold readBits64 at e
    split at e <;> cases e
    rw [bits64Bytes_append]
    rfl
  · rintro rfl
    simp only [readBits64, bits64Bytes, List.cons_append, List.nil_append, extract_append_byte,
      BitVec.extractLsb'_eq_self]

@[simp] theorem readBool_eq_ok {b : Bool} : readBool bs = .ok (b, rest) ↔ bs = boolByte b :: rest := by
  cases bs with
  | nil => simp [readBool]
  | cons x bs =>
    by_cases h0 : x = 0
    · cases b <;> simp [readBool, boolByte, h0]
    · by_cases h1 : x = 1
      · cases b <;> simp [readBool, boolByte, h1]
      · rw [readBool, if_neg h0, if_neg h1]
        cases b <;> simp [boolByte] <;> tauto

@[simp] theorem readBytes_eq_ok {n : Nat} {l : List Byte} :
    readBytes n bs = .ok (l, rest) ↔ bs = l ++ rest ∧ l.length = n := by
  unfold readBytes
  split
  case isTrue h =>
    simp only [reduceCtorEq, false_iff, not_and]
    rintro rfl hl
    simp at h
    omega
  case isFalse h =>
    simp only [Except.ok.injEq, Prod.mk.injEq]
    constructor
    · rintro ⟨rfl, rfl⟩
      exact ⟨(List.take_append_drop n bs).symm, List.length_take_of_le (by omega)⟩
    · rintro ⟨rfl, rfl⟩
      exact ⟨List.take_left, List.drop_left⟩

@[simp] theorem readSeq_eq_ok {l : List Byte} : readSeq bs = .ok (l, rest) ↔ bs = l ∧ rest = [] := by
  simp [readSeq, eq_comm]

/-- Two bytes hold a descriptor whose start bit and width less one are bytes (log 3). -/
@[simp] theorem readField_eq_ok {f : BitField} :
    readField bs = .ok (f, rest) ↔ bs = fieldBytes f ++ rest ∧ f.start < 256 ∧ 1 ≤ f.width ∧ f.width ≤ 256 := by
  constructor
  · intro e
    unfold readField at e
    split at e <;> cases e
    rename_i s w
    exact ⟨by simp [fieldBytes], s.isLt, Nat.le_add_left 1 _, w.isLt⟩
  · rintro ⟨rfl, hs, h1, hw⟩
    obtain ⟨s, w⟩ := f
    simp only [readField, fieldBytes, List.cons_append, List.nil_append, BitVec.toNat_ofNat, Except.ok.injEq,
      Prod.mk.injEq, BitField.mk.injEq, and_true]
    dsimp only at hs h1 hw
    omega

theorem bind_eq_ok {ε α β : Type} {m : Except ε α} {k : α → Except ε β} {b : β} :
    (m >>= k) = .ok b ↔ ∃ a, m = .ok a ∧ k a = .ok b := by
  cases m with
  | ok a => simp [bind, Except.bind]
  | error e => simp [bind, Except.bind]

theorem pure_eq_ok {ε α : Type} {a b : α} : (pure a : Except ε α) = .ok b ↔ a = b := by
  simp [pure, Except.pure]

theorem map_eq_ok {ε α β : Type} {m : Except ε α} {f : α → β} {b : β} :
    f <$> m = .ok b ↔ ∃ a, m = .ok a ∧ f a = b := by
  rw [← bind_pure_comp, bind_eq_ok]
  simp only [pure_eq_ok]

@[simp] theorem readFrame_eq_ok {l : List Byte} :
    readFrame bs = .ok (l, rest) ↔ bs = frameBytes l ++ rest ∧ (l.length = 4 ∨ l.length = 5) := by
  simp only [readFrame, bind_eq_ok, Prod.exists, readBool_eq_ok, readBytes_eq_ok, Bool.exists_bool, frameBytes]
  constructor
  · rintro (⟨_, rfl, rfl, hl⟩ | ⟨_, rfl, rfl, hl⟩) <;> simp_all
  · rintro ⟨rfl, hl | hl⟩ <;> simp [hl]

end

end Sys2Proof
end

section
/-! SUPPORT. Decoding and encoding are inverse to each other (spec/30_encoding.md R61 to R65, R70, R72; log 3), selector by
selector. -/

namespace Sys2Proof

section
variable {sel : Byte} {bs : List Byte} {q : Request} {i : Instr}

theorem eq_ofNat_of_toNat {b : Byte} {n : Nat} (h : b.toNat = n) : b = BitVec.ofNat 8 n := by
  rw [← h, BitVec.ofNat_toNat, BitVec.setWidth_eq]

/-- A selector and operands that read as an operation are the bytes that stand for it. -/
theorem encode_of_decodeOperands (h : decodeOperands sel bs = .ok (i, [])) :
    encode i = ⟨if sel = selXfer then .internal else .host, sel :: bs⟩ := by
  unfold decodeOperands at h
  split at h
  case h_24 => cases h
  all_goals
    rename_i hsel
    obtain rfl := eq_ofNat_of_toNat hsel
    simp only [bind_eq_ok, Prod.exists, readByte_eq_ok, readHalf_eq_ok, readWord_eq_ok, readBits64_eq_ok, readBool_eq_ok,
      readSeq_eq_ok, readField_eq_ok, readFrame_eq_ok, pure_eq_ok, Prod.mk.injEq, existsAndEq,
      and_true, true_and, List.append_nil] at h
  -- `h` now lists the operands read; the cases stand in the order of R70's table.
  case h_1 => obtain ⟨f, w, ⟨rfl, -⟩, rfl⟩ := h; rfl
  case h_2 => obtain ⟨f, v, w, ⟨rfl, -⟩, rfl⟩ := h; rfl
  case h_3 => obtain ⟨d, r, w, rfl, rfl⟩ := h; rfl
  case h_4 => obtain ⟨d, r, rfl, rfl⟩ := h; rfl
  case h_5 => obtain ⟨d, r, rfl, rfl⟩ := h; rfl
  case h_6 => obtain ⟨d, r, f, v, rfl, rfl⟩ := h; rfl
  case h_7 => obtain ⟨d, r, f, rfl, rfl⟩ := h; rfl
  case h_8 => obtain ⟨rem, b, rfl, rfl⟩ := h; rfl
  case h_9 => obtain rfl := h; rfl
  case h_10 => obtain ⟨b0, b1, b2, b3, b4, rfl, rfl⟩ := h; rfl
  case h_11 => obtain ⟨d, cmd, rfl, -, rfl⟩ := h; rfl
  case h_12 => obtain ⟨d, r, rfl, rfl⟩ := h; rfl
  case h_13 => obtain ⟨d, r, rfl, rfl⟩ := h; rfl
  case h_14 => obtain ⟨d, c1, c2, n, iv, rfl, rfl⟩ := h; rfl
  case h_15 => obtain ⟨d, b, rfl, rfl⟩ := h; rfl
  case h_16 => obtain ⟨c, rfl, rfl⟩ := h; rfl
  case h_17 => obtain ⟨raw, c, rfl, rfl⟩ := h; rfl
  case h_18 => obtain ⟨raw, c, rfl, rfl⟩ := h; rfl
  case h_19 => obtain ⟨nv, ni, av, ai, pv, pi, rfl, rfl⟩ := h; rfl
  case h_20 => obtain ⟨d, v1, i1, v2, i2, rfl, rfl⟩ := h; rfl
  case h_21 => obtain ⟨d, n, iv, rfl, rfl⟩ := h; rfl
  case h_22 => obtain ⟨d, rfl, rfl⟩ := h; rfl
  case h_23 => obtain ⟨d, rfl, rfl⟩ := h; rfl

/-- A byte sequence is one operation when its first byte is a selector whose operands are the bytes after it, all of them. -/
theorem decodeWhole_eq_ok {bytes : List Byte} :
    decodeWhole bytes = .ok i ↔ ∃ sel bs, bytes = sel :: bs ∧ decodeOperands sel bs = .ok (i, []) := by
  cases bytes with
  | nil => simp [decodeWhole, decodeHost]
  | cons sel bs =>
    have hh : decodeHost (sel :: bs) = decodeOperands sel bs := rfl
    unfold decodeWhole
    rw [hh]
    rcases e : decodeOperands sel bs with _ | ⟨j, _ | ⟨b, rest⟩⟩ <;> simp [e]

/-- A command frame that decodes is the frame that stands for what it decodes to. -/
theorem encode_of_decodeCommand {d : DevIx} (h : decodeCommand d bs = .ok i) : encode i = ⟨.command d, bs⟩ := by
  unfold decodeCommand at h
  split at h
  case h_3 => cases h
  all_goals
    split at h
    case isFalse => cases h; rfl
    case isTrue hw =>
      split at h
      case isFalse => cases h
      case isTrue hs =>
        obtain ⟨rfl, rfl⟩ := hs
        cases hw
        cases h
        rfl

/-- A reply frame that decodes is the frame that stands for what it decodes to. -/
theorem encode_of_decodeReply {d : DevIx} {r : RegName} (h : decodeReply d r bs = .ok i) : encode i = ⟨.reply d r, bs⟩ := by
  unfold decodeReply at h
  split at h <;> cases h <;> rfl

theorem encode_of_decode (h : decode q = .ok i) : encode i = q := by
  obtain ⟨port, bytes⟩ := q
  cases port with
  | host =>
    simp only [decode] at h
    split at h
    case isTrue => cases h
    case isFalse hne =>
      obtain ⟨sel, bs, rfl, hb⟩ := decodeWhole_eq_ok.1 h
      rw [encode_of_decodeOperands hb, if_neg (by simpa using hne)]
  | internal =>
    simp only [decode] at h
    split at h
    case isTrue heq =>
      obtain ⟨sel, bs, rfl, hb⟩ := decodeWhole_eq_ok.1 h
      rw [encode_of_decodeOperands hb, if_pos (by simpa using heq)]
    case isFalse => cases h
  | command d => exact encode_of_decodeCommand h
  | reply d r => exact encode_of_decodeReply h

/-- The operations with a place on the host port are those the host may issue (R70, R111). -/
theorem encode_port_host (i : Instr) : (encode i).port = .host ↔ i.fromHost = true := by
  cases i <;> simp [encode, hostRequest, Instr.fromHost]

/-! ### The other way round -/

theorem decode_hostRequest (hs : sel ≠ selXfer) (h : decodeOperands sel bs = .ok (i, [])) :
    decode (hostRequest sel bs) = .ok i := by
  simp only [decode, hostRequest, List.head?_cons, Option.some.injEq, if_neg hs]
  exact decodeWhole_eq_ok.2 ⟨sel, bs, rfl, h⟩

theorem decode_internal (h : decodeOperands selXfer bs = .ok (i, [])) : decode ⟨.internal, selXfer :: bs⟩ = .ok i := by
  simp only [decode, List.head?_cons, if_true]
  exact decodeWhole_eq_ok.2 ⟨selXfer, bs, rfl, h⟩

/-- The descriptors inside a word (R12) fit two bytes. -/
theorem fieldOk_bytes {f : BitField} (h : Machine.fieldOk f = true) : f.start < 256 ∧ 1 ≤ f.width ∧ f.width ≤ 256 := by
  obtain ⟨h1, h2⟩ := Machine.fieldOk_iff.1 h
  omega

theorem commandOk_length {cmd : List Byte} (h : Machine.commandOk cmd = true) : cmd.length = 4 ∨ cmd.length = 5 := by
  unfold Machine.commandOk at h
  split at h
  · exact .inl rfl
  · exact .inr rfl
  · cases h

theorem decode_encode (h : i.wf = true) : decode (encode i) = .ok i := by
  cases i with
  | bfDecode f w =>
    have hf := fieldOk_bytes h
    exact decode_hostRequest (by decide) (by simp [decodeOperands, bind_eq_ok, map_eq_ok, hf])
  | bfEncode f v w =>
    have hf := fieldOk_bytes h
    exact decode_hostRequest (by decide) (by simp [decodeOperands, bind_eq_ok, map_eq_ok, hf])
  | xfer d cmd n =>
    obtain ⟨hc, rfl⟩ : Machine.commandOk cmd = true ∧ n = cmd.length := by simpa [Instr.wf] using h
    have hl := commandOk_length hc
    exact decode_internal (by simp [decodeOperands, selXfer, bind_eq_ok, map_eq_ok, hl])
  | cmdRd4 d a => rfl
  | cmdRd5 d a c => rfl
  | cmdWr4 d r w l m =>
    obtain ⟨-, hw⟩ : _ ∧ w ≠ 0xFF := by simpa [Instr.wf] using h
    exact if_neg hw
  | cmdWr5 d r w l m c =>
    obtain ⟨-, hw⟩ : _ ∧ w ≠ 0xFF := by simpa [Instr.wf] using h
    exact if_neg hw
  | rpl4 d reg b0 b1 b2 b3 => rfl
  | rpl5 d reg b0 b1 b2 b3 k => rfl
  | _ => exact decode_hostRequest (by decide) (by simp [decodeOperands, bind_eq_ok, map_eq_ok, -Bool.exists_bool])

end

/-! ### The obligations -/

/-- Settles O53: a request is the encoding of what it decodes to, so it stands where that encoding stands. -/
theorem encodeOfDecode : Obligations.EncodeOfDecode := by
  intro q i h
  obtain rfl := encode_of_decode h
  exact ⟨rfl, encode_port_host i⟩

/-- Settles O52: each reader reads back what was written for it, and a frame is read as the one it is. -/
theorem decodeOfEncode : Obligations.DecodeOfEncode := fun _ => decode_encode

/-- Settles O54: on a request written out, `decode` computes. -/
theorem specWordsDecode : Obligations.SpecWordsDecode :=
  ⟨rfl, rfl, rfl, rfl, fun _ => rfl, rfl, rfl, rfl, rfl, rfl, rfl⟩

end Sys2Proof
end

section
/-! SUPPORT. The wire frames as operations (spec/30_encoding.md R60 to R69; log 4): what makes a frame one the block could
send now, and what is left once it is sent or received. -/

namespace Sys2Proof.Machine

section
variable {s : State} {d : DevIx}

/-! ### What is wrong with a frame -/

/-- A frame whose bytes are in order is judged by its address, then by its length (R42, R60). -/
theorem badFrame_frame {r w l m : Byte} {n : Nat} (hd : s.HasDev d) (hb : bodyOk r w l m = true) (hn : n = 4 ∨ n = 5) :
    s.badFrame d (frame n [r, w, l, m]) n =
      (if w = sentinel then s.badReadAddr r else s.badWriteAddr w).or
        (if n = s.flen d then none else some .frameLength) := by
  obtain ⟨hc, hl, h0, h1⟩ := commandOk_of_body hb hn
  simp only [State.badFrame, badDev_none.2 hd, hc, hl, h0, h1, if_true, and_self, Option.none_or]

theorem address_le (ha : s.cfg.admitted = true) {x : RegDesc} (hx : x ∈ s.cfg.catalog) : x.address.toNat ≤ 0xFD :=
  addr_of_mem ha hx ▸ addr_le ha (Config.hasReg_iff.2 ⟨x, hx, rfl⟩)

/-- The read frame of a catalog address can only have the wrong length. -/
theorem badFrame_read {a : Byte} {n : Nat} (hr : s.Ready) (hd : s.HasDev d) (hx : ∃ x ∈ s.cfg.catalog, x.address = a)
    (hn : n = 4 ∨ n = 5) :
    s.badFrame d (frame n (readBody a)) n = if n = s.flen d then none else some .frameLength := by
  have hb : bodyOk a 0xFF 0xFF 0xFF = true := by
    obtain ⟨x, hx, rfl⟩ := hx
    simpa [bodyOk, readAddressOk] using address_le hr.2 hx
  refine (badFrame_frame hd hb hn).trans ?_
  rw [if_pos (show (0xFF : Byte) = sentinel from rfl), badReadAddr_none.2 hx, Option.none_or]

/-- A write address of a catalog register is at most `0xFE` (R13 item 4). -/
theorem writeAddress_le (ha : s.cfg.admitted = true) {x : RegDesc} (hx : x ∈ s.cfg.catalog) {w : Byte}
    (hw : w = x.address ∨ w = x.address + 1) : w.toNat ≤ 0xFE := by
  have hle := address_le ha hx
  rcases hw with rfl | rfl
  · omega
  · rw [BitVec.toNat_add]
    simp
    omega

theorem ne_sentinel {w : Byte} (h : w.toNat ≤ 0xFE) : w ≠ sentinel := by
  rintro rfl
  exact absurd h (by decide)

theorem bodyOk_of_ne {r w l m : Byte} (hw : w ≠ sentinel) : bodyOk r w l m = writeAddressOk r w := if_neg hw

/-- The write frame of a catalog register is judged by the register's bank, then by its length (R60, R69 (c)). -/
theorem badFrame_write {x : RegDesc} {w : Byte} {n : Nat} (hr : s.Ready) (hd : s.HasDev d) (hx : x ∈ s.cfg.catalog)
    (hw : w = x.address ∨ w = x.address + 1) (l m : Byte) (hn : n = 4 ∨ n = 5) :
    s.badFrame d (frame n (writeBody w l m)) n =
      (if x.bank == .control then none else some .dataBank).or (if n = s.flen d then none else some .frameLength) := by
  have hle := writeAddress_le hr.2 hx hw
  have hne := ne_sentinel hle
  have hb : bodyOk w w l m = true := by simpa [bodyOk_of_ne hne, writeAddressOk] using hle
  refine (badFrame_frame hd hb hn).trans ?_
  rw [if_neg hne, State.badWriteAddr, writeTarget_of_mem hr.2 hx hw]

theorem commandOk_wrong_crc {r w l m k : Byte} (h : k ≠ crc8Seq [r, w, l, m]) : commandOk [r, w, l, m, k] = false := by
  simp [commandOk, h]

theorem bodyOk_addresses_differ {r w l m : Byte} (hw : w ≠ sentinel) (h : r ≠ w) : bodyOk r w l m = false := by
  simp [bodyOk_of_ne hw, writeAddressOk, h]

/-! ### What a frame does -/

/-- The result of a read frame whose reply was to have `n` bytes (R113). -/
def readResult (dataBytes n : Nat) (reply : List Byte) : HostResult :=
  match replyError n reply with
  | none => .ok (.word (rword dataBytes reply))
  | some e => .err e

theorem memRead_noReset (hn : s.resets = []) (cmd : List Byte) :
    memRead d cmd s = match replyError cmd.length s.nextReply.1 with
      | none => .ok (.word (rword s.cfg.readDataBytes s.nextReply.1)) (s.afterXfer d cmd cmd.length)
      | some e => .error (.err e) (s.afterXfer d cmd cmd.length) := by
  simp only [memRead, Op.bind_apply, xfer_noReset s hn, checkReply_apply]
  cases replyError cmd.length s.nextReply.1 <;> rfl

/-- A read frame that nothing is wrong with is one transaction, and its result the checked reply. -/
theorem accept_memRead (hr : s.Ready) (hn : s.NoReset) {cmd : List Byte} {bad : Option Refusal} (hb : bad = none)
    (i : Instr) :
    accept i bad (memRead d cmd) s = .next { s.withTransaction d cmd cmd.length with
      results := s.results ++ [readResult s.cfg.readDataBytes cmd.length s.nextReply.1] } := by
  rw [accept_good s hr hb, ← s.finish_afterXfer_begin hr.1 i]
  congr 1
  have h := memRead_noReset (s := s.begin i) (d := d) hn cmd
  rw [s.nextReply_begin, State.begin_cfg] at h
  unfold readResult
  cases e : replyError cmd.length s.nextReply.1 <;> rw [e] at h
  · exact runOp_ok s hn h
  · exact runOp_err s hn h

/-- A write frame that nothing is wrong with is one transaction, its reply dropped (R116). -/
theorem accept_memWrite (hr : s.Ready) (hn : s.NoReset) {cmd : List Byte} {bad : Option Refusal} (hb : bad = none)
    (i : Instr) :
    accept i bad (memWrite d cmd) s = .next { s.withTransaction d cmd cmd.length with
      results := s.results ++ [.ok .none] } := by
  rw [accept_good s hr hb, ← s.finish_afterXfer_begin hr.1 i]
  have h : memWrite d cmd (s.begin i) = .ok .none ((s.begin i).afterXfer d cmd cmd.length) := by
    simp only [memWrite, Op.bind_apply, xfer_noReset (s.begin i) hn, Op.pure_apply]
  exact congrArg _ (runOp_ok s hn h)

theorem receive_noReset (hn : s.resets = []) (r : RegName) (reply : List Byte) :
    receive d r reply s = match replyError (s.flen d) reply with
      | some e => .error (.err e) s
      | none => .ok .none (s.afterReply d r reply) := by
  simp only [receive, Op.bind_apply, Op.get_apply, acceptReply_noReset _ d r _ hn]
  cases replyError (s.flen d) reply <;> rfl

/-- A reply that does not pass its checks ends with its error and changes nothing else. -/
theorem accept_receive_err (hr : s.Ready) (hn : s.NoReset) {bad : Option Refusal} (hb : bad = none) {r : RegName}
    {reply : List Byte} {e : Err} (he : replyError (s.flen d) reply = some e) (i : Instr) :
    accept i bad (receive d r reply) s = .next { s with results := s.results ++ [.err e] } := by
  rw [accept_good s hr hb]
  refine congrArg _ (runOp_raises s hr.1 hn ?_)
  rw [receive_noReset (s := s.begin i) hn, State.begin_flen, he]

/-- A reply that passes its checks is decoded into its register. -/
theorem accept_receive_ok (hr : s.Ready) (hn : s.NoReset) {bad : Option Refusal} (hb : bad = none) {r : RegName}
    {reply : List Byte} (he : replyError (s.flen d) reply = none) (i : Instr) :
    accept i bad (receive d r reply) s = .next (((s.begin i).afterReply d r reply).finish (.ok .none)) := by
  rw [accept_good s hr hb]
  refine congrArg _ (runOp_ok s (by rw [State.afterReply_resets]; exact hn) ?_)
  rw [receive_noReset (s := s.begin i) hn, State.begin_flen, he]

/-- What a reply that passed its checks leaves (R91, R113): its register's cells decoded, every other cell as it was, and at
most the warning on the trace. -/
theorem finish_afterReply_begin (hs : s.Shaped) (hd : s.HasDev d) {r : RegName} (hr : s.cfg.hasReg r = true) (i : Instr)
    (reply : List Byte) :
    let t := ((s.begin i).afterReply d r reply).finish (.ok .none)
    t.results = s.results ++ [.ok .none] ∧ t.seq = .idle ∧
      (∀ f fd, s.cfg.field? r f = some fd → t.getCell d r f = bfDecode fd.bits (rword s.cfg.readDataBytes reply)) ∧
      (∀ d' r', (d', r') ≠ (d, r) → t.cells d' r' = s.cells d' r') ∧
      (∃ evs, t.trace = s.trace ++ evs ∧ framesSent evs = [] ∧ evs.length ≤ 1) ∧ t.replies = s.replies := by
  intro t
  have hs' : (s.begin i).Shaped := hs
  refine ⟨?_, rfl, fun f fd hf => ?_, fun d' r' hne => ?_, ⟨_, State.afterDrift_trace _ d r, ?_⟩, ?_⟩
  · simp [t]
  · refine (State.getCell_of_cells ?_ ?_).trans (State.getCell_decodeReg hs hd hr hf)
    · simp [t]
    · exact State.afterDrift_cells _ d d r r
  · exact State.afterReply_cells_other (s := s.begin i) reply hr hne
  · split <;> exact ⟨rfl, by simp⟩
  · simp [t]

end

/-! ### The obligations -/

/-- Settles O48: a read frame can only be of the wrong length or carry the wrong CRC byte, and is one transaction else. -/
theorem readFrameIsOneTransaction : Obligations.ReadFrameIsOneTransaction := by
  intro d a s hr hn hd hx reply result c
  have h4 := badFrame_read hr hd hx (.inl rfl)
  have h5 := badFrame_read hr hd hx (.inr rfl)
  refine ⟨fun hl => ⟨?_, ?_⟩, fun hl => ⟨?_, ?_⟩, fun k hk => ?_⟩
  · exact accept_memRead hr hn (h4.trans (if_pos hl.symm)) _
  · exact accept_bad s hr (h5.trans (if_neg (by omega))) _ _
  · exact accept_memRead hr hn (h5.trans (if_pos hl.symm)) _
  · exact accept_bad s hr (h4.trans (if_neg (by omega))) _ _
  · exact accept_bad s hr (badFrame_illFormed hd (commandOk_wrong_crc hk)) _ _

/-- Settles O49: a write frame can be of the wrong length, of a data register, with unequal address bytes, or with the wrong
CRC byte, and is one transaction else. -/
theorem writeFrameIsOneTransaction : Obligations.WriteFrameIsOneTransaction := by
  intro d w l m s x hr hn hd hx hw c
  have h4 := badFrame_write hr hd hx hw l m (.inl rfl)
  have h5 := badFrame_write hr hd hx hw l m (.inr rfl)
  refine ⟨fun hb => ?_, fun hb => ?_, fun r hne => ?_, fun k hk => ?_⟩
  · rw [hb] at h4 h5
    refine ⟨fun hl => ⟨?_, ?_⟩, fun hl => ⟨?_, ?_⟩⟩
    · exact accept_memWrite hr hn (h4.trans (if_pos hl.symm)) _
    · exact accept_bad s hr (h5.trans (if_neg (by omega))) _ _
    · exact accept_memWrite hr hn (h5.trans (if_pos hl.symm)) _
    · exact accept_bad s hr (h4.trans (if_neg (by omega))) _ _
  · rw [hb] at h4 h5
    exact ⟨accept_bad s hr h4 _ _, accept_bad s hr h5 _ _⟩
  · have hbody := bodyOk_addresses_differ (l := l) (m := m) (ne_sentinel (writeAddress_le hr.2 hx hw)) hne
    exact ⟨accept_bad s hr (badFrame_illFormed hd (show commandOk [r, w, l, m] = false from hbody)) _ _, fun k =>
      accept_bad s hr (badFrame_illFormed hd (by simp [commandOk, hbody])) _ _⟩
  · exact accept_bad s hr (badFrame_illFormed hd (commandOk_wrong_crc hk)) _ _

/-- Settles O50: `replyError` judges the reply by its length and then by its CRC byte; with no error, what it leaves is
`finish_afterReply_begin`. -/
theorem replyFrameIsCheckedAndDecoded : Obligations.ReplyFrameIsCheckedAndDecoded := by
  intro d r b0 b1 b2 b3 k s hr hs hn hd hreg w decoded
  have hgood : s.badReg d r = none := badReg_none.2 ⟨hd, hreg⟩
  refine ⟨fun hl => ⟨?_, ?_⟩, fun hl => ⟨?_, fun hk => ?_, fun hk => ?_⟩⟩
  · exact ⟨_, accept_receive_ok hr hn hgood (by simp [hl, replyError]) _, finish_afterReply_begin hs hd hreg _ _⟩
  · exact accept_receive_err hr hn hgood (by simp [hl, replyError]) _
  · exact accept_receive_err hr hn hgood (by simp [hl, replyError]) _
  · exact ⟨_, accept_receive_ok hr hn hgood (by simp [hl, hk, replyError]) _, finish_afterReply_begin hs hd hreg _ _⟩
  · exact accept_receive_err hr hn hgood (by simp [hl, hk, replyError]) _

end Sys2Proof.Machine
end

section
/-! The laws of packing and unpacking (spec/40_bitfield.md R81 to R83), bit by bit, and an operation that only answers. -/

namespace Sys2Proof.Machine

section
variable {f g : BitField}

/-! ### One field -/

theorem bfDecode_bfEncode (h : fieldOk f = true) (v w : Word) : bfDecode f (bfEncode f v w) = v &&& fmask f := by
  apply BitVec.eq_of_getLsbD_eq
  intro i _
  rw [bfDecode_getLsbD h, bfEncode_getLsbD h, BitVec.getLsbD_and, fmask_getLsbD h, Nat.add_sub_cancel_left]
  by_cases hi : i < f.width <;> simp [hi]

theorem bfEncode_outside (h : fieldOk f = true) (v w : Word) : bfEncode f v w &&& ~~~ span f = w &&& ~~~ span f := by
  apply BitVec.eq_of_getLsbD_eq
  intro i _
  simp only [BitVec.getLsbD_and, BitVec.getLsbD_not, span_getLsbD h, bfEncode_getLsbD h]
  split
  case isTrue hi => simp [hi]
  case isFalse hi => rfl

theorem bfEncode_bfDecode (h : fieldOk f = true) (w : Word) : bfEncode f (bfDecode f w) w = w := by
  apply BitVec.eq_of_getLsbD_eq
  intro i _
  rw [bfEncode_getLsbD h]
  split
  case isTrue hi =>
    have hw : i - f.start < f.width := by omega
    rw [bfDecode_getLsbD h, Nat.add_sub_cancel' hi.1]
    simp [hw]
  case isFalse => rfl

theorem bfEncode_bfEncode_same (h : fieldOk f = true) (u v w : Word) : bfEncode f v (bfEncode f u w) = bfEncode f v w := by
  apply BitVec.eq_of_getLsbD_eq
  intro i _
  simp only [bfEncode_getLsbD h]
  split <;> rfl

theorem bfDecode_lt (h : fieldOk f = true) (w : Word) : (bfDecode f w).toNat < 2 ^ f.width := by
  apply Nat.lt_pow_two_of_testBit
  intro i hi
  rw [BitVec.testBit_toNat, bfDecode_getLsbD h, decide_eq_false (Nat.not_lt.2 hi), Bool.false_and]

theorem bfDecode_full (w : Word) : bfDecode ⟨0, 32⟩ w = w := by
  apply BitVec.eq_of_getLsbD_eq
  intro i hi
  rw [bfDecode_getLsbD (by decide)]
  simp [hi]

/-! ### Two fields that share no bit -/

theorem bfEncode_comm (hf : fieldOk f = true) (hg : fieldOk g = true) (hd : span f &&& span g = 0) (u v w : Word) :
    bfEncode f v (bfEncode g u w) = bfEncode g u (bfEncode f v w) := by
  apply BitVec.eq_of_getLsbD_eq
  intro i _
  have hi := span_disjoint hf hg hd i
  simp only [bfEncode_getLsbD hf, bfEncode_getLsbD hg]
  by_cases h : f.start ≤ i ∧ i < f.start + f.width
  · rw [if_pos h, if_neg fun e => hi ⟨h, e⟩, if_pos h]
  · rw [if_neg h, if_neg h]

theorem bfDecode_bfEncode_disjoint (hf : fieldOk f = true) (hg : fieldOk g = true) (hd : span f &&& span g = 0)
    (v w : Word) : bfDecode g (bfEncode f v w) = bfDecode g w := by
  apply BitVec.eq_of_getLsbD_eq
  intro i _
  rw [bfDecode_getLsbD hg, bfDecode_getLsbD hg, bfEncode_getLsbD hf]
  by_cases h : i < g.width
  · rw [if_neg fun e => span_disjoint hf hg hd (g.start + i) ⟨e, by omega⟩]
  · simp [h]

end

/-- An operation with no operand to check and a body that only answers changes nothing but the result list. -/
theorem accept_pure {s : State} (hr : s.Ready) (hn : s.NoReset) (i : Instr) (v : Value) :
    accept i none (pure v) s = .next { s with results := s.results ++ [.ok v] } :=
  (accept_ready s hr i _).trans (congrArg _ (runOp_reads s hr.1 hn rfl))

/-! ### The obligations -/

/-- Settles O3: the first three laws are of one field, the fourth of two whose spans are disjoint. -/
theorem packUnpackLaws : Obligations.PackUnpackLaws := fun _ v w hf =>
  ⟨bfDecode_bfEncode hf v w, bfEncode_outside hf v w, bfEncode_bfDecode hf w, fun _ u hg hd =>
    ⟨bfEncode_comm hf hg hd u v w, bfDecode_bfEncode_disjoint hf hg hd v w⟩⟩

/-- Settles O1: BF.DECODE answers `bfDecode`, which has no bit from the width on. -/
theorem bfDecodeExtractsField : Obligations.BfDecodeExtractsField := fun _ w _ hr hn =>
  ⟨accept_pure hr hn _ _, fun hf => bfDecode_lt hf w, fun hf => hf ▸ bfDecode_full w⟩

/-- Settles O2: BF.ENCODE answers `bfEncode`, and the second of two encodes of a field hides the first. -/
theorem bfEncodePlacesField : Obligations.BfEncodePlacesField := fun _ v w _ hr hn =>
  ⟨accept_pure hr hn _ _, fun hf => bfEncode_bfEncode_same hf v v w⟩

end Sys2Proof.Machine
end

section
/-! The Register family (spec/41_register.md R91 to R96): what each body does to the shadow file, and what the operation
leaves. -/

namespace Sys2Proof.Machine

section
variable {s : State} {d : DevIx} {r : RegName}

/-! ### Operations that change no cell -/

/-- An operation with right operands whose body only answers changes nothing but the result list. -/
theorem accept_answers (hr : s.Ready) (hn : s.NoReset) {bad : Option Refusal} (hb : bad = none) {i : Instr}
    {body : Op Value} {v : Value} (h : body (s.begin i) = .ok v (s.begin i)) :
    accept i bad body s = .next { s with results := s.results ++ [.ok v] } :=
  (accept_good s hr hb i body).trans (congrArg _ (runOp_reads s hr.1 hn h))

/-- An operation with right operands whose body raises at once changes nothing but the result list. -/
theorem accept_raises (hr : s.Ready) (hn : s.NoReset) {bad : Option Refusal} (hb : bad = none) {i : Instr}
    {body : Op Value} {e : Err} (h : body (s.begin i) = .error (.err e) (s.begin i)) :
    accept i bad body s = .next { s with results := s.results ++ [.err e] } :=
  (accept_good s hr hb i body).trans (congrArg _ (runOp_raises s hr.1 hn h))

theorem exec_regEncode (hr : s.Ready) (hn : s.NoReset) (hd : s.HasDev d) (hreg : s.cfg.hasReg r = true) :
    exec (.regEncode d r) s = .next { s with results := s.results ++ [.ok (.word (s.encodeReg d r))] } :=
  accept_answers hr hn (badReg_none.2 ⟨hd, hreg⟩) rfl

theorem exec_regWire (hr : s.Ready) (hn : s.NoReset) (hd : s.HasDev d) (hreg : s.cfg.hasReg r = true) :
    exec (.regWire d r) s = .next { s with results := s.results ++ [.ok (.bytes (leBytes (s.encodeReg d r)))] } :=
  accept_answers hr hn (badReg_none.2 ⟨hd, hreg⟩) rfl

theorem wordByte_eq_setWidth (w : Word) (k : Nat) : wordByte w k = (w >>> (8 * k)).setWidth 8 :=
  BitVec.setWidth_ushiftRight_eq_extractLsb.symm

theorem leBytes_eq_shifts (w : Word) :
    leBytes w = [w.setWidth 8, (w >>> 8).setWidth 8, (w >>> 16).setWidth 8, (w >>> 24).setWidth 8] := by
  simp [leBytes, wordByte_eq_setWidth]

/-! ### One field -/

section
variable {f : FldName} {v : Word}

theorem regGetf_known {x : FieldDesc} (hf : s.cfg.field? r f = some x) : regGetf d r f s = .ok (s.getCell d r f) s := by
  simp [regGetf, hf, -bind_pure_comp]

theorem regGetf_unknown (hf : s.cfg.field? r f = none) : regGetf d r f s = .error (.err .unknownField) s := by
  simp [regGetf, hf]

theorem regSetf_known {x : FieldDesc} (hf : s.cfg.field? r f = some x) :
    regSetf d r f v s = .ok () (s.setCell d r f v) := by
  simp [regSetf, hf]

theorem regSetf_unknown (hf : s.cfg.field? r f = none) : regSetf d r f v s = .error (.err .unknownField) s := by
  simp [regSetf, hf]

/-- On a device and a register that exist, REG.SETF can be refused only for a value too wide under `STRICT_FIELDS`. -/
theorem badSetf_eq (hd : s.HasDev d) (hreg : s.cfg.hasReg r = true) :
    s.badSetf d r f v =
      if s.cfg.strictFields && (s.cfg.field? r f).any (fun x => decide (2 ^ x.bits.width ≤ v.toNat)) then
        some .strictField else none := by
  rw [State.badSetf, badReg_none.2 ⟨hd, hreg⟩, Option.none_or]

theorem badSetf_none_of_fits (hd : s.HasDev d) (hreg : s.cfg.hasReg r = true) {x : FieldDesc}
    (hf : s.cfg.field? r f = some x) (hv : s.cfg.strictFields = false ∨ v.toNat < 2 ^ x.bits.width) :
    s.badSetf d r f v = none := by
  rw [badSetf_eq hd hreg, hf]
  rcases hv with h | h <;> simp [h]

theorem badSetf_none_of_unknown (hd : s.HasDev d) (hreg : s.cfg.hasReg r = true) (hf : s.cfg.field? r f = none) :
    s.badSetf d r f v = none := by
  simp [badSetf_eq hd hreg, hf]

theorem badSetf_strictField (hd : s.HasDev d) (hreg : s.cfg.hasReg r = true) {x : FieldDesc}
    (hf : s.cfg.field? r f = some x) (hstrict : s.cfg.strictFields = true) (hv : 2 ^ x.bits.width ≤ v.toNat) :
    s.badSetf d r f v = some .strictField := by
  simp [badSetf_eq hd hreg, hf, hstrict, hv]

end

/-! ### Operations that write the cells of one register -/

/-- An operation that ends after a write of one register's cells has changed only cells. -/
theorem State.sameButCells_finish_setCells (s : State) (i : Instr) (d : DevIx) (r : RegName) (l : List Word)
    (res : HostResult) : s.SameButCells (((s.begin i).setCells d r l).finish res) :=
  ⟨rfl, rfl, rfl, rfl, rfl, rfl, rfl, rfl, s.modDev_length d _, fun d' => State.dev_setCells_rest s d d' r l⟩

theorem exec_regDecode (hr : s.Ready) (hn : s.NoReset) (hd : s.HasDev d) (hreg : s.cfg.hasReg r = true) (w : Word) :
    exec (.regDecode d r w) s = .next (((s.begin (.regDecode d r w)).decodeReg d r w).finish (.ok .none)) :=
  (accept_good s hr (badReg_none.2 ⟨hd, hreg⟩) _ _).trans (congrArg _ (runOp_ok s hn rfl))

theorem exec_regSetf (hr : s.Ready) (hn : s.NoReset) {f : FldName} {v : Word} {x : FieldDesc}
    (hf : s.cfg.field? r f = some x) (hb : s.badSetf d r f v = none) :
    exec (.regSetf d r f v) s = .next (((s.begin (.regSetf d r f v)).setCell d r f v).finish (.ok .none)) := by
  refine (accept_good s hr hb _ _).trans (congrArg _ (runOp_ok s hn ?_))
  rw [Op.bind_apply, regSetf_known (s := s.begin _) hf]
  rfl

/-! ### Round trips -/

/-- A field that a register has reads its cell, not the default of a missing one. -/
theorem State.Shaped.getElem_cells (hs : s.Shaped) (hd : s.HasDev d) {f : FldName} {x : FieldDesc}
    (hf : s.cfg.field? r f = some x) : (s.cells d r)[s.cfg.fldIx r f]? = some (s.getCell d r f) := by
  have hlt : s.cfg.fldIx r f < (s.cells d r).length := by
    rw [hs.cells_length hd (Config.field?_hasReg hf)]
    exact Config.fldIx_lt.2 (by simp [hf])
  rw [State.getCell_eq, List.getD_eq_getElem?_getD, List.getElem?_eq_getElem hlt, Option.getD_some]

/-- A field of the encoded word is its cell, cut to the field (R93 (1)). -/
theorem State.bfDecode_encodeReg (ha : s.cfg.admitted = true) (hs : s.Shaped) (hd : s.HasDev d) {f : FldName}
    {x : FieldDesc} (hf : s.cfg.field? r f = some x) :
    bfDecode x.bits (s.encodeReg d r) = s.getCell d r f &&& fmask x.bits :=
  bfDecode_foldCells _ _ (apart_fieldsOf ha r) (hs.cells_length hd (Config.field?_hasReg hf)) _ _ _
    (Config.getElem_fldIx hf) (hs.getElem_cells hd hf)

/-- Encoding what a word was decoded to gives its covered bits (R93 (2)). -/
theorem State.encodeReg_decodeReg (ha : s.cfg.admitted = true) (hs : s.Shaped) (hd : s.HasDev d)
    (hreg : s.cfg.hasReg r = true) (w : Word) : (s.decodeReg d r w).encodeReg d r = w &&& s.cfg.covered r := by
  rw [State.encodeReg, State.decodeReg_cfg, State.decodeReg, State.cells_setCells_same hs hd hreg]
  exact foldCells_decodeCells _ (apart_fieldsOf ha r).1 w

/-- REG.ENCODE leaves the register's word as it was (R93 (3)). -/
theorem encodeReg_of_exec_regEncode (hn : s.NoReset) (hd : s.HasDev d) (hreg : s.cfg.hasReg r = true) {t : State}
    (h : exec (.regEncode d r) s = .next t) : t.encodeReg d r = s.encodeReg d r := by
  obtain ⟨hr, -, -⟩ := accept_next s h
  cases h.symm.trans (exec_regEncode hr hn hd hreg)
  exact State.encodeReg_of_cells rfl rfl

end

/-! ### The obligations -/

/-- Settles O4: REG.DECODE ends after one write of the register's cells, which are the decode of the word. -/
theorem regDecodeReplacesRegister : Obligations.RegDecodeReplacesRegister := by
  intro d r w s hr hn hs hd hreg
  refine ⟨_, exec_regDecode hr hn hd hreg w, rfl, rfl, fun f fd hf => ?_, fun d' r' hne => ?_, ?_⟩
  · exact State.getCell_decodeReg hs hd hreg hf
  · exact State.cells_setCells_other (s := s) hreg hne
  · exact s.sameButCells_finish_setCells _ d r _ _

/-- Settles O6: the fold is `foldCells`, and the fields of an admitted catalog do not meet. -/
theorem regEncodeFoldsFields : Obligations.RegEncodeFoldsFields := by
  intro d r s hr hn hd hreg cells w
  have hfields := apart_fieldsOf hr.2 r
  exact ⟨exec_regEncode hr hn hd hreg, foldCells_eq_bfEncode _ _ hfields, foldCells_covered _ _ hfields.1⟩

/-- Settles O7: the first law is `bfDecode_encodeReg` read after the decode. -/
theorem regRoundTrip : Obligations.RegRoundTrip := by
  intro s d r ha hs hd hreg
  refine ⟨fun f fd hf => ?_, State.encodeReg_decodeReg ha hs hd hreg, fun t hn h => ?_⟩
  · exact (State.getCell_decodeReg hs hd hreg hf).trans (State.bfDecode_encodeReg ha hs hd hf)
  · exact encodeReg_of_exec_regEncode hn hd hreg h

/-- Settles O8: the body writes one cell or raises before it does, and only the width check can refuse. -/
theorem regSetfStoresOneCell : Obligations.RegSetfStoresOneCell := by
  intro d r f v s hr hs hd hreg
  refine ⟨fun fd hf hv hn => ?_, fun hf hn => ?_, fun hstrict fd hf hv => ?_⟩
  · have hfits := badSetf_none_of_fits hd hreg hf hv
    refine ⟨_, exec_regSetf hr hn hf hfits, rfl, rfl, ?_, fun d' r' f' hne => ?_, ?_⟩
    · exact State.getCell_setCell_same hs hd hreg hf
    · exact State.getCell_setCell_other hs hreg hf hne
    · exact s.sameButCells_finish_setCells _ d r _ _
  · refine accept_raises hr hn (badSetf_none_of_unknown hd hreg hf) ?_
    rw [Op.bind_apply, regSetf_unknown (s := s.begin _) hf]
  · exact accept_bad s hr (badSetf_strictField hd hreg hf hstrict hv) _ _

/-- Settles O5: REG.WIRE answers the bytes of the word REG.ENCODE answers, each of them a shift of it. -/
theorem regWireIsLittleEndian : Obligations.RegWireIsLittleEndian := by
  intro d r s hr hn hd hreg w
  refine ⟨exec_regEncode hr hn hd hreg, ?_⟩
  rw [exec_regWire hr hn hd hreg, leBytes_eq_shifts]

/-- Settles O9: the body reads the cell as stored, or raises where the register has no such field. -/
theorem regGetfReadsCell : Obligations.RegGetfReadsCell := by
  intro d r f s hr hn hd hreg
  have hgood : s.badReg d r = none := badReg_none.2 ⟨hd, hreg⟩
  refine ⟨fun fd hf => accept_answers hr hn hgood ?_, fun hf => accept_raises hr hn hgood ?_⟩
  · rw [Op.bind_apply, regGetf_known (s := s.begin _) hf]
    rfl
  · rw [Op.bind_apply, regGetf_unknown (s := s.begin _) hf]

end Sys2Proof.Machine
end

section
/-! The CRC-8 family (spec/42_crc8.md R101 to R104): the shift of the remainder is an injective linear map, so the byte
step, the check and the three forms of R104 need only what one shift does. -/

namespace Sys2Proof.Machine

/-! ### One shift -/

theorem crcShift_eq_crcStep : crcShift = crcStep :=
  funext fun r => by rw [crcShift, crcStep, BitVec.msb_eq_getLsbD_last, crcPoly]

theorem crcShift_eq_xor (r : Byte) : crcShift r = (r <<< 1) ^^^ (if r.msb then crcPoly else 0) := by
  unfold crcShift
  split
  · rfl
  · exact BitVec.xor_zero.symm

/-- The shift moves each bit, and what it feeds back is linear in the bit shifted out. -/
theorem crcShift_xor (a b : Byte) : crcShift (a ^^^ b) = crcShift a ^^^ crcShift b := by
  have hfeed (x y : Bool) : (if x ^^ y then crcPoly else 0) = (if x then crcPoly else 0) ^^^ (if y then crcPoly else 0) := by
    cases x <;> cases y <;> rfl
  simp only [crcShift_eq_xor, BitVec.msb_xor, BitVec.shiftLeft_xor_distrib, hfeed]
  ac_rfl

/-- The polynomial is odd, so the bit shifted out comes back as bit 0. -/
theorem crcShift_getLsbD_zero (r : Byte) : (crcShift r).getLsbD 0 = r.msb := by
  rw [crcShift_eq_xor, BitVec.getLsbD_xor]
  cases r.msb <;> simp [crcPoly]

theorem crcShift_eq_zero {r : Byte} : crcShift r = 0 ↔ r = 0 := by
  refine ⟨fun h => ?_, by rintro rfl; rfl⟩
  have hm : r.msb = false := by
    rw [← crcShift_getLsbD_zero, h]
    rfl
  have hs : r <<< 1 = 0 := by simpa [crcShift, hm] using h
  have hlt := BitVec.msb_eq_false_iff_two_mul_lt.1 hm
  have hdouble := congrArg BitVec.toNat hs
  rw [BitVec.toNat_shiftLeft, Nat.shiftLeft_eq, Nat.mul_comm, Nat.pow_one, Nat.mod_eq_of_lt hlt] at hdouble
  exact BitVec.eq_of_toNat_eq (by simpa using hdouble)

/-! ### Several shifts -/

theorem crcShifts_eq_iterate (n : Nat) (r : Byte) : crcShifts n r = crcStep^[n] r := by
  induction n generalizing r with
  | zero => rfl
  | succ n ih => rw [crcShifts, ih, crcShift_eq_crcStep, Function.iterate_succ_apply]

theorem crcShifts_xor (n : Nat) (a b : Byte) : crcShifts n (a ^^^ b) = crcShifts n a ^^^ crcShifts n b := by
  induction n generalizing a b with
  | zero => rfl
  | succ n ih => simp only [crcShifts, crcShift_xor, ih]

theorem crcShifts_eq_zero {n : Nat} {r : Byte} : crcShifts n r = 0 ↔ r = 0 := by
  induction n generalizing r with
  | zero => rfl
  | succ n ih => rw [crcShifts, ih, crcShift_eq_zero]

/-! ### Bytes -/

theorem crc8Byte_eq_zero {r b : Byte} : crc8Byte r b = 0 ↔ r = b := by
  rw [crc8Byte, crcShifts_eq_zero]
  exact BitVec.xor_eq_zero_iff

theorem crc8Byte_xor (a b c e : Byte) : crc8Byte (a ^^^ b) (c ^^^ e) = crc8Byte a c ^^^ crc8Byte b e := by
  unfold crc8Byte
  rw [← crcShifts_xor]
  congr 1
  ac_rfl

theorem crc8Byte_eq_iterate (r b : Byte) : crc8Byte r b = crcStep^[8] (r ^^^ b) := crcShifts_eq_iterate 8 _

/-- The table form (R104): the byte step depends on the XOR of its operands alone. -/
theorem crc8Byte_eq_table (r b : Byte) : crc8Byte r b = crc8Byte 0 (r ^^^ b) := by simp [crc8Byte]

theorem crc8Seq_eq_foldl (l : List Byte) : crc8Seq l = l.foldl crc8Byte 0 := BitVec.xor_zero

theorem crc8Seq_concat (l : List Byte) (b : Byte) : crc8Seq (l ++ [b]) = crc8Byte (crc8Seq l) b := by
  simp only [crc8Seq_eq_foldl, List.foldl_concat]

/-- A sequence that ends with its own CRC, and no other, has the CRC 0. -/
theorem crc8Seq_concat_eq_zero {l : List Byte} {b : Byte} : crc8Seq (l ++ [b]) = 0 ↔ crc8Seq l = b := by
  rw [crc8Seq_concat, crc8Byte_eq_zero]

/-! ### The "top bit pair" form -/

/-- The XOR of remainder and data byte takes the shift of R101. -/
theorem crcPairStep_xor (p : Byte × Byte) : (crcPairStep p).1 ^^^ (crcPairStep p).2 = crcShift (p.1 ^^^ p.2) := by
  unfold crcShift crcPairStep
  rw [BitVec.xor_comm p.2, BitVec.shiftLeft_xor_distrib]
  split
  · dsimp only
    ac_rfl
  · rfl

theorem crcPairSteps_xor (n : Nat) (p : Byte × Byte) :
    (crcPairSteps n p).1 ^^^ (crcPairSteps n p).2 = crcShifts n (p.1 ^^^ p.2) := by
  induction n generalizing p with
  | zero => rfl
  | succ n ih => rw [crcPairSteps, ih, crcPairStep_xor, crcShifts]

theorem crcPairSteps_snd (n : Nat) (p : Byte × Byte) : (crcPairSteps n p).2 = p.2 <<< n := by
  induction n generalizing p with
  | zero => exact (BitVec.shiftLeft_zero _).symm
  | succ n ih => rw [crcPairSteps, ih, crcPairStep, ← BitVec.shiftLeft_add, Nat.add_comm]

/-- After eight shifts the data byte is used up, and what the XOR holds is the remainder. -/
theorem crcPairSteps_eq_crc8Byte (c d : Byte) : (crcPairSteps 8 (c, d)).1 = crc8Byte c d := by
  have h := crcPairSteps_xor 8 (c, d)
  rw [crcPairSteps_snd, BitVec.shiftLeft_eq_zero (Nat.le_refl 8)] at h
  exact BitVec.xor_zero.symm.trans h

theorem crc8Pair_eq_crc8Seq (l : List Byte) : crc8Pair l = crc8Seq l := by
  simp only [crc8Seq_eq_foldl, crc8Pair, crcPairSteps_eq_crc8Byte]
  rfl

/-! ### The obligations -/

/-- Settles O11: the comparison is `crc8Seq_concat_eq_zero` of the first four bytes. -/
theorem crcCheckComparesFifthByte : Obligations.CrcCheckComparesFifthByte := fun b0 b1 b2 b3 _ _ hr hn =>
  ⟨accept_pure hr hn _ _, (crc8Seq_concat_eq_zero (l := [b0, b1, b2, b3])).symm⟩

/-- Settles O12: a shift is linear, and eight shifts of 0 leave 0. -/
theorem crcByteIsLinear : Obligations.CrcByteIsLinear := fun a b c e =>
  ⟨crc8Byte_xor a b c e, crc8Byte_eq_zero.2 rfl⟩

/-- Settles O13: the XOR of the "top bit pair" takes the shifts of R101; the check value is computed. -/
theorem crcFormsAgree : Obligations.CrcFormsAgree :=
  ⟨crc8Pair_eq_crc8Seq, crc8Byte_eq_table, by decide +kernel⟩

/-- Settles O10: both operations only answer, and the model's shift is the one of the pseudocode. -/
theorem crcFollowsPseudocode : Obligations.CrcFollowsPseudocode := by
  refine ⟨fun rem b s hr hn => ?_, fun l s hr hn => ?_⟩
  · rw [← crc8Byte_eq_iterate]
    exact accept_pure hr hn _ _
  · simp only [← crc8Byte_eq_iterate]
    exact (accept_pure hr hn (.crc8Seq l) _).trans (by rw [crc8Seq_eq_foldl])

end Sys2Proof.Machine
end

section
/-! The select lines (spec/43_transport.md R111, R112): the events of every operation are whole transactions, and whatever an
operation does with the reset input quiet leaves a line high that was high. -/

namespace Sys2Proof.Machine

/-! ### The events -/

/-- A list of events that keeps the select-line discipline (R112). -/
def Framed (evs : List Event) : Prop := disciplined evs = true

theorem grammar_framed (c : Config) (d : DevIx) : Grammar c d Framed where
  nil := rfl
  append := disciplined_append
  read _ _ _ _ _ := disciplined_transaction _ _ _ _
  high _ _ _ _ _ _ _ := disciplined_transaction _ _ _ _
  low _ _ _ _ _ _ _ := disciplined_transaction _ _ _ _
  sleep _ := rfl
  warn := rfl
  persist _ _ _ _ := rfl

/-- The events of every operation, whatever error it ends with. -/
theorem speaks_framed (c : Config) (i : Instr) : Speaks c Framed (fun _ => True) i where
  nil := rfl
  append := disciplined_append
  grammar d _ := grammar_framed c d
  checks _ := ⟨trivial, trivial⟩
  waits _ := ⟨⟨trivial, trivial⟩, trivial, trivial⟩
  names _ := trivial

/-! ### The lines -/

/-- No reset is to come and every select line is high: what holds between any two transactions of an operation on a quiet
link, of whatever shape its shadow files are. -/
def State.Still (s : State) : Prop := s.NoReset ∧ ∀ v ∈ s.devs, v.csN = true

/-- From a still link the body leaves a still link. -/
def KeepsStill (s t : State) : Prop := s.Still → t.Still

/-- A change of one device that drives no line low. -/
theorem keepsStill_modDev (s : State) (d : DevIx) {g : Dev → Dev} (hg : ∀ v, v.csN = true → (g v).csN = true) :
    KeepsStill s (s.modDev d g) :=
  fun ⟨hn, hl⟩ => ⟨hn, s.forall_modDev d g hg hl⟩

/-- A body that, with no reset to come, ends with a value and a still link needs no more: of a body run with a reset to come
nothing is asked. -/
theorem ends_keepsStill {α : Type} {m : Op α} (h : ∀ s, s.NoReset → ∃ a t, m s = .ok a t ∧ KeepsStill s t) :
    m.Ends KeepsStill Abandoned := by
  intro s
  by_cases hn : s.NoReset
  · obtain ⟨a, t, hm, ht⟩ := h s hn
    rw [hm]
    exact ht
  · rcases m s with ⟨a, t⟩ | ⟨_ | _, t⟩
    · exact fun hs => absurd hs.1 hn
    · exact fun hs => absurd hs.1 hn
    · trivial

theorem xfer_keepsStill (d : DevIx) (cmd : List Byte) (n : Nat) : (xfer d cmd n).Ends KeepsStill Abandoned :=
  ends_keepsStill fun s hn =>
    ⟨_, _, xfer_noReset s hn d cmd n, keepsStill_modDev s d (g := fun v => { v with csN := true }) fun _ _ => rfl⟩

theorem sampleCancel_keepsStill : sampleCancel.Ends KeepsStill Abandoned := by
  refine ends_keepsStill fun s _ => ?_
  cases hc : s.cfg.hasCancel with
  | true =>
    exact ⟨_, s.nextCancel.2, by simp only [sampleCancel, hc]; rfl, by simp [KeepsStill, State.Still, State.NoReset]⟩
  | false => exact ⟨_, s, by simp only [sampleCancel, hc]; rfl, id⟩

theorem shake_keepsStill (d : DevIx) : Shake KeepsStill Abandoned d where
  refl _ := id
  trans _ _ _ h1 h2 := h2 ∘ h1
  cut _ _ _ _ _ := trivial
  event e := ends_keepsStill fun s hn => ⟨_, _, emit_noReset s hn e, id⟩
  xfer := xfer_keepsStill d
  sample := sampleCancel_keepsStill
  decode s _ _ := keepsStill_modDev s d fun _ hv => hv
  warn s := keepsStill_modDev s d fun _ hv => hv
  cell s _ _ _ := keepsStill_modDev s d fun _ hv => hv
  latch s _ := keepsStill_modDev s d fun _ hv => hv
  count _ _ := id

theorem holds_keepsStill (i : Instr) : Holds KeepsStill Abandoned i where
  refl _ := id
  trans _ _ _ h1 h2 := h2 ∘ h1
  cut _ _ _ _ _ := trivial
  store d _ := (shake_keepsStill d).toStore
  shake d _ _ := shake_keepsStill d
  intend d _ _ s := keepsStill_modDev _ d (fun _ hv => hv) ∘ keepsStill_modDev s d fun _ hv => hv

/-- With the reset input quiet, an accepted operation leaves a quiet link quiet. -/
theorem exec_quiet {i : Instr} {s t : State} (hn : s.NoReset) (he : exec i s = .next t) (hs : s.Quiet) : t.Quiet := by
  obtain ⟨u, r, hu, rfl⟩ := exec_quietly (holds_keepsStill i) hn he
  obtain ⟨-, hhigh⟩ := hu ⟨hn, hs.2⟩
  exact ⟨rfl, hhigh⟩

/-- Settles O23: the events are those of whole transactions by `exec_traces`, and every line ends high by `exec_quiet`. -/
theorem selectLineDiscipline : Obligations.SelectLineDiscipline :=
  fun i s _ hn he => ⟨(exec_traces (speaks_framed s.cfg i) hn he).1, exec_quiet hn he⟩

/-! ### The latch state -/

/-- What an update of one device keeps of each context. -/
theorem State.dev_modDev_keeps {α : Type} (s : State) (d d' : DevIx) (get : Dev → α) {g : Dev → Dev}
    (hg : ∀ v, get (g v) = get v) : get ((s.modDev d g).dev d') = get (s.dev d') := by
  by_cases e : d' = d
  · subst e
    by_cases hl : d'.toNat < s.devs.length
    · rw [s.dev_modDev_same d' g hl, hg]
    · unfold State.modDev State.dev
      rw [List.modify_eq_self (by omega)]
  · rw [s.dev_modDev_other d d' g e]

/-- Every context keeps its latch state. -/
def LatchKept (s t : State) : Prop := ∀ d, (t.dev d).latch = (s.dev d).latch

theorem LatchKept.trans (s t u : State) (h1 : LatchKept s t) (h2 : LatchKept t u) : LatchKept s u :=
  fun d => (h2 d).trans (h1 d)

theorem latchKept_modDev (s : State) (d : DevIx) {g : Dev → Dev} (hg : ∀ v, (g v).latch = v.latch) :
    LatchKept s (s.modDev d g) :=
  fun d' => s.dev_modDev_keeps d d' Dev.latch hg

theorem updates_latchKept (d : DevIx) : Updates LatchKept d where
  refl _ _ := rfl
  trans := .trans
  event _ _ _ := rfl
  inputs _ _ _ _ _ := rfl
  line s _ := latchKept_modDev s d fun _ => rfl

theorem store_latchKept (d : DevIx) : Store LatchKept LatchKept d where
  toLink := (updates_latchKept d).link (fun s _ _ => latchKept_modDev s d fun _ => rfl)
    (fun s => latchKept_modDev s d fun _ => rfl)
  cell s _ _ _ := latchKept_modDev s d fun _ => rfl

theorem holds_latchKept {i : Instr} (hi : Instr.latches i = false) : Holds LatchKept LatchKept i where
  refl _ _ := rfl
  trans := .trans
  cut := .trans
  store d _ := store_latchKept d
  shake _ _ h := absurd (h.symm.trans hi) (by decide)
  intend d b _ s := .trans s (s.setIntended d b) _ (latchKept_modDev s d fun _ => rfl) (latchKept_modDev _ d fun _ => rfl)

theorem latches_eq_false {i : Instr} (h1 : ∀ d c1 c2 n iv, i ≠ .latch d c1 c2 n iv)
    (h2 : ∀ d n iv, i ≠ .rdboth d n iv) : Instr.latches i = false := by
  unfold Instr.latches
  split
  · exact absurd rfl (h1 _ _ _ _ _)
  · exact absurd rfl (h2 _ _ _)
  · rfl

/-- Settles O26: nothing an operation other than LATCH and RDBOTH is made of writes a latch state. -/
theorem onlyLatchChangesLatchState : Obligations.OnlyLatchChangesLatchState := by
  intro i s t hn he h1 h2
  obtain ⟨u, r, hu, rfl⟩ := exec_quietly (holds_latchKept (latches_eq_false h1 h2)) hn he
  exact hu

end Sys2Proof.Machine
end

section
/-! The transport operations without a loop (spec/43_transport.md R111 to R116, R124): each is one or two transactions
and what the block does with the reply. -/

namespace Sys2Proof.Machine

section
variable {s : State} {d : DevIx} {r : RegName}

/-! ### An operation that answers with nothing -/

/-- An operation with right operands whose body ends well answers `Ok`. -/
theorem accept_unit_ok (hr : s.Ready) {bad : Option Refusal} (hb : bad = none) {i : Instr} {m : Op Unit} {t : State}
    (h : m (s.begin i) = .ok () t) (hn : t.resets = []) :
    accept i bad (do m; return .none) s = .next (t.finish (.ok .none)) :=
  (accept_good s hr hb i _).trans (congrArg _ (runOp_ok s hn (by rw [Op.bind_apply, h]; rfl)))

/-- An operation with right operands whose body raises answers the error. -/
theorem accept_unit_err (hr : s.Ready) {bad : Option Refusal} (hb : bad = none) {i : Instr} {m : Op Unit} {e : Err}
    {t : State} (h : m (s.begin i) = .error (.err e) t) (hn : t.resets = []) :
    accept i bad (do m; return .none) s = .next (t.finish (.err e)) :=
  (accept_good s hr hb i _).trans (congrArg _ (runOp_err s hn (by rw [Op.bind_apply, h])))

/-! ### XFER, WRREG and CRCINTEND -/

theorem exec_xfer (hr : s.Ready) (hn : s.NoReset) {cmd : List Byte} {n : Nat} (hb : s.badFrame d cmd n = none) :
    exec (.xfer d cmd n) s = .next { s.withTransaction d cmd n with
      results := s.results ++ [.ok (.bytes s.nextReply.1)] } := by
  refine (accept_good s hr hb _ _).trans (congrArg _ ?_)
  rw [← s.finish_afterXfer_begin hr.1 (.xfer d cmd n)]
  refine runOp_ok s hn ?_
  rw [Op.bind_apply, xfer_noReset (s.begin _) hn, s.nextReply_begin]
  rfl

/-! ### RDREG -/

/-- The word of a reply byte by byte (R114). -/
theorem rword_eq (dataBytes : Nat) (reply : List Byte) :
    rword dataBytes reply =
      (reply.getD 0 0).setWidth 32 ||| (reply.getD 1 0).setWidth 32 <<< 8 ||| (reply.getD 2 0).setWidth 32 <<< 16 |||
        (if dataBytes = 4 then (reply.getD 3 0).setWidth 32 <<< 24 else 0) := by
  rw [rword, ofLeBytes_eq]
  split <;> rfl

theorem replyError_none {n : Nat} {reply : List Byte} :
    replyError n reply = none ↔ reply.length = n ∧ (n = 5 → crc8Seq (reply.take 4) = reply.getD 4 0) := by
  unfold replyError
  by_cases hl : reply.length = n <;> by_cases hc : crc8Seq (reply.take 4) = reply.getD 4 0 <;> simp [hl, hc]

/-- RDREG with a reply that does not pass its checks is one transaction that ends with the error. -/
theorem exec_rdreg_err (hr : s.Ready) (hn : s.NoReset) (hd : s.HasDev d) (hreg : s.cfg.hasReg r = true) {e : Err}
    (he : replyError (s.flen d) s.nextReply.1 = some e) :
    exec (.rdreg d r) s = .next { s.withTransaction d (s.readFrame d r) (s.flen d) with
      results := s.results ++ [.err e] } := by
  have h := rdreg_noReset (s.begin (.rdreg d r)) d r hn
  rw [s.nextReply_begin, State.begin_flen, he] at h
  refine (accept_unit_err hr (badReg_none.2 ⟨hd, hreg⟩) h hn).trans (congrArg _ ?_)
  exact s.finish_afterXfer_begin hr.1 _ d _ _ _

/-- What a reply leaves depends neither on the sequencer nor on the results given. -/
theorem State.finish_afterReply (h : s.seq = .idle) (d : DevIx) (r : RegName) (reply : List Byte) (q : Seq)
    (l : List HostResult) (res : HostResult) :
    (({ s with seq := q, results := l } : State).afterReply d r reply).finish res =
      { s.afterReply d r reply with results := l ++ [res] } := by
  have hdrift (w : Word) : (({ s with seq := q, results := l } : State).decodeReg d r w).drifted d r =
      (s.decodeReg d r w).drifted d r := rfl
  simp only [State.afterReply, State.afterDrift, hdrift]
  split <;> simp [State.finish, State.record, State.decodeReg, State.setCells, State.setWarn, State.modDev, h, Seq.tick]

theorem State.afterReply_idle (h : s.seq = .idle) (d : DevIx) (r : RegName) (reply : List Byte) :
    (s.afterReply d r reply).seq = .idle := by
  unfold State.afterReply State.afterDrift
  split <;> simp [h, Seq.tick]

/-- RDREG with any other reply is one transaction, and then what the block does with the reply. -/
theorem exec_rdreg_ok (hr : s.Ready) (hn : s.NoReset) (hd : s.HasDev d) (hreg : s.cfg.hasReg r = true)
    (he : replyError (s.flen d) s.nextReply.1 = none) :
    exec (.rdreg d r) s = .next { (s.withTransaction d (s.readFrame d r) (s.flen d)).afterReply d r s.nextReply.1 with
      results := s.results ++ [.ok .none] } := by
  have h := rdreg_noReset (s.begin (.rdreg d r)) d r hn
  rw [s.nextReply_begin, State.begin_flen, he, State.afterXfer_withTransaction, State.begin,
    State.withTransaction_seq] at h
  refine (accept_unit_ok hr (badReg_none.2 ⟨hd, hreg⟩) h ?_).trans (congrArg _ ?_)
  · rw [State.afterReply_resets]
    exact hn
  · exact State.finish_afterReply (s := s.withTransaction d _ _) hr.1 d r _ _ _ _

/-- Whether the state a reply for the register leaves shows a CRC-enable bit other than the intended one (R113). -/
def State.warned (s t : State) (d : DevIx) (r : RegName) : Bool :=
  decide (r = s.cfg.uartReg) && (t.crcOn d != (s.dev d).crcIntended)

section
variable (s d r) (reply : List Byte)

theorem State.drifted_decodeReg :
    (s.decodeReg d r (rword s.cfg.readDataBytes reply)).drifted d r = s.warned (s.afterReply d r reply) d r := by
  have hon : (s.afterReply d r reply).crcOn d = (s.decodeReg d r (rword s.cfg.readDataBytes reply)).crcOn d :=
    (State.flen_of_cells (State.afterDrift_cfg _ _ _) (State.afterDrift_cells _ _ _ _ _)).2
  obtain ⟨hint, -⟩ := State.dev_setCells_rest s d d r (decodeCells (s.cfg.fieldsOf r) (rword s.cfg.readDataBytes reply))
  rw [State.warned, State.drifted, hon, State.decodeReg, hint]
  rfl

/-- A reply adds at most the warning to the trace. -/
theorem State.afterReply_trace_warned : (s.afterReply d r reply).trace =
    s.trace ++ (if s.warned (s.afterReply d r reply) d r then [.warn .crcDrift d] else []) := by
  rw [← s.drifted_decodeReg d r reply, State.afterReply, State.afterDrift_trace, State.decodeReg_trace]

end

/-- A reply writes the cells of its register and the drift flag of its device. -/
theorem State.afterReply_dev (hs : s.Shaped) (hd : s.HasDev d) (r : RegName) (reply : List Byte) :
    (s.afterReply d r reply).dev d = { s.dev d with
      fv := (s.dev d).fv.set (s.cfg.regIx r) (decodeCells (s.cfg.fieldsOf r) (rword s.cfg.readDataBytes reply))
      warnDrift := (s.dev d).warnDrift || s.warned (s.afterReply d r reply) d r } := by
  have hlt : d.toNat < (s.decodeReg d r (rword s.cfg.readDataBytes reply)).devs.length := by
    simpa [State.decodeReg, State.setCells] using hs.lt hd
  rw [← s.drifted_decodeReg d r reply, State.afterReply, State.afterDrift_dev _ _ _ hlt]
  simp only [State.decodeReg, State.dev_setCells hs hd]

/-- A field of a register just answered for reads as the decode of the reply's word. -/
theorem State.afterReply_getCell (hs : s.Shaped) (hd : s.HasDev d) {f : FldName} {x : FieldDesc}
    (hf : s.cfg.field? r f = some x) (reply : List Byte) :
    (s.afterReply d r reply).getCell d r f = bfDecode x.bits (rword s.cfg.readDataBytes reply) :=
  (State.getCell_of_cells (State.afterDrift_cfg _ _ _) (State.afterDrift_cells _ _ _ _ _)).trans
    (State.getCell_decodeReg hs hd (Config.field?_hasReg hf) hf)

theorem State.withTransaction_dev (hd : d.toNat < s.devs.length) (cmd : List Byte) (n : Nat) :
    (s.withTransaction d cmd n).dev d = { s.dev d with csN := true } :=
  s.dev_modDev_same d _ hd

theorem State.withTransaction_shaped (hs : s.Shaped) (d : DevIx) (cmd : List Byte) (n : Nat) :
    (s.withTransaction d cmd n).Shaped :=
  State.afterXfer_shaped d cmd n hs

theorem State.withTransaction_cells (s : State) (d d' : DevIx) (r : RegName) (cmd : List Byte) (n : Nat) :
    (s.withTransaction d cmd n).cells d' r = s.cells d' r :=
  s.afterXfer_cells d d' r cmd n

/-! ### RDREG as its read frame and its reply frame -/

/-- The two states have the same device contexts, trace and answers still to come. -/
def State.SameLink (s t : State) : Prop :=
  t.devs = s.devs ∧ t.trace = s.trace ∧ t.replies = s.replies ∧ t.draws = s.draws

/-- The read frame of a register leaves its transaction, and a result. -/
theorem accept_readFrame (hr : s.Ready) (hn : s.NoReset) (hd : s.HasDev d) (hreg : s.cfg.hasReg r = true) (i : Instr) :
    ∃ res, accept i (s.badFrame d (s.readFrame d r) (s.flen d)) (memRead d (s.readFrame d r)) s =
      .next { s.withTransaction d (s.readFrame d r) (s.flen d) with results := s.results ++ [res] } := by
  have hforms : s.forms d (s.readFrame d r) := .inl ⟨r, hreg, rfl⟩
  have h := accept_memRead (d := d) (cmd := s.readFrame d r) hr hn ((badFrame_none hr.2).2 ⟨hd, hforms, rfl⟩) i
  rw [State.forms_length hforms] at h
  exact ⟨_, h⟩

/-- RDREG leaves on the link what its read frame and then its reply, received as a frame, leave there: they differ in the
results alone (log 4). -/
theorem exec_rdreg_eq_frames {t : State} (hr : s.Ready) (hn : s.NoReset) (hd : s.HasDev d) (hreg : s.cfg.hasReg r = true)
    (ht : exec (.rdreg d r) s = .next t) (i j : Instr) :
    ∃ s1 u, accept i (s.badFrame d (s.readFrame d r) (s.flen d)) (memRead d (s.readFrame d r)) s = .next s1 ∧
      accept j (s1.badReg d r) (receive d r s.nextReply.1) s1 = .next u ∧ t.SameLink u := by
  obtain ⟨res, hread⟩ := accept_readFrame hr hn hd hreg i
  let v := s.withTransaction d (s.readFrame d r) (s.flen d)
  let s1 : State := { v with results := s.results ++ [res] }
  have hgood : s1.badReg d r = none := badReg_none.2 ⟨hd, hreg⟩
  have hflen : s1.flen d = s.flen d := s.afterXfer_flen d d (s.readFrame d r) (s.flen d)
  cases he : replyError (s.flen d) s.nextReply.1 with
  | some e =>
    cases ht.symm.trans (exec_rdreg_err hr hn hd hreg he)
    exact ⟨s1, _, hread, accept_receive_err (s := s1) hr hn hgood (hflen ▸ he) j, rfl, rfl, rfl, rfl⟩
  | none =>
    cases ht.symm.trans (exec_rdreg_ok hr hn hd hreg he)
    have hleft := State.finish_afterReply (s := v) hr.1 d r s.nextReply.1 (.busy j 0) (s.results ++ [res]) (.ok .none)
    have hrecv := accept_receive_ok (s := s1) (r := r) hr hn hgood (hflen ▸ he) j
    exact ⟨s1, _, hread, hrecv.trans (congrArg _ hleft), rfl, rfl, rfl, rfl⟩

end

/-! ### The obligations -/

/-- Settles O14: XFER is refused exactly when `badFrame` finds something wrong, and is one transaction else. -/
theorem xferIsOneTransaction : Obligations.XferIsOneTransaction := by
  intro d cmd n s hr hn hd
  refine ⟨fun hf hl => exec_xfer hr hn ((badFrame_none hr.2).2 ⟨hd, hf, hl⟩), fun hf => ?_⟩
  obtain ⟨x, hx⟩ := Option.ne_none_iff_exists'.1 fun hb : s.badFrame d cmd n = none => hf ((badFrame_none hr.2).1 hb).2
  exact ⟨x, accept_bad s hr hx _ _⟩

/-- Settles O16: the body never raises, and is two transactions by `wrreg_noReset`. -/
theorem wrregMakesTwoTransactions : Obligations.WrregMakesTwoTransactions := by
  intro d r s hr _ hn hd hc n w a u v
  have hgood : s.badCtrl d r = none := badCtrl_none.2 ⟨hd, Config.isControl_hasReg hc, hc⟩
  refine (accept_unit_ok hr hgood (wrreg_noReset (s.begin _) d r hn) hn).trans (congrArg _ ?_)
  exact s.finish_afterXfer_afterXfer_begin hr.1 _ d _ _ _ _ _

/-- Settles O22: the body writes two flags of one device, and no cell. -/
theorem crcintendRecordsIntention : Obligations.CrcintendRecordsIntention := by
  intro d b s hr hn hs hd
  have hcells : ((s.setIntended d b).setWarn d false).cells d s.cfg.uartReg = s.cells d s.cfg.uartReg :=
    (State.cells_modDev (g := fun v => { v with warnDrift := false }) fun _ => rfl).trans
      (State.cells_modDev (g := fun v => { v with crcIntended := b }) fun _ => rfl)
  refine ⟨_, accept_unit_ok hr (badDev_none.2 hd) rfl hn, rfl, rfl, ?_, fun d' hne => ?_, ?_,
    rfl, rfl, rfl, rfl, rfl, rfl, rfl, rfl⟩
  · exact (congrArg (fun u : State => u.dev d) (s.modDev_modDev d _ _)).trans (s.dev_modDev_same d _ (hs.lt hd))
  · exact (State.dev_modDev_other _ d d' _ hne).trans (s.dev_modDev_other d d' _ hne)
  · exact (State.flen_of_cells (s := s) (t := (s.setIntended d b).setWarn d false) rfl hcells).1

/-- Settles O15: an error of the reply is all that follows the transaction; with none, what follows is `afterReply`. -/
theorem rdregFollowsItsRule : Obligations.RdregFollowsItsRule := by
  intro d r s hr hs hn hd hreg n reply cmd u
  refine ⟨fun hl => ?_, fun hl h5 hc => ?_, fun hl hc => ?_⟩
  · exact exec_rdreg_err hr hn hd hreg (if_pos hl)
  · exact exec_rdreg_err hr hn hd hreg ((if_neg (not_not.2 hl)).trans (if_pos ⟨h5, hc⟩))
  · have hu : u.Shaped := State.withTransaction_shaped hs d cmd n
    have hself : u.dev d = { s.dev d with csN := true } := State.withTransaction_dev (hs.lt hd) cmd n
    have hwarned : u.warned (u.afterReply d r reply) d r = s.warned (u.afterReply d r reply) d r := by
      rw [State.warned, hself]
      rfl
    have hdev := State.afterReply_dev hu hd r reply
    have htr := u.afterReply_trace_warned d r reply
    rw [hself, hwarned] at hdev
    rw [hwarned] at htr
    refine ⟨_, exec_rdreg_ok hr hn hd hreg (replyError_none.2 ⟨hl, hc⟩), rfl,
      State.afterReply_idle (s := u) hr.1 d r reply, fun f fd hf => ?_, fun d' r' hne => ?_, ⟨htr, ?_⟩, ?_, ?_,
      ?_, fun d' hne => ?_, u.afterReply_cfg d r reply, u.afterReply_pollCount d r reply,
      u.afterReply_port d r reply, u.afterReply_replies d r reply, u.afterReply_cancels d r reply,
      u.afterReply_resets d r reply, u.afterReply_draws d r reply⟩
    · rw [← rword_eq]
      exact State.afterReply_getCell hu hd hf reply
    · exact (State.afterReply_cells_other (s := u) reply hreg hne).trans (s.withTransaction_cells d d' r' cmd n)
    · exact (congrArg Dev.warnDrift hdev).trans rfl
    · exact (congrArg Dev.csN hdev).trans rfl
    · exact (congrArg Dev.latch hdev).trans rfl
    · exact (congrArg Dev.crcIntended hdev).trans rfl
    · exact (State.afterReply_dev_other reply hne).trans (s.dev_modDev_other d d' _ hne)

/-- Settles O51: the frames of either mode are `readFrame` and a reply of `flen(d)` bytes. -/
theorem rdregIsReadFrameThenReply : Obligations.RdregIsReadFrameThenReply := by
  intro d r b0 b1 b2 b3 k rest s t hr _ hn hd hreg ht same
  have hframes := exec_rdreg_eq_frames hr hn hd hreg ht
  unfold State.readFrame at hframes
  refine ⟨fun hl hp => ?_, fun hl hp => ?_⟩
  · rw [hl, State.nextReply_cons s hp] at hframes
    exact hframes (.cmdRd4 d (s.cfg.addr r)) (.rpl4 d r b0 b1 b2 b3)
  · rw [hl, State.nextReply_cons s hp] at hframes
    exact hframes (.cmdRd5 d (s.cfg.addr r) (crc8Seq [s.cfg.addr r, 0xFF, 0xFF, 0xFF])) (.rpl5 d r b0 b1 b2 b3 k)

end Sys2Proof.Machine
end

section
/-! The latch handshake (spec/43_transport.md R119 to R122): the request, a number of polls that show a requested bit, and
the end the loop comes to. -/

namespace Sys2Proof.Machine

section
variable {s t u : State} {d : DevIx} {c1 c2 : Bool} {n iv : Word}

/-! ### From the operation to its loop -/

theorem Site.of_ready (hr : s.Ready) (hs : s.Shaped) (hn : s.NoReset) (hd : s.HasDev d)
    (hu : s.cfg.latchReg ≠ s.cfg.uartReg) : Site s d :=
  have ⟨hf1, hf2⟩ := Config.latch_fields hr.2
  ⟨hn, hs, hd, Config.hasField_hasReg hf1, hu, Config.hasField_isSome hf1, Config.hasField_isSome hf2⟩

theorem Site.begin (hs : Site s d) (i : Instr) : Site (s.begin i) d :=
  ⟨hs.quiet, hs.shaped, hs.dev, hs.reg, hs.apart, hs.field1, hs.field2⟩

/-- The state in which the loop of an accepted LATCH starts. -/
def State.latchBegin (s : State) (d : DevIx) (c1 c2 : Bool) (n iv : Word) : State :=
  (s.begin (.latch d c1 c2 n iv)).latchStart d c1 c2

/-- LATCH answers `Ok` when its loop ends well. -/
theorem exec_latch_ok (hr : s.Ready) (hs : Site s d)
    (h : pollLoop d c1 c2 iv n.toNat (s.latchBegin d c1 c2 n iv) = .ok () t) (hn : t.resets = []) :
    exec (.latch d c1 c2 n iv) s = .next (t.finish (.ok .none)) :=
  accept_unit_ok hr (badDev_none.2 hs.dev) ((latch_start (hs.begin _) c1 c2 n iv).trans h) hn

/-- LATCH answers the error its loop ends with. -/
theorem exec_latch_err (hr : s.Ready) (hs : Site s d) {e : Err}
    (h : pollLoop d c1 c2 iv n.toNat (s.latchBegin d c1 c2 n iv) = .error (.err e) t) (hn : t.resets = []) :
    exec (.latch d c1 c2 n iv) s = .next (t.finish (.err e)) :=
  accept_unit_err hr (badDev_none.2 hs.dev) ((latch_start (hs.begin _) c1 c2 n iv).trans h) hn

/-! ### What the handshake leaves on its way -/

/-- From `s`, in which LATCH is accepted, to `t` by the request and `k` polls, the events being `evs` and the sleeps among
them `naps`. -/
structure Handshaken (s : State) (d : DevIx) (c1 c2 : Bool) (k : Nat) (evs : List Event) (naps : List Word) (t : State) :
    Prop where
  site : Site t d
  cfg : t.cfg = s.cfg
  results : t.results = s.results
  count : t.pollCount = k
  trace : t.trace = s.trace ++ evs
  frames : framesSent evs =
    (s.withLatchBits d c1 c2).writeFrames d s.cfg.latchReg ++ List.replicate k (s.readFrame d s.cfg.latchReg)
  sleeps : sleeps evs = naps
  disciplined : disciplined evs = true
  flen : t.flen d = s.flen d
  others : ∀ d', d' ≠ d → t.dev d' = s.dev d'
  cells : ∀ r, r ≠ s.cfg.latchReg → t.cells d r = s.cells d r

theorem begin_withLatchBits (s : State) (i : Instr) (d : DevIx) (c1 c2 : Bool) :
    (s.begin i).withLatchBits d c1 c2 = (s.withLatchBits d c1 c2).begin i := by
  cases c1 <;> cases c2 <;> rfl

/-- The request by itself. -/
theorem handshaken_latchBegin (hs : Site s d) (c1 c2 : Bool) (n iv : Word) :
    ∃ evs, Handshaken s d c1 c2 0 evs [] (s.latchBegin d c1 c2 n iv) ∧
      (s.latchBegin d c1 c2 n iv).cancels = s.cancels ∧
      (∀ r1 r2 rest, s.replies = r1 :: r2 :: rest → (s.latchBegin d c1 c2 n iv).replies = rest) ∧
      ∀ r f, (s.latchBegin d c1 c2 n iv).getCell d r f = (s.withLatchBits d c1 c2).getCell d r f := by
  obtain ⟨hsite, hcfg, hres, -, hcount, ⟨evs, htr, hframes, hsleeps, hdisc⟩, hrep, hcan, hoth, hbits, hcells,
    hflen⟩ :=
    State.latchStart_facts (hs.begin (.latch d c1 c2 n iv)) c1 c2
  rw [begin_withLatchBits] at hframes
  refine ⟨evs, ⟨hsite, hcfg, hres, hcount, htr, hframes.trans (List.append_nil _).symm, hsleeps, hdisc, hflen, hoth,
    hcells⟩, hcan, hrep, fun r f => ?_⟩
  rw [begin_withLatchBits] at hbits
  exact State.getCell_of_cells (hcfg.trans (s.withLatchBits_cfg d c1 c2).symm) (hbits r)

theorem Handshaken.readFrame {k : Nat} {evs : List Event} {naps : List Word} (h : Handshaken s d c1 c2 k evs naps t) :
    t.readFrame d t.cfg.latchReg = s.readFrame d s.cfg.latchReg := by
  rw [State.readFrame, h.flen, h.cfg, State.readFrame]

/-- More polls. -/
theorem Handshaken.polled {k : Nat} {evs a : List Event} {naps : List Word} {p : List (List Byte)}
    (h : Handshaken s d c1 c2 k evs naps t) (hp : Polled d p a t u)
    (hf : framesSent a = List.replicate p.length (t.readFrame d t.cfg.latchReg)) (hd : Machine.disciplined a = true) :
    Handshaken s d c1 c2 (k + p.length) (evs ++ a) (naps ++ Machine.sleeps a) u where
  site := hp.site h.site
  cfg := hp.cfg.trans h.cfg
  results := hp.results.trans h.results
  count := by rw [hp.count, h.count]
  trace := by rw [hp.trace, h.trace, List.append_assoc]
  frames := by
    rw [framesSent_append, h.frames, hf, h.readFrame, List.append_assoc, List.replicate_append_replicate]
  sleeps := by rw [sleeps_append, h.sleeps]
  disciplined := disciplined_append _ _ h.disciplined hd
  flen := (hp.flen h.site.apart).trans h.flen
  others d' hd' := (hp.others d' hd').trans (h.others d' hd')
  cells r hr := (hp.cells r (h.cfg ▸ hr)).trans (h.cells r hr)

/-- What the operation leaves once the loop has set the latch state. -/
theorem Handshaken.finish {k : Nat} {evs : List Event} {naps : List Word} (h : Handshaken s d c1 c2 k evs naps t)
    (l : LatchState) (res : HostResult) :
    let v := (t.setLatch d l).finish res
    v.results = s.results ++ [res] ∧ (v.dev d).latch = l ∧ v.pollCount = k ∧ v.trace = s.trace ++ evs ∧
      (∀ r f, v.getCell d r f = t.getCell d r f) ∧ (∀ d', d' ≠ d → v.dev d' = s.dev d') ∧
      ∀ r, r ≠ s.cfg.latchReg → v.cells d r = s.cells d r := by
  have hcells (r : RegName) : (t.setLatch d l).cells d r = t.cells d r :=
    State.cells_modDev (g := fun v => { v with latch := l }) fun _ => rfl
  exact ⟨congrArg (· ++ [res]) h.results, State.setLatch_latch (h.site.shaped.lt h.site.dev) l, h.count, h.trace,
    fun r _ => State.getCell_of_cells (s := t) rfl (hcells r),
    fun d' hne => (t.dev_modDev_other d d' _ hne).trans (h.others d' hne), fun r hr => (hcells r).trans (h.cells r hr)⟩

/-- The request and the polls that show a requested bit, within the budget: the loop goes on with the rest of it. -/
theorem pollLoop_latchBegin (hs : Site s d) {r1 r2 : List Byte} {polls rest : List (List Byte)} {k : Nat}
    (hc : s.noCancel (polls.length + k)) (hp : s.replies = r1 :: r2 :: (polls ++ rest)) (hl : polls.length ≤ n.toNat)
    (hshow : ∀ p ∈ polls, replyError (s.flen d) p = none ∧ s.cfg.showsLatch c1 c2 p = true) :
    ∃ t evs, Handshaken s d c1 c2 polls.length evs
        (List.replicate (if polls.length = n.toNat then n.toNat - 1 else polls.length) iv) t ∧
      t.noCancel k ∧ t.replies = rest ∧
      pollLoop d c1 c2 iv n.toNat (s.latchBegin d c1 c2 n iv) = pollLoop d c1 c2 iv (n.toNat - polls.length) t := by
  obtain ⟨evs, hstart, hcan, hrep, -⟩ := handshaken_latchBegin hs c1 c2 n iv
  have hcancel : (s.latchBegin d c1 c2 n iv).noCancel (polls.length + k) := by
    unfold State.noCancel
    rw [hcan, hstart.cfg]
    exact hc
  obtain ⟨t, a, hpolled, hct, hloop, hframes, hsleeps, hdisc⟩ :=
    pollLoop_run polls _ n.toNat k rest hstart.site hl hcancel (hrep _ _ _ hp)
      (by rw [hstart.flen, hstart.cfg]; exact hshow)
  have h := hstart.polled hpolled hframes hdisc
  rw [Nat.zero_add, hsleeps, List.nil_append] at h
  exact ⟨t, _, h, hct, List.append_cancel_left (hpolled.replies.symm.trans (hrep _ _ _ hp)), hloop⟩

/-- The poll that shows no requested bit ends the handshake well. -/
theorem Handshaken.clear_poll {k m : Nat} {evs : List Event} {naps : List Word} (h : Handshaken s d c1 c2 k evs naps t)
    (hc : t.noCancel 1) {p : List Byte} {rest : List (List Byte)} (hp : t.replies = p :: rest)
    (hgood : replyError (s.flen d) p = none) (hclear : s.cfg.showsLatch c1 c2 p = false) :
    ∃ v a, Handshaken s d c1 c2 (k + 1) (evs ++ a) naps v ∧ v.replies = rest ∧
      v.cells d s.cfg.latchReg = decodeCells (s.cfg.fieldsOf s.cfg.latchReg) (rword s.cfg.readDataBytes p) ∧
      pollLoop d c1 c2 iv (m + 1) t = .ok () (v.setLatch d .latched) := by
  obtain ⟨v, hpolled, -, hcells, hloop⟩ :=
    pollLoop_good (c1 := c1) (c2 := c2) (iv := iv) (n := m) h.site hc hp (h.flen ▸ hgood)
  rw [h.cfg] at hcells hloop
  rw [hclear, if_neg Bool.false_ne_true] at hloop
  have hv := h.polled hpolled (by rw [h.cfg]; rfl) (disciplined_transaction _ _ _ _)
  rw [sleeps_transaction, List.append_nil] at hv
  exact ⟨v, _, hv, List.append_cancel_left (as := [p]) (hpolled.replies.symm.trans hp), hcells, hloop⟩

/-! ### The cells of `LATCH_REG` -/

theorem State.getCell_of_decoded (hc : t.cfg = s.cfg) {r : RegName} {w : Word}
    (h : t.cells d r = decodeCells (s.cfg.fieldsOf r) w) {f : FldName} {x : FieldDesc} (hf : s.cfg.field? r f = some x) :
    t.getCell d r f = bfDecode x.bits w := by
  rw [State.getCell_eq, h, hc]
  simp [List.getD_eq_getElem?_getD, decodeCells, Config.getElem_fldIx hf]

/-- A cell that holds a value keeps it when the value is stored in any cell of its register. -/
theorem State.getCell_setCell_of_eq (hs : s.Shaped) (hd : s.HasDev d) {r : RegName} {f f' : FldName}
    (hf : (s.cfg.field? r f').isSome = true) {v : Word} (h : s.getCell d r f = v) :
    (s.setCell d r f' v).getCell d r f = v := by
  obtain ⟨x, hx⟩ := Option.isSome_iff_exists.1 hf
  have hr := Config.field?_hasReg hx
  by_cases e : f = f'
  · subst e
    exact State.getCell_setCell_same hs hd hr hx
  · exact (State.getCell_setCell_other hs hr hx fun h => e (congrArg (·.2.2) h)).trans h

/-- The latch cell of a requested channel is 1 after the request, also where the channels have one cell. -/
theorem State.withLatchBits_getCell (hs : Site s d) (c1 c2 : Bool) :
    (c1 = true → (s.withLatchBits d c1 c2).getCell d s.cfg.latchReg s.cfg.latchF1 = 1) ∧
    (c2 = true → (s.withLatchBits d c1 c2).getCell d s.cfg.latchReg s.cfg.latchF2 = 1) := by
  obtain ⟨x1, hx1⟩ := Option.isSome_iff_exists.1 hs.field1
  obtain ⟨x2, hx2⟩ := Option.isSome_iff_exists.1 hs.field2
  constructor <;> rintro rfl
  · have h1 := State.getCell_setCell_same (v := 1) hs.shaped hs.dev hs.reg hx1
    cases c2
    · exact h1
    · exact State.getCell_setCell_of_eq hs.shaped.setCell hs.dev hs.field2 h1
  · cases c1
    · exact State.getCell_setCell_same hs.shaped hs.dev hs.reg hx2
    · exact State.getCell_setCell_same (s := s.setCell d _ _ 1) hs.shaped.setCell hs.dev hs.reg hx2

end

/-! ### The obligations -/

/-- Settles O17: the polls use the budget up, and the loop ends with nothing left of it. -/
theorem latchTimesOutWhenNeverCleared : Obligations.LatchTimesOutWhenNeverCleared := by
  intro d c1 c2 n iv s r1 r2 polls rest hr hs hn hd hu hc hp hl hshow
  have hsite := Site.of_ready hr hs hn hd hu
  obtain ⟨t, evs, h, -, hrest, hloop⟩ :=
    pollLoop_latchBegin (c1 := c1) (c2 := c2) (iv := iv) (k := 0) hsite (hl ▸ hc) hp hl.le hshow
  rw [hl, Nat.sub_self, pollLoop_spent] at hloop
  rw [if_pos hl, hl] at h
  obtain ⟨hres, hlatch, hcount, htr, -, hoth, hcells⟩ := h.finish .timedOut (.err .latchTimeout)
  exact ⟨_, evs, exec_latch_err hr hsite hloop h.site.quiet, hres, hlatch, hcount, hrest, rfl, htr, h.disciplined,
    h.frames, h.sleeps, hoth, hcells⟩

/-- Settles O18: the polls leave some of the budget, and the one after them shows no requested bit. -/
theorem latchSucceedsOnFirstClearPoll : Obligations.LatchSucceedsOnFirstClearPoll := by
  intro d c1 c2 n iv s r1 r2 p polls rest hr hs hn hd hu hc hp hl hshow hgood hclear
  have hsite := Site.of_ready hr hs hn hd hu
  obtain ⟨t, evs, h, hct, hrep, hloop⟩ :=
    pollLoop_latchBegin (c1 := c1) (c2 := c2) (iv := iv) hsite hc hp hl.le hshow
  rw [if_neg hl.ne] at h
  obtain ⟨m, hm⟩ : ∃ m, n.toNat - polls.length = m + 1 := ⟨n.toNat - polls.length - 1, by omega⟩
  obtain ⟨v, a, hv, hrest, hread, hend⟩ := h.clear_poll (iv := iv) (m := m) hct hrep hgood hclear
  rw [hm, hend] at hloop
  obtain ⟨hres, hlatch, hcount, htr, hown, hoth, hcells⟩ := hv.finish .latched (.ok .none)
  refine ⟨_, evs ++ a, exec_latch_ok hr hsite hloop hv.site.quiet, hres, hlatch, hcount, hrest, rfl, htr, hv.disciplined,
    hv.frames, hv.sleeps, fun f fd hf => ?_, hoth, hcells⟩
  exact (hown _ f).trans (State.getCell_of_decoded hv.cfg hread hf)

/-- Settles O19: with a budget of 0 the loop ends as it begins; with no channel requested every reply shows no requested
bit. -/
theorem latchCornerCases : Obligations.LatchCornerCases := by
  intro d iv s hr hs hn hd hu
  have hsite := Site.of_ready hr hs hn hd hu
  refine ⟨fun c1 c2 => ?_, fun n r1 r2 p rest hn0 hc hp hgood => ?_⟩
  · obtain ⟨evs, h, -, -, hbits⟩ := handshaken_latchBegin hsite c1 c2 0 iv
    obtain ⟨hres, hlatch, hcount, htr, hown, -, -⟩ := h.finish .timedOut (.err .latchTimeout)
    obtain ⟨hbit1, hbit2⟩ := State.withLatchBits_getCell hsite c1 c2
    have hcell (f : FldName) := (hown s.cfg.latchReg f).trans (hbits s.cfg.latchReg f)
    exact ⟨_, evs, exec_latch_err hr hsite (pollLoop_spent c1 c2 iv _) h.site.quiet, hres, hcount, hlatch, htr,
      h.frames.trans (List.append_nil _), fun h1 => (hcell _).trans (hbit1 h1), fun h2 => (hcell _).trans (hbit2 h2)⟩
  · obtain ⟨t, evs, h, hct, hrep, hloop⟩ :=
      pollLoop_latchBegin (c1 := false) (c2 := false) (n := n) (iv := iv) (polls := []) (k := 1) hsite hc hp
        (Nat.zero_le _) (by simp)
    obtain ⟨m, hm⟩ : ∃ m, n.toNat = m + 1 := Nat.exists_eq_succ_of_ne_zero fun e => hn0 (BitVec.eq_of_toNat_eq e)
    obtain ⟨v, a, hv, -, -, hend⟩ := h.clear_poll (iv := iv) (m := m) hct hrep hgood rfl
    rw [List.length_nil, Nat.sub_zero, hm, hend, ← hm] at hloop
    obtain ⟨hres, hlatch, hcount, htr, -, -, -⟩ := hv.finish .latched (.ok .none)
    exact ⟨_, evs ++ a, exec_latch_ok hr hsite hloop hv.site.quiet, hres, hcount, hlatch, htr, hv.frames⟩

/-- Settles O21: what the loop can end with is `pollLoop_outcome`, and the operation only adds the result. -/
theorem latchStateTellsOutcome : Obligations.LatchStateTellsOutcome := by
  intro d c1 c2 n iv s t hs hn he
  obtain ⟨hr, hgood, -⟩ := accept_next s he
  have ⟨hf1, hf2⟩ := Config.latch_fields hr.2
  have hstart := latch_start_of (s := s.begin (.latch d c1 c2 n iv)) (d := d) hn (Config.hasField_isSome hf1)
    (Config.hasField_isSome hf2) c1 c2 n iv
  have hquiet := ends_latch (shake_quiet d) c1 c2 n iv (s.begin (.latch d c1 c2 n iv))
  obtain ⟨-, hrst, hres, hlen⟩ := (s.begin (.latch d c1 c2 n iv)).latchStart_rest d c1 c2
  have hlt : d.toNat < (s.latchBegin d c1 c2 n iv).devs.length := hlen ▸ hs.lt (badDev_none.1 hgood)
  rcases pollLoop_outcome (c1 := c1) (c2 := c2) (iv := iv) n.toNat _ (hrst.trans hn) hlt with
    ⟨u, hu, hur, hl⟩ | ⟨u, hu, hur, hl⟩ | ⟨e, u, hx, hu, hur, hl⟩ <;> rw [hstart, hu] at hquiet
  · cases he.symm.trans (accept_unit_ok hr hgood (hstart.trans hu) (hquiet hn))
    exact .inl ⟨congrArg (· ++ _) (hur.trans hres), hl⟩
  · cases he.symm.trans (accept_unit_err hr hgood (hstart.trans hu) (hquiet hn))
    exact .inr (.inl ⟨congrArg (· ++ _) (hur.trans hres), hl⟩)
  · cases he.symm.trans (accept_unit_err hr hgood (hstart.trans hu) (hquiet hn))
    exact .inr (.inr ⟨e, hx.imp_right (.imp_right And.left), congrArg (· ++ _) (hur.trans hres), hl⟩)

end Sys2Proof.Machine
end

section
/-! SUPPORT. Fractions and binary64 numbers by the rational each stands for (spec/44_calibration.md R135): rounding is to a
nearest multiple of a unit that is small beside the value, so it is exact on short dyadic rationals. -/

namespace Sys2Proof.Machine

/-! ### Fractions -/

/-- The rational a fraction stands for. -/
def Frac.val (a : Frac) : ℚ := (a.num : ℚ) / a.den

section
variable {a b : Frac}

@[simp] theorem Frac.val_mk (n : Int) (d : Nat) : (Frac.mk n d).val = (n : ℚ) / d := rfl

@[simp] theorem Frac.val_ofInt (n : Int) : (Frac.ofInt n).val = n := by simp [Frac.ofInt]

theorem Frac.val_mul (a b : Frac) : (a.mul b).val = a.val * b.val := by
  simp [Frac.mul, Frac.val, div_mul_div_comm]

/-- A fraction divided by a fraction of value 0 has the value 0, as in the rationals. -/
theorem Frac.val_div (a b : Frac) : (a.div b).val = a.val / b.val := by
  have hsign : (b.num.sign : ℚ) / (b.num.natAbs : ℚ) = (b.num : ℚ)⁻¹ := by
    rcases lt_trichotomy b.num 0 with h | h | h
    · rw [Int.sign_eq_neg_one_of_neg h, Nat.cast_natAbs, abs_of_neg h]
      push_cast
      rw [neg_div_neg_eq, one_div]
    · simp [h]
    · rw [Int.sign_eq_one_of_pos h, Nat.cast_natAbs, abs_of_pos h]
      push_cast
      rw [one_div]
  calc (a.div b).val = a.num / a.den * b.den * (b.num.sign / b.num.natAbs) := by simp [Frac.div]; ring
    _ = a.val / b.val := by rw [hsign, Frac.val, Frac.val, div_div_eq_mul_div, div_eq_mul_inv (_ * _)]

theorem Frac.val_add (ha : a.den ≠ 0) (hb : b.den ≠ 0) : (a.add b).val = a.val + b.val := by
  simp only [Frac.add, Frac.val]
  push_cast
  rw [div_add_div _ _ (by exact_mod_cast ha) (by exact_mod_cast hb)]
  ring

theorem Frac.val_sub (ha : a.den ≠ 0) (hb : b.den ≠ 0) : (a.sub b).val = a.val - b.val := by
  simp only [Frac.sub, Frac.val]
  push_cast
  rw [div_sub_div _ _ (by exact_mod_cast ha) (by exact_mod_cast hb)]
  ring

theorem Frac.div_den_ne_zero (ha : a.den ≠ 0) (hb : b.val ≠ 0) : (a.div b).den ≠ 0 :=
  Nat.mul_ne_zero ha (Int.natAbs_ne_zero.2 fun h => hb (by simp [Frac.val, h]))

/-- `trunc0` is the floor at and above 0 and the ceiling below it. -/
theorem Frac.trunc0_eq (a : Frac) : a.trunc0 = if 0 ≤ a.val then ⌊a.val⌋ else ⌈a.val⌉ := by
  obtain ⟨n, d⟩ := a
  by_cases hd : d = 0
  · simp [Frac.trunc0, hd]
  · have hq : (0 : ℚ) < d := by exact_mod_cast Nat.pos_of_ne_zero hd
    rw [Frac.val_mk, Frac.trunc0]
    by_cases hn : 0 ≤ n
    · rw [if_pos (div_nonneg (by exact_mod_cast hn) hq.le), Rat.floor_intCast_div_natCast, Int.tdiv_eq_ediv_of_nonneg hn]
    · have hneg : (n : ℚ) / d < 0 := div_neg_of_neg_of_pos (by exact_mod_cast not_le.1 hn) hq
      rw [if_neg (not_le.2 hneg), Rat.ceil_intCast_div_natCast]
      rw [← Int.neg_neg n, Int.neg_tdiv, Int.tdiv_eq_ediv_of_nonneg (by omega), Int.neg_neg]

end

/-! ### Scaling, logarithm, and the nearest integer -/

theorem shift_div_shift (n d : Nat) (e : Int) :
    ((n <<< (-e).toNat : Nat) : ℚ) / (d <<< e.toNat : Nat) = n / d / 2 ^ e := by
  rcases le_total 0 e with h | h
  · lift e to Nat using h
    simp [Nat.shiftLeft_eq, div_div]
  · obtain ⟨k, rfl⟩ : ∃ k : Nat, e = -k := ⟨(-e).toNat, by omega⟩
    simp [Nat.shiftLeft_eq, mul_div_right_comm]

/-- `floorLog2` is the exponent of the power of two at or below the quotient. -/
theorem floorLog2_spec {n d : Nat} (hn : 0 < n) (hd : 0 < d) :
    (2 : ℚ) ^ floorLog2 n d ≤ n / d ∧ (n : ℚ) / d < 2 ^ (floorLog2 n d + 1) := by
  have hdq : (0 : ℚ) < d := by exact_mod_cast hd
  have hn1 : (2 : ℚ) ^ n.log2 ≤ n := by exact_mod_cast Nat.log2_self_le hn.ne'
  have hn2 : (n : ℚ) < 2 ^ (n.log2 + 1) := by exact_mod_cast Nat.lt_log2_self
  have hd1 : (2 : ℚ) ^ d.log2 ≤ d := by exact_mod_cast Nat.log2_self_le hd.ne'
  have hd2 : (d : ℚ) < 2 ^ (d.log2 + 1) := by exact_mod_cast Nat.lt_log2_self
  have hcond (l : Int) : d <<< l.toNat ≤ n <<< (-l).toNat ↔ (2 : ℚ) ^ l ≤ n / d := by
    have hs : (0 : ℚ) < (d <<< l.toNat : Nat) := by
      rw [Nat.shiftLeft_eq]; positivity
    rw [← Nat.cast_le (α := ℚ), ← one_le_div hs, shift_div_shift, one_le_div (by positivity)]
  have hlow : (2 : ℚ) ^ ((n.log2 : Int) - d.log2 - 1) ≤ n / d := by
    rw [le_div_iff₀ hdq, sub_sub, zpow_sub₀ two_ne_zero, div_mul_eq_mul_div, div_le_iff₀ (by positivity)]
    exact mul_le_mul hn1 (by exact_mod_cast hd2.le) hdq.le (by positivity)
  have hhigh : (n : ℚ) / d < 2 ^ ((n.log2 : Int) - d.log2 + 1) := by
    rw [div_lt_iff₀ hdq, sub_add_eq_add_sub, zpow_sub₀ two_ne_zero, div_mul_eq_mul_div, lt_div_iff₀ (by positivity)]
    exact mul_lt_mul (by exact_mod_cast hn2) (by exact_mod_cast hd1) (by positivity) (by positivity)
  unfold floorLog2
  simp only [hcond]
  split
  · exact ⟨‹_›, hhigh⟩
  · exact ⟨hlow, by simpa using not_le.1 ‹_›⟩

theorem divNearestEven_error (n : Nat) {d : Nat} (hd : 0 < d) : |(divNearestEven n d : ℚ) - n / d| ≤ 1 / 2 := by
  have hq : (0 : ℚ) < d := by exact_mod_cast hd
  have hdiv : d * (n / d) + n % d = n := Nat.div_add_mod n d
  have hmod : n % d < d := Nat.mod_lt n hd
  have hbound : 2 * n ≤ 2 * (divNearestEven n d * d) + d ∧ 2 * (divNearestEven n d * d) ≤ 2 * n + d := by
    unfold divNearestEven
    simp only
    generalize n / d = q at *
    rw [Nat.mul_comm] at hdiv
    split
    · rw [Nat.add_mul]; omega
    · omega
  have h1 : 2 * (n : ℚ) ≤ 2 * (divNearestEven n d * d) + d := by exact_mod_cast hbound.1
  have h2 : 2 * (divNearestEven n d * d) ≤ 2 * (n : ℚ) + d := by exact_mod_cast hbound.2
  rw [abs_le, neg_le_sub_iff_le_add, sub_le_iff_le_add, div_le_iff₀ hq, ← sub_le_iff_le_add', le_div_iff₀ hq]
  constructor <;> linarith

/-! ### Finite numbers -/

/-- A finite number whose exact value is `q`. -/
def F64.Is (x : F64) (q : ℚ) : Prop := ∃ a, x.frac? = some a ∧ a.den ≠ 0 ∧ a.val = q

/-- A sign applied to a magnitude. -/
def signed (neg : Bool) (m : Int) : Int := if neg then -m else m

theorem fracOf_den_ne_zero (neg : Bool) (sig : Nat) (exp : Int) : (fracOf neg sig exp).den ≠ 0 := by
  simp [fracOf, Nat.shiftLeft_eq]

theorem fracOf_val (neg : Bool) (sig : Nat) (exp : Int) : (fracOf neg sig exp).val = signed neg sig * 2 ^ exp := by
  have h := shift_div_shift sig 1 (-exp)
  rw [neg_neg, Nat.cast_one, div_one, zpow_neg, div_inv_eq_mul] at h
  cases neg
  · simpa [fracOf, signed, -Int.natCast_shiftLeft] using h
  · simpa [fracOf, signed, neg_div, -Int.natCast_shiftLeft] using h

theorem F64.is_fin (neg : Bool) (sig : Nat) (exp : Int) : (F64.fin neg sig exp).Is (signed neg sig * 2 ^ exp) :=
  ⟨_, rfl, fracOf_den_ne_zero neg sig exp, fracOf_val neg sig exp⟩

section
variable {x y : F64} {p q : ℚ}

theorem F64.is_of_frac? {a : Frac} (h : x.frac? = some a) : x.Is a.val := by
  cases x with
  | nan => cases h
  | inf n => cases h
  | fin n s e =>
    cases h
    exact ⟨_, rfl, fracOf_den_ne_zero n s e, rfl⟩

theorem F64.Is.eq_fin (h : x.Is q) : ∃ n s e, x = .fin n s e ∧ q = signed n s * 2 ^ e := by
  obtain ⟨a, ha, -, rfl⟩ := h
  cases x with
  | nan => cases ha
  | inf n => cases ha
  | fin n s e =>
    cases ha
    exact ⟨n, s, e, rfl, fracOf_val n s e⟩

theorem F64.isFinite_iff : x.isFinite = true ↔ ∃ q, x.Is q := by
  cases x with
  | nan => simp [F64.isFinite, F64.Is, F64.frac?]
  | inf n => simp [F64.isFinite, F64.Is, F64.frac?]
  | fin n s e => simpa [F64.isFinite] using ⟨_, F64.is_fin n s e⟩

theorem F64.Is.isZero_iff (h : x.Is q) : x.isZero = true ↔ q = 0 := by
  obtain ⟨n, s, e, rfl, rfl⟩ := h.eq_fin
  have he : (2 : ℚ) ^ e ≠ 0 := zpow_ne_zero e two_ne_zero
  cases n <;> simp [F64.isZero, signed, he]

/-- A number with a positive value has the positive sign and a significand other than 0. -/
theorem F64.Is.eq_fin_of_pos (h : x.Is q) (hq : 0 < q) : ∃ s e, x = .fin false s e ∧ s ≠ 0 := by
  obtain ⟨n, s, e, rfl, rfl⟩ := h.eq_fin
  have hs : 0 < signed n s := by
    exact_mod_cast (pos_iff_pos_of_mul_pos hq).2 (by positivity : (0 : ℚ) < 2 ^ e)
  cases n with
  | false => exact ⟨s, e, rfl, by simpa [signed, Nat.pos_iff_ne_zero] using hs⟩
  | true => simp [signed] at hs; omega

theorem F64.Is.trunc0? (h : x.Is q) : x.trunc0? = some (if 0 ≤ q then ⌊q⌋ else ⌈q⌉) := by
  obtain ⟨a, ha, -, rfl⟩ := h
  rw [F64.trunc0?, ha, Option.map_some, Frac.trunc0_eq]

theorem F64.Is.neg (h : x.Is q) : x.neg.Is (-q) := by
  obtain ⟨n, s, e, rfl, rfl⟩ := h.eq_fin
  have hneg : -((signed n s : ℚ) * 2 ^ e) = signed (!n) s * 2 ^ e := by cases n <;> simp [signed]
  exact hneg ▸ F64.is_fin (!n) s e

/-! ### Rounding -/

/-- The rounding of the exact value `q`. -/
def F64.Rounds (x : F64) (q : ℚ) : Prop := ∃ z a, x = F64.ofFrac z a ∧ a.den ≠ 0 ∧ a.val = q

theorem F64.rounds_ofFrac (z : Bool) {a : Frac} (h : a.den ≠ 0) : (F64.ofFrac z a).Rounds a.val := ⟨z, a, rfl, h, rfl⟩

theorem F64.Is.mul (hx : x.Is p) (hy : y.Is q) : (x.mul y).Rounds (p * q) := by
  obtain ⟨m, s, e, rfl, rfl⟩ := hx.eq_fin
  obtain ⟨n, t, f, rfl, rfl⟩ := hy.eq_fin
  exact ⟨_, _, rfl, Nat.mul_ne_zero (fracOf_den_ne_zero m s e) (fracOf_den_ne_zero n t f),
    by rw [Frac.val_mul, fracOf_val, fracOf_val]⟩

theorem F64.Is.add (hx : x.Is p) (hy : y.Is q) : (x.add y).Rounds (p + q) := by
  obtain ⟨m, s, e, rfl, rfl⟩ := hx.eq_fin
  obtain ⟨n, t, f, rfl, rfl⟩ := hy.eq_fin
  have hm := fracOf_den_ne_zero m s e
  have hn := fracOf_den_ne_zero n t f
  exact ⟨_, _, rfl, Nat.mul_ne_zero hm hn, by rw [Frac.val_add hm hn, fracOf_val, fracOf_val]⟩

theorem F64.Is.sub (hx : x.Is p) (hy : y.Is q) : (x.sub y).Rounds (p - q) := sub_eq_add_neg p q ▸ hx.add hy.neg

theorem F64.Is.div (hx : x.Is p) (hy : y.Is q) (hq : q ≠ 0) : (x.div y).Rounds (p / q) := by
  have ht : y.isZero = false := Bool.eq_false_iff.2 fun h => hq (hy.isZero_iff.1 h)
  obtain ⟨m, s, e, rfl, rfl⟩ := hx.eq_fin
  obtain ⟨n, t, f, rfl, rfl⟩ := hy.eq_fin
  have ht0 : t ≠ 0 := by simpa [F64.isZero] using ht
  rw [← fracOf_val] at hq
  exact ⟨m != n, (fracOf m s e).div (fracOf n t f), if_neg ht0, Frac.div_den_ne_zero (fracOf_den_ne_zero m s e) hq,
    by rw [Frac.val_div, fracOf_val, fracOf_val]⟩

/-- `pack` keeps the value it is given, unless that is too large. -/
theorem F64.is_pack (neg : Bool) {sig : Nat} {e : Int} (he : e ≤ 970) :
    (F64.pack neg sig e).Is (signed neg sig * 2 ^ e) := by
  unfold F64.pack
  by_cases h : sig = 2 ^ 53
  · simp only [h, if_true]
    rw [if_neg (by omega)]
    have hval : ((signed neg (2 ^ 53 : Nat) : Int) : ℚ) * 2 ^ e = signed neg (2 ^ 52 : Nat) * 2 ^ (e + 1) := by
      rw [zpow_add_one₀ two_ne_zero]
      cases neg <;> simp [signed] <;> ring
    exact hval ▸ F64.is_fin neg _ _
  · simp only [h, if_false]
    rw [if_neg (by omega)]
    exact F64.is_fin neg sig e

/-- A magnitude is rounded to a nearest multiple of a unit `2 ^ e` that is the least one, or has 52 bits below the value. -/
theorem F64.roundMag_nearest (neg : Bool) {n d : Nat} (hd : 0 < d) (h : (n : ℚ) / d < 2 ^ (1022 : Int)) :
    ∃ (m : Nat) (e : Int), (F64.roundMag neg n d).Is (signed neg m * 2 ^ e) ∧ |(m : ℚ) * 2 ^ e - n / d| ≤ 2 ^ e / 2 ∧
      (e = -1074 ∨ (2 : ℚ) ^ (e + 52) ≤ n / d) := by
  by_cases hn : n = 0
  · subst hn
    exact ⟨0, -1074, F64.is_fin neg 0 (-1074), by rw [Nat.cast_zero, zero_mul, zero_div, sub_zero, abs_zero]; positivity,
      .inl rfl⟩
  · obtain ⟨hlow, -⟩ := floorLog2_spec (Nat.pos_of_ne_zero hn) hd
    have hlog : floorLog2 n d < 1022 := (zpow_lt_zpow_iff_right₀ one_lt_two).1 (hlow.trans_lt h)
    unfold F64.roundMag
    rw [if_neg hn]
    generalize he : max (floorLog2 n d - 52) (-1074) = e
    simp only
    refine ⟨_, e, F64.is_pack neg (by omega), ?_, ?_⟩
    · have herr := divNearestEven_error (n <<< (-e).toNat) (d := d <<< e.toNat) (by rw [Nat.shiftLeft_eq]; positivity)
      have hpos : (0 : ℚ) < 2 ^ e := by positivity
      rw [shift_div_shift] at herr
      generalize (divNearestEven (n <<< (-e).toNat) (d <<< e.toNat) : ℚ) = m at *
      calc |m * 2 ^ e - n / d| = |m - n / d / 2 ^ e| * 2 ^ e := by
            rw [← abs_of_pos hpos, ← abs_mul, abs_of_pos hpos, sub_mul, div_mul_cancel₀ _ hpos.ne']
        _ ≤ 1 / 2 * 2 ^ e := mul_le_mul_of_nonneg_right herr hpos.le
        _ = 2 ^ e / 2 := by ring
    · by_cases hmin : e = -1074
      · exact .inl hmin
      · rw [show e + 52 = floorLog2 n d by omega]
        exact .inr hlow

theorem F64.Rounds.nearest (h : x.Rounds q) (hq : |q| < 2 ^ (1022 : Int)) :
    ∃ m e : Int, x.Is (m * 2 ^ e) ∧ |(m : ℚ) * 2 ^ e - q| ≤ 2 ^ e / 2 ∧ (e = -1074 ∨ (2 : ℚ) ^ (e + 52) ≤ |q|) := by
  obtain ⟨z, ⟨n, d⟩, rfl, hd, rfl⟩ := h
  have hmag : |(Frac.mk n d).val| = (n.natAbs : ℚ) / d := by
    rw [Frac.val_mk, abs_div, Nat.cast_natAbs, Int.cast_abs, Nat.abs_cast]
  rw [hmag] at hq ⊢
  obtain ⟨m, e, his, herr, hunit⟩ :=
    F64.roundMag_nearest (if n = 0 then z else decide (n < 0)) (Nat.pos_of_ne_zero hd) hq
  refine ⟨_, e, his, ?_, hunit⟩
  rcases lt_trichotomy n 0 with hn | rfl | hn
  · rw [if_neg hn.ne, decide_eq_true hn, Frac.val_mk]
    rw [Nat.cast_natAbs, abs_of_neg hn, Int.cast_neg, neg_div, sub_neg_eq_add] at herr
    rw [← abs_neg] at herr
    convert herr using 2
    simp [signed]
    ring
  · rw [if_pos rfl, Frac.val_mk]
    rw [Int.natAbs_zero, Nat.cast_zero, zero_div, sub_zero] at herr
    rw [Int.cast_zero, zero_div, sub_zero]
    cases z
    · exact herr
    · simpa [signed] using herr
  · rw [if_neg hn.ne', decide_eq_false hn.not_gt, Frac.val_mk]
    rw [Nat.cast_natAbs, abs_of_pos hn] at herr
    exact herr

/-- A rational with a significand of 53 bits, in the range of the exponents. -/
def Short (q : ℚ) : Prop := ∃ k f : Int, |k| < 2 ^ 53 ∧ -1074 ≤ f ∧ f ≤ 969 ∧ q = k * 2 ^ f

theorem Short.abs_lt (h : Short q) : |q| < 2 ^ (1022 : Int) := by
  obtain ⟨k, f, hk, -, hf, rfl⟩ := h
  rw [abs_mul, abs_of_pos (by positivity : (0 : ℚ) < 2 ^ f)]
  calc |(k : ℚ)| * 2 ^ f < 2 ^ (53 : Int) * 2 ^ f := mul_lt_mul_of_pos_right (by exact_mod_cast hk) (by positivity)
    _ = 2 ^ (53 + f) := (zpow_add₀ two_ne_zero _ _).symm
    _ ≤ 2 ^ (1022 : Int) := zpow_le_zpow_right₀ one_le_two (by omega)

/-- Rounding a short rational is exact: the value and its rounding are both multiples of the unit, and less than one apart. -/
theorem F64.Rounds.exact (h : x.Rounds q) (hs : Short q) : x.Is q := by
  obtain ⟨m, e, his, herr, hunit⟩ := h.nearest hs.abs_lt
  obtain ⟨k, f, hk, hf, -, rfl⟩ := hs
  have hpos : (0 : ℚ) < 2 ^ e := by positivity
  have hef : e ≤ f := by
    rcases hunit with rfl | hunit
    · exact hf
    · rw [abs_mul, abs_of_pos (by positivity : (0 : ℚ) < 2 ^ f)] at hunit
      have hlt : (2 : ℚ) ^ (e + 52) < 2 ^ (53 + f) := by
        rw [zpow_add₀ two_ne_zero 53]
        exact hunit.trans_lt (mul_lt_mul_of_pos_right (by exact_mod_cast hk) (by positivity))
      have := (zpow_lt_zpow_iff_right₀ one_lt_two).1 hlt
      omega
  have hmul : (k : ℚ) * 2 ^ f = (k * 2 ^ (f - e).toNat : Int) * 2 ^ e := by
    rw [Int.cast_mul, mul_assoc, Int.cast_pow, Int.cast_ofNat, ← zpow_natCast, ← zpow_add₀ two_ne_zero]
    congr 2
    omega
  rw [hmul] at herr ⊢
  rw [← sub_mul, abs_mul, abs_of_pos hpos] at herr
  have hlt : |((m - k * 2 ^ (f - e).toNat : Int) : ℚ)| < 1 := by
    have : |((m - k * 2 ^ (f - e).toNat : Int) : ℚ)| * 2 ^ e ≤ 2 ^ e / 2 := by push_cast at herr ⊢; exact herr
    nlinarith
  have heq : m - k * 2 ^ (f - e).toNat = 0 := Int.abs_lt_one_iff.1 (by exact_mod_cast hlt)
  rwa [← sub_eq_zero.1 heq]

/-- A rounding in the normal range is off by at most `2 ^ -53` of the value. -/
theorem F64.Rounds.error (h : x.Rounds q) (hlow : 2 ^ (-1022 : Int) ≤ |q|) (hhigh : |q| < 2 ^ (1022 : Int)) :
    ∃ v, x.Is v ∧ |v - q| ≤ 2 ^ (-53 : Int) * |q| := by
  obtain ⟨m, e, his, herr, hunit⟩ := h.nearest hhigh
  have hq : (2 : ℚ) ^ (e + 52) ≤ |q| := by
    rcases hunit with rfl | hunit
    · exact hlow
    · exact hunit
  refine ⟨_, his, herr.trans ?_⟩
  calc (2 : ℚ) ^ e / 2 = 2 ^ (-53 : Int) * 2 ^ (e + 52) := by
        rw [← zpow_add₀ two_ne_zero, div_eq_mul_inv, ← zpow_sub_one₀ two_ne_zero]; congr 1; omega
    _ ≤ 2 ^ (-53 : Int) * |q| := mul_le_mul_of_nonneg_left hq (by positivity)

end

end Sys2Proof.Machine
end

section
/-! SUPPORT. How far a formula of roundings is from its exact value (spec/44_calibration.md R135), with one number for the
count of roundings and for the size of the values, so that it adds up along a formula. -/

namespace Sys2Proof.Machine

/-- The least part of a value that `k` roundings leave. -/
def shrink (k : Nat) : ℚ := (1 - 2 ^ (-53 : Int)) ^ k

/-- A size that `k` roundings of such a size do not bring out of the normal range. -/
def Sized (q : ℚ) (k : Nat) : Prop := q = 0 ∨ 2 ^ (-k : Int) ≤ q ∧ q ≤ 2 ^ (k : Int)

/-- A finite number that is at most `k` roundings away from `q`. -/
def F64.Near (x : F64) (q : ℚ) (k : Nat) : Prop := ∃ v, x.Is v ∧ Sized q k ∧ q * shrink k ≤ v ∧ v * shrink k ≤ q

section
variable {x y : F64} {p q v : ℚ} {j k : Nat}

/-! ### What roundings leave -/

theorem shrink_pos (k : Nat) : 0 < shrink k := pow_pos (by norm_num) k

theorem shrink_le_one (k : Nat) : shrink k ≤ 1 := pow_le_one₀ (by norm_num) (by norm_num)

theorem shrink_add (j k : Nat) : shrink (j + k) = shrink j * shrink k := pow_add _ j k

theorem shrink_anti (h : j ≤ k) : shrink k ≤ shrink j := pow_le_pow_of_le_one (by norm_num) (by norm_num) h

theorem shrink_one : shrink 1 = 1 - 2 ^ (-53 : Int) := pow_one _

theorem le_shrink (k : Nat) : 1 - k * 2 ^ (-53 : Int) ≤ shrink k := by
  have h := one_add_mul_le_pow (a := (-2 ^ (-53 : Int) : ℚ)) (by norm_num) k
  rwa [mul_neg, ← sub_eq_add_neg, ← sub_eq_add_neg] at h

theorem half_le_shrink (hk : k ≤ 1000) : 1 / 2 ≤ shrink k := by
  have hk' : (k : ℚ) ≤ 1000 := by exact_mod_cast hk
  have h := le_shrink k
  norm_num at h ⊢
  linarith

theorem le_two_mul_of_shrink (hk : k ≤ 1000) (hv : 0 ≤ v) (h : v * shrink k ≤ q) : v ≤ 2 * q := by
  have := (mul_le_mul_of_nonneg_left (half_le_shrink hk) hv).trans h
  linarith

/-! ### Sizes -/

theorem Sized.nonneg (h : Sized q k) : 0 ≤ q := by
  rcases h with rfl | ⟨h, -⟩
  · rfl
  · exact (by positivity : (0 : ℚ) ≤ 2 ^ (-k : Int)).trans h

theorem Sized.mono (h : Sized q j) (hjk : j ≤ k) : Sized q k := by
  refine h.imp_right fun ⟨h1, h2⟩ => ⟨?_, ?_⟩
  · exact (zpow_le_zpow_right₀ one_le_two (by omega)).trans h1
  · exact h2.trans (zpow_le_zpow_right₀ one_le_two (by omega))

theorem Sized.inv (h : Sized q k) : Sized q⁻¹ k := by
  rcases h with rfl | ⟨h1, h2⟩
  · exact .inl inv_zero
  · have hq : 0 < q := (by positivity : (0 : ℚ) < 2 ^ (-k : Int)).trans_le h1
    rw [zpow_neg] at h1
    exact .inr ⟨zpow_neg (2 : ℚ) k ▸ inv_anti₀ hq h2, inv_le_of_inv_le₀ (by positivity) h1⟩

theorem Sized.mul (hp : Sized p j) (hq : Sized q k) : Sized (p * q) (j + k) := by
  have hp0 := hp.nonneg
  have hq0 := hq.nonneg
  rcases hp with rfl | ⟨hp1, hp2⟩
  · exact .inl (zero_mul q)
  rcases hq with rfl | ⟨hq1, hq2⟩
  · exact .inl (mul_zero p)
  rw [Sized, Nat.cast_add, neg_add, zpow_add₀ two_ne_zero, zpow_add₀ two_ne_zero]
  exact .inr ⟨mul_le_mul hp1 hq1 (by positivity) hp0, mul_le_mul hp2 hq2 hq0 (by positivity)⟩

/-! ### Numbers near a value -/

theorem F64.Near.sized (h : x.Near q k) : Sized q k := by
  obtain ⟨v, -, hq, -⟩ := h
  exact hq

theorem F64.Near.mono (h : x.Near q j) (hjk : j ≤ k) : x.Near q k := by
  obtain ⟨v, hv, hq, hv1, hv2⟩ := h
  have hv0 : 0 ≤ v := (mul_nonneg hq.nonneg (shrink_pos j).le).trans hv1
  exact ⟨v, hv, hq.mono hjk, (mul_le_mul_of_nonneg_left (shrink_anti hjk) hq.nonneg).trans hv1,
    (mul_le_mul_of_nonneg_left (shrink_anti hjk) hv0).trans hv2⟩

/-- What is exact is `k` roundings away from its value too. -/
theorem F64.Is.near (h : x.Is q) (hq : Sized q k) : x.Near q k :=
  have hle := mul_le_of_le_one_right hq.nonneg (shrink_le_one k)
  ⟨q, h, hq, hle, hle⟩

/-- One more rounding, of a value `v` that is `k` roundings away from `q`. -/
theorem F64.Rounds.near (h : x.Rounds v) (hk : k ≤ 1000) (hq : Sized q k) (h1 : q * shrink k ≤ v)
    (h2 : v * shrink k ≤ q) : x.Near q (k + 1) := by
  have hv0 : 0 ≤ v := (mul_nonneg hq.nonneg (shrink_pos k).le).trans h1
  have hv2 : v ≤ 2 * q := le_two_mul_of_shrink hk hv0 h2
  have hsized := hq.mono (Nat.le_add_right k 1)
  rcases hq with rfl | ⟨hlow, hhigh⟩
  · have hv : v = 0 := le_antisymm (by simpa using hv2) hv0
    subst hv
    exact (h.exact ⟨0, 0, by simp, by omega, by omega, by simp⟩).near hsized
  · have hv1 : 2 ^ (-k : Int) * (1 / 2) ≤ v :=
      (mul_le_mul hlow (half_le_shrink hk) (by norm_num) hsized.nonneg).trans h1
    obtain ⟨w, hw, herr⟩ := h.error (by
        rw [abs_of_nonneg hv0]
        refine le_trans ?_ hv1
        rw [one_div, ← zpow_sub_one₀ two_ne_zero]
        exact zpow_le_zpow_right₀ one_le_two (by omega)) (by
        rw [abs_of_nonneg hv0]
        refine (hv2.trans (mul_le_mul_of_nonneg_left hhigh zero_le_two)).trans_lt ?_
        rw [← zpow_one_add₀ two_ne_zero]
        exact zpow_lt_zpow_right₀ one_lt_two (by omega))
    rw [abs_of_nonneg hv0, abs_le] at herr
    have hw1 : v * shrink 1 ≤ w := by rw [shrink_one]; linarith
    have hw2 : w * shrink 1 ≤ v := by
      calc w * shrink 1 ≤ v * (1 + 2 ^ (-53 : Int)) * shrink 1 :=
            mul_le_mul_of_nonneg_right (by linarith) (shrink_pos 1).le
        _ = v * (1 - 2 ^ (-53 : Int) * 2 ^ (-53 : Int)) := by rw [shrink_one]; ring
        _ ≤ v := mul_le_of_le_one_right hv0 (by norm_num)
    refine ⟨w, hw, hsized, ?_, ?_⟩
    · rw [shrink_add, ← mul_assoc]
      exact (mul_le_mul_of_nonneg_right h1 (shrink_pos 1).le).trans hw1
    · rw [add_comm, shrink_add, ← mul_assoc]
      exact (mul_le_mul_of_nonneg_right hw2 (shrink_pos k).le).trans h2

/-- The rounding of the value itself. -/
theorem F64.Rounds.near_self (h : x.Rounds q) (hk : k ≤ 1000) (hq : Sized q k) : x.Near q (k + 1) :=
  have hle := mul_le_of_le_one_right hq.nonneg (shrink_le_one k)
  h.near hk hq hle hle

theorem F64.Near.mul (hx : x.Near p j) (hy : y.Near q k) (hk : j + k ≤ 1000) : (x.mul y).Near (p * q) (j + k + 1) := by
  obtain ⟨v, hv, hp, hv1, hv2⟩ := hx
  obtain ⟨w, hw, hq, hw1, hw2⟩ := hy
  have hp0 := hp.nonneg
  have hwlow : 0 ≤ q * shrink k := mul_nonneg hq.nonneg (shrink_pos k).le
  have hv0 : 0 ≤ v := (mul_nonneg hp0 (shrink_pos j).le).trans hv1
  have hw0 : 0 ≤ w := hwlow.trans hw1
  refine (hv.mul hw).near hk (hp.mul hq) ?_ ?_
  · rw [shrink_add, mul_mul_mul_comm]
    exact mul_le_mul hv1 hw1 hwlow hv0
  · rw [shrink_add, mul_mul_mul_comm]
    exact mul_le_mul hv2 hw2 (mul_nonneg hw0 (shrink_pos k).le) hp0

theorem F64.Near.div (hx : x.Near p j) (hy : y.Near q k) (hq0 : q ≠ 0) (hk : j + k ≤ 1000) :
    (x.div y).Near (p / q) (j + k + 1) := by
  obtain ⟨v, hv, hp, hv1, hv2⟩ := hx
  obtain ⟨w, hw, hq, hw1, hw2⟩ := hy
  have hp0 := hp.nonneg
  have hqpos : 0 < q := hq.nonneg.lt_of_ne' hq0
  have hk0 := shrink_pos k
  have hv0 : 0 ≤ v := (mul_nonneg hp0 (shrink_pos j).le).trans hv1
  have hw0 : 0 < w := (mul_pos hqpos hk0).trans_le hw1
  refine (hv.div hw hw0.ne').near hk (div_eq_mul_inv p q ▸ hp.mul hq.inv) ?_ ?_
  · rw [div_mul_eq_mul_div, div_le_div_iff₀ hqpos hw0, shrink_add]
    calc p * (shrink j * shrink k) * w = p * shrink j * (w * shrink k) := by ring
      _ ≤ v * q := mul_le_mul hv1 hw2 (by positivity) hv0
  · rw [div_mul_eq_mul_div, div_le_div_iff₀ hw0 hqpos, shrink_add]
    calc v * (shrink j * shrink k) * q = v * shrink j * (q * shrink k) := by ring
      _ ≤ p * w := mul_le_mul hv2 hw1 (by positivity) hp0

/-- A number near a positive value has the positive sign and a significand other than 0. -/
theorem F64.Near.eq_fin_of_pos (h : x.Near q k) (hq : 0 < q) : ∃ s e, x = .fin false s e ∧ s ≠ 0 := by
  obtain ⟨v, hv, -, hv1, -⟩ := h
  exact hv.eq_fin_of_pos ((mul_pos hq (shrink_pos k)).trans_le hv1)

/-- The absolute error that `k` roundings leave. -/
theorem F64.Near.error (h : x.Near q k) (hk : k ≤ 1000) : ∃ v, x.Is v ∧ |v - q| ≤ 2 * q * (k * 2 ^ (-53 : Int)) := by
  obtain ⟨v, hv, hsized, hv1, hv2⟩ := h
  have hq := hsized.nonneg
  have hv0 : 0 ≤ v := (mul_nonneg hq (shrink_pos k).le).trans hv1
  have hu : (0 : ℚ) ≤ k * 2 ^ (-53 : Int) := by positivity
  have hlow := (mul_le_mul_of_nonneg_left (le_shrink k) hq).trans hv1
  have hhigh := (mul_le_mul_of_nonneg_left (le_shrink k) hv0).trans hv2
  have hq2 := mul_nonneg hq hu
  have hv3 := mul_le_mul_of_nonneg_right (le_two_mul_of_shrink hk hv0 hv2) hu
  refine ⟨v, hv, abs_le.2 ⟨?_, ?_⟩⟩
  · linarith
  · linarith

end

end Sys2Proof.Machine
end

section
/-! The gain and the two conversions (spec/44_calibration.md R131 to R135): their exact values, how near binary64 comes to
them, and what the operations do. -/

namespace Sys2Proof.Machine

/-! ### Codes and fields -/

theorem and_4095 (n : Nat) : n &&& 4095 = n % 4096 := Nat.and_two_pow_sub_one_eq_mod n 12

theorem fieldOf_toNat (c : Code) : (fieldOf c).toNat = c.toNat % 4096 := by
  rw [fieldOf, BitVec.toNat_and, BitVec.toNat_setWidth, Nat.mod_eq_of_lt (c.isLt.trans (by norm_num))]
  exact and_4095 _

theorem codeOf_toInt (v : Word) : (codeOf v).toInt = (v.toNat % 4096 : Nat) := by
  have hnat : (codeOf v).toNat = v.toNat % 4096 := by
    rw [codeOf, BitVec.toNat_setWidth, BitVec.toNat_and]
    exact (congrArg (· % 2 ^ 16) (and_4095 v.toNat)).trans (by omega)
  rw [BitVec.toInt_eq_toNat_of_lt (by omega), hnat]

theorem fieldOf_toNat_eq_emod (c : Code) : ((fieldOf c).toNat : Int) = c.toInt % 4096 := by
  rw [fieldOf_toNat, BitVec.toInt_eq_toNat_cond]
  split <;> omega

/-- Settles O33: both conversions take a remainder by 4096. -/
theorem codeFieldConversions : Obligations.CodeFieldConversions := by
  refine ⟨codeOf_toInt, fieldOf_toNat_eq_emod, fun c => ?_⟩
  have hback : (codeOf (fieldOf c)).toInt = c.toInt % 4096 := by
    rw [codeOf_toInt, Int.natCast_mod, fieldOf_toNat_eq_emod, Nat.cast_ofNat, Int.emod_emod]
  rw [← BitVec.toInt_inj, hback]
  omega

/-! ### Constants -/

/-- A constant that is a short dyadic rational is exact in binary64. -/
theorem lit_is {a : Frac} (hd : a.den ≠ 0) (h : Short a.val) : (lit a).Is a.val := (F64.rounds_ofFrac false hd).exact h

theorem lit_int_is {n : Int} (h : |n| < 2 ^ 53) : (lit (.ofInt n)).Is n := by
  have := lit_is (a := .ofInt n) one_ne_zero ⟨n, 0, h, by omega, by omega, by simp⟩
  rwa [Frac.val_ofInt] at this

theorem ofInt_rounds (n : Int) : (F64.ofInt n).Rounds n := by
  have := F64.rounds_ofFrac false (a := .ofInt n) one_ne_zero
  rwa [Frac.val_ofInt] at this

theorem dividerFrac_val : dividerFrac.val = 2001 := by
  rw [dividerFrac, Frac.val_add one_ne_zero (by decide), Frac.val_div, Frac.val_ofInt, res1, res2, Frac.val_mk, Frac.val_mk]
  norm_num

/-- The divider's quotient is the integer 2000, so every step is exact. -/
theorem divider_is : divider.Is 2001 := by
  have hquot := (lit_int_is (n := 998000) (by norm_num)).div (lit_int_is (n := 499) (by norm_num)) (by norm_num)
  have hquot' := hquot.exact ⟨2000, 0, by norm_num, by omega, by omega, by norm_num⟩
  have hsum := ((lit_int_is (n := 1) (by norm_num)).add hquot').exact ⟨2001, 0, by norm_num, by omega, by omega, by norm_num⟩
  norm_num at hsum
  exact hsum

/-! ### The gain -/

/-- The exact gain of a code (R132). -/
def gainQ (code : Code) : ℚ := (code.toInt : ℚ) / 16384 + 3 / 4

theorem gainQ_eq_zero_iff {code : Code} : gainQ code = 0 ↔ code.toInt = -12288 := by
  rw [gainQ, div_add' _ _ _ (by norm_num), div_eq_zero_iff, or_iff_left (by norm_num), ← Int.cast_inj (α := ℚ)]
  norm_num
  constructor <;> intro h <;> linarith

theorem gainFrac_den_ne_zero (code : Code) : (gainFrac code).den ≠ 0 := (by decide : 1000 * (1 * 2048) * 100 ≠ 0)

theorem gainFrac_val (code : Code) : (gainFrac code).val = gainQ code := by
  rw [gainFrac, Frac.val_add (by decide : 1000 * (1 * 2048) ≠ 0) (by decide), Frac.val_mul, Frac.val_div, Frac.val_ofInt, Frac.val_ofInt,
    Frac.val_mk, Frac.val_mk, gainQ]
  push_cast
  ring

theorem gainFrac_isZero_iff {code : Code} : (gainFrac code).isZero = true ↔ code.toInt = -12288 := by
  rw [← gainQ_eq_zero_iff, ← gainFrac_val, Frac.val, div_eq_zero_iff,
    or_iff_left (Nat.cast_ne_zero.2 (gainFrac_den_ne_zero code)), Frac.isZero, beq_iff_eq, Int.cast_eq_zero]

/-- Every step of GAIN has at most 17 significant bits, so each is exact. -/
theorem gain_is (code : Code) : (gain code).Is (gainQ code) := by
  have hlow := code.le_toInt
  have hhigh := code.toInt_lt
  have hcode : |code.toInt| < 2 ^ 53 := by rw [abs_lt]; constructor <;> norm_num at * <;> omega
  have hsum : |code.toInt + 12288| < 2 ^ 53 := by rw [abs_lt]; constructor <;> norm_num at * <;> omega
  have hint := (ofInt_rounds code.toInt).exact ⟨code.toInt, 0, hcode, by omega, by omega, by simp⟩
  have hquot := (hint.div (lit_int_is (n := 2048) (by norm_num)) (by norm_num)).exact
    ⟨code.toInt, -11, hcode, by omega, by omega, by norm_num; ring⟩
  have hslope := lit_is (a := ⟨125, 1000⟩) (by decide) ⟨1, -3, by norm_num, by omega, by omega, by norm_num⟩
  have hbase := lit_is (a := ⟨75, 100⟩) (by decide) ⟨3, -2, by norm_num, by omega, by omega, by norm_num⟩
  have hprod := (hslope.mul hquot).exact ⟨code.toInt, -14, hcode, by omega, by omega, by norm_num; ring⟩
  have hgain := (hprod.add hbase).exact ⟨code.toInt + 12288, -14, hsum, by omega, by omega, by norm_num; ring⟩
  have hval : (Frac.mk 125 1000).val * ((code.toInt : ℚ) / ((2048 : Int) : ℚ)) + (Frac.mk 75 100).val = gainQ code := by
    rw [Frac.val_mk, Frac.val_mk, gainQ]
    push_cast
    ring
  rwa [hval] at hgain

theorem gain_isZero_iff {code : Code} : (gain code).isZero = true ↔ code.toInt = -12288 :=
  (gain_is code).isZero_iff.trans gainQ_eq_zero_iff

/-- Settles O32: the exact value is `gain_is`. -/
theorem gainIsExact : Obligations.GainIsExact := by
  intro code s hr hn
  obtain ⟨a, ha, hd, hval⟩ := gain_is code
  exact ⟨gain code, a, accept_pure hr hn _ _, ha, by exact_mod_cast hd, hval⟩

/-! ### The operations -/

section
variable {s : State} {raw : Word} {code : Code}

theorem badGain_none (h : code.toInt ≠ -12288 ∨ s.cfg.zeroGain ≠ .refuse) : s.badGain code = none := by
  rw [State.badGain, if_neg]
  rintro ⟨hrefuse, hzero⟩
  exact h.elim (· (gain_isZero_iff.1 hzero)) (· hrefuse)

theorem badGain_zeroGain (h : code.toInt = -12288) (hz : s.cfg.zeroGain = .refuse) : s.badGain code = some .zeroGain :=
  if_pos ⟨hz, gain_isZero_iff.2 h⟩

theorem exec_vconv (hr : s.Ready) (hn : s.NoReset) (hb : s.badGain code = none) :
    exec (.vconv raw code) s =
      .next { s with results := s.results ++ [.ok (.real (vconv s.cfg.numerics raw code))] } :=
  accept_answers hr hn hb rfl

theorem exec_iconv (hr : s.Ready) (hn : s.NoReset) (hb : s.badGain code = none) :
    exec (.iconv raw code) s =
      .next { s with results := s.results ++ [.ok (.real (iconv s.cfg.numerics raw code))] } :=
  accept_answers hr hn hb rfl

theorem evaluate_exact (h : code.toInt ≠ -12288) (exact : Frac) (rounded : F64) :
    evaluate .exact code exact rounded = F64.ofFrac false exact :=
  if_neg fun hz => h (gainFrac_isZero_iff.1 hz)

/-- With a gain of 0 the quotient is binary64's under either numerics (U3). -/
theorem evaluate_zeroGain (n : Numerics) (h : code.toInt = -12288) (exact : Frac) (rounded : F64) :
    evaluate n code exact rounded = rounded := by
  cases n
  · rfl
  · exact if_pos (gainFrac_isZero_iff.2 h)

end

/-- Settles O34: what binary64 numerics evaluate is the formula itself. -/
theorem conversionsFollowFormulas : Obligations.ConversionsFollowFormulas := by
  intro raw code s hr hn hnum hcode
  have hb : s.badGain code = none := badGain_none (.inl hcode)
  have hv := exec_vconv (raw := raw) hr hn hb
  have hi := exec_iconv (raw := raw) hr hn hb
  rw [hnum] at hv hi
  exact ⟨hv, hi⟩

/-! ### The exact fractions -/

/-- The reference value of VCONV (R133). -/
def vconvQ (raw : Word) (code : Code) : ℚ := raw.toNat * (118 / 100) * 2001 / (gainQ code * 65536)

/-- The reference value of ICONV (R134). -/
def iconvQ (raw : Word) (code : Code) : ℚ := raw.toNat * (118 / 100) / (gainQ code * 262144 * (3115264797 / 10 ^ 11))

section
variable (raw : Word) {code : Code}

theorem vconvFrac_val (code : Code) : (vconvFrac raw code).val = vconvQ raw code := by
  rw [vconvFrac, Frac.val_div]
  simp only [Frac.val_mul, gainFrac_val, dividerFrac_val, Frac.val_ofInt, vref, gainAV, two15, Frac.val_mk, vconvQ]
  push_cast
  ring

theorem iconvFrac_val (code : Code) : (iconvFrac raw code).val = iconvQ raw code := by
  rw [iconvFrac, Frac.val_div]
  simp only [Frac.val_mul, gainFrac_val, Frac.val_ofInt, vref, gainAI, two17, sensorK, integK, Frac.val_mk, iconvQ]
  push_cast
  ring

theorem vconvFrac_den_ne_zero (h : code.toInt ≠ -12288) : (vconvFrac raw code).den ≠ 0 := by
  refine Frac.div_den_ne_zero (by decide : 1 * 100 * (1 * (1 * 499)) ≠ 0) ?_
  rw [Frac.val_mul, Frac.val_mul, gainFrac_val]
  exact mul_ne_zero (mul_ne_zero (gainQ_eq_zero_iff.not.2 h) (by norm_num [gainAV])) (by norm_num [two15])

theorem iconvFrac_den_ne_zero (h : code.toInt ≠ -12288) : (iconvFrac raw code).den ≠ 0 := by
  refine Frac.div_den_ne_zero (by decide : 1 * 100 ≠ 0) ?_
  rw [Frac.val_mul, Frac.val_mul, Frac.val_mul, Frac.val_mul, gainFrac_val]
  exact mul_ne_zero (mul_ne_zero (mul_ne_zero (mul_ne_zero (gainQ_eq_zero_iff.not.2 h) (by norm_num [gainAI]))
    (by norm_num [two17])) (by norm_num [sensorK])) (by norm_num [integK])

end

/-- Settles O35: the values of the fractions, and `evaluate` with exact numerics. -/
theorem conversionReferenceValues : Obligations.ConversionReferenceValues := by
  intro raw code hcode
  refine ⟨vconvFrac_val raw code, iconvFrac_val raw code, fun s hr hn hnum => ?_⟩
  have hb : s.badGain code = none := badGain_none (.inl hcode)
  have hv := exec_vconv (raw := raw) hr hn hb
  have hi := exec_iconv (raw := raw) hr hn hb
  rw [hnum, vconv, evaluate_exact hcode] at hv
  rw [hnum, iconv, evaluate_exact hcode] at hi
  exact ⟨hv, hi⟩

/-! ### How near the binary64 formulas come -/

section
variable (raw : Word) {code : Code}

/-- A numeral between `2 ^ -k` and `2 ^ k`. -/
theorem lit_near {a : Frac} {k : Nat} (hd : a.den ≠ 0) (hk : k ≤ 1000) (ha : Sized a.val k) : (lit a).Near a.val (k + 1) :=
  (F64.rounds_ofFrac false hd).near_self hk ha

theorem raw_near : (F64.ofInt raw.toNat).Near raw.toNat 33 := by
  refine (ofInt_rounds raw.toNat).near_self (k := 32) (by omega) ?_
  rcases Nat.eq_zero_or_pos raw.toNat with h | h
  · exact .inl (by simp [h])
  · have hlow : (1 : ℚ) ≤ raw.toNat := by exact_mod_cast h
    have hhigh : (raw.toNat : ℚ) ≤ 2 ^ 32 := by exact_mod_cast raw.isLt.le
    exact .inr ⟨le_trans (by norm_num) hlow, hhigh⟩

theorem currentNumerator_near : ((F64.ofInt raw.toNat).mul (lit vref)).Near (raw.toNat * (118 / 100)) 36 := by
  have hvref : (lit vref).Near vref.val 2 := lit_near (by decide) (by omega) (.inr (by norm_num [vref]))
  have h := (raw_near raw).mul hvref (by omega)
  rwa [show vref.val = 118 / 100 by norm_num [vref]] at h

theorem voltageNumerator_near :
    (((F64.ofInt raw.toNat).mul (lit vref)).mul divider).Near (raw.toNat * (118 / 100) * 2001) 48 :=
  (currentNumerator_near raw).mul (divider_is.near (k := 11) (.inr (by norm_num))) (by omega)

variable (h0 : 0 ≤ code.toInt) (h1 : code.toInt ≤ 4095)
include h0 h1

theorem gainQ_bounds : 3 / 4 ≤ gainQ code ∧ gainQ code ≤ 1 := by
  have h0' : (0 : ℚ) ≤ code.toInt := by exact_mod_cast h0
  have h1' : (code.toInt : ℚ) ≤ 4095 := by exact_mod_cast h1
  rw [gainQ]
  constructor <;> linarith

theorem gain_mul_two_near : ((gain code).mul (lit ⟨2, 1⟩)).Near (gainQ code * 2) 4 := by
  obtain ⟨hlow, hhigh⟩ := gainQ_bounds h0 h1
  have hgain : (gain code).Near (gainQ code) 1 := (gain_is code).near (.inr ⟨by norm_num; linarith, by norm_num; linarith⟩)
  have htwo : (lit ⟨2, 1⟩).Near (Frac.mk 2 1).val 2 := lit_near (by decide) (by omega) (.inr (by norm_num))
  have h := hgain.mul htwo (by omega)
  rwa [show (Frac.mk 2 1).val = 2 by norm_num] at h

theorem vconv64_near : (vconv64 raw code).Near (vconvQ raw code) 70 := by
  obtain ⟨hlow, -⟩ := gainQ_bounds h0 h1
  have htwo15 : (lit two15).Near two15.val 16 := lit_near (by decide) (by omega) (.inr (by norm_num [two15]))
  have hden := (gain_mul_two_near h0 h1).mul htwo15 (by omega)
  have hval : gainQ code * 2 * two15.val = gainQ code * 65536 := by
    rw [mul_assoc]
    norm_num [two15]
  rw [hval] at hden
  exact (voltageNumerator_near raw).div hden (by positivity) (by omega)

theorem iconv64_near : (iconv64 raw code).Near (iconvQ raw code) 70 := by
  obtain ⟨hlow, -⟩ := gainQ_bounds h0 h1
  have htwo17 : (lit two17).Near two17.val 18 := lit_near (by decide) (by omega) (.inr (by norm_num [two17]))
  have hks : (lit sensorK).Near sensorK.val 7 := lit_near (by decide) (by omega) (.inr (by norm_num [sensorK]))
  have hkint : (lit integK).Near integK.val 1 := lit_near (by decide) (by omega) (.inr (by norm_num [integK]))
  have hden := (((gain_mul_two_near h0 h1).mul htwo17 (by omega)).mul hks (by omega)).mul hkint (by omega)
  have hval : gainQ code * 2 * two17.val * sensorK.val * integK.val = gainQ code * 262144 * (3115264797 / 10 ^ 11) := by
    norm_num [two17, sensorK, integK]
    ring
  rw [hval] at hden
  exact ((currentNumerator_near raw).div hden (by positivity) (by omega)).mono (by omega)

/-- Either numerics is within the tolerance of a reference value of at most 10000. -/
theorem evaluate_error (n : Numerics) {exact : Frac} {rounded : F64} (hr : rounded.Near exact.val 70) (hd : exact.den ≠ 0)
    (hle : exact.val ≤ 10000) :
    ∃ a, (evaluate n code exact rounded).frac? = some a ∧ |a.val - exact.val| ≤ 1 / 10 ^ 9 := by
  have hcode : code.toInt ≠ -12288 := by omega
  have hnear : (evaluate n code exact rounded).Near exact.val 71 := by
    cases n with
    | binary64 => exact hr.mono (by omega)
    | exact =>
      rw [evaluate_exact hcode]
      exact (F64.rounds_ofFrac false hd).near_self (by omega) hr.sized
  obtain ⟨v, ⟨a, ha, -, rfl⟩, herr⟩ := hnear.error (by omega)
  refine ⟨a, ha, herr.trans ?_⟩
  norm_num
  linarith

variable {raw} (hraw : raw.toNat < 2 ^ 17)
include hraw

theorem vconvQ_le : vconvQ raw code ≤ 10000 := by
  obtain ⟨hlow, -⟩ := gainQ_bounds h0 h1
  have hraw' : (raw.toNat : ℚ) < 2 ^ 17 := by exact_mod_cast hraw
  rw [vconvQ, div_le_iff₀ (by positivity)]
  linarith

theorem iconvQ_le : iconvQ raw code ≤ 10000 := by
  obtain ⟨hlow, -⟩ := gainQ_bounds h0 h1
  have hraw' : (raw.toNat : ℚ) < 2 ^ 17 := by exact_mod_cast hraw
  rw [iconvQ, div_le_iff₀ (by positivity)]
  linarith

end

/-- Settles O36: at most 71 roundings from a value of at most 10000. -/
theorem conversionsWithinTolerance : Obligations.ConversionsWithinTolerance := by
  intro n raw code hraw h0 h1
  have hcode : code.toInt ≠ -12288 := by omega
  have hv := evaluate_error h0 h1 n ((vconvFrac_val raw code).symm ▸ vconv64_near raw h0 h1)
    (vconvFrac_den_ne_zero raw hcode) ((vconvFrac_val raw code).trans_le (vconvQ_le h0 h1 hraw))
  have hi := evaluate_error h0 h1 n ((iconvFrac_val raw code).symm ▸ iconv64_near raw h0 h1)
    (iconvFrac_den_ne_zero raw hcode) ((iconvFrac_val raw code).trans_le (iconvQ_le h0 h1 hraw))
  rw [vconvFrac_val] at hv
  rw [iconvFrac_val] at hi
  exact ⟨hv, hi⟩

/-! ### A gain of 0 -/

/-- The IEEE quotient by the positive zero, of a numerator that is positive but for raw code 0. -/
theorem div_zero_of_near {raw : Word} {x : F64} {q : ℚ} {k : Nat}
    (h0 : raw = 0 → x.div (.fin false 0 (-1074)) = .nan) (hx : x.Near q k) (hq : 0 < raw.toNat → 0 < q) :
    x.div (.fin false 0 (-1074)) = if raw = 0 then .nan else .inf false := by
  split
  · exact h0 ‹_›
  · have hraw : 0 < raw.toNat := Nat.pos_of_ne_zero fun e => ‹raw ≠ 0› (BitVec.eq_of_toNat_eq e)
    obtain ⟨s, e, rfl, hs⟩ := hx.eq_fin_of_pos (hq hraw)
    simp [F64.div, hs]

section
variable (raw : Word) {code : Code} (h : code.toInt = -12288)
include h

theorem vconv64_zeroGain : vconv64 raw code = if raw = 0 then .nan else .inf false := by
  obtain rfl : code = 0xD000 := BitVec.eq_of_toInt_eq (h.trans (by decide))
  have hden : ((gain 0xD000).mul (lit gainAV)).mul (lit two15) = .fin false 0 (-1074) := by decide +kernel
  rw [vconv64, hden]
  exact div_zero_of_near (fun h0 => by rw [h0]; decide +kernel) (voltageNumerator_near raw) fun _ => by positivity

theorem iconv64_zeroGain : iconv64 raw code = if raw = 0 then .nan else .inf false := by
  obtain rfl : code = 0xD000 := BitVec.eq_of_toInt_eq (h.trans (by decide))
  have hden : ((((gain 0xD000).mul (lit gainAI)).mul (lit two17)).mul (lit sensorK)).mul (lit integK) =
      .fin false 0 (-1074) := by decide +kernel
  rw [iconv64, hden]
  exact div_zero_of_near (fun h0 => by rw [h0]; decide +kernel) (currentNumerator_near raw) fun _ => by positivity

end

/-- Settles O37: the operand check decides between the refusal and the IEEE quotient. -/
theorem conversionsAtZeroGain : Obligations.ConversionsAtZeroGain := by
  refine ⟨fun code => gain_isZero_iff, fun raw code s hr hcode => ⟨fun hz => ?_, fun hz hn => ?_⟩⟩
  · have hb : s.badGain code = some .zeroGain := badGain_zeroGain hcode hz
    exact ⟨accept_bad s hr hb _ _, accept_bad s hr hb _ _⟩
  · have hb : s.badGain code = none := badGain_none (.inr (by rw [hz]; decide))
    have hv := exec_vconv (raw := raw) hr hn hb
    have hi := exec_iconv (raw := raw) hr hn hb
    rw [vconv, evaluate_zeroGain _ hcode, vconv64_zeroGain raw hcode] at hv
    rw [iconv, evaluate_zeroGain _ hcode, iconv64_zeroGain raw hcode] at hi
    exact ⟨hv, hi⟩

end Sys2Proof.Machine
end

section
/-! CALDRV (spec/44_calibration.md R136, R137): when a derived code exists, the exact value of the law, and the operation. -/

namespace Sys2Proof.Machine

/-! ### One derived code -/

/-- The law's value under either numerics, where there is one. -/
def lawValue (n : Numerics) (average x : F64) (xFrac : Frac) : Option Int :=
  match n with
  | .binary64 => law x average
  | .exact => some (lawFrac xFrac average)

theorem toCode_fits {z : Int} (h : -32768 ≤ z ∧ z ≤ 32767) : toCode z = some (BitVec.ofInt 16 z) := if_pos h

theorem toCode_none {z : Int} (h : z < -32768 ∨ 32767 < z) : toCode z = none := if_neg (by omega)

theorem toCode_eq_some {z : Int} {c : Code} (h : toCode z = some c) : -32768 ≤ z ∧ z ≤ 32767 ∧ c = BitVec.ofInt 16 z := by
  unfold toCode at h
  split at h
  · next hz => exact ⟨hz.1, hz.2, (Option.some.inj h).symm⟩
  · cases h

section
variable {n : Numerics} {nominal average x : F64} {xFrac : Frac}

theorem deriveCode_eq : deriveCode n nominal average x xFrac =
    if nominal.isFinite && average.isFinite && !average.isZero then (lawValue n average x xFrac).bind toCode else none := by
  cases n <;> rfl

theorem deriveCode_of_value {z : Int} (h1 : nominal.isFinite = true) (h2 : average.isFinite = true)
    (h3 : average.isZero = false) (hz : lawValue n average x xFrac = some z) :
    deriveCode n nominal average x xFrac = toCode z := by
  simp [deriveCode_eq, h1, h2, h3, hz]

theorem deriveCode_none (h : average.isZero = true ∨ nominal.isFinite = false ∨ average.isFinite = false) :
    deriveCode n nominal average x xFrac = none := by
  rcases h with h | h | h <;> simp [deriveCode_eq, h]

theorem deriveCode_none_of_value (h : lawValue n average x xFrac = none) : deriveCode n nominal average x xFrac = none := by
  simp [deriveCode_eq, h]

theorem deriveCode_eq_some {c : Code} (h : deriveCode n nominal average x xFrac = some c) :
    ∃ z, lawValue n average x xFrac = some z ∧ -32768 ≤ z ∧ z ≤ 32767 ∧ c = BitVec.ofInt 16 z := by
  rw [deriveCode_eq] at h
  split at h
  · obtain ⟨z, hz, hc⟩ := Option.bind_eq_some_iff.1 h
    exact ⟨z, hz, toCode_eq_some hc⟩
  · cases h

/-- The value of a derived code, as the spec's domain states it. -/
theorem deriveCode_value {c : Code} (h : deriveCode n nominal average x xFrac = some c) :
    ∃ z : Int, -32768 ≤ z ∧ z ≤ 32767 ∧ c = BitVec.ofInt 16 z ∧ (n = .binary64 → law x average = some z) := by
  obtain ⟨z, hz, hlow, hhigh, hc⟩ := deriveCode_eq_some h
  exact ⟨z, hlow, hhigh, hc, fun hn => by rwa [hn] at hz⟩

end

/-! ### The operation -/

section
variable {nomV nomI avgV avgI : Bits64} {priorV priorI : Code} {s : State}

theorem exec_caldrv_ok (hr : s.Ready) (hn : s.NoReset) {v c : Code}
    (hv : deriveV s.cfg.numerics (.ofBits nomV) (.ofBits avgV) priorV = some v)
    (hi : deriveI s.cfg.numerics (.ofBits nomI) (.ofBits avgI) priorI = some c) :
    exec (.caldrv nomV nomI avgV avgI priorV priorI) s =
      .next { s with results := s.results ++ [.ok (.codes v c)] } := by
  show execCaldrv nomV nomI avgV avgI priorV priorI s = _
  rw [execCaldrv, hv, hi]
  exact accept_pure hr hn _ _

theorem exec_caldrv_refused (hr : s.Ready)
    (h : deriveV s.cfg.numerics (.ofBits nomV) (.ofBits avgV) priorV = none ∨
      deriveI s.cfg.numerics (.ofBits nomI) (.ofBits avgI) priorI = none) :
    exec (.caldrv nomV nomI avgV avgI priorV priorI) s = .refused .caldrvDomain :=
  accept_bad s hr (by rcases h with h | h <;> simp [badDerive, h]) _ _

/-- Where the law has both values the call completes with them or is refused, by whether they fit an `i16`. -/
theorem exec_caldrv_of_values (hr : s.Ready) {cv ci : Int}
    (hv : deriveV s.cfg.numerics (.ofBits nomV) (.ofBits avgV) priorV = toCode cv)
    (hi : deriveI s.cfg.numerics (.ofBits nomI) (.ofBits avgI) priorI = toCode ci) :
    ((-32768 ≤ cv ∧ cv ≤ 32767) ∧ -32768 ≤ ci ∧ ci ≤ 32767 → s.NoReset →
      exec (.caldrv nomV nomI avgV avgI priorV priorI) s =
        .next { s with results := s.results ++ [.ok (.codes (BitVec.ofInt 16 cv) (BitVec.ofInt 16 ci))] }) ∧
    (cv < -32768 ∨ 32767 < cv ∨ ci < -32768 ∨ 32767 < ci →
      exec (.caldrv nomV nomI avgV avgI priorV priorI) s = .refused .caldrvDomain) := by
  refine ⟨fun ⟨hfv, hfi⟩ hn => exec_caldrv_ok hr hn (hv.trans (toCode_fits hfv)) (hi.trans (toCode_fits hfi)), fun h => ?_⟩
  refine exec_caldrv_refused hr ?_
  rcases h with h | h | h | h
  · exact .inl (hv.trans (toCode_none (.inl h)))
  · exact .inl (hv.trans (toCode_none (.inr h)))
  · exact .inr (hi.trans (toCode_none (.inl h)))
  · exact .inr (hi.trans (toCode_none (.inr h)))

end

/-- Settles O38: with binary64 numerics the value of the law is the written formula's. -/
theorem caldrvFollowsLaw : Obligations.CaldrvFollowsLaw := by
  intro nomV nomI avgV avgI priorV priorI s cv ci hr hnum f dec div xv xi law' hnv hni hav hai hzv hzi hcv hci
  refine exec_caldrv_of_values hr ?_ ?_
  · rw [hnum]
    exact deriveCode_of_value hnv hav hzv hcv
  · rw [hnum]
    exact deriveCode_of_value hni hai hzi hci

/-- Settles O40: every clause is about which of the two derived codes exist. -/
theorem caldrvOutsideDomain : Obligations.CaldrvOutsideDomain := by
  intro nomV nomI avgV avgI priorV priorI s hr f cv ci i
  refine ⟨fun h => exec_caldrv_refused hr ?_, fun hnum h => exec_caldrv_refused hr ?_, fun x h => deriveCode_value h,
    fun x h => deriveCode_value h, exec_caldrv_refused hr, fun v c hv hi hn => exec_caldrv_ok hr hn hv hi⟩
  · rcases h with h | h | h | h | h | h
    · exact .inl (deriveCode_none (.inl h))
    · exact .inr (deriveCode_none (.inl h))
    · exact .inl (deriveCode_none (.inr (.inl h)))
    · exact .inr (deriveCode_none (.inr (.inl h)))
    · exact .inl (deriveCode_none (.inr (.inr h)))
    · exact .inr (deriveCode_none (.inr (.inr h)))
  · rw [hnum]
    exact h.imp deriveCode_none_of_value deriveCode_none_of_value

/-! ### The exact law -/

section
variable {nominal average : F64} {a : Frac}

theorem F64.fracD_of_frac? (h : nominal.frac? = some a) : nominal.fracD = a := by rw [F64.fracD, h, Option.getD_some]

theorem targetVFrac_val (nominal : F64) (prior : Code) :
    (targetVFrac nominal prior).val = nominal.fracD.val * gainQ prior * 65536 / (118 / 100 * 2001) := by
  simp only [targetVFrac, Frac.val_div, Frac.val_mul, gainFrac_val, dividerFrac_val, gainAV, two15, vref, Frac.val_mk]
  push_cast
  ring

theorem targetIFrac_val (nominal : F64) (prior : Code) :
    (targetIFrac nominal prior).val =
      nominal.fracD.val * gainQ prior * 262144 * (3115264797 / 10 ^ 11) / (118 / 100) := by
  simp only [targetIFrac, Frac.val_div, Frac.val_mul, gainFrac_val, gainAI, two17, sensorK, integK, vref, Frac.val_mk]
  push_cast
  ring

theorem fracD_den_ne_zero (x : F64) : x.fracD.den ≠ 0 := by
  cases x with
  | nan => exact one_ne_zero
  | inf n => exact one_ne_zero
  | fin n s e => exact fracOf_den_ne_zero n s e

theorem targetVFrac_den_ne_zero (nominal : F64) (prior : Code) : (targetVFrac nominal prior).den ≠ 0 := by
  refine Frac.div_den_ne_zero ?_ (by rw [Frac.val_mul, dividerFrac_val]; norm_num [vref])
  exact Nat.mul_ne_zero (Nat.mul_ne_zero (Nat.mul_ne_zero (fracD_den_ne_zero nominal) (gainFrac_den_ne_zero prior))
    one_ne_zero) one_ne_zero

theorem targetIFrac_den_ne_zero (nominal : F64) (prior : Code) : (targetIFrac nominal prior).den ≠ 0 := by
  refine Frac.div_den_ne_zero ?_ (by norm_num [vref])
  exact Nat.mul_ne_zero (Nat.mul_ne_zero (Nat.mul_ne_zero (Nat.mul_ne_zero (Nat.mul_ne_zero (fracD_den_ne_zero nominal)
    (gainFrac_den_ne_zero prior)) one_ne_zero) one_ne_zero) (by decide)) one_ne_zero

/-- The value of the law at an exact target, truncated toward zero (R136). -/
theorem lawFrac_eq {x : Frac} (hx : x.den ≠ 0) (ha : average.fracD.val ≠ 0) :
    lawFrac x average = if 0 ≤ 14336 * (x.val / average.fracD.val) - 12288 then
      ⌊14336 * (x.val / average.fracD.val) - 12288⌋ else ⌈14336 * (x.val / average.fracD.val) - 12288⌉ := by
  have hden : ((Frac.ofInt 14336).mul (x.div average.fracD)).den ≠ 0 :=
    Nat.mul_ne_zero one_ne_zero (Frac.div_den_ne_zero hx ha)
  rw [lawFrac, Frac.trunc0_eq, Frac.val_sub hden one_ne_zero, Frac.val_mul, Frac.val_div, Frac.val_ofInt, Frac.val_ofInt]
  push_cast
  rfl

/-- A finite number of numerator other than 0 is an average that the law divides by. -/
theorem average_of_frac? (h : average.frac? = some a) (ha : a.num ≠ 0) :
    average.isFinite = true ∧ average.isZero = false ∧ average.fracD.val ≠ 0 := by
  have hval : average.fracD.val ≠ 0 := by
    have hden := fracD_den_ne_zero average
    rw [F64.fracD_of_frac? h] at hden ⊢
    exact div_ne_zero (by exact_mod_cast ha) (by exact_mod_cast hden)
  have his := F64.is_of_frac? h
  rw [← F64.fracD_of_frac? h] at his
  exact ⟨F64.isFinite_iff.2 ⟨_, his⟩, Bool.eq_false_iff.2 fun hz => hval (his.isZero_iff.1 hz), hval⟩

/-- A code derived with exact numerics from finite operands. -/
theorem deriveCode_exact {x : F64} {xFrac b : Frac} (hn : nominal.frac? = some b) (ha : average.frac? = some a)
    (h0 : a.num ≠ 0) (hx : xFrac.den ≠ 0) :
    deriveCode .exact nominal average x xFrac = toCode (if 0 ≤ 14336 * (xFrac.val / a.val) - 12288 then
      ⌊14336 * (xFrac.val / a.val) - 12288⌋ else ⌈14336 * (xFrac.val / a.val) - 12288⌉) := by
  obtain ⟨hfin, hzero, hval⟩ := average_of_frac? ha h0
  have hlaw := lawFrac_eq hx hval
  rw [F64.fracD_of_frac? ha] at hlaw
  exact deriveCode_of_value (F64.isFinite_iff.2 ⟨_, F64.is_of_frac? hn⟩) hfin hzero (congrArg some hlaw)

end

/-- Settles O39: the exact law at the exact targets of R137. -/
theorem caldrvExactLaw : Obligations.CaldrvExactLaw := by
  intro nomV nomI avgV avgI priorV priorI s nv ni av ai hr hnum hnv hni hav hai h0v h0i
  refine exec_caldrv_of_values hr ?_ ?_
  · rw [hnum, deriveV, deriveCode_exact hnv hav h0v (targetVFrac_den_ne_zero _ _), targetVFrac_val,
      F64.fracD_of_frac? hnv]
    rfl
  · rw [hnum, deriveI, deriveCode_exact hni hai h0i (targetIFrac_den_ne_zero _ _), targetIFrac_val,
      F64.fracD_of_frac? hni]
    rfl

/-! ### The midpoint -/

/-- Settles O41: a number over itself is exactly 1, and every step after it is exact. -/
theorem caldrvMidpoint : Obligations.CaldrvMidpoint := by
  intro x hfin hzero
  obtain ⟨q, hx⟩ := F64.isFinite_iff.1 hfin
  have hq : q ≠ 0 := fun h => Bool.eq_false_iff.1 hzero (hx.isZero_iff.2 h)
  have hone : (x.div x).Is 1 := by
    have h := hx.div hx hq
    rw [div_self hq] at h
    exact h.exact ⟨1, 0, by norm_num, by omega, by omega, by norm_num⟩
  have hprod := ((lit_int_is (n := 14336) (by norm_num)).mul hone).exact
    ⟨14336, 0, by norm_num, by omega, by omega, by norm_num⟩
  have hdiff := (hprod.sub (lit_int_is (n := 12288) (by norm_num))).exact
    ⟨2048, 0, by norm_num, by omega, by omega, by norm_num⟩
  have hlaw : law x x = some 2048 := by
    rw [law, hdiff.trunc0?]
    norm_num
  rw [hlaw]
  decide

end Sys2Proof.Machine
end

section
/-! CALSET (spec/44_calibration.md R140): the four calibration cells as one change of the state, the four writes that follow
whatever their answers, and the operation. -/

namespace Sys2Proof.Machine

section
variable {s : State} {d d' : DevIx}

/-! ### A run of cells -/

theorem FieldRef.eq_of_parts {k k' : FieldRef} (hr : k.reg = k'.reg) (hf : k.fld = k'.fld) : k = k' := by
  obtain ⟨r, f⟩ := k
  subst hr
  subst hf
  rfl

/-- The state with cells of a device set one after another. -/
def State.setRefs (s : State) (d : DevIx) : List (FieldRef × Word) → State
  | [] => s
  | p :: ps => (s.setCell d p.1.reg p.1.fld p.2).setRefs d ps

section
variable (ps : List (FieldRef × Word))

/-- Setting cells leaves everything beside the device contexts. -/
theorem State.setRefs_rest : (s.setRefs d ps).cfg = s.cfg ∧ (s.setRefs d ps).trace = s.trace ∧
    (s.setRefs d ps).results = s.results ∧ (s.setRefs d ps).resets = s.resets ∧
    (s.setRefs d ps).devs.length = s.devs.length := by
  induction ps generalizing s with
  | nil => exact ⟨rfl, rfl, rfl, rfl, rfl⟩
  | cons p ps ih =>
    obtain ⟨hcfg, htrace, hresults, hresets, hlength⟩ := ih (s := s.setCell d p.1.reg p.1.fld p.2)
    exact ⟨hcfg, htrace, hresults, hresets, hlength.trans (s.modDev_length d _)⟩

theorem State.setRefs_dev_other (h : d' ≠ d) : (s.setRefs d ps).dev d' = s.dev d' := by
  induction ps generalizing s with
  | nil => rfl
  | cons p ps ih => exact ih.trans (State.dev_setCells_other h)

theorem State.setRefs_begin (i : Instr) : (s.begin i).setRefs d ps = (s.setRefs d ps).begin i := by
  induction ps generalizing s with
  | nil => rfl
  | cons p ps ih => exact ih (s := s.setCell d p.1.reg p.1.fld p.2)

/-- The flags of a device do not change with its cells. -/
theorem State.setRefs_flags : ((s.setRefs d ps).dev d).latch = (s.dev d).latch ∧
    ((s.setRefs d ps).dev d).crcIntended = (s.dev d).crcIntended ∧
    ((s.setRefs d ps).dev d).warnDrift = (s.dev d).warnDrift := by
  induction ps generalizing s with
  | nil => exact ⟨rfl, rfl, rfl⟩
  | cons p ps ih =>
    obtain ⟨hlatch, hint, hwarn⟩ := ih (s := s.setCell d p.1.reg p.1.fld p.2)
    obtain ⟨hint', -, hlatch', hwarn'⟩ :=
      State.dev_setCells_rest s d d p.1.reg ((s.cells d p.1.reg).set (s.cfg.fldIx p.1.reg p.1.fld) p.2)
    exact ⟨hlatch.trans hlatch', hint.trans hint', hwarn.trans hwarn'⟩

variable {ps} {k : FieldRef} (hs : s.Shaped) (hps : ∀ p ∈ ps, ∃ b n, s.cfg.hasField b p.1.reg p.1.fld n = true)
include hs hps

/-- A cell that is not among those set keeps its value. -/
theorem State.setRefs_getCell_other (hk : k ∉ ps.map Prod.fst) :
    (s.setRefs d ps).getCell d k.reg k.fld = s.getCell d k.reg k.fld := by
  induction ps generalizing s with
  | nil => rfl
  | cons p ps ih =>
    obtain ⟨b, n, hp⟩ := hps p (.head _)
    obtain ⟨x, hx⟩ := Option.isSome_iff_exists.1 (Config.hasField_isSome hp)
    rw [List.map_cons, List.mem_cons, not_or] at hk
    refine (ih hs.setCell (fun q hq => hps q (.tail _ hq)) hk.2).trans
      (State.getCell_setCell_other hs (Config.hasField_hasReg hp) hx fun e => hk.1 ?_)
    simp only [Prod.mk.injEq, true_and] at e
    obtain ⟨hreg, hfld⟩ := e
    exact FieldRef.eq_of_parts hreg hfld

/-- Of cells that are distinct each reads as it was set. -/
theorem State.setRefs_getCell (hd : s.HasDev d) (hn : (ps.map Prod.fst).Nodup) :
    ∀ p ∈ ps, (s.setRefs d ps).getCell d p.1.reg p.1.fld = p.2 := by
  induction ps generalizing s with
  | nil => simp
  | cons p ps ih =>
    obtain ⟨b, n, hp⟩ := hps p (.head _)
    obtain ⟨x, hx⟩ := Option.isSome_iff_exists.1 (Config.hasField_isSome hp)
    rw [List.map_cons, List.nodup_cons] at hn
    have htail : ∀ q ∈ ps, ∃ b n, s.cfg.hasField b q.1.reg q.1.fld n = true := fun q hq => hps q (.tail _ hq)
    intro q hq
    rcases List.mem_cons.1 hq with rfl | hq
    · exact (State.setRefs_getCell_other (s := s.setCell d q.1.reg q.1.fld q.2) hs.setCell htail hn.1).trans
        (State.getCell_setCell_same hs hd (Config.hasField_hasReg hp) hx)
    · exact ih (s := s.setCell d p.1.reg p.1.fld p.2) hs.setCell htail hd hn.2 q hq

end

/-! ### Writes, whatever their answers -/

/-- The events of a run of writes. -/
theorem State.afterWrites_events (rs : List RegName) : ∀ s : State, ∃ evs,
    (s.afterWrites d rs).trace = s.trace ++ evs ∧ framesSent evs = rs.flatMap (s.writeFrames d) ∧ disciplined evs = true ∧
      evs.length = 12 * rs.length := by
  induction rs with
  | nil => exact fun s => ⟨[], (List.append_nil _).symm, rfl, rfl, rfl⟩
  | cons r rs ih =>
    intro s
    obtain ⟨x, y, htr⟩ := State.afterWrite_trace s d r
    obtain ⟨evs, h1, h2, h3, h4⟩ := ih (s.afterWrite d r)
    have hframes : (s.afterWrite d r).writeFrames d = s.writeFrames d := by
      funext r'
      exact State.writeFrames_of_cells rfl (by simp) (by simp)
    refine ⟨_, by rw [State.afterWrites, h1, htr, List.append_assoc], ?_, ?_, ?_⟩
    · rw [framesSent_append, framesSent_append, h2, hframes]
      rfl
    · exact disciplined_append _ _
        (disciplined_append _ _ (disciplined_transaction _ _ _ _) (disciplined_transaction _ _ _ _)) h3
    · simp only [List.length_append, transaction, h4, List.length_cons, List.length_nil]
      omega

section
variable (s : State) (d : DevIx) (rs : List RegName)

/-- Writes leave the results, the reset input, every cell and every other device. -/
theorem State.afterWrites_rest : (s.afterWrites d rs).cfg = s.cfg ∧ (s.afterWrites d rs).results = s.results ∧
    (s.afterWrites d rs).resets = s.resets ∧ (∀ d' r', (s.afterWrites d rs).cells d' r' = s.cells d' r') ∧
    ∀ d', d' ≠ d → (s.afterWrites d rs).dev d' = s.dev d' := by
  induction rs generalizing s with
  | nil => exact ⟨rfl, rfl, rfl, fun _ _ => rfl, fun _ _ => rfl⟩
  | cons r rs ih =>
    obtain ⟨hcfg, hresults, hresets, hcells, hothers⟩ := ih (s.afterWrite d r)
    exact ⟨hcfg, hresults, hresets, fun d' r' => (hcells d' r').trans (State.afterWrite_cells s d d' r r'),
      fun d' h => (hothers d' h).trans (State.afterWrite_dev_other s d d' r h)⟩

/-- Of the device itself the writes drive the select line alone. -/
theorem State.afterWrites_dev (h : d.toNat < s.devs.length) :
    ∃ b, (s.afterWrites d rs).dev d = { s.dev d with csN := b } := by
  induction rs generalizing s with
  | nil => exact ⟨_, rfl⟩
  | cons r rs ih =>
    have hlt : d.toNat < (s.afterWrite d r).devs.length := by
      simpa [State.afterWrite, State.afterXfer] using h
    obtain ⟨b, hb⟩ := ih (s.afterWrite d r) hlt
    exact ⟨b, hb.trans (by rw [State.afterWrite_dev s d r h])⟩

end

/-! ### The operation -/

/-- The four calibration cells with what CALSET sets them to, in the order of R140. -/
def Config.calRefs (c : Config) (v1 i1 v2 i2 : Code) : List (FieldRef × Word) :=
  [(c.calV1, fieldOf v1), (c.calI1, fieldOf i1), (c.calV2, fieldOf v2), (c.calI2, fieldOf i2)]

/-- The control registers of the four calibration cells, in the order of R140. -/
def Config.calRegs (c : Config) : List RegName := [c.calV1.reg, c.calI1.reg, c.calV2.reg, c.calI2.reg]

theorem Config.calRefs_hasField {c : Config} (ha : c.admitted = true) (v1 i1 v2 i2 : Code) :
    ∀ p ∈ Config.calRefs c v1 i1 v2 i2, ∃ b n, c.hasField b p.1.reg p.1.fld n = true := by
  obtain ⟨hf1, hf2, hf3, hf4⟩ := Config.cal_fields ha
  simp only [Config.calRefs, List.forall_mem_cons]
  exact ⟨⟨_, _, hf1⟩, ⟨_, _, hf2⟩, ⟨_, _, hf3⟩, ⟨_, _, hf4⟩, by simp⟩

theorem Op.bind_of_ok {α β : Type} {m : Op α} {k : α → Op β} {a : α} {t : State} (h : m s = .ok a t) :
    (m >>= k) s = k a t := by
  rw [Op.bind_apply, h]

theorem State.finish_record_dev (s : State) (e : Event) (r : HostResult) (d : DevIx) :
    ((s.record e).finish r).dev d = s.dev d := rfl

theorem State.finish_record_cells (s : State) (e : Event) (res : HostResult) (d : DevIx) (r : RegName) :
    ((s.record e).finish res).cells d r = s.cells d r := rfl

theorem State.finish_record_calCodes (s : State) (e : Event) (r : HostResult) (d : DevIx) :
    ((s.record e).finish r).calCodes d = s.calCodes d := rfl

theorem State.begin_calCodes (s : State) (i : Instr) (d : DevIx) : (s.begin i).calCodes d = s.calCodes d := rfl

theorem State.begin_writeFrames (s : State) (i : Instr) (d : DevIx) : (s.begin i).writeFrames d = s.writeFrames d := rfl

/-- CALSET's body with the reset input quiet: it never raises. -/
theorem calset_noReset (ha : s.cfg.admitted = true) (hn : s.resets = []) (v1 i1 v2 i2 : Code) :
    calset d v1 i1 v2 i2 s = .ok () (((s.setRefs d (Config.calRefs s.cfg v1 i1 v2 i2)).afterWrites d
      (Config.calRegs s.cfg)).record (.persist d v1 i1 v2 i2)) := by
  have hset (t : State) (hc : t.cfg = s.cfg) {k : FieldRef} (v : Word)
      (hk : s.cfg.hasField .control k.reg k.fld 12 = true) :
      regSetf d k.reg k.fld v t = .ok () (t.setCell d k.reg k.fld v) := by
    obtain ⟨x, hx⟩ := Option.isSome_iff_exists.1 (Config.hasField_isSome hk)
    exact regSetf_known (hc ▸ hx)
  obtain ⟨hf1, hf2, hf3, hf4⟩ := Config.cal_fields ha
  simp only [Config.calRefs, Config.calRegs, State.setRefs, State.afterWrites]
  refine (Op.bind_of_ok (Op.get_apply s)).trans ?_
  refine (Op.bind_of_ok (hset _ (by rfl) (fieldOf v1) hf1)).trans ?_
  refine (Op.bind_of_ok (hset _ (by rfl) (fieldOf i1) hf2)).trans ?_
  refine (Op.bind_of_ok (hset _ (by rfl) (fieldOf v2) hf3)).trans ?_
  refine (Op.bind_of_ok (hset _ (by rfl) (fieldOf i2) hf4)).trans ?_
  refine (Op.bind_of_ok (wrreg_noReset _ d s.cfg.calV1.reg (by exact hn))).trans ?_
  refine (Op.bind_of_ok (wrreg_noReset _ d s.cfg.calI1.reg (by exact hn))).trans ?_
  refine (Op.bind_of_ok (wrreg_noReset _ d s.cfg.calV2.reg (by exact hn))).trans ?_
  refine (Op.bind_of_ok (wrreg_noReset _ d s.cfg.calI2.reg (by exact hn))).trans ?_
  exact emit_noReset _ (by exact hn) _

theorem State.calCodes_of_cells {t : State} (hc : t.cfg = s.cfg) (h : ∀ r, t.cells d r = s.cells d r) :
    t.calCodes d = s.calCodes d := by
  simp only [State.calCodes, State.calCode, hc, State.getCell_of_cells hc (h _)]

/-- Where the four cells are distinct, each reads as it was set. -/
theorem State.setRefs_calCodes (ha : s.cfg.admitted = true) (hs : s.Shaped) (hd : s.HasDev d)
    (hne : [s.cfg.calV1, s.cfg.calI1, s.cfg.calV2, s.cfg.calI2].Nodup) (v1 i1 v2 i2 : Code) :
    (s.setRefs d (Config.calRefs s.cfg v1 i1 v2 i2)).calCodes d =
      (codeOf (fieldOf v1), codeOf (fieldOf i1), codeOf (fieldOf v2), codeOf (fieldOf i2)) := by
  have hread := State.setRefs_getCell hs (Config.calRefs_hasField ha v1 i1 v2 i2) hd hne
  simp only [Config.calRefs, List.forall_mem_cons] at hread
  obtain ⟨h1, h2, h3, h4, -⟩ := hread
  obtain ⟨hcfg, -⟩ := State.setRefs_rest (s := s) (d := d) (Config.calRefs s.cfg v1 i1 v2 i2)
  rw [Config.calRefs] at hcfg
  simp only [State.calCodes, State.calCode, Config.calRefs, hcfg, h1, h2, h3, h4]

theorem exec_calset (hr : s.Ready) (hn : s.NoReset) (hd : s.HasDev d) (v1 i1 v2 i2 : Code) :
    exec (.calset d v1 i1 v2 i2) s =
      .next (((((s.setRefs d (Config.calRefs s.cfg v1 i1 v2 i2)).begin (.calset d v1 i1 v2 i2)).afterWrites d
        (Config.calRegs s.cfg)).record (.persist d v1 i1 v2 i2)).finish (.ok .none)) := by
  have hbody := calset_noReset (s := s.begin (.calset d v1 i1 v2 i2)) (d := d) hr.2 hn v1 i1 v2 i2
  rw [State.setRefs_begin, State.begin_cfg] at hbody
  refine accept_unit_ok hr (badDev_none.2 hd) hbody ?_
  obtain ⟨-, -, hquiet, -⟩ := State.afterWrites_rest ((s.setRefs d (Config.calRefs s.cfg v1 i1 v2 i2)).begin
    (.calset d v1 i1 v2 i2)) d (Config.calRegs s.cfg)
  obtain ⟨-, -, -, hquiet', -⟩ := State.setRefs_rest (s := s) (d := d) (Config.calRefs s.cfg v1 i1 v2 i2)
  rw [State.record_resets, hquiet, State.begin_resets, hquiet']
  exact hn

end

/-- Settles O42: four cells, then four writes, then the record, none of which can raise. -/
theorem calsetWritesFourRegisters : Obligations.CalsetWritesFourRegisters := by
  intro d v1 i1 v2 i2 s hr hs hn hd hne s1
  have hs1 : s.setRefs d (Config.calRefs s.cfg v1 i1 v2 i2) = s1 := by simp only [Config.calRefs, State.setRefs, s1]
  clear_value s1
  have hexec := exec_calset hr hn hd v1 i1 v2 i2
  have hcal := State.setRefs_calCodes hr.2 hs hd hne v1 i1 v2 i2
  obtain ⟨hlatch, hint, hwarn⟩ := State.setRefs_flags (s := s) (d := d) (Config.calRefs s.cfg v1 i1 v2 i2)
  obtain ⟨hcfg, htrace, hresults, -, hlength⟩ := State.setRefs_rest (s := s) (d := d) (Config.calRefs s.cfg v1 i1 v2 i2)
  have hother (d' : DevIx) (h : d' ≠ d) := State.setRefs_dev_other (s := s) (Config.calRefs s.cfg v1 i1 v2 i2) h
  simp only [hs1] at hexec hcal hlatch hint hwarn hcfg htrace hresults hlength hother
  obtain ⟨evs, htr, hframes, hdisc, hlen⟩ :=
    State.afterWrites_events (d := d) (Config.calRegs s.cfg) (s1.begin (.calset d v1 i1 v2 i2))
  obtain ⟨b, hdev⟩ := State.afterWrites_dev (s1.begin (.calset d v1 i1 v2 i2)) d (Config.calRegs s.cfg)
    (hlength.symm ▸ hs.lt hd)
  obtain ⟨hwcfg, hwresults, -, hwcells, hwother⟩ :=
    State.afterWrites_rest (s1.begin (.calset d v1 i1 v2 i2)) d (Config.calRegs s.cfg)
  refine ⟨_, evs, hexec, ?_, rfl, ?_, hdisc, hlen, ?_, fun d' r => ?_, ?_, ?_, ?_, ?_, fun d' h => ?_⟩
  · rw [State.finish_results, State.record_results, hwresults, State.begin_results, hresults]
  · rw [State.finish_trace, State.record_trace, htr, State.begin_trace, htrace]
  · rw [hframes, State.begin_writeFrames]
    simp [Config.calRegs]
  · rw [State.finish_record_cells, hwcells, State.begin_cells]
  · rw [State.finish_record_calCodes, State.calCodes_of_cells hwcfg (hwcells d), State.begin_calCodes, hcal]
  · rw [State.finish_record_dev, hdev, ← hlatch, State.begin_dev]
  · rw [State.finish_record_dev, hdev, ← hint, State.begin_dev]
  · rw [State.finish_record_dev, hdev, ← hwarn, State.begin_dev]
  · rw [State.finish_record_dev, hwother d' h, State.begin_dev, hother d' h]

end Sys2Proof.Machine
end

section
/-! CFGREAD and CFGAPPLY (spec/45_facade.md R150, R152, R153): what a run over the control registers has sent and decoded
when it ends, well or at the first bad reply, and the registers whose word it finds changed. -/

namespace Sys2Proof.Machine

section
variable {s t u : State} {d : DevIx} {ps : List (RegName × List Byte)} {rest : List (List Byte)}

/-! ### What has been sent and decoded -/

/-- From `s` to `t` the block has sent the command frames `frames` and decoded the replies of the registers in `ps`; `rest`
are the answers still to come, and beside the cells of those registers nothing a claim of this family speaks of has
changed. -/
structure Swept (d : DevIx) (ps : List (RegName × List Byte)) (frames rest : List (List Byte)) (s t : State) : Prop where
  cfg : t.cfg = s.cfg
  quiet : t.resets = []
  results : t.results = s.results
  read : ∀ p ∈ ps, t.cells d p.1 = decodeCells (s.cfg.fieldsOf p.1) (rword s.cfg.readDataBytes p.2)
  cells : ∀ r, r ∉ ps.map Prod.fst → t.cells d r = s.cells d r
  others : ∀ d', d' ≠ d → t.dev d' = s.dev d'
  latch : (t.dev d).latch = (s.dev d).latch
  intended : (t.dev d).crcIntended = (s.dev d).crcIntended
  sent : ∃ evs, t.trace = s.trace ++ evs ∧ framesSent evs = frames
  replies : t.replies = rest

theorem ReadBack.swept {evs : List Event} (h : ReadBack d ps evs s t) (hp : (ps.map Prod.fst).Nodup)
    (hr : t.replies = rest) : Swept d ps (s.cfg.readFrames (s.flen d) ps) rest s t :=
  ⟨h.cfg, h.resets, h.results, fun p hm => h.read p hm hp, h.cells, h.others, h.latch, h.intended,
    ⟨evs, h.trace, h.frames⟩, hr⟩

/-- What has been sent without decoding anything goes before. -/
theorem Swept.after {f g more : List (List Byte)} (h1 : Swept d [] f more s u) (h2 : Swept d ps g rest u t) :
    Swept d ps (f ++ g) rest s t where
  cfg := h2.cfg.trans h1.cfg
  quiet := h2.quiet
  results := h2.results.trans h1.results
  read := h1.cfg ▸ h2.read
  cells r hr := (h2.cells r hr).trans (h1.cells r List.not_mem_nil)
  others d' hd := (h2.others d' hd).trans (h1.others d' hd)
  latch := h2.latch.trans h1.latch
  intended := h2.intended.trans h1.intended
  sent := by
    obtain ⟨a, hta, hfa⟩ := h1.sent
    obtain ⟨b, htb, hfb⟩ := h2.sent
    exact ⟨a ++ b, by rw [htb, hta, List.append_assoc], by rw [framesSent_append, hfa, hfb]⟩
  replies := h2.replies

/-- One more transaction, nothing of whose reply is decoded. -/
theorem Swept.afterXfer {f : List (List Byte)} {reply : List Byte} (h : Swept d ps f (reply :: rest) s t)
    (cmd : List Byte) (n : Nat) : Swept d ps (f ++ [cmd]) rest s (t.afterXfer d cmd n) where
  cfg := h.cfg
  quiet := h.quiet
  results := h.results
  read p hp := (t.afterXfer_cells d d p.1 cmd n).trans (h.read p hp)
  cells r hr := (t.afterXfer_cells d d r cmd n).trans (h.cells r hr)
  others d' hd := (t.dev_modDev_other d d' _ hd).trans (h.others d' hd)
  latch := (t.dev_modDev_keeps d d Dev.latch (g := fun v => { v with csN := true }) fun _ => rfl).trans h.latch
  intended :=
    (t.dev_modDev_keeps d d Dev.crcIntended (g := fun v => { v with csN := true }) fun _ => rfl).trans h.intended
  sent := by
    obtain ⟨evs, htr, hframes⟩ := h.sent
    refine ⟨_, by rw [State.afterXfer_trace, htr, List.append_assoc], ?_⟩
    rw [framesSent_append, hframes, framesSent_transaction]
  replies := by rw [State.afterXfer_replies, State.nextReply_cons t h.replies]

/-- A register whose reply was decoded holds the covered bits of the reply's word (R93). -/
theorem Swept.encodeReg {f : List (List Byte)} (h : Swept d ps f rest s t) (ha : s.cfg.admitted = true) :
    ∀ p ∈ ps, t.encodeReg d p.1 = rword s.cfg.readDataBytes p.2 &&& s.cfg.covered p.1 := by
  intro p hp
  rw [State.encodeReg, h.read p hp, h.cfg]
  exact foldCells_decodeCells _ (apart_fieldsOf ha p.1).1 _

/-- Accepting an operation changes nothing of this. -/
theorem Swept.of_begin {f : List (List Byte)} {i : Instr} (h : Swept d ps f rest (s.begin i) t) : Swept d ps f rest s t :=
  ⟨h.cfg, h.quiet, h.results, h.read, h.cells, h.others, h.latch, h.intended, h.sent, h.replies⟩

/-- What an operation that ends there has done, with the result it gives. -/
theorem Swept.finish {f : List (List Byte)} (h : Swept d ps f rest s t) {regs : List RegName}
    (hregs : ps.map Prod.fst = regs) (res : HostResult) :
    ∃ evs, (t.finish res).results = s.results ++ [res] ∧
      ((t.finish res).seq = .idle ∧
        (∀ p ∈ ps, ∀ f fd, s.cfg.field? p.1 f = some fd →
          (t.finish res).getCell d p.1 f = bfDecode fd.bits (rword s.cfg.readDataBytes p.2)) ∧
        (∀ r, r ∉ regs → (t.finish res).cells d r = s.cells d r) ∧
        (∀ d', d' ≠ d → (t.finish res).dev d' = s.dev d') ∧
        ((t.finish res).dev d).latch = (s.dev d).latch ∧
        ((t.finish res).dev d).crcIntended = (s.dev d).crcIntended) ∧
      (t.finish res).trace = s.trace ++ evs ∧ framesSent evs = f ∧ (t.finish res).replies = rest := by
  obtain ⟨evs, htr, hframes⟩ := h.sent
  refine ⟨evs, congrArg (· ++ [res]) h.results, ⟨rfl, fun p hp f fd hf => ?_, hregs ▸ h.cells, h.others, h.latch,
    h.intended⟩, htr, hframes, h.replies⟩
  exact State.getCell_of_decoded (s := s) h.cfg (h.read p hp) hf

/-! ### CFGREAD -/

section
variable (hn : s.resets = []) (ha : s.cfg.admitted = true) (hs : s.Shaped) (hd : s.HasDev d)
  (hw : s.cfg.readsWell (s.flen d) ps = true)
include hn ha hs hd hw

/-- Good replies to the first registers: the reads go on with the rest of them. -/
theorem cfgread_run {rs : List RegName} (hc : s.cfg.ctrl = ps.map Prod.fst ++ rs)
    (hp : s.replies = ps.map Prod.snd ++ rest) :
    ∃ t, cfgread d s = readAll d rs t ∧ t.flen d = s.cfg.lengthAfter (s.flen d) ps ∧
      Swept d ps (s.cfg.readFrames (s.flen d) ps) rest s t := by
  have hreg : ∀ p ∈ ps, s.cfg.hasReg p.1 = true := fun p hm =>
    Config.isControl_hasReg ((Config.mem_ctrl ha).1 (hc ▸ List.mem_append_left _ (List.mem_map_of_mem hm)))
  have hnodup := Config.ctrl_nodup ha
  rw [hc] at hnodup
  obtain ⟨t, evs, hread, h, hrest⟩ := readAll_run rs hn ha hs hd hreg hw hp
  exact ⟨t, (congrArg (readAll d · s) hc).trans hread, h.flen, h.swept (List.nodup_append.1 hnodup).1 hrest⟩

/-- Good replies to all the control registers. -/
theorem cfgread_good (hc : ps.map Prod.fst = s.cfg.ctrl) (hp : s.replies = ps.map Prod.snd ++ rest) :
    ∃ t, cfgread d s = .ok () t ∧ Swept d ps (s.cfg.readFrames (s.flen d) ps) rest s t := by
  obtain ⟨t, hread, -, h⟩ := cfgread_run hn ha hs hd hw (rs := []) (by rw [hc, List.append_nil]) hp
  exact ⟨t, hread, h⟩

/-- A bad reply after good ones. -/
theorem cfgread_bad {r : RegName} {rs : List RegName} (hc : s.cfg.ctrl = ps.map Prod.fst ++ r :: rs)
    {reply : List Byte} (hp : s.replies = ps.map Prod.snd ++ reply :: rest) {e : Err}
    (he : replyError (s.cfg.lengthAfter (s.flen d) ps) reply = some e) :
    ∃ t, cfgread d s = .error (.err e) t ∧ Swept d ps (s.cfg.readFrames (s.flen d) (ps ++ [(r, reply)])) rest s t := by
  obtain ⟨t, hread, hlen, h⟩ := cfgread_run hn ha hs hd hw hc hp
  refine ⟨_, hread.trans (readAll_bad rs h.quiet h.replies (hlen ▸ he)), ?_⟩
  have hframes : s.cfg.readFrames (s.flen d) (ps ++ [(r, reply)]) =
      s.cfg.readFrames (s.flen d) ps ++ [t.readFrame d r] := by
    rw [Config.readFrames_append, State.readFrame, hlen, h.cfg]
    rfl
  rw [hframes]
  exact h.afterXfer _ _

end

/-! ### CFGAPPLY -/

/-- The writes of all the control registers, with what is left to do after them. -/
theorem cfgapply_eq (hn : s.resets = []) :
    cfgapply d s = (do
      cfgread d
      return .regs ((← get).driftedRegs d (s.cfg.ctrl.map fun r => (r, s.encodeReg d r))) : Op Value)
        (s.afterWrites d s.cfg.ctrl) :=
  (Op.bind_of_ok (Op.get_apply s)).trans (Op.bind_of_ok (writeAll_noReset _ hn))

/-- The registers whose word is no longer the one they had in an earlier state. -/
theorem State.driftedRegs_eq_filter (rs : List RegName) :
    t.driftedRegs d (rs.map fun r => (r, s.encodeReg d r)) = rs.filter fun r => t.encodeReg d r != s.encodeReg d r := by
  rw [State.driftedRegs, List.filter_map, List.map_map]
  exact List.map_id _

/-- After decoded replies they are told by the words of the replies. -/
theorem Swept.filter_drifted {f : List (List Byte)} (h : Swept d ps f rest s t) (ha : s.cfg.admitted = true) :
    (ps.map Prod.fst).filter (fun r => t.encodeReg d r != s.encodeReg d r) =
      (ps.filter fun p =>
        rword s.cfg.readDataBytes p.2 &&& s.cfg.covered p.1 != s.encodeReg d p.1).map Prod.fst := by
  rw [List.filter_map]
  refine congrArg _ (List.filter_congr fun p hp => ?_)
  rw [← h.encodeReg ha p hp]
  rfl

section
variable (hn : s.resets = []) (ha : s.cfg.admitted = true) (hs : s.Shaped) (hd : s.HasDev d) {ws : List (List Byte)}
  (hl : ws.length = 2 * s.cfg.ctrl.length)
include hn hs hd hl

/-- The writes of CFGAPPLY send their frames and change no cell, so the reads start in the CRC mode of the writes. -/
theorem State.afterWrites_swept (hp : s.replies = ws ++ rest) :
    let u := s.afterWrites d s.cfg.ctrl
    Swept d [] (s.cfg.ctrl.flatMap (s.writeFrames d)) rest s u ∧ u.Shaped ∧ u.flen d = s.flen d := by
  obtain ⟨hsent, hrest, hcfg, hquiet, hshaped, hresults, hcells, hothers, hlatch, hint⟩ :=
    State.afterWrites_facts s.cfg.ctrl hs hd hl hp
  exact ⟨⟨hcfg, hquiet.trans hn, hresults, by simp, fun r _ => hcells r, hothers, hlatch, hint, hsent, hrest⟩, hshaped,
    (State.flen_of_cells hcfg (hcells _)).1⟩

variable (hw : s.cfg.readsWell (s.flen d) ps = true)
include ha hw

/-- CFGAPPLY with good replies to all its reads. -/
theorem cfgapply_good (hc : ps.map Prod.fst = s.cfg.ctrl) (hp : s.replies = ws ++ (ps.map Prod.snd ++ rest)) :
    ∃ t, cfgapply d s = .ok (.regs (s.cfg.ctrl.filter fun r => t.encodeReg d r != s.encodeReg d r)) t ∧
      Swept d ps (s.cfg.ctrl.flatMap (s.writeFrames d) ++ s.cfg.readFrames (s.flen d) ps) rest s t := by
  obtain ⟨hwrites, hshaped, hlen⟩ := State.afterWrites_swept hn hs hd hl hp
  have happly := cfgapply_eq (d := d) hn
  generalize s.afterWrites d s.cfg.ctrl = u at *
  have hcfg := hwrites.cfg
  obtain ⟨t, hread, hreads⟩ := cfgread_good (s := u) (d := d) (ps := ps) hwrites.quiet (hcfg ▸ ha) hshaped
    (by unfold State.HasDev; rw [hcfg]; exact hd) (by rw [hlen, hcfg]; exact hw) (hcfg ▸ hc) hwrites.replies
  rw [hlen, hcfg] at hreads
  refine ⟨t, happly.trans ((Op.bind_of_ok hread).trans ?_), hwrites.after hreads⟩
  rw [← State.driftedRegs_eq_filter]
  rfl

/-- CFGAPPLY with a bad reply after good ones. -/
theorem cfgapply_bad {r : RegName} {rs : List RegName} (hc : s.cfg.ctrl = ps.map Prod.fst ++ r :: rs)
    {reply : List Byte} (hp : s.replies = ws ++ (ps.map Prod.snd ++ reply :: rest)) {e : Err}
    (he : replyError (s.cfg.lengthAfter (s.flen d) ps) reply = some e) :
    ∃ t, cfgapply d s = .error (.err e) t ∧
      Swept d ps (s.cfg.ctrl.flatMap (s.writeFrames d) ++ s.cfg.readFrames (s.flen d) (ps ++ [(r, reply)])) rest s t := by
  obtain ⟨hwrites, hshaped, hlen⟩ := State.afterWrites_swept hn hs hd hl hp
  have happly := cfgapply_eq (d := d) hn
  generalize s.afterWrites d s.cfg.ctrl = u at *
  have hcfg := hwrites.cfg
  obtain ⟨t, hread, hreads⟩ := cfgread_bad (s := u) (d := d) (ps := ps) hwrites.quiet (hcfg ▸ ha) hshaped
    (by unfold State.HasDev; rw [hcfg]; exact hd) (by rw [hlen, hcfg]; exact hw) (hcfg ▸ hc) hwrites.replies
    (by rw [hlen, hcfg]; exact he)
  rw [hlen, hcfg] at hreads
  exact ⟨t, happly.trans (by rw [Op.bind_apply, hread]), hwrites.after hreads⟩

end

/-- The operation, with good replies to all its reads. -/
theorem exec_cfgapply_good (hr : s.Ready) (hs : s.Shaped) (hn : s.NoReset) (hd : s.HasDev d) {ws : List (List Byte)}
    (hl : ws.length = 2 * s.cfg.ctrl.length) (hw : s.cfg.readsWell (s.flen d) ps = true)
    (hc : ps.map Prod.fst = s.cfg.ctrl) (hp : s.replies = ws ++ (ps.map Prod.snd ++ rest)) :
    ∃ t, exec (.cfgapply d) s =
        .next (t.finish (.ok (.regs (s.cfg.ctrl.filter fun r => t.encodeReg d r != s.encodeReg d r)))) ∧
      Swept d ps (s.cfg.ctrl.flatMap (s.writeFrames d) ++ s.cfg.readFrames (s.flen d) ps) rest s t := by
  obtain ⟨t, hbody, h⟩ := cfgapply_good (s := s.begin (.cfgapply d)) hn hr.2 hs hd hl hw hc hp
  exact ⟨t, (accept_good s hr (badDev_none.2 hd) _ _).trans (congrArg _ (runOp_ok s h.quiet hbody)), h.of_begin⟩

end

/-! ### Answers to the first registers of a list -/

section
variable {α β : Type} {l : List α} {m : List β}

theorem map_fst_zip_eq_take (h : m.length ≤ l.length) : (l.zip m).map Prod.fst = l.take m.length := by
  rw [List.zip_eq_zip_take_min, Nat.min_eq_right h, List.map_fst_zip]
  simp [h]

theorem eq_map_fst_zip_append (h : m.length ≤ l.length) {a : α} (ha : l[m.length]? = some a) :
    l = (l.zip m).map Prod.fst ++ a :: l.drop (m.length + 1) := by
  obtain ⟨hlt, rfl⟩ := List.getElem?_eq_some_iff.1 ha
  rw [map_fst_zip_eq_take h, List.getElem_cons_drop, List.take_append_drop]

end

/-! ### The obligations -/

/-- Settles O45: the body is the run over the control registers, and `Swept` says what it leaves. -/
theorem cfgreadRefreshesControlRegisters : Obligations.CfgreadRefreshesControlRegisters := by
  intro d s rs rest hr hs hn hd hp hl pairs hw kept
  have hgood : s.badDev d = none := badDev_none.2 hd
  have hfst : pairs.map Prod.fst = s.cfg.ctrl.take rs.length := map_fst_zip_eq_take hl
  have hsnd : pairs.map Prod.snd = rs := List.map_snd_zip hl
  rw [← hsnd] at hp
  refine ⟨fun hall => ?_, fun r p more e hnext hrest he => ?_⟩
  · obtain ⟨t, hbody, h⟩ := cfgread_good (s := s.begin (.cfgread d)) hn hr.2 hs hd hw
      (hfst.trans (List.take_of_length_le hall.ge)) hp
    obtain ⟨evs, hleft⟩ := h.of_begin.finish hfst (.ok .none)
    exact ⟨_, evs, accept_unit_ok hr hgood hbody h.quiet, hleft⟩
  · obtain ⟨t, hbody, h⟩ := cfgread_bad (s := s.begin (.cfgread d)) hn hr.2 hs hd hw
      (eq_map_fst_zip_append hl hnext) (hrest ▸ hp) he
    obtain ⟨evs, hleft⟩ := h.of_begin.finish hfst (.err e)
    exact ⟨_, evs, accept_unit_err hr hgood hbody h.quiet, hleft⟩

/-- Settles O46: the body is the writes, which change no cell, and then the run of CFGREAD; what differs is the words of
the replies. -/
theorem cfgapplyListsDifferingRegisters : Obligations.CfgapplyListsDifferingRegisters := by
  intro d s ws rs rest hr hs hn hd hlw hp hl pairs hw written kept
  have hfst : pairs.map Prod.fst = s.cfg.ctrl.take rs.length := map_fst_zip_eq_take hl
  have hsnd : pairs.map Prod.snd = rs := List.map_snd_zip hl
  rw [← hsnd] at hp
  refine ⟨fun hall => ?_, fun r p more e hnext hrest he => ?_⟩
  · have hctrl := hfst.trans (List.take_of_length_le hall.ge)
    obtain ⟨t, hexec, h⟩ := exec_cfgapply_good hr hs hn hd hlw hw hctrl hp
    rw [← hctrl, h.filter_drifted hr.2] at hexec
    obtain ⟨evs, hleft⟩ := h.finish hfst (.ok (.regs _))
    exact ⟨_, evs, hexec, hleft⟩
  · obtain ⟨t, hbody, h⟩ := cfgapply_bad (s := s.begin (.cfgapply d)) hn hr.2 hs hd hlw hw
      (eq_map_fst_zip_append hl hnext) (hrest ▸ hp) he
    obtain ⟨evs, hleft⟩ := h.of_begin.finish hfst (.err e)
    exact ⟨_, evs, (accept_good s hr (badDev_none.2 hd) _ _).trans (congrArg _ (runOp_err s h.quiet hbody)), hleft⟩

end Sys2Proof.Machine
end

section
/-! CFGAPPLY against a device that returns what was written (spec/45_facade.md R152, spec/90_conflicts.md C1): which bits of
a word survive the reply that carries it. -/

namespace Sys2Proof.Machine

section
variable {s : State} {d : DevIx}

/-! ### A word and the reply that carries it -/

/-- The bits of a register that a read brings back (R114, C1). -/
def readMask (dataBytes : Nat) : Word := if dataBytes = 4 then BitVec.allOnes 32 else 0x00FFFFFF

theorem ofLeBytes_wordByte_getLsbD (w : Word) (b : Byte) (i : Nat) :
    (ofLeBytes (wordByte w 0) (wordByte w 1) (wordByte w 2) b).getLsbD i =
      if i < 24 then w.getLsbD i else b.getLsbD (i - 24) := by
  simp only [ofLeBytes, wordByte, BitVec.getLsbD_append, BitVec.getLsbD_extractLsb', Nat.sub_sub]
  by_cases h0 : i < 8
  · simp [h0, show i < 24 by omega]
  · by_cases h1 : i < 16
    · simp [h0, show i - 8 < 8 by omega, show i < 24 by omega, show 8 + (i - 8) = i by omega]
    · by_cases h2 : i < 24
      · simp [h0, h2, show ¬ i - 8 < 8 by omega, show i - 16 < 8 by omega, show 16 + (i - 16) = i by omega]
      · simp [h0, h2, show ¬ i - 8 < 8 by omega, show ¬ i - 16 < 8 by omega]

theorem lowMask_getLsbD (i : Nat) : (0x00FFFFFF : Word).getLsbD i = decide (i < 24) :=
  fmask_getLsbD (f := ⟨0, 24⟩) rfl

/-- A reply that carries a word, in either CRC mode, brings back its bits under the mask. -/
theorem rword_frame_leBytes (dataBytes n : Nat) (w : Word) :
    rword dataBytes (frame n (leBytes w)) = w &&& readMask dataBytes := by
  have hbytes : rword dataBytes (frame n (leBytes w)) =
      ofLeBytes (wordByte w 0) (wordByte w 1) (wordByte w 2) (if dataBytes = 4 then wordByte w 3 else 0) := by
    unfold frame
    split <;> rfl
  apply BitVec.eq_of_getLsbD_eq
  intro i hi
  rw [hbytes, ofLeBytes_wordByte_getLsbD, BitVec.getLsbD_and, readMask]
  by_cases h4 : dataBytes = 4
  · simp only [if_pos h4, BitVec.getLsbD_allOnes, hi, decide_true, Bool.and_true, wordByte,
      BitVec.getLsbD_extractLsb']
    split
    · rfl
    · simp [show i - 24 < 8 by omega, show 24 + (i - 24) = i by omega]
  · simp only [if_neg h4, lowMask_getLsbD]
    split <;> simp [*]

/-- Such a reply passes its checks. -/
theorem replyError_frame_leBytes (w : Word) : replyError (s.flen d) (frame (s.flen d) (leBytes w)) = none := by
  rcases flen_cases s d with h | h <;> rw [h]
  · exact replyError_none.2 ⟨rfl, nofun⟩
  · exact replyError_none.2 ⟨rfl, fun _ => rfl⟩

/-- What the mask takes from a word is its top byte. -/
theorem and_lowMask_eq_self_iff (w : Word) : w &&& 0x00FFFFFF = w ↔ w >>> 24 = 0 := by
  have hlow : (w &&& 0x00FFFFFF).toNat = w.toNat % 2 ^ 24 := by
    rw [BitVec.toNat_and]
    exact Nat.and_two_pow_sub_one_eq_mod _ 24
  have hhigh : (w >>> 24).toNat = w.toNat / 2 ^ 24 := by rw [BitVec.toNat_ushiftRight, Nat.shiftRight_eq_div_pow]
  rw [← BitVec.toNat_inj, ← BitVec.toNat_inj, hlow, hhigh]
  show _ ↔ _ = 0
  omega

/-! ### The CRC-enable bit -/

theorem and_one_beq_one (w : Word) : (w &&& 1 == 1) = w.getLsbD 0 := by
  rw [show (1 : Word) = 1#32 from rfl, BitVec.and_one_eq_setWidth_ofBool_getLsbD]
  cases w.getLsbD 0 <;> rfl

theorem bfDecode_bit {f : BitField} (hf : fieldOk f = true) (w : Word) :
    (bfDecode f w &&& 1 == 1) = w.getLsbD f.start := by
  have hpos : 0 < f.width := (fieldOk_iff.1 hf).1
  rw [and_one_beq_one, bfDecode_getLsbD hf, decide_eq_true hpos, Bool.true_and, Nat.add_zero]

/-- The CRC mode is the CRC-enable bit of the register's word (R19). -/
theorem State.crcOn_eq_getLsbD (ha : s.cfg.admitted = true) (hs : s.Shaped) (hd : s.HasDev d) {x : FieldDesc}
    (hx : s.cfg.field? s.cfg.uartReg s.cfg.crcEnF = some x) :
    s.crcOn d = (s.encodeReg d s.cfg.uartReg).getLsbD x.bits.start := by
  have hok : fieldOk x.bits = true := (Config.fieldsOf_ok ha _).1 x (Config.field?_mem hx).1
  have hpos : 0 < x.bits.width := (fieldOk_iff.1 hok).1
  rw [← bfDecode_bit hok, State.bfDecode_encodeReg ha hs hd hx, State.crcOn, and_one_beq_one, and_one_beq_one,
    BitVec.getLsbD_and, fmask_getLsbD hok, decide_eq_true hpos, Bool.and_true]

/-! ### The read-back -/

/-- The replies of a device that holds the words of the shadow. -/
def State.faithful (s : State) (d : DevIx) (rs : List RegName) : List (RegName × List Byte) :=
  rs.map fun r => (r, frame (s.flen d) (leBytes (s.encodeReg d r)))

/-- A faithful reply keeps the CRC mode, where the CRC-enable bit is among the bits read. -/
theorem State.lengthAfter_faithful (ha : s.cfg.admitted = true) (hs : s.Shaped) (hd : s.HasDev d)
    (hbit : ∀ x, s.cfg.field? s.cfg.uartReg s.cfg.crcEnF = some x →
      (readMask s.cfg.readDataBytes).getLsbD x.bits.start = true) (r : RegName) :
    s.cfg.lengthAfter (s.flen d) (s.faithful d [r]) = s.flen d := by
  simp only [State.faithful, List.map_cons, List.map_nil, Config.lengthAfter, rword_frame_leBytes]
  by_cases hr : r = s.cfg.uartReg
  · subst hr
    obtain ⟨x, hx⟩ := Option.isSome_iff_exists.1 (Config.hasField_isSome (Config.uart_field ha))
    have hok : fieldOk x.bits = true := (Config.fieldsOf_ok ha _).1 x (Config.field?_mem hx).1
    rw [if_pos rfl, hx, Option.any_some, bfDecode_bit hok, BitVec.getLsbD_and, hbit x hx, Bool.and_true,
      ← State.crcOn_eq_getLsbD ha hs hd hx, State.flen]
  · rw [if_neg hr]

/-- So each read is made, and answered well, in the mode the first is made in. -/
theorem State.reads_faithful (h : ∀ r, s.cfg.lengthAfter (s.flen d) (s.faithful d [r]) = s.flen d) (rs : List RegName) :
    s.cfg.readsWell (s.flen d) (s.faithful d rs) = true ∧
      s.cfg.readFrames (s.flen d) (s.faithful d rs) = rs.map (s.readFrame d) := by
  induction rs with
  | nil => exact ⟨rfl, rfl⟩
  | cons r rs ih =>
    obtain ⟨hw, hf⟩ := ih
    have hlen := h r
    simp only [State.faithful, List.map_cons, List.map_nil] at hw hf hlen ⊢
    rw [Config.readsWell, Config.readFrames, hlen, replyError_frame_leBytes, hw, hf]
    exact ⟨rfl, rfl⟩

/-- A word of the shadow is covered by the fields of its register, and so is what the mask leaves of it. -/
theorem State.encodeReg_and_mask_and_covered (ha : s.cfg.admitted = true) (r : RegName) (m : Word) :
    s.encodeReg d r &&& m &&& s.cfg.covered r = s.encodeReg d r &&& m := by
  have hcov : s.encodeReg d r &&& s.cfg.covered r = s.encodeReg d r :=
    (and_mask_eq_self_iff _ _).2 (foldCells_covered _ _ (apart_fieldsOf ha r).1)
  rw [BitVec.and_assoc, BitVec.and_comm m, ← BitVec.and_assoc, hcov]

end

/-- Settles O47: each reply brings back the bits of the written word under `readMask`, so what drifts is what the mask takes
from. -/
theorem cfgapplyReportsUnreadTopBytes : Obligations.CfgapplyReportsUnreadTopBytes := by
  intro d s ws rest hr hs hn hd hl hp htop
  have hmask : readMask s.cfg.readDataBytes = if s.cfg.readDataBytes = 3 then 0x00FFFFFF else BitVec.allOnes 32 := by
    rcases Config.admitted_dataBytes hr.2 with h | h <;> rw [h] <;> rfl
  have hbit : ∀ x, s.cfg.field? s.cfg.uartReg s.cfg.crcEnF = some x →
      (readMask s.cfg.readDataBytes).getLsbD x.bits.start = true := by
    intro x hx
    have hok := fieldOk_iff.1 ((Config.fieldsOf_ok hr.2 _).1 x (Config.field?_mem hx).1)
    rw [hmask]
    split
    · next h3 => rw [lowMask_getLsbD, decide_eq_true (htop h3 x hx)]
    · rw [BitVec.getLsbD_allOnes, decide_eq_true (by omega)]
  obtain ⟨hw, hframes⟩ := State.reads_faithful (State.lengthAfter_faithful hr.2 hs hd hbit) s.cfg.ctrl
  have hfst : (s.faithful d s.cfg.ctrl).map Prod.fst = s.cfg.ctrl := by
    rw [State.faithful, List.map_map]
    exact List.map_id _
  have hsnd : (s.faithful d s.cfg.ctrl).map Prod.snd =
      s.cfg.ctrl.map fun r => frame (s.flen d) (leBytes (s.encodeReg d r)) := by
    rw [State.faithful, List.map_map]
    rfl
  rw [← hsnd, List.append_assoc] at hp
  obtain ⟨t, hexec, h⟩ := exec_cfgapply_good hr hs hn hd hl hw hfst hp
  have hback : ∀ r ∈ s.cfg.ctrl, t.encodeReg d r =
      if s.cfg.readDataBytes = 3 then s.encodeReg d r &&& 0x00FFFFFF else s.encodeReg d r := by
    intro r hc
    have hread := h.encodeReg hr.2 _ (List.mem_map_of_mem (f := fun r => (r, _)) hc)
    rw [rword_frame_leBytes, State.encodeReg_and_mask_and_covered hr.2, hmask] at hread
    rw [hread]
    split
    · rfl
    · exact BitVec.and_allOnes
  have hdrift : s.cfg.ctrl.filter (fun r => t.encodeReg d r != s.encodeReg d r) =
      if s.cfg.readDataBytes = 3 then s.cfg.ctrl.filter (fun r => s.encodeReg d r >>> 24 != 0) else [] := by
    split
    · next h3 =>
      refine List.filter_congr fun r hc => ?_
      rw [hback r hc, if_pos h3, Bool.eq_iff_iff, bne_iff_ne, bne_iff_ne, ne_eq, and_lowMask_eq_self_iff]
    · next h3 =>
      refine List.filter_eq_nil_iff.2 fun r hc => ?_
      rw [hback r hc, if_neg h3, bne_self_eq_false]
      exact Bool.false_ne_true
  obtain ⟨evs, hres, ⟨hidle, -, hcells, -⟩, htr, hsent, hrest⟩ := h.finish hfst (.ok (.regs _))
  rw [hdrift] at hexec
  exact ⟨_, evs, hexec, hres, hidle, htr, hrest, hsent.trans (congrArg _ hframes), hback, hcells⟩

end Sys2Proof.Machine
end

section
/-! SUPPORT. No body of events looks at the sequencer or at the results given (log 5, 17): run amid another operation it does
what it does by itself. So an operation made of others is told by what they do one after another (spec/45_facade.md R150). -/

namespace Sys2Proof.Machine

/-- The state with the sequencer and the results given replaced. -/
def State.amid (s : State) (q : Seq) (l : List HostResult) : State := { s with seq := q, results := l }

/-- How a body ends, with the sequencer and the results given replaced in the state it leaves. -/
def amidEnd {α : Type} (r : EStateM.Result Stop State α) (q : Seq) (l : List HostResult) : EStateM.Result Stop State α :=
  match r with
  | .ok a t => .ok a (t.amid q l)
  | .error e t => .error e (t.amid q l)

/-- The body does the same whatever the sequencer and the results given are, and gives no result itself. -/
def Op.Blind {α : Type} (m : Op α) : Prop := ∀ s q l, ∃ q', m (s.amid q l) = amidEnd (m s) q' l

section
variable {α β : Type} {d : DevIx}

/-! ### The parts of a program -/

theorem blind_pure (a : α) : (pure a : Op α).Blind := fun _ q _ => ⟨q, rfl⟩

theorem blind_raise (e : Err) : (raise e : Op α).Blind := fun _ q _ => ⟨q, rfl⟩

theorem blind_modify {f : State → State} (h : ∀ s q l, f (s.amid q l) = (f s).amid q l) :
    (modify f : Op Unit).Blind := fun s q l => ⟨q, by rw [Op.modify_apply, h]; rfl⟩

theorem blind_bind {m : Op α} {k : α → Op β} (hm : m.Blind) (hk : ∀ a, (k a).Blind) : (m >>= k).Blind := by
  intro s q l
  obtain ⟨q', hq⟩ := hm s q l
  rw [Op.bind_apply, Op.bind_apply, hq]
  cases m s with
  | ok a t => exact hk a t q' l
  | error e t => exact ⟨q', rfl⟩

/-- A body that goes on from what it finds in the state, without looking at the sequencer or the results. -/
theorem blind_get_bind {k : State → Op β} (h : ∀ s q l, k (s.amid q l) = k s) (hk : ∀ s, (k s).Blind) :
    ((get : Op State) >>= k).Blind := by
  intro s q l
  obtain ⟨q', hq⟩ := hk s s q l
  exact ⟨q', (congrFun (h s q l) _).trans hq⟩

theorem blind_ite {c : Prop} [Decidable c] {a b : Op α} (ha : a.Blind) (hb : b.Blind) : (if c then a else b).Blind := by
  split <;> assumption

theorem blind_onRaise {m : Op α} {f : State → State} (hm : m.Blind) (h : ∀ s q l, f (s.amid q l) = (f s).amid q l) :
    (onRaise m f).Blind := by
  intro s q l
  obtain ⟨q', hq⟩ := hm s q l
  refine ⟨q', ?_⟩
  rw [onRaise_apply, onRaise_apply, hq]
  rcases m s with ⟨a, t⟩ | ⟨e | _, t⟩
  · rfl
  · exact congrArg (EStateM.Result.error (Stop.err e)) (h t q' l)
  · rfl

theorem blind_emit (e : Event) : (emit e).Blind := by
  intro s q l
  cases h : s.resetNow with
  | true => exact ⟨q, by rw [emit_reset s h, emit_reset (s.amid q l) h]; rfl⟩
  | false =>
    refine ⟨q.tick, ?_⟩
    simp only [emit, h, show (s.amid q l).resetNow = s.resetNow from rfl]
    rfl

theorem State.nextReply_amid (s : State) (q : Seq) (l : List HostResult) :
    (s.amid q l).nextReply = (s.nextReply.1, s.nextReply.2.amid q l) := by
  rw [s.nextReply_congr (t := s.amid q l) rfl rfl]
  unfold State.nextReply
  split <;> rfl

theorem State.nextCancel_amid (s : State) (q : Seq) (l : List HostResult) :
    (s.amid q l).nextCancel = (s.nextCancel.1, s.nextCancel.2.amid q l) := by
  unfold State.nextCancel
  rw [show (s.amid q l).cancels = s.cancels from rfl]
  split <;> rfl

theorem blind_rx (n : Nat) : (rx n).Blind := by
  intro s q l
  have hrest : (do emit (.rx n fillByte s.nextReply.1); return s.nextReply.1 : Op (List Byte)).Blind :=
    blind_bind (blind_emit _) fun _ => blind_pure _
  cases h : s.resetNow with
  | true =>
    refine ⟨q, ?_⟩
    simp only [rx, h, show (s.amid q l).resetNow = s.resetNow from rfl]
    rfl
  | false =>
    obtain ⟨q', hq⟩ := hrest s.nextReply.2 q l
    refine ⟨q', ?_⟩
    simp only [rx, h, show (s.amid q l).resetNow = s.resetNow from rfl, s.nextReply_amid]
    exact hq

theorem blind_sampleCancel : sampleCancel.Blind := by
  intro s q l
  refine ⟨q, ?_⟩
  simp only [sampleCancel, s.nextCancel_amid, show (s.amid q l).cfg = s.cfg from rfl]
  split <;> rfl

theorem blind_drive (b : Bool) : (drive d b).Blind :=
  blind_bind (blind_emit _) fun _ => blind_modify fun _ _ _ => rfl

/-! ### The framer -/

theorem blind_xfer (cmd : List Byte) (n : Nat) : (xfer d cmd n).Blind :=
  blind_bind (blind_drive _) fun _ => blind_bind (blind_emit _) fun _ => blind_bind (blind_drive _) fun _ =>
    blind_bind (blind_drive _) fun _ => blind_bind (blind_rx n) fun _ => blind_bind (blind_drive _) fun _ => blind_pure _

theorem blind_checkReply (n : Nat) (reply : List Byte) : (checkReply n reply).Blind := by
  unfold checkReply
  split
  · exact blind_raise _
  · exact blind_pure _

theorem blind_acceptReply (r : RegName) (n : Nat) (reply : List Byte) : (acceptReply d r n reply).Blind :=
  blind_bind (blind_checkReply n reply) fun _ => blind_get_bind (fun _ _ _ => rfl) fun _ =>
    blind_bind (blind_modify fun _ _ _ => rfl) fun _ => blind_get_bind (fun _ _ _ => rfl) fun _ =>
      blind_ite (blind_bind (blind_modify fun _ _ _ => rfl) fun _ => blind_emit _) (blind_pure _)

theorem blind_rdreg (r : RegName) : (rdreg d r).Blind :=
  blind_get_bind (fun _ _ _ => rfl) fun _ => blind_bind (blind_xfer _ _) fun _ => blind_acceptReply r _ _

theorem blind_writeHalf (wa lsb msb : Byte) : (writeHalf d wa lsb msb).Blind :=
  blind_get_bind (fun _ _ _ => rfl) fun _ => blind_bind (blind_xfer _ _) fun _ => blind_pure _

theorem blind_wrreg (r : RegName) : (wrreg d r).Blind :=
  blind_get_bind (fun _ _ _ => rfl) fun _ => blind_bind (blind_writeHalf _ _ _) fun _ => blind_writeHalf _ _ _

/-! ### Cells, and the latch handshake -/

theorem blind_regSetf (r : RegName) (f : FldName) (v : Word) : (regSetf d r f v).Blind :=
  blind_get_bind (fun _ _ _ => rfl) fun _ =>
    blind_ite (blind_bind (blind_raise _) fun _ => blind_modify fun _ _ _ => rfl) (blind_modify fun _ _ _ => rfl)

theorem blind_regGetf (r : RegName) (f : FldName) : (regGetf d r f).Blind :=
  have hread : (do return (← get).getCell d r f : Op Word).Blind :=
    blind_get_bind (fun _ _ _ => rfl) fun _ => blind_pure _
  blind_get_bind (fun _ _ _ => rfl) fun _ => blind_ite (blind_bind (blind_raise _) fun _ => hread) hread

theorem blind_requestLatch (c : Bool) (f : FldName) : (requestLatch d c f).Blind :=
  blind_ite (blind_get_bind (fun _ _ _ => rfl) fun _ => blind_regSetf _ _ _) (blind_pure _)

theorem blind_poll : (poll d).Blind :=
  blind_get_bind (fun _ _ _ => rfl) fun _ =>
    blind_bind (blind_onRaise (blind_rdreg _) fun _ _ _ => rfl) fun _ => blind_modify fun _ _ _ => rfl

theorem blind_pollLoop (c1 c2 : Bool) (iv : Word) (n : Nat) : (pollLoop d c1 c2 iv n).Blind := by
  have hset (x : LatchState) : (modify fun s => s.setLatch d x : Op Unit).Blind := blind_modify fun _ _ _ => rfl
  induction n with
  | zero => exact blind_bind (hset _) fun _ => blind_raise _
  | succ n ih =>
    have hrest : (do
        poll d
        let s ← get
        if s.latchDone d c1 s.cfg.latchF1 && s.latchDone d c2 s.cfg.latchF2 then
          modify (fun t => t.setLatch d .latched)
        else
          if n ≠ 0 then emit (.sleep iv)
          pollLoop d c1 c2 iv n : Op Unit).Blind :=
      blind_bind blind_poll fun _ => blind_get_bind (fun _ _ _ => rfl) fun _ =>
        blind_ite (hset _) (blind_ite (blind_bind (blind_emit _) fun _ => ih) ih)
    exact blind_bind blind_sampleCancel fun _ =>
      blind_ite (blind_bind (hset _) fun _ => blind_bind (blind_raise _) fun _ => hrest) hrest

theorem blind_latch (c1 c2 : Bool) (n iv : Word) : (latch d c1 c2 n iv).Blind :=
  blind_get_bind (fun _ _ _ => rfl) fun _ =>
    blind_bind (blind_requestLatch _ _) fun _ => blind_bind (blind_requestLatch _ _) fun _ =>
      blind_bind (blind_modify fun _ _ _ => rfl) fun _ => blind_bind (blind_wrreg _) fun _ =>
        blind_bind (blind_modify fun _ _ _ => rfl) fun _ => blind_pollLoop _ _ _ _

theorem blind_rdboth (n iv : Word) : (rdboth d n iv).Blind :=
  blind_bind (blind_latch _ _ _ _) fun _ => blind_get_bind (fun _ _ _ => rfl) fun _ =>
    blind_bind (blind_rdreg _) fun _ => blind_bind (blind_rdreg _) fun _ =>
      blind_get_bind (fun _ _ _ => rfl) fun _ =>
        blind_bind (blind_regGetf _ _) fun _ => blind_bind (blind_regGetf _ _) fun _ =>
          blind_bind (blind_regGetf _ _) fun _ => blind_bind (blind_regGetf _ _) fun _ => blind_pure _

/-! ### Operations -/

section
variable {s t : State} {i : Instr} {bad : Option Refusal} {l : List HostResult}

/-- An operation that has changed nothing, put back. -/
theorem State.begin_amid (h : s.seq = .idle) : (s.begin i).amid .idle s.results = s := by
  cases s
  cases h
  rfl

/-- An operation whose body, run by itself, ends with a value. -/
theorem accept_blind_ok {body : Op Value} (hb : body.Blind) (hr : (s.amid .idle l).Ready) (hbad : bad = none) {v : Value}
    (h : body s = .ok v t) (hn : t.resets = []) :
    accept i bad body (s.amid .idle l) = .next (t.amid .idle (l ++ [.ok v])) := by
  obtain ⟨q, hq⟩ := hb s (.busy i 0) l
  rw [h] at hq
  exact (accept_good _ hr hbad i body).trans (congrArg _ (runOp_ok _ (t := t.amid q l) hn hq))

/-- An operation whose body, run by itself, raises. -/
theorem accept_blind_err {body : Op Value} (hb : body.Blind) (hr : (s.amid .idle l).Ready) (hbad : bad = none) {e : Err}
    (h : body s = .error (.err e) t) (hn : t.resets = []) :
    accept i bad body (s.amid .idle l) = .next (t.amid .idle (l ++ [.err e])) := by
  obtain ⟨q, hq⟩ := hb s (.busy i 0) l
  rw [h] at hq
  exact (accept_good _ hr hbad i body).trans (congrArg _ (runOp_err _ (t := t.amid q l) hn hq))

/-- What an operation that answers with nothing has done when the reset input is quiet, told by its body run by itself. -/
theorem accept_blind_unit {m : Op Unit} (hb : m.Blind)
    (hq : m.Ends (fun s t => s.resets = [] → t.resets = []) fun s _ => s.resets ≠ []) (hr : (s.amid .idle l).Ready)
    (hn : s.resets = []) (hbad : bad = none) :
    (∃ t, m s = .ok () t ∧ t.resets = [] ∧
      accept i bad (do m; return .none) (s.amid .idle l) = .next (t.amid .idle (l ++ [.ok .none]))) ∨
    (∃ e t, m s = .error (.err e) t ∧ t.resets = [] ∧
      accept i bad (do m; return .none) (s.amid .idle l) = .next (t.amid .idle (l ++ [.err e]))) := by
  have hb' : (do m; return .none : Op Value).Blind := blind_bind hb fun _ => blind_pure _
  have hquiet := hq s
  rcases h : m s with ⟨_, t⟩ | ⟨e | _, t⟩ <;> rw [h] at hquiet
  · exact .inl ⟨t, rfl, hquiet hn, accept_blind_ok hb' hr hbad (by rw [Op.bind_apply, h]; rfl) (hquiet hn)⟩
  · exact .inr ⟨e, t, rfl, hquiet hn, accept_blind_err hb' hr hbad (by rw [Op.bind_apply, h]) (hquiet hn)⟩
  · exact absurd hn hquiet

end

end

end Sys2Proof.Machine
end

section
/-! RDBOTH (spec/45_facade.md R150, R151): LATCH and two RDREGs one after another, and the conversions of what the shadow
holds then. -/

namespace Sys2Proof.Machine

section
variable {s t t1 t2 t3 : State} {d : DevIx} {n iv : Word} {i : Instr}

/-! ### The body -/

/-- The four conversions of the RMS snapshot with the shadow's calibration codes (R151). -/
def State.measurement (s : State) (d : DevIx) : Value :=
  .reals (vconv s.cfg.numerics (s.rmsSnapshot d).1 (s.calCodes d).1)
    (iconv s.cfg.numerics (s.rmsSnapshot d).2.1 (s.calCodes d).2.1)
    (vconv s.cfg.numerics (s.rmsSnapshot d).2.2.1 (s.calCodes d).2.2.1)
    (iconv s.cfg.numerics (s.rmsSnapshot d).2.2.2 (s.calCodes d).2.2.2)

section
variable (h1 : latch d true true n iv s = .ok () t1) (hc1 : t1.cfg = s.cfg)
include h1 hc1

theorem rdboth_first_err {x : Stop} (h2 : rdreg d s.cfg.rms1.reg t1 = .error x t2) : rdboth d n iv s = .error x t2 := by
  rw [← hc1] at h2
  refine (Op.bind_of_ok h1).trans ((Op.bind_of_ok (Op.get_apply t1)).trans ?_)
  rw [Op.bind_apply, h2]

variable (h2 : rdreg d s.cfg.rms1.reg t1 = .ok () t2)
include h2

theorem rdboth_second_err {x : Stop} (h3 : rdreg d s.cfg.rms2.reg t2 = .error x t3) : rdboth d n iv s = .error x t3 := by
  rw [← hc1] at h2 h3
  refine (Op.bind_of_ok h1).trans ((Op.bind_of_ok (Op.get_apply t1)).trans ((Op.bind_of_ok h2).trans ?_))
  rw [Op.bind_apply, h3]

theorem rdboth_good (ha : s.cfg.admitted = true) (h3 : rdreg d s.cfg.rms2.reg t2 = .ok () t3) (hc3 : t3.cfg = s.cfg) :
    rdboth d n iv s = .ok (t3.measurement d) t3 := by
  have hc : t3.cfg = t1.cfg := hc3.trans hc1.symm
  rw [← hc3] at ha
  obtain ⟨hf1, hf2, hf3, hf4⟩ := Config.rms_fields ha
  rw [← hc1] at h2 h3
  have hget {r : RegName} {f : FldName} {w : Nat} (hf : t3.cfg.hasField .data r f w = true) :
      regGetf d r f t3 = .ok (t3.getCell d r f) t3 := by
    obtain ⟨x, hx⟩ := Option.isSome_iff_exists.1 (Config.hasField_isSome hf)
    exact regGetf_known hx
  refine (Op.bind_of_ok h1).trans ((Op.bind_of_ok (Op.get_apply t1)).trans ((Op.bind_of_ok h2).trans
    ((Op.bind_of_ok h3).trans ((Op.bind_of_ok (Op.get_apply t3)).trans ?_))))
  rw [← hc]
  exact (Op.bind_of_ok (hget hf1)).trans ((Op.bind_of_ok (hget hf2)).trans ((Op.bind_of_ok (hget hf3)).trans
    (Op.bind_of_ok (hget hf4))))

end

/-! ### The operation -/

section
variable (hr : s.Ready) (hd : s.HasDev d)
include hr hd

theorem exec_rdboth_ok {v : Value} (h : rdboth d n iv (s.begin i) = .ok v t) (hn : t.resets = []) :
    exec (.rdboth d n iv) s = .next (t.amid .idle (s.results ++ [.ok v])) := by
  have hexec := accept_blind_ok (i := .rdboth d n iv) (l := s.results) (blind_rdboth n iv)
    ((State.begin_amid hr.1).symm ▸ hr) (badDev_none.2 hd) h hn
  rwa [State.begin_amid hr.1] at hexec

theorem exec_rdboth_err {e : Err} (h : rdboth d n iv (s.begin i) = .error (.err e) t) (hn : t.resets = []) :
    exec (.rdboth d n iv) s = .next (t.amid .idle (s.results ++ [.err e])) := by
  have hexec := accept_blind_err (i := .rdboth d n iv) (l := s.results) (blind_rdboth n iv)
    ((State.begin_amid hr.1).symm ▸ hr) (badDev_none.2 hd) h hn
  rwa [State.begin_amid hr.1] at hexec

/-- LATCH, told by its body. -/
theorem exec_latch_cases (hn : s.NoReset) :
    (∃ t, latch d true true n iv (s.begin i) = .ok () t ∧ t.resets = [] ∧
      exec (.latch d true true n iv) s = .next (t.amid .idle (s.results ++ [.ok .none]))) ∨
    (∃ e t, latch d true true n iv (s.begin i) = .error (.err e) t ∧ t.resets = [] ∧
      exec (.latch d true true n iv) s = .next (t.amid .idle (s.results ++ [.err e]))) := by
  have hcases := accept_blind_unit (i := .latch d true true n iv) (s := s.begin i) (l := s.results)
    (blind_latch true true n iv) (ends_latch (shake_quiet d) true true n iv) ((State.begin_amid hr.1).symm ▸ hr) hn
    (badDev_none.2 hd)
  rwa [State.begin_amid hr.1] at hcases

/-- RDREG after it, told by its body. -/
theorem exec_rdreg_cases (hc : t.cfg = s.cfg) (hn : t.resets = []) {r : RegName} (hreg : s.cfg.hasReg r = true)
    (l : List HostResult) :
    (∃ u, rdreg d r t = .ok () u ∧ u.resets = [] ∧ u.cfg = s.cfg ∧
      exec (.rdreg d r) (t.amid .idle l) = .next (u.amid .idle (l ++ [.ok .none]))) ∨
    (∃ e u, rdreg d r t = .error (.err e) u ∧ u.resets = [] ∧
      exec (.rdreg d r) (t.amid .idle l) = .next (u.amid .idle (l ++ [.err e]))) := by
  have hready : (t.amid .idle l).Ready := ⟨rfl, hc ▸ hr.2⟩
  have hgood : (t.amid .idle l).badReg d r = none := badReg_none.2 (by
    unfold State.HasDev
    rw [show (t.amid .idle l).cfg = s.cfg from hc]
    exact ⟨hd, hreg⟩)
  rcases accept_blind_unit (i := .rdreg d r) (blind_rdreg r) (ends_rdreg (shake_quiet d).toLink r) hready hn hgood with
    ⟨u, hbody, hquiet, hexec⟩ | h
  · exact .inl ⟨u, hbody, hquiet, (exec_cfg (i := .rdreg d r) (s := t.amid .idle l) hexec).trans hc, hexec⟩
  · exact .inr h

end

/-- Of two results given by the same operation there is one. -/
theorem State.amid_result {q : Seq} {l : List HostResult} {a b : HostResult}
    (h : (t.amid q (l ++ [a])).results = l ++ [b]) : a = b :=
  List.singleton_inj.1 (List.append_cancel_left h)

end

/-- Settles O43: the bodies of the three operations do inside RDBOTH what they do one after another. -/
theorem rdbothComposesItsParts : Obligations.RdbothComposesItsParts := by
  intro d n iv s s1 hr hn hlatch
  have hd : s.HasDev d := badDev_none.1 (accept_next s hlatch).2.1
  obtain ⟨hf1, -, hf2, -⟩ := Config.rms_fields hr.2
  have hcfg := exec_cfg hlatch
  rcases exec_latch_cases (i := .rdboth d n iv) (n := n) (iv := iv) hr hd hn with
    ⟨t1, h1, hn1, he1⟩ | ⟨e, t1, h1, hn1, he1⟩ <;> cases hlatch.symm.trans he1
  case inr =>
    refine ⟨fun e' he => ?_, fun hok => nomatch State.amid_result hok⟩
    cases State.amid_result he
    exact exec_rdboth_err hr hd (by rw [rdboth, Op.bind_apply, h1]) hn1
  have hc1 : t1.cfg = s.cfg := hcfg
  refine ⟨fun e he => (nomatch State.amid_result he), fun _ => ?_⟩
  rcases exec_rdreg_cases hr hd hc1 hn1 (Config.hasField_hasReg hf1) (s.results ++ [.ok .none]) with
    ⟨t2, h2, hn2, hc2, he2⟩ | ⟨e, t2, h2, hn2, he2⟩
  case inr =>
    refine ⟨_, he2, fun e' he => ?_, fun hok => nomatch State.amid_result hok⟩
    cases State.amid_result he
    exact exec_rdboth_err (t := t2) hr hd (rdboth_first_err h1 hc1 h2) hn2
  refine ⟨_, he2, fun e he => (nomatch State.amid_result he), fun _ => ?_⟩
  rcases exec_rdreg_cases hr hd hc2 hn2 (Config.hasField_hasReg hf2) (s.results ++ [.ok .none] ++ [.ok .none]) with
    ⟨t3, h3, hn3, hc3, he3⟩ | ⟨e, t3, h3, hn3, he3⟩
  case inr =>
    refine ⟨_, he3, fun e' he => ?_, fun hok => nomatch State.amid_result hok⟩
    cases State.amid_result he
    exact exec_rdboth_err (t := t3) hr hd (rdboth_second_err h1 hc1 h2 h3) hn3
  refine ⟨_, he3, fun e he => (nomatch State.amid_result he), fun _ => ?_⟩
  have hexec := exec_rdboth_ok hr hd (rdboth_good h1 hc1 h2 hr.2 h3 hc3) hn3
  rw [State.measurement, hc3] at hexec
  exact hexec

end Sys2Proof.Machine
end

section
/-! RDBOTH on a device whose first poll is clear (spec/45_facade.md R151): what LATCH leaves of the shadow, and what the two
reads after it find there. -/

namespace Sys2Proof.Machine

/-- A control register is not a data register. -/
theorem Config.control_ne_data {c : Config} {r r' : RegName} {f f' : FldName} {w w' : Nat}
    (h : c.hasField .control r f w = true) (h' : c.hasField .data r' f' w' = true) : r ≠ r' := by
  rintro rfl
  simp only [Config.hasField, Bool.and_eq_true] at h h'
  obtain ⟨hc, -⟩ := h
  obtain ⟨hd, -⟩ := h'
  cases hr : c.reg? r <;> simp_all

section
variable {s t u : State} {d : DevIx} {n iv : Word}

/-- LATCH that ends at its first poll, told by its body. -/
theorem latch_first_clear (hs : Site s d) (hn : n ≠ 0) (hc : s.noCancel 1) {r1 r2 p : List Byte} {rest : List (List Byte)}
    (hp : s.replies = r1 :: r2 :: p :: rest) (hgood : replyError (s.flen d) p = none)
    (hclear : s.cfg.showsLatch true true p = false) :
    ∃ t evs, latch d true true n iv (s.begin (.latch d true true n iv)) = .ok () t ∧ Site t d ∧ t.cfg = s.cfg ∧
      t.flen d = s.flen d ∧ (t.dev d).latch = .latched ∧ t.trace = s.trace ++ evs ∧
      framesSent evs =
        (s.withLatchBits d true true).writeFrames d s.cfg.latchReg ++ [s.readFrame d s.cfg.latchReg] ∧
      (∀ r, r ≠ s.cfg.latchReg → t.cells d r = s.cells d r) ∧ t.replies = rest := by
  obtain ⟨t, evs, h, hct, hrep, hloop⟩ :=
    pollLoop_latchBegin (c1 := true) (c2 := true) (n := n) (iv := iv) (polls := []) (k := 1) hs hc hp (Nat.zero_le _)
      (by simp)
  obtain ⟨m, hm⟩ : ∃ m, n.toNat = m + 1 := Nat.exists_eq_succ_of_ne_zero fun e => hn (BitVec.eq_of_toNat_eq e)
  obtain ⟨v, a, hv, hrest, -, hend⟩ := h.clear_poll (iv := iv) (m := m) hct hrep hgood hclear
  rw [List.length_nil, Nat.sub_zero, hm, hend, ← hm] at hloop
  have hown (r : RegName) : (v.setLatch d .latched).cells d r = v.cells d r :=
    State.cells_modDev (g := fun x => { x with latch := .latched }) fun _ => rfl
  have hsite := hv.site
  exact ⟨_, _, (latch_start (hs.begin _) true true n iv).trans hloop,
    ⟨hsite.quiet, hsite.shaped.modDev fun _ hx => hx, hsite.dev, hsite.reg, hsite.apart, hsite.field1, hsite.field2⟩,
    hv.cfg, (State.flen_of_cells (s := v) (t := v.setLatch d .latched) rfl (hown _)).1.trans hv.flen,
    State.setLatch_latch (hsite.shaped.lt hsite.dev) _, hv.trace, hv.frames, fun r hr => (hown r).trans (hv.cells r hr),
    hrest⟩

/-- Two registers, the first not `UART_REG`, read one after another and both answered well. -/
theorem rdreg_two (hn : s.resets = []) (ha : s.cfg.admitted = true) (hs : s.Shaped) (hd : s.HasDev d) {a b : RegName}
    (hra : s.cfg.hasReg a = true) (hrb : s.cfg.hasReg b = true) (hua : a ≠ s.cfg.uartReg) {p q : List Byte}
    {rest : List (List Byte)} (hp : s.replies = p :: q :: rest) (hgp : replyError (s.flen d) p = none)
    (hgq : replyError (s.flen d) q = none) :
    ∃ t u evs, rdreg d a s = .ok () t ∧ rdreg d b t = .ok () u ∧ ReadBack d [(a, p), (b, q)] evs s u ∧
      framesSent evs = [s.readFrame d a, s.readFrame d b] ∧ u.replies = rest := by
  obtain ⟨evs, h1, hrest1⟩ := State.afterRead_readBack hn ha hs hd hra hp
  have hgood := rdreg_good (d := d) (r := a) hn hp hgp
  generalize s.afterRead d a p = t at *
  have hc := h1.cfg
  have hkept : s.cfg.lengthAfter (s.flen d) [(a, p)] = s.flen d := if_neg hua
  have hlen : t.flen d = s.flen d := h1.flen.trans hkept
  obtain ⟨evs', h2, hrest2⟩ := State.afterRead_readBack (s := t) (d := d) (r := b) h1.resets (hc ▸ ha) h1.shaped
    (by unfold State.HasDev; rw [hc]; exact hd) (hc ▸ hrb) hrest1
  have h := h1.trans h2
  refine ⟨t, _, _, hgood, rdreg_good h1.resets hrest1 (hlen ▸ hgq), h, h.frames.trans ?_, hrest2⟩
  rw [Config.readFrames_append, hkept]
  rfl

/-- The measurement after the RMS registers were read and the calibration cells kept. -/
theorem State.measurement_of_reads (hc : t.cfg = s.cfg) {w1 w2 : Word}
    (h1 : t.cells d s.cfg.rms1.reg = decodeCells (s.cfg.fieldsOf s.cfg.rms1.reg) w1)
    (h2 : t.cells d s.cfg.rms2.reg = decodeCells (s.cfg.fieldsOf s.cfg.rms2.reg) w2)
    (hcal : ∀ r ∈ Config.calRegs s.cfg, t.cells d r = s.cells d r) {fv1 fi1 fv2 fi2 : FieldDesc}
    (hv1 : s.cfg.field? s.cfg.rms1.reg s.cfg.rms1.vFld = some fv1)
    (hi1 : s.cfg.field? s.cfg.rms1.reg s.cfg.rms1.iFld = some fi1)
    (hv2 : s.cfg.field? s.cfg.rms2.reg s.cfg.rms2.vFld = some fv2)
    (hi2 : s.cfg.field? s.cfg.rms2.reg s.cfg.rms2.iFld = some fi2) :
    t.measurement d = .reals (vconv s.cfg.numerics (bfDecode fv1.bits w1) (s.calCode d s.cfg.calV1))
      (iconv s.cfg.numerics (bfDecode fi1.bits w1) (s.calCode d s.cfg.calI1))
      (vconv s.cfg.numerics (bfDecode fv2.bits w2) (s.calCode d s.cfg.calV2))
      (iconv s.cfg.numerics (bfDecode fi2.bits w2) (s.calCode d s.cfg.calI2)) := by
  simp only [Config.calRegs, List.forall_mem_cons] at hcal
  obtain ⟨hk1, hk2, hk3, hk4, -⟩ := hcal
  simp only [State.measurement, State.rmsSnapshot, State.calCodes, State.calCode, hc,
    State.getCell_of_decoded hc h1 hv1, State.getCell_of_decoded hc h1 hi1, State.getCell_of_decoded hc h2 hv2,
    State.getCell_of_decoded hc h2 hi2, State.getCell_of_cells hc hk1, State.getCell_of_cells hc hk2,
    State.getCell_of_cells hc hk3, State.getCell_of_cells hc hk4]

end

/-- Settles O44: LATCH ends at its first poll with every cell but those of `LATCH_REG` kept, and the two reads replace the
cells of the RMS registers alone. -/
theorem rdbothReturnsMeasurement : Obligations.RdbothReturnsMeasurement := by
  intro d n iv s r1 r2 p q1 q2 rest hr hs hn hd hu hcancel hn0 hrms hp hgp hclear hg1 hg2 hcal fv1 fi1 fv2 fi2 hv1 hi1 hv2
    hi2 w1 w2
  obtain ⟨t1, evs, hlatch, hsite, hc1, hlen, hlatched, htr, hframes, hcells, hrest⟩ :=
    latch_first_clear (iv := iv) (Site.of_ready hr hs hn hd hu) hn0 hcancel hp hgp hclear
  obtain ⟨hd1, -, hd2, -⟩ := Config.rms_fields hr.2
  obtain ⟨t2, t3, evs', hread1, hread2, h, hframes', hrest'⟩ := rdreg_two (a := s.cfg.rms1.reg) (b := s.cfg.rms2.reg)
    hsite.quiet (hc1 ▸ hr.2) hsite.shaped hsite.dev (by rw [hc1]; exact Config.hasField_hasReg hd1)
    (by rw [hc1]; exact Config.hasField_hasReg hd2)
    (by rw [hc1]; exact (Config.control_ne_data (Config.uart_field hr.2) hd1).symm) hrest (hlen ▸ hg1) (hlen ▸ hg2)
  have hc3 : t3.cfg = s.cfg := h.cfg.trans hc1
  have hread (x) (hx : x ∈ [(s.cfg.rms1.reg, q1), (s.cfg.rms2.reg, q2)]) := h.read x hx (by simpa using hrms)
  rw [hc1] at hread
  have hkept : ∀ r ∈ Config.calRegs s.cfg, t3.cells d r = s.cells d r := by
    obtain ⟨hk1, hk2, hk3, hk4⟩ := Config.cal_fields hr.2
    have hdata : ∀ r ∈ Config.calRegs s.cfg, r ≠ s.cfg.rms1.reg ∧ r ≠ s.cfg.rms2.reg := by
      simp only [Config.calRegs, List.forall_mem_cons]
      exact ⟨⟨Config.control_ne_data hk1 hd1, Config.control_ne_data hk1 hd2⟩,
        ⟨Config.control_ne_data hk2 hd1, Config.control_ne_data hk2 hd2⟩,
        ⟨Config.control_ne_data hk3 hd1, Config.control_ne_data hk3 hd2⟩,
        ⟨Config.control_ne_data hk4 hd1, Config.control_ne_data hk4 hd2⟩, by simp⟩
    intro r hm
    obtain ⟨hne1, hne2⟩ := hdata r hm
    exact (h.cells r (by simp [hne1, hne2])).trans (hcells r fun e => hcal (e ▸ hm))
  have hexec := exec_rdboth_ok hr hd (rdboth_good hlatch hc1 hread1 hr.2 hread2 hc3) h.resets
  rw [State.measurement_of_reads hc3 (hread _ (.head _)) (hread _ (.tail _ (.head _))) hkept hv1 hi1 hv2 hi2] at hexec
  refine ⟨_, evs ++ evs', hexec, ?_, hrest', ?_, h.latch.trans hlatched, rfl⟩
  · exact h.trace.trans (by rw [htr, List.append_assoc])
  · rw [framesSent_append, hframes, hframes', List.append_assoc]
    simp only [State.readFrame, hlen, hc1]
    rfl

end Sys2Proof.Machine
end

section
/-! One result for each operation (spec/10_state.md R20, spec/60_exceptions.md R160, R175), the devices apart (R186), and the
operations each error comes from (R160). -/

namespace Sys2Proof.Machine

/-! ### Taking an error -/

/-- Settles O60: with reset not due, an operation whose body raises ends by taking the error, one moment having passed. -/
theorem takingAnErrorKeepsCells : Obligations.TakingAnErrorKeepsCells := by
  intro i body e s t hbody hr hreset
  have hrun : body (s.begin i) = .error (.err e) t := hbody
  have hsettle : t.settle (fun u => u.takeError e) = t.pass.takeError e := by simp [State.settle, hreset]
  refine (accept_ready s hr i body).trans (congrArg _ ?_)
  rw [runOp_eq, hrun]
  exact hsettle

/-! ### Results -/

/-- The two states have the same results given. -/
def SameResults (s t : State) : Prop := t.results = s.results

theorem updates_sameResults (d : DevIx) : Updates SameResults d where
  refl _ := rfl
  trans _ _ _ h1 h2 := h2.trans h1
  event _ _ := rfl
  inputs _ _ _ _ := rfl
  line _ _ := rfl

theorem shake_sameResults (d : DevIx) : Shake SameResults SameResults d where
  toLink := (updates_sameResults d).link (fun _ _ _ => rfl) (fun _ => rfl)
  cell _ _ _ _ := rfl
  latch _ _ := rfl
  count _ _ := rfl

theorem holds_sameResults (i : Instr) : Holds SameResults SameResults i where
  refl _ := rfl
  trans _ _ _ h1 h2 := h2.trans h1
  cut _ _ _ h1 h2 := h2.trans h1
  store d _ := (shake_sameResults d).toStore
  shake d _ _ := shake_sameResults d
  intend _ _ _ _ := rfl

/-- Settles O29: no body gives a result itself, and the operation ends by giving one. -/
theorem oneResultPerOperation : Obligations.OneResultPerOperation := by
  intro i s t hn he
  obtain ⟨u, r, hu, rfl⟩ := exec_quietly (holds_sameResults i) hn he
  have hsame : u.results = s.results := hu
  exact ⟨rfl, r, congrArg (· ++ [r]) hsame⟩

/-! ### Devices -/

/-- The context of device `d` is the same in the two states. -/
def SameDev (d : DevIx) (s t : State) : Prop := t.dev d = s.dev d

section
variable {d d' : DevIx}

theorem SameDev.trans (s t u : State) (h1 : SameDev d s t) (h2 : SameDev d t u) : SameDev d s u := Eq.trans h2 h1

/-- What is done to one device leaves another's context. -/
theorem sameDev_modDev (h : d' ≠ d) (s : State) (g : Dev → Dev) : SameDev d' s (s.modDev d g) :=
  s.dev_modDev_other d d' g h

theorem updates_sameDev (h : d' ≠ d) : Updates (SameDev d') d where
  refl _ := rfl
  trans := .trans
  event _ _ := rfl
  inputs _ _ _ _ := rfl
  line s _ := sameDev_modDev h s _

theorem shake_sameDev (h : d' ≠ d) : Shake (SameDev d') (SameDev d') d where
  toLink := (updates_sameDev h).link (fun s _ _ => sameDev_modDev h s _) (fun s => sameDev_modDev h s _)
  cell s _ _ _ := sameDev_modDev h s _
  latch s _ := sameDev_modDev h s _
  count _ _ := rfl

theorem holds_sameDev {i : Instr} (hi : i.dev? ≠ some d') : Holds (SameDev d') (SameDev d') i :=
  have apart {d : DevIx} (hd : i.dev? = some d) : d' ≠ d := fun e => hi (e ▸ hd)
  { refl _ := rfl
    trans := .trans
    cut := .trans
    store _ hd := (shake_sameDev (apart hd)).toStore
    shake _ hd _ := shake_sameDev (apart hd)
    intend d b hi s :=
      have hne : d' ≠ d := apart (congrArg Instr.dev? hi)
      .trans s (s.setIntended d b) _ (sameDev_modDev hne s _) (sameDev_modDev hne _ _) }

end

/-- Settles O25: all that an operation does to a context it does to that of its own device. -/
theorem devicesAreIsolated : Obligations.DevicesAreIsolated := by
  intro i s t hn he d' hi
  obtain ⟨u, r, hu, rfl⟩ := exec_quietly (holds_sameDev hi) hn he
  exact hu

/-! ### Errors -/

/-- The errors the operation can end with (R160, column "raised by"). -/
def Instr.raises (i : Instr) : Err → Bool
  | .shortReply => Instr.checks i
  | .crcMismatch => Instr.checks i
  | .latchTimeout => Instr.latches i
  | .unknownField => Instr.names i
  | .notARegister => false
  | .cancelled => Instr.latches i

section
variable {i : Instr}

theorem names_cases (h : Instr.names i = true) : (∃ d r f v, i = .regSetf d r f v) ∨ (∃ d r f, i = .regGetf d r f) := by
  unfold Instr.names at h
  split at h
  · exact .inl ⟨_, _, _, _, rfl⟩
  · exact .inr ⟨_, _, _, rfl⟩
  · cases h

theorem latches_cases (h : Instr.latches i = true) :
    (∃ d c1 c2 n iv, i = .latch d c1 c2 n iv) ∨ (∃ d n iv, i = .rdboth d n iv) := by
  unfold Instr.latches at h
  split at h
  · exact .inl ⟨_, _, _, _, _, rfl⟩
  · exact .inr ⟨_, _, _, rfl⟩
  · cases h

theorem checks_of_latches (h : Instr.latches i = true) : Instr.checks i = true := by
  obtain ⟨d, c1, c2, n, iv, rfl⟩ | ⟨d, n, iv, rfl⟩ := latches_cases h <;> rfl

theorem checks_cases (h : Instr.checks i = true) :
    (∃ d r, i = .rdreg d r) ∨ (∃ d c1 c2 n iv, i = .latch d c1 c2 n iv) ∨ (∃ d n iv, i = .rdboth d n iv) ∨
      (∃ d, i = .cfgapply d) ∨ (∃ d, i = .cfgread d) ∨ (∃ d a, i = .cmdRd4 d a) ∨ (∃ d a c, i = .cmdRd5 d a c) ∨
      (∃ d r b0 b1 b2 b3, i = .rpl4 d r b0 b1 b2 b3) ∨ (∃ d r b0 b1 b2 b3 k, i = .rpl5 d r b0 b1 b2 b3 k) := by
  unfold Instr.checks at h
  split at h <;> simp at h ⊢

/-- Every operation raises only what its parts raise. -/
theorem speaks_raises (c : Config) (i : Instr) : Speaks c Framed (fun e => Instr.raises i e = true) i where
  nil := rfl
  append := disciplined_append
  grammar d _ := grammar_framed c d
  checks h := ⟨h, h⟩
  waits h := ⟨⟨checks_of_latches h, checks_of_latches h⟩, h, h⟩
  names h := h

end

/-- Settles O30: the error an operation ends with is one its parts raise, by `exec_traces`. -/
theorem errorsComeFromTheirOperations : Obligations.ErrorsComeFromTheirOperations := by
  refine ⟨fun i s t e hn he ht => ?_, rfl, rfl, rfl, rfl, rfl, rfl, rfl⟩
  have h : Instr.raises i e = true := (exec_traces (speaks_raises s.cfg i) hn he).2 e ht
  cases e with
  | unknownField => exact names_cases h
  | latchTimeout => exact latches_cases h
  | cancelled => exact latches_cases h
  | notARegister => cases h
  | shortReply => exact checks_cases h
  | crcMismatch => exact checks_cases h

end Sys2Proof.Machine
end

section
/-! Requests that cannot be formed (spec/60_exceptions.md R166): bytes that decode to nothing, and operations refused for the
state they meet or for what they name. -/

namespace Sys2Proof

/-- A selector that R70 does not list. -/
theorem decodeOperands_unlisted {sel : Byte} (bs : List Byte)
    (h : sel ∉ [0x10, 0x11, 0x20, 0x21, 0x22, 0x23, 0x24, 0x30, 0x31, 0x32, 0x40, 0x41, 0x42, 0x43, 0x44, 0x50, 0x51,
      0x52, 0x53, 0x54, 0x60, 0x61, 0x62]) :
    decodeOperands sel bs = .error (.unknownSelector sel) := by
  unfold decodeOperands
  split
  case h_24 => rfl
  all_goals
    rename_i hsel
    obtain rfl := eq_ofNat_of_toNat hsel
    exact absurd (by decide) h

/-- On the host port bytes are what follows their selector, which is not XFER's. -/
theorem decode_host_error {sel : Byte} {bs : List Byte} {e : DecodeError} (hs : sel ≠ selXfer)
    (h : decodeOperands sel bs = .error e) : decode ⟨.host, sel :: bs⟩ = .error e := by
  simp only [decode, List.head?_cons, Option.some.injEq, if_neg hs, decodeWhole, decodeHost, h]

end Sys2Proof

namespace Sys2Proof.Machine

section
variable {s : State} {d : DevIx} {r : RegName} {f : FldName} {a : Byte}

/-- A request whose bytes are no operation. -/
theorem step_undecodable {q : Request} {rest : List Request} {e : DecodeError} (hr : s.resetNow = false)
    (hp : s.port = q :: rest) (hd : decode q = .error e) : step s = .refused (.undecodable e) := by
  simp [step, hr, hp, hd]

/-! ### The state of the block -/

theorem accept_busy (h : s.seq ≠ .idle) (i : Instr) (bad : Option Refusal) (body : Op Value) :
    accept i bad body s = .refused .busy := if_pos h

theorem accept_badCatalog (hi : s.seq = .idle) (hc : s.cfg.admitted = false) (i : Instr) (bad : Option Refusal)
    (body : Op Value) : accept i bad body s = .refused .badCatalog :=
  (if_neg (not_not.2 hi)).trans (if_pos hc)

/-- Every operation is one that the block accepts or refuses. -/
theorem exec_eq_accept (i : Instr) (s : State) : ∃ bad body, exec i s = accept i bad body s := by
  obtain ⟨bad, body, h, -⟩ := exec_counts i s
  exact ⟨bad, body, h s.resets⟩

/-! ### The device -/

section
variable (h : ¬ s.HasDev d)
include h

theorem badDev_noDevice : s.badDev d = some .noDevice := if_neg h

theorem badReg_noDevice : s.badReg d r = some .noDevice := by rw [State.badReg, badDev_noDevice h, Option.some_or]

theorem badCtrl_noDevice : s.badCtrl d r = some .noDevice := by rw [State.badCtrl, badReg_noDevice h, Option.some_or]

theorem badSetf_noDevice {v : Word} : s.badSetf d r f v = some .noDevice := by
  rw [State.badSetf, badReg_noDevice h, Option.some_or]

theorem badFrame_noDevice {cmd : List Byte} {n : Nat} : s.badFrame d cmd n = some .noDevice := by
  rw [State.badFrame, badDev_noDevice h, Option.some_or]

/-- Every operation that acts on a device looks for it before anything else its operands name. -/
theorem exec_noDevice {i : Instr} (hr : s.Ready) (hi : i.dev? = some d) : exec i s = .refused .noDevice := by
  cases i <;> cases hi
  case latch | crcintend | calset | rdboth | cfgapply | cfgread => exact accept_bad s hr (badDev_noDevice h) _ _
  case regDecode | regEncode | regWire | regGetf | rdreg | rpl4 | rpl5 =>
    exact accept_bad s hr (badReg_noDevice h) _ _
  case regSetf => exact accept_bad s hr (badSetf_noDevice h) _ _
  case wrreg => exact accept_bad s hr (badCtrl_noDevice h) _ _
  case xfer | cmdRd4 | cmdRd5 | cmdWr4 | cmdWr5 => exact accept_bad s hr (badFrame_noDevice h) _ _

end

/-! ### The register -/

theorem badReg_noRegister (hd : s.HasDev d) (h : s.cfg.hasReg r = false) : s.badReg d r = some .noRegister := by
  rw [State.badReg, badDev_none.2 hd, h]
  rfl

theorem badSetf_noRegister (hd : s.HasDev d) (h : s.cfg.hasReg r = false) (v : Word) :
    s.badSetf d r f v = some .noRegister := by
  rw [State.badSetf, badReg_noRegister hd h, Option.some_or]

theorem badCtrl_noRegister (hd : s.HasDev d) (h : s.cfg.hasReg r = false) : s.badCtrl d r = some .noRegister := by
  rw [State.badCtrl, badReg_noRegister hd h, Option.some_or]

theorem badCtrl_dataBank (hd : s.HasDev d) (hreg : s.cfg.hasReg r = true) (h : s.cfg.isControl r = false) :
    s.badCtrl d r = some .dataBank := by
  rw [State.badCtrl, badReg_none.2 ⟨hd, hreg⟩, h]
  rfl

/-! ### The address -/

theorem badReadAddr_raw (h : ∀ x ∈ s.cfg.catalog, x.address ≠ a) : s.badReadAddr a = some .rawAddress := by
  have hnone : readTarget s.cfg a = none := List.find?_eq_none.2 fun x hx => by simpa using h x hx
  rw [State.badReadAddr, hnone]
  rfl

theorem badWriteAddr_raw (hlow : ∀ x ∈ s.cfg.catalog, x.address ≠ a) (hhigh : ∀ x ∈ s.cfg.catalog, x.address + 1 ≠ a) :
    s.badWriteAddr a = some .rawAddress := by
  have hnone : writeTarget s.cfg a = none :=
    List.find?_eq_none.2 fun x hx => by simpa using ⟨hlow x hx, hhigh x hx⟩
  rw [State.badWriteAddr, hnone]

/-- The read frame of either length for an address of no register, whatever the count of reply bytes. -/
theorem badFrame_rawRead (hd : s.HasDev d) (ha : a.toNat ≤ 0xFD) (h : ∀ x ∈ s.cfg.catalog, x.address ≠ a) {k : Nat}
    (hk : k = 4 ∨ k = 5) (n : Nat) : s.badFrame d (frame k (readBody a)) n = some .rawAddress := by
  have hb : bodyOk a sentinel sentinel sentinel = true := by simpa [bodyOk, sentinel, readAddressOk] using ha
  obtain ⟨hc, -, h0, h1⟩ := commandOk_of_body hb hk
  refine badFrame_address (cmd := frame k [a, sentinel, sentinel, sentinel]) hd hc ?_
  rw [h0, h1, if_pos rfl, badReadAddr_raw h]

/-- The write frame of either length for an address of no half of a register, whatever the count of reply bytes. -/
theorem badFrame_rawWrite (hd : s.HasDev d) (ha : a.toNat ≤ 0xFE) (hlow : ∀ x ∈ s.cfg.catalog, x.address ≠ a)
    (hhigh : ∀ x ∈ s.cfg.catalog, x.address + 1 ≠ a) (l m : Byte) {k : Nat} (hk : k = 4 ∨ k = 5) (n : Nat) :
    s.badFrame d (frame k (writeBody a l m)) n = some .rawAddress := by
  have hne := ne_sentinel ha
  have hb : bodyOk a a l m = true := by simpa [bodyOk_of_ne hne, writeAddressOk] using ha
  obtain ⟨hc, -, h0, h1⟩ := commandOk_of_body hb hk
  refine badFrame_address (cmd := frame k [a, a, l, m]) hd hc ?_
  rw [h1, if_neg hne, badWriteAddr_raw hlow hhigh]

end

/-- Settles O31: bytes are refused for their selector, and an operation for the first thing that is wrong, in the order of
`accept` and of the check of its operands. -/
theorem unformableRequestsAreRefused : Obligations.UnformableRequestsAreRefused := by
  refine ⟨fun s sel bytes rest hr hp => ⟨?_, fun h => ?_⟩, fun i s h => ?_, fun i s hi hc => ?_,
    fun i s d hr hi hd => exec_noDevice hd hr hi, fun s d r hr hd h => ?_,
    fun s d r hr hd hreg h => accept_bad s hr (badCtrl_dataBank hd hreg h) _ _, fun s d a l m hr hd h => ?_⟩
  · rintro rfl
    exact step_undecodable hr hp rfl
  · have hs : sel ≠ selXfer := fun e => h (by rw [e]; decide)
    exact step_undecodable hr hp (decode_host_error hs (decodeOperands_unlisted bytes h))
  · obtain ⟨bad, body, hexec⟩ := exec_eq_accept i s
    exact hexec.trans (accept_busy h i bad body)
  · obtain ⟨bad, body, hexec⟩ := exec_eq_accept i s
    exact hexec.trans (accept_badCatalog hi hc i bad body)
  · have hreg := badReg_noRegister hd h
    exact ⟨fun _ => accept_bad s hr hreg _ _, accept_bad s hr hreg _ _, accept_bad s hr hreg _ _,
      fun _ v => accept_bad s hr (badSetf_noRegister hd h v) _ _, fun _ => accept_bad s hr hreg _ _,
      accept_bad s hr hreg _ _, accept_bad s hr (badCtrl_noRegister hd h) _ _,
      fun _ _ _ _ => accept_bad s hr hreg _ _, fun _ _ _ _ _ => accept_bad s hr hreg _ _⟩
  · intro read write
    refine ⟨fun ha => ?_, fun ha hhigh => ?_⟩
    · have h4 := badFrame_rawRead hd ha h (.inl rfl)
      have h5 := badFrame_rawRead hd ha h (.inr rfl)
      exact ⟨accept_bad s hr (h4 4) _ _, accept_bad s hr (h5 5) _ _, fun n => accept_bad s hr (h4 n) _ _⟩
    · have h4 := badFrame_rawWrite hd ha h hhigh l m (.inl rfl)
      have h5 := badFrame_rawWrite hd ha h hhigh l m (.inr rfl)
      exact ⟨accept_bad s hr (h4 4) _ _, accept_bad s hr (h5 5) _ _, fun n => accept_bad s hr (h4 n) _ _⟩

end Sys2Proof.Machine
end

section
/-! LATCH that ends before its budget does (spec/43_transport.md R119, spec/60_exceptions.md R161, R162, R167): by a high sample
of the cancel input, or by a poll reply that does not pass its checks. -/

namespace Sys2Proof.Machine

section
variable {s t : State} {d : DevIx} {c1 c2 : Bool} {n iv : Word} {k : Nat}

/-! ### A cancel -/

/-- The request and the polls that show a requested bit, each with a low sample of the cancel input, and then a high one. -/
theorem pollLoop_cancelled (hs : Site s d) (hh : s.cfg.hasCancel = true) {r1 r2 : List Byte}
    {polls more : List (List Byte)} {samples : List Bool} (hp : s.replies = r1 :: r2 :: (polls ++ more))
    (hl : polls.length < n.toNat) (hc : s.cancels = List.replicate polls.length false ++ true :: samples)
    (hshow : ∀ p ∈ polls, replyError (s.flen d) p = none ∧ s.cfg.showsLatch c1 c2 p = true) :
    ∃ t evs naps, Handshaken s d c1 c2 polls.length evs naps t ∧ t.replies = more ∧
      pollLoop d c1 c2 iv n.toNat (s.latchBegin d c1 c2 n iv) =
        .error (.err .cancelled) ({ t with cancels := samples }.setLatch d .idle) := by
  obtain ⟨evs, hstart, hcan, hrep, -⟩ := handshaken_latchBegin hs c1 c2 n iv
  have hreplies := hrep _ _ _ hp
  have hcancel : (s.latchBegin d c1 c2 n iv).noCancel (polls.length + 0) := fun _ => ⟨true :: samples, hcan.trans hc⟩
  obtain ⟨t, a, hpolled, -, hloop, hframes, -, hdisc⟩ :=
    pollLoop_run polls _ n.toNat 0 more hstart.site hl.le hcancel hreplies (by rw [hstart.flen, hstart.cfg]; exact hshow)
  have h := hstart.polled hpolled hframes hdisc
  rw [Nat.zero_add] at h
  have hleft : t.cancels = true :: samples :=
    List.append_cancel_left ((hpolled.cancels (hstart.cfg ▸ hh)).symm.trans (hcan.trans hc))
  obtain ⟨m, hm⟩ : ∃ m, n.toNat - polls.length = m + 1 := ⟨n.toNat - polls.length - 1, by omega⟩
  rw [hm, pollLoop_cancel (h.cfg ▸ hh) hleft] at hloop
  exact ⟨t, _, _, h, List.append_cancel_left (hpolled.replies.symm.trans hreplies), hloop⟩

/-! ### A bad reply -/

/-- A poll loop that ends with an error leaves a quiet reset input quiet. -/
theorem pollLoop_error_quiet {e : Err} (hn : s.resets = [])
    (h : pollLoop d c1 c2 iv k s = .error (.err e) t) : t.resets = [] := by
  have hquiet := ends_pollLoop (shake_quiet d) c1 c2 iv k s
  rw [h] at hquiet
  exact hquiet hn

/-! ### No cancel input -/

/-- Where the cancel input does not exist the poll loop does not end with `Cancelled`. -/
theorem tracesAt_pollLoop_noCancel {c : Config} (hc : c.hasCancel = false) (hreg : c.hasReg c.latchReg = true) (k : Nat) :
    ∀ s, (pollLoop d c1 c2 iv k).TracesAt c Framed (fun e => e ≠ .cancelled) s := by
  have G := grammar_framed c d
  induction k with
  | zero =>
    exact fun s => tracesAt_bind G.append (tracesAt_modify G.nil rfl rfl rfl) fun _ _ _ _ => tracesAt_raise G.nil (by decide)
  | succ k ih =>
    intro s hs hr
    have hlow : sampleCancel s = .ok false s := by simp [sampleCancel, hs, hc]
    rw [pollLoop, Op.bind_apply, hlow]
    exact tracesAt_bind G.append (tracesAt_poll G ⟨by decide, by decide⟩ hreg) (fun _ _ _ _ =>
      tracesAt_get_bind fun _ _ =>
        tracesAt_ite (tracesAt_modify G.nil rfl rfl rfl)
          (tracesAt_ite (tracesAt_bind G.append (tracesAt_emit (G.sleep iv)) fun _ t _ _ => ih t) (ih _))) hs hr

/-- The same of LATCH, no reset being to come: of the polls, since the request before them never raises. -/
theorem exec_latch_noCancel (hn : s.NoReset) (hc : s.cfg.hasCancel = false) (he : exec (.latch d c1 c2 n iv) s = .next t) :
    t.results ≠ s.results ++ [HostResult.err .cancelled] := by
  intro ht
  obtain ⟨hr, hgood, -⟩ := accept_next s he
  have ⟨hf1, hf2⟩ := Config.latch_fields hr.2
  have hstart := latch_start_of (s := s.begin (.latch d c1 c2 n iv)) (d := d) hn (Config.hasField_isSome hf1)
    (Config.hasField_isSome hf2) c1 c2 n iv
  obtain ⟨hcfg, hrst, -, -⟩ := (s.begin (.latch d c1 c2 n iv)).latchStart_rest d c1 c2
  have hloop := tracesAt_pollLoop_noCancel (d := d) (c1 := c1) (c2 := c2) (iv := iv) hc (Config.hasField_hasReg hf1)
    n.toNat _ hcfg (hrst.trans hn)
  rcases hend : pollLoop d c1 c2 iv n.toNat ((s.begin (.latch d c1 c2 n iv)).latchStart d c1 c2) with
    ⟨_, u⟩ | ⟨e | _, u⟩ <;> rw [hend] at hloop
  · obtain ⟨-, hquiet, -⟩ := hloop
    cases he.symm.trans (accept_unit_ok hr hgood (hstart.trans hend) hquiet)
    cases (List.append_inj' ht rfl).2
  · obtain ⟨-, hquiet, -, hne⟩ := hloop
    cases he.symm.trans (accept_unit_err hr hgood (hstart.trans hend) hquiet)
    cases (List.append_inj' ht rfl).2
    exact hne rfl
  · exact hloop

/-! ### Whenever reset lands -/

/-- An operation that ends gives its result, or reset lands just before. -/
theorem State.settle_results (s : State) (res : HostResult) :
    (s.settle fun t => t.finish res).results = s.results ∨
      (s.settle fun t => t.finish res).results = s.results ++ [res] := by
  unfold State.settle
  split
  · exact .inl rfl
  · exact .inr rfl

/-- With reset due, a body gives no result, or the one it gives undisturbed. -/
theorem runOp_results_due {i : Instr} {body : Op Value} (hcounts : body.Counts (s.begin i)) (hn : s.resets = [])
    (k : Nat) (rest : List Nat) : (runOp i body (s.due k rest)).results = s.results ∨
      (runOp i body (s.due k rest)).results = (runOp i body s).results := by
  obtain ⟨r, u, evs, hrun, hquiet, -, -, hres, -, hdue⟩ := hcounts hn
  have hsame : u.results = s.results := hres
  have hbegin : (s.due k rest).begin i = (s.begin i).due k rest := rfl
  obtain ⟨hlate, hcut⟩ := hdue rest
  by_cases hk : k < evs.length
  · obtain ⟨v, hv, -, -, hvres, -⟩ := hcut k hk
    rw [runOp_eq (s.due k rest), hbegin, hv]
    exact .inl hvres
  · obtain ⟨j, rfl⟩ : ∃ j, k = evs.length + j := ⟨k - evs.length, by omega⟩
    cases r with
    | ok v =>
      rw [runOp_eq (s.due _ rest), hbegin, hlate, runOp_ok s hquiet hrun, ← hsame]
      exact (u.due j rest).settle_results (.ok v)
    | error e =>
      rw [runOp_eq (s.due _ rest), hbegin, hlate, runOp_err s hquiet hrun, ← hsame]
      exact (u.due j rest).settle_results (.err e)

/-- Whenever reset lands, an operation gives no result, or the one it gives undisturbed. -/
theorem exec_results_due {i : Instr} (he : exec i s = .next t) :
    t.results = s.results ∨ ∃ u, exec i { s with resets := [] } = .next u ∧ t.results = u.results := by
  cases hs : s.resets with
  | nil => exact .inr ⟨t, by rw [← hs]; exact he, rfl⟩
  | cons k rest =>
    obtain ⟨bad, body, hexec, hcounts⟩ := exec_counts i s
    obtain ⟨hr, hb, rfl⟩ := accept_next s ((hexec s.resets).symm.trans he)
    have hquiet := (hexec []).trans (accept_good { s with resets := [] } hr hb i body)
    have hresults := runOp_results_due (hcounts (({ s with resets := [] } : State).begin i)) rfl k rest
    rw [← State.eq_due hs] at hresults
    exact hresults.imp_right fun h => ⟨_, hquiet, h⟩

end

/-- Settles O20: the polls leave some of the budget, and the next round ends with the cancel or with its reply's error; where
there is no cancel input no round raises `Cancelled`. -/
theorem latchEndsEarly : Obligations.LatchEndsEarly := by
  refine ⟨fun d c1 c2 n iv s r1 r2 polls more hr hs hn hd hu hp hl hshow => ?_, fun d c1 c2 n iv s t hc he => ?_⟩
  · have hsite := Site.of_ready hr hs hn hd hu
    refine ⟨fun samples hh hc => ?_, fun p rest e hc hmore hbad => ?_⟩
    · obtain ⟨t, evs, naps, h, hrep, hloop⟩ := pollLoop_cancelled (iv := iv) hsite hh hp hl hc hshow
      have hlt : d.toNat < ({ t with cancels := samples } : State).devs.length := h.site.shaped.lt h.site.dev
      exact ⟨_, evs, exec_latch_err hr hsite hloop h.site.quiet, congrArg (· ++ _) h.results,
        State.setLatch_latch hlt .idle, h.count, hrep, rfl, h.trace, h.frames⟩
    · obtain ⟨t, evs, h, hct, hrep, hloop⟩ := pollLoop_latchBegin (c1 := c1) (c2 := c2) (iv := iv) hsite hc hp hl.le hshow
      obtain ⟨m, hm⟩ : ∃ m, n.toNat - polls.length = m + 1 := ⟨n.toNat - polls.length - 1, by omega⟩
      obtain ⟨u, hend, hcfg, hshaped, hres, hcount, hleft⟩ :=
        pollLoop_bad (c1 := c1) (c2 := c2) (iv := iv) (n := m) h.site hct (hrep.trans hmore) (h.flen ▸ hbad)
      have hquiet := pollLoop_error_quiet h.site.quiet hend
      rw [hm, hend] at hloop
      have hdev : u.HasDev d := by
        unfold State.HasDev
        rw [hcfg]
        exact h.site.dev
      exact ⟨_, exec_latch_err hr hsite hloop hquiet, congrArg (· ++ _) (hres.trans h.results),
        State.setLatch_latch (hshaped.lt hdev) .idle, hcount.trans h.count, hleft⟩
  · intro ht
    rcases exec_results_due he with hnone | ⟨u, hquiet, hsame⟩
    · simp [hnone] at ht
    · exact exec_latch_noCancel (s := { s with resets := [] }) rfl hc hquiet (hsame.symm.trans ht)

end Sys2Proof.Machine
end

section
/-! Reset at any time (spec/70_reset_and_hazards.md R190, R191): between operations it is a step, and inside an operation it
lands after as many of the operation's events as there were moments before it (log 6). -/

namespace Sys2Proof.Machine

/-- The result of an operation whose body reset does not cut short. -/
def resultOf : Except Err Value → HostResult
  | .ok v => .ok v
  | .error e => .err e

/-- What holds of a state at the moment reset is applied inside an operation begun in `s`: `emitted` is in the trace, nothing
is given out, and `rest` is to come after this reset. -/
structure State.Interrupted (s : State) (emitted : List Event) (rest : List Nat) (u : State) : Prop where
  resets : u.resets = 0 :: rest
  cfg : u.cfg = s.cfg
  results : u.results = s.results
  port : u.port = s.port
  trace : u.trace = s.trace ++ emitted

section
variable {i : Instr} {body : Op Value} {s t : State} {r : Except Err Value} {evs : List Event}

/-! ### The end of an operation -/

/-- A body that ends gives its result, unless reset is applied just before. -/
theorem runOp_ending (h : body (s.begin i) = ending r t) :
    runOp i body s = t.settle fun u => u.finish (resultOf r) := by
  rw [runOp_eq, h]
  cases r <;> rfl

/-- A body that reset cuts short ends in reset. -/
theorem runOp_cut (h : body (s.begin i) = .error .reset t) : runOp i body s = t.applyReset := by
  rw [runOp_eq, h]

/-- The moment before the result is a moment at which reset can land. -/
theorem State.settle_due_zero (rest : List Nat) (done : State → State) :
    (s.due 0 rest).settle done = (s.due 0 rest).applyReset := rfl

/-- When that moment passes, reset is due one moment sooner. -/
theorem State.settle_due_succ (k : Nat) (rest : List Nat) (done : State → State) :
    (s.due (k + 1) rest).settle done = done (s.due k rest) := rfl

/-! ### Reset inside an operation -/

/-- The events of a body that counts and, with reset due, where it is cut short or how much earlier reset is due after it. -/
theorem runOp_due (hcounts : body.Counts (s.begin i)) (hn : s.resets = [])
    (htrace : (runOp i body s).trace = s.trace ++ evs) (k : Nat) (rest : List Nat) :
    (k ≤ evs.length → ∃ u, s.Interrupted (evs.take k) rest u ∧ runOp i body (s.due k rest) = u.applyReset) ∧
    (evs.length < k → runOp i body (s.due k rest) = (runOp i body s).due (k - (evs.length + 1)) rest) := by
  obtain ⟨r, t, emitted, hrun, hquiet, htr, hcfg, hres, hport, hdue⟩ := hcounts hn
  obtain ⟨hlate, hcut⟩ := hdue rest
  have hend : runOp i body s = t.finish (resultOf r) := (runOp_ending hrun).trans (t.settle_of_quiet hquiet _)
  obtain rfl : emitted = evs := by
    rw [hend] at htrace
    exact List.append_cancel_left (htr.symm.trans htrace)
  refine ⟨fun hk => ?_, fun hk => ?_⟩
  · rcases hk.lt_or_eq with hlt | rfl
    · obtain ⟨u, hu, hur, huc, hures, hup, hut⟩ := hcut k hlt
      exact ⟨u, ⟨hur, huc, hures, hup, hut⟩, runOp_cut (s := s.due k rest) hu⟩
    · refine ⟨t.due 0 rest, ⟨rfl, hcfg, hres, hport, by rw [List.take_length]; exact htr⟩, ?_⟩
      exact (runOp_ending (s := s.due _ rest) (hlate 0)).trans (State.settle_due_zero rest _)
  · obtain ⟨j, rfl⟩ : ∃ j, k = emitted.length + (j + 1) := ⟨k - (emitted.length + 1), by omega⟩
    rw [hend, show emitted.length + (j + 1) - (emitted.length + 1) = j by omega]
    exact (runOp_ending (s := s.due _ rest) (hlate (j + 1))).trans (State.settle_due_succ j rest _)

/-- The same of every operation that the block accepts. -/
theorem exec_due (hn : s.resets = []) (he : exec i s = .next t) (htrace : t.trace = s.trace ++ evs)
    (k : Nat) (rest : List Nat) :
    (k ≤ evs.length → ∃ u, s.Interrupted (evs.take k) rest u ∧ exec i (s.due k rest) = .next u.applyReset) ∧
    (evs.length < k → exec i (s.due k rest) = .next (t.due (k - (evs.length + 1)) rest)) := by
  obtain ⟨bad, body, hexec, hcounts⟩ := exec_counts i s
  have hquiet : exec i s = accept i bad body s := by
    have h := hexec []
    rwa [← hn] at h
  obtain ⟨hr, rfl, rfl⟩ := accept_next s (hquiet.symm.trans he)
  obtain ⟨hcut, hlate⟩ := runOp_due (hcounts (s.begin i)) hn htrace k rest
  have hrun : exec i (s.due k rest) = .next (runOp i body (s.due k rest)) :=
    (hexec (k :: rest)).trans (accept_good (s.due k rest) hr rfl i body)
  rw [hrun]
  refine ⟨fun hk => ?_, fun hk => congrArg _ (hlate hk)⟩
  obtain ⟨u, hu, hreset⟩ := hcut hk
  exact ⟨u, hu, congrArg _ hreset⟩

end

/-- Settles O59: between operations reset is the first branch of `step`, and inside an operation it lands where `exec_due`
says. -/
theorem resetAbandonsWithoutResult : Obligations.ResetAbandonsWithoutResult := by
  refine ⟨fun s h => if_pos (s.resetNow_iff.2 h), fun i s t0 evs k rest hs he htrace => ?_⟩
  obtain ⟨hcut, hlate⟩ := exec_due (s := { s with resets := [] }) rfl he htrace k rest
  rw [← State.eq_due hs] at hcut hlate
  refine ⟨fun hk => ?_, hlate⟩
  obtain ⟨u, hu, hreset⟩ := hcut hk
  refine ⟨u.applyReset, hreset, ?_, rfl, rfl, congrArg List.tail hu.resets, hu.results, hu.port, hu.cfg, hu.trace⟩
  rw [u.applyReset_devs, hu.cfg]

end Sys2Proof.Machine
end
